-- ==== Sys2Proof/Word.lean ====
section
/-! DEFINITION. The word types of the Nerosh 8400 (R3, R6): bytes, the 32-bit words of the vector registers,
the 64-bit words of the uniform registers, and a 96-bit instruction slot. -/

namespace Sys2Proof

/-- One byte. -/
abbrev Byte := BitVec 8

/-- A 32-bit vector-register word (R6). -/
abbrev W32 := BitVec 32

/-- A 64-bit uniform-register word (R6). -/
abbrev W64 := BitVec 64

/-- One 96-bit instruction slot (R18). -/
abbrev Slot := BitVec 96

end Sys2Proof
end

