-- ==== Sys2Proof/Config.lean ====
section
/-! DEFINITION. What an implementation of the Nerosh 8400 fixes: the free values, which no proof can evaluate, and the
constants of the part that several rules share. Free values are applied to plain counters or to the data they depend
on. -/

namespace Sys2Proof.Config

/-- An undefined value of 64 bits (R10), by the number of the draw. (log 5, DESIGN CHOICE) -/
opaque free64 : Nat → W64

/-- An undefined byte (R10), by the number of the draw and the byte's place in it. (log 5, DESIGN CHOICE) -/
opaque freeByte : Nat → Nat → Byte

/-- Whether an undersized or unordered read returns the new value (R35, R37), by cycle, thread and register.
(log 27, DEDUCED) -/
opaque readsNew : Nat → Nat → Nat → Bool

/-- Whether the earlier of two undersized writes stands (R35), by the number of the earlier result.
(log 27, DEDUCED) -/
opaque earlierStands : Nat → Bool

/-- Whether the operation's value ends in a byte of C that was written meanwhile (R198), by draw and byte address.
(log 5, DESIGN CHOICE) -/
opaque operationWins : Nat → Nat → Bool

/-- Which of the steps that the manual leaves unordered comes next, by the number of the draw.
(log 1, DESIGN CHOICE) -/
opaque order : Nat → Nat

/-- Whether every member of the Canal group with a lower index than a module's has left it by a time (R261): no member is told.
(log 47, DEDUCED) -/
opaque lowerLeft : Nat → Nat → Bool

/-- The entries of the launch unit's post queue beyond the first (R97). (log 26, DESIGN CHOICE) -/
opaque postQueueMore : Nat

/-- The challenge of a management session (R425, R428), by session number. (log 11, DESIGN CHOICE) -/
opaque challenge : Nat → BitVec 512

/-- SHA-512 (R431, R434). (log 11, DESIGN CHOICE) -/
opaque sha512 : List Byte → BitVec 512

/-- Whether a big-endian signature verifies as RSASSA-PSS with the parameters of R431: the digest that names the public
key, the message, the signature. (log 11, DESIGN CHOICE) -/
opaque pssVerify : BitVec 512 → List Byte → List Byte → Bool

/-- The identity key's RSASSA-PSS signature over a message (R434): key number, message. (log 11, DESIGN CHOICE) -/
opaque pssSign : Nat → List Byte → List Byte

/-- The digest of Podric's firmware key, fused at manufacture (R431). (log 11, DESIGN CHOICE) -/
opaque firmwareKey : BitVec 512

/-- The certificate of an identity key, by key number (R434). (log 11, DESIGN CHOICE) -/
opaque certificate : Nat → List Byte

/-- The link-local address of the host port (R423). (log 109, DESIGN CHOICE) -/
opaque linkLocal : BitVec 128

/-- Whether the memory stacks train and test at a bring-up (R435), by the number of the draw. (log 69, DEDUCED) -/
opaque stacksPass : Nat → Bool

/-- Whether a core fails its test at a bring-up (R435), by the number of the draw and core. (log 69, DEDUCED) -/
opaque coreFails : Nat → Nat → Bool

/-- Whether only four lanes of the host port come up (R423), by the number of the draw. (log 69, DEDUCED) -/
opaque fourLanes : Nat → Bool

/-- The memory stacks' physical size in bytes (R1): 8 stacks of 48 GiB. -/
def dramBytes : Nat := 8 * 48 * 2 ^ 30

/-- Cores of the module (R1). -/
def coreCount : Nat := 1024

/-- Ticks of real time in one ns: the least common multiple of 12 to 24, so that a cycle is whole at every clock of
R436. (log 12, DESIGN CHOICE) -/
def ticksPerNs : Nat := 5354228880

/-- Ticks in one cycle at a clock of `clk` times 100 MHz. -/
def ticksPerCycle (clk : Nat) : Nat := 10 * ticksPerNs / clk

end Sys2Proof.Config
end

