-- ==== Sys2Proof/Syntax.lean ====
section
/-! DEFINITION. Abstract syntax: the fields of the six instruction formats (R18 to R27), the objects that reach the
module from outside (packets, Canal frames, the barge, host datagrams), and `Instr`, one constructor for every row of
the opcode table: the 165 instructions of a fetch line, and the 93 further indivisible steps of the part. -/

namespace Sys2Proof

/-- The header fields that every instruction carries beside major and minor (R18). -/
structure Hdr where
  stall : BitVec 4
  gneg  : Bool
  guard : BitVec 3
deriving DecidableEq, Repr

/-- Format V (R22). Bit 8 of `d`, `a`, `b`, `c` is the operand's bit of the x field. -/
structure FmtV where
  minor : BitVec 8
  d : BitVec 9
  a : BitVec 9
  b : BitVec 9
  c : BitVec 9
  bk : BitVec 2
  qd : BitVec 3
  aux : BitVec 15
  imm16 : BitVec 16
deriving DecidableEq, Repr

/-- Format I (R23). Bit 8 of `d` is dx and bit 8 of `a` is ax. -/
structure FmtI where
  minor : BitVec 8
  d : BitVec 9
  a : BitVec 9
  qd : BitVec 3
  aux : BitVec 19
  imm32 : BitVec 32
deriving DecidableEq, Repr

/-- Format M (R24). Bit 8 of `d` is dx and bit 8 of `base` is bx. -/
structure FmtM where
  minor : BitVec 8
  d : BitVec 9
  base : BitVec 9
  bk : Bool
  qd : BitVec 3
  aux : BitVec 18
  off : BitVec 32
deriving DecidableEq, Repr

/-- Format B (R25). Bit 8 of `l` is lx and bit 8 of `a` is ax. -/
structure FmtB where
  minor : BitVec 8
  l : BitVec 9
  a : BitVec 9
  aux : BitVec 14
  disp : BitVec 40
deriving DecidableEq, Repr

/-- Format E (R26). Bit 8 of `d`, `a`, `b`, `c` is the operand's bit of the x field. -/
structure FmtE where
  minor : BitVec 8
  d : BitVec 9
  a : BitVec 9
  b : BitVec 9
  c : BitVec 9
  cmd : BitVec 12
  weir : BitVec 8
  imm16 : BitVec 16
deriving DecidableEq, Repr

/-- Format S (R27). Bit 8 of `d` is dx and bit 8 of `a` is ax. -/
structure FmtS where
  minor : BitVec 8
  d : BitVec 9
  a : BitVec 9
  dk : Bool
  sr : BitVec 12
  aux : BitVec 9
  imm32 : BitVec 32
deriving DecidableEq, Repr

/-- The scopes of R7, in code order. -/
inductive Scope where
  | thread | warp | block | cluster | die | device | system | canal
deriving DecidableEq, Repr

/-- The operand types of R53, in code order. -/
inductive Ty where
  | i8 | i16 | i32 | i64 | n8 | n16 | n32 | n64
  | f16 | bf16 | f32 | f64 | e4m3 | e5m2 | bf16x2 | f16x2
deriving DecidableEq, Repr

/-- The condition codes 0 to 7 of R54. -/
inductive Cond where
  | eq | ne | lt | le | gt | ge | ord | uno
deriving DecidableEq, Repr

/-- What a link's peer answers to a flit: the link, the flit's place among those that the transmitter keeps, and the CRC that
the peer received with it (R253). -/
structure FlitCheck where
  link : Nat
  flit : Nat
  crc : BitVec 32
  data : Option (List Byte) := none
deriving DecidableEq, Repr

/-- A memory region that the host has registered for RDMA (R429): its key, the address space, and the range of addresses. -/
structure Region where
  key : Nat
  asid : Nat
  base : Nat
  size : Nat
deriving DecidableEq, Repr

/-- What an RDMA request names (R429): the queue pair and the region's key; and the region, where the host has registered it since
the last request. R429 has that done through NHP, and R427 gives no command for it. (log 109, DESIGN CHOICE) -/
structure RoceReq where
  qp : Nat
  key : Nat
  fresh : Option Region
deriving DecidableEq, Repr

/-- What reaches the host port besides commands and RDMA requests (R423, R424): a frame by its length, IP version, destination, UDP port
and ECN mark; the bytes of a datagram to the port of the host protocol; a pause of a priority class, or its end; or a global address
that the management session assigns. (log 109, DESIGN CHOICE) -/
inductive HostFrame where
  | datagram (len : Nat) (ip6 : Bool) (dst : BitVec 128) (port : Nat) (marked : Bool)
  | nhp (bytes : List Byte)
  | pause (cls : Nat) (on : Bool)
  | assign (addr : BitVec 128)
deriving DecidableEq, Repr

/-- What the module's protection reads (R436): the temperatures of the dies in degrees Celsius, the power in watts, and the cap that
the management session has set since the last reading. (log 109, DESIGN CHOICE) -/
structure Thermal where
  temps : List Nat
  power : Nat
  cap : Option Nat
deriving DecidableEq, Repr

/-- A backwater flit that arrives: the link and the peer that it names (R257). -/
structure BackwaterFlit where
  link : Nat
  peer : BitVec 64
deriving DecidableEq, Repr

/-- A fabric packet: the header of R248, with its class bit and its reserved bits (byte 1 [7:4], byte 2 [7:3]), and its
payload bytes. -/
structure Packet where
  op : Nat
  cls : Bool := false
  resv1 : Nat := 0
  resv2 : Nat := 0
  hop : Nat
  lnd : Bool
  err : Bool
  cn : Bool
  tree : Bool
  ctx : Nat
  asid : Nat
  lows : BitVec 64
  highs : BitVec 64
  addr : BitVec 64
  src : BitVec 64
  core : Nat
  cnt : Nat
  len : Nat
  tag : Nat
  opd0 : BitVec 64
  opd1 : BitVec 64
  pay : List Byte
deriving DecidableEq, Repr

/-- A Canal frame as it leaves the splitter (R259): the fields of its header, and its payload. -/
structure Frame where
  group : Nat
  sender : Nat
  resv : Nat
  kind : Nat
  seq : Nat
  len : Nat
  crc : BitVec 32
  pay : List Byte
deriving DecidableEq, Repr

/-- The barge (R258): group identifier, next sequence number and the retransmit request field. -/
structure Barge where
  group : Nat
  seq : Nat
  retrans : BitVec 64
deriving DecidableEq, Repr

/-- A Nerosh Host Protocol datagram (R424), less the op, which selects the constructor of `Instr`. -/
structure Cmd where
  major : Nat
  minor : Nat
  flags : Nat
  session : Nat
  seq : Nat
  status : Nat
  resv : Nat
  pay : List Byte
deriving DecidableEq, Repr

/-- What a peer offers when a link or the Canal port trains (R264), the version of its leat step set, with its
capability bitmap (R336), and what training measures (R251, R252). -/
structure Offer where
  hiMajor : Nat
  hiMinor : Nat
  loMajor : Nat
  caps : BitVec 32
  lanes : List Nat
  roundTripNs : Nat
  steps : Nat × Nat × BitVec 32 := (1, 0, 0)
deriving DecidableEq, Repr

/-- The requests of the board-management interface (R437). -/
inductive BoardReq where
  | readTemps | readPower | readClock | readStep | readDisabled | resetRequest
  | writeOperatorDigest (d : BitVec 512)
deriving DecidableEq, Repr

/-- Every row of the opcode table. The first group are the steps that no instruction word names: they carry the
choice that the step leaves open (which core, which pending item) or the object that arrives from outside. The second
group are the instructions of a slot, each with its header and the fields of its format. -/
inductive Instr where
  | issueCycle (core : Nat)
  | lineFetchComplete (core : Nat) (flip : BitVec 512)
  | fixedResultLanding (core : Nat)
  | deferredResultLanding (core id : Nat)
  | handlerEntry (core warp lane : Nat)
  | threadEnd (core warp lane : Nat)
  | blockEnd (core slot : Nat)
  | weirDeferredIncrement (core k : Nat)
  | clusterWritePerform (id : Nat)
  | remoteAccessServe (id : Nat)
  | homeSliceAccess (id : Nat)
  | matrixOpStart (core : Nat)
  | matrixOpComplete (core : Nat)
  | mopfStaged (core warp : Nat)
  | jigSweepChunk (core warp : Nat)
  | sluiceRequestStart (core : Nat)
  | sluiceChunkLanded (core handle chunk : Nat)
  | fabricPacketArrival (p : Option Packet)
  | fabricCompletionArrival (p : Option Packet)
  | fwaitTimeout (core wait : Nat)
  | flitCrcReplay (check : FlitCheck)
  | laneFailureRetrain (link lane : Nat)
  | linkTraining (link : Nat) (o : Offer)
  | vcStopGo (link : Nat) (mask : BitVec 16)
  | backwaterFlit (flit : BackwaterFlit)
  | backwaterLapse (peer : BitVec 64)
  | bargeArrival (b : Barge)
  | canalFrameApply (f : Frame)
  | canalReleaseEligible (k : Nat)
  | canalWaitTimeout (core wait : Nat)
  | leatStep (die : Nat)
  | leatMessageArrival (p : Option Packet)
  | leatGoNotice (p : Option Packet)
  | leatWaitTimeout (core wait : Nat)
  | taskWaveForm (core : Nat)
  | cisternRefill (core : Nat)
  | veneerFold (id : Nat)
  | gridsyncStart (handle : Nat) (ok : Bool)
  | launchRetire (handle : Nat)
  | warpEvict (core : Nat)
  | warpRestore (core warp : Nat)
  | watchdogExpiry (core wait : Nat)
  | savePoint (asid : Nat)
  | saveComplete (asid : Nat)
  | restoreStart (asid : Nat)
  | shardDeadlineExpiry (shard : Nat)
  | sessionIdleTimeout (session : Nat)
  | roceWrite (req : RoceReq) (va : BitVec 64) (bytes : List Byte)
  | roceRead (req : RoceReq) (va : BitVec 64) (len : Nat)
  | thermalThrottle (reading : Thermal)
  | boardMgmtRequest (r : BoardReq)
  | sessionOpen (c : Cmd)
  | sessionClose (c : Cmd)
  | sessionProof (c : Cmd)
  | postLaunch (c : Cmd)
  | readRecordStatus (c : Cmd)
  | resumeBrkThread (c : Cmd)
  | gridContextLoad (c : Cmd)
  | gridContextCommit (c : Cmd)
  | canalGroupConfigure (c : Cmd)
  | asidConfigure (c : Cmd)
  | savePoolConfigure (c : Cmd)
  | tenantGrant (c : Cmd)
  | bindingLoad (c : Cmd)
  | shardLoad (c : Cmd)
  | switchPrepare (c : Cmd)
  | switchRequest (c : Cmd)
  | readShardReady (c : Cmd)
  | save (c : Cmd)
  | restore (c : Cmd)
  | reset (c : Cmd)
  | inval (c : Cmd)
  | ringOpen (c : Cmd)
  | ringClose (c : Cmd)
  | ringHeadUpdate (c : Cmd)
  | attestationRequest (c : Cmd)
  | firmwareUpdate (c : Cmd)
  | readCounters (c : Cmd)
  | sadd (h : Hdr) (f : FmtV)
  | ssub (h : Hdr) (f : FmtV)
  | smul (h : Hdr) (f : FmtV)
  | smulh (h : Hdr) (f : FmtV)
  | sdiv (h : Hdr) (f : FmtV)
  | srem (h : Hdr) (f : FmtV)
  | sand (h : Hdr) (f : FmtV)
  | sor (h : Hdr) (f : FmtV)
  | sxor (h : Hdr) (f : FmtV)
  | sshl (h : Hdr) (f : FmtV)
  | sshr (h : Hdr) (f : FmtV)
  | ssra (h : Hdr) (f : FmtV)
  | smin (h : Hdr) (f : FmtV)
  | smax (h : Hdr) (f : FmtV)
  | sli (h : Hdr) (f : FmtI)
  | slih (h : Hdr) (f : FmtI)
  | smov (h : Hdr) (f : FmtV)
  | scmp (h : Hdr) (f : FmtV)
  | ssel (h : Hdr) (f : FmtV)
  | sld (h : Hdr) (f : FmtM)
  | sst (h : Hdr) (f : FmtM)
  | nop (h : Hdr) (f : FmtV)
  | bra (h : Hdr) (f : FmtB)
  | brc (h : Hdr) (f : FmtB)
  | call (h : Hdr) (f : FmtB)
  | ret (h : Hdr) (f : FmtB)
  | jmpi (h : Hdr) (f : FmtB)
  | wsync (h : Hdr) (f : FmtI)
  | exit (h : Hdr) (f : FmtS)
  | yield (h : Hdr) (f : FmtS)
  | elect (h : Hdr) (f : FmtV)
  | trap (h : Hdr) (f : FmtS)
  | tret (h : Hdr) (f : FmtS)
  | mfsr (h : Hdr) (f : FmtS)
  | mtsr (h : Hdr) (f : FmtS)
  | lnch (h : Hdr) (f : FmtS)
  | evnt (h : Hdr) (f : FmtS)
  | brk (h : Hdr) (f : FmtS)
  | vadd (h : Hdr) (f : FmtV)
  | vsub (h : Hdr) (f : FmtV)
  | vmulLo (h : Hdr) (f : FmtV)
  | vmulHi (h : Hdr) (f : FmtV)
  | vmad (h : Hdr) (f : FmtV)
  | vand (h : Hdr) (f : FmtV)
  | vor (h : Hdr) (f : FmtV)
  | vxor (h : Hdr) (f : FmtV)
  | vnot (h : Hdr) (f : FmtV)
  | vshl (h : Hdr) (f : FmtV)
  | vshr (h : Hdr) (f : FmtV)
  | vsra (h : Hdr) (f : FmtV)
  | vmin (h : Hdr) (f : FmtV)
  | vmax (h : Hdr) (f : FmtV)
  | vabs (h : Hdr) (f : FmtV)
  | vneg (h : Hdr) (f : FmtV)
  | vpopc (h : Hdr) (f : FmtV)
  | vclz (h : Hdr) (f : FmtV)
  | vbrev (h : Hdr) (f : FmtV)
  | vbfe (h : Hdr) (f : FmtV)
  | vbfi (h : Hdr) (f : FmtV)
  | vsel (h : Hdr) (f : FmtV)
  | vmov (h : Hdr) (f : FmtV)
  | vli (h : Hdr) (f : FmtI)
  | vcmp (h : Hdr) (f : FmtV)
  | vfadd (h : Hdr) (f : FmtV)
  | vfsub (h : Hdr) (f : FmtV)
  | vfmul (h : Hdr) (f : FmtV)
  | vffma (h : Hdr) (f : FmtV)
  | vfmin (h : Hdr) (f : FmtV)
  | vfmax (h : Hdr) (f : FmtV)
  | vfabs (h : Hdr) (f : FmtV)
  | vfneg (h : Hdr) (f : FmtV)
  | vfcmp (h : Hdr) (f : FmtV)
  | vdadd (h : Hdr) (f : FmtV)
  | vdmul (h : Hdr) (f : FmtV)
  | vdffma (h : Hdr) (f : FmtV)
  | vcvt (h : Hdr) (f : FmtV)
  | vpack (h : Hdr) (f : FmtV)
  | vunpk (h : Hdr) (f : FmtV)
  | vhfmaBf16x2 (h : Hdr) (f : FmtV)
  | vhfmaF16x2 (h : Hdr) (f : FmtV)
  | vrcp (h : Hdr) (f : FmtV)
  | vrsq (h : Hdr) (f : FmtV)
  | vsqrt (h : Hdr) (f : FmtV)
  | vdiv (h : Hdr) (f : FmtV)
  | vexp2 (h : Hdr) (f : FmtV)
  | vlog2 (h : Hdr) (f : FmtV)
  | vsin (h : Hdr) (f : FmtV)
  | vcos (h : Hdr) (f : FmtV)
  | vshflIdx (h : Hdr) (f : FmtV)
  | vshflUp (h : Hdr) (f : FmtV)
  | vshflDown (h : Hdr) (f : FmtV)
  | vshflXor (h : Hdr) (f : FmtV)
  | vbcast (h : Hdr) (f : FmtV)
  | vred (h : Hdr) (f : FmtV)
  | vscan (h : Hdr) (f : FmtV)
  | vballot (h : Hdr) (f : FmtV)
  | vany (h : Hdr) (f : FmtV)
  | vall (h : Hdr) (f : FmtV)
  | vld (h : Hdr) (f : FmtM)
  | vst (h : Hdr) (f : FmtM)
  | vstCw (h : Hdr) (f : FmtM)
  | vldt (h : Hdr) (f : FmtM)
  | vldc (h : Hdr) (f : FmtM)
  | vatom (h : Hdr) (f : FmtM)
  | mma (h : Hdr) (f : FmtE)
  | mopf (h : Hdr) (f : FmtE)
  | mwait (h : Hdr) (f : FmtE)
  | mzero (h : Hdr) (f : FmtE)
  | mrd (h : Hdr) (f : FmtM)
  | mwr (h : Hdr) (f : FmtM)
  | mld (h : Hdr) (f : FmtE)
  | mst (h : Hdr) (f : FmtE)
  | jigSet (h : Hdr) (f : FmtE)
  | jigSetSv (h : Hdr) (f : FmtE)
  | jigSetClr (h : Hdr) (f : FmtE)
  | jop (h : Hdr) (f : FmtE)
  | gcvtTo (h : Hdr) (f : FmtV)
  | gcvtFrom (h : Hdr) (f : FmtV)
  | gpack (h : Hdr) (f : FmtV)
  | gunpk (h : Hdr) (f : FmtV)
  | slA (h : Hdr) (f : FmtE)
  | slB (h : Hdr) (f : FmtE)
  | slC (h : Hdr) (f : FmtE)
  | slD (h : Hdr) (f : FmtE)
  | slGo (h : Hdr) (f : FmtE)
  | slArm (h : Hdr) (f : FmtE)
  | slSt (h : Hdr) (f : FmtE)
  | slKill (h : Hdr) (f : FmtE)
  | fst (h : Hdr) (f : FmtE)
  | fld (h : Hdr) (f : FmtE)
  | fatom (h : Hdr) (f : FmtE)
  | fred (h : Hdr) (f : FmtE)
  | fcopy (h : Hdr) (f : FmtE)
  | fwait (h : Hdr) (f : FmtE)
  | fcnt (h : Hdr) (f : FmtE)
  | fcrd (h : Hdr) (f : FmtE)
  | fcrdClr (h : Hdr) (f : FmtE)
  | cnlPost (h : Hdr) (f : FmtE)
  | cnlWt (h : Hdr) (f : FmtE)
  | cnlRel (h : Hdr) (f : FmtE)
  | ltRun (h : Hdr) (f : FmtE)
  | ltRunCn (h : Hdr) (f : FmtE)
  | ltWt (h : Hdr) (f : FmtE)
  | ltSt (h : Hdr) (f : FmtE)
  | weirSet (h : Hdr) (f : FmtE)
  | weirArv (h : Hdr) (f : FmtE)
  | weirWt (h : Hdr) (f : FmtE)
  | weirAw (h : Hdr) (f : FmtE)
  | weirTst (h : Hdr) (f : FmtE)
  | wfa (h : Hdr) (f : FmtM)
  | atom (h : Hdr) (f : FmtM)
  | fence (h : Hdr) (f : FmtS)
  | ldAcq (h : Hdr) (f : FmtM)
  | stRel (h : Hdr) (f : FmtM)
  | spn (h : Hdr) (f : FmtE)
  | jwait (h : Hdr) (f : FmtE)
  | dove (h : Hdr) (f : FmtE)
  | vnrUpd (h : Hdr) (f : FmtV)
  | vnrGet (h : Hdr) (f : FmtV)
  | stlReq (h : Hdr) (f : FmtE)
  | cutNext (h : Hdr) (f : FmtE)
  | flmCfg (h : Hdr) (f : FmtE)
  | flmPush (h : Hdr) (f : FmtE)
  | flmPop (h : Hdr) (f : FmtE)
  | flmTry (h : Hdr) (f : FmtE)
  | unknownCommand (op : Nat) (c : Cmd)
  | unusedTrafficDiscard (frame : HostFrame)
  | translationWalkComplete
  | backwaterRepeat
  | bargeRegenerate
  | canalMemberLeave
  | canalGroupForm
  | launchPost
  | launchAdmission
  | blockPlacement
  | pondRelease
  | eventRingDrain
  | thermalTrip
  | moduleReset
  | roceInvalidRequest
deriving DecidableEq, Repr

end Sys2Proof
end

