-- ==== Sys2Proof/WellFormed.lean ====
section
/-! DEFINITION. Which instructions are legal whatever the launch: the field rules of R22 to R27, the minor tags of R55
and the field tables of every entry. What depends on the launch (register counts, warp width, gauges) is checked at
issue. -/

namespace Sys2Proof

/-- How an entry uses a register field. -/
inductive Use where
  | no | vec | uni
deriving DecidableEq, Repr

/-- An unused field is zero, and a vector index has no bit 8 (R22 to R27). -/
def Use.ok : Use → BitVec 9 → Bool
  | .no, r => r == 0
  | .vec, r => decide (r.toNat < 256)
  | .uni, _ => true

/-- The kinds of operand b an entry accepts (R22). -/
inductive BUse where
  | none     -- bk = 00, b = 0
  | reg      -- 00
  | regUni   -- 00 or 01
  | regImm   -- 00 or 10 (the uniform class)
  | any      -- 00, 01 or 10
  | uniImm   -- 01 or 10
deriving DecidableEq, Repr

/-- bk is one the entry accepts. -/
def BUse.bk : BUse → Nat → Bool
  | .none, k => k == 0
  | .reg, k => k == 0
  | .regUni, k => k == 0 || k == 1
  | .regImm, k => k == 0 || k == 2
  | .any, k => k == 0 || k == 1 || k == 2
  | .uniImm, k => k == 1 || k == 2

/-- The common checks of format V (R22). `own` is the file that bk = 00 names. -/
def FmtV.ok (f : FmtV) (d a c : Use) (own : Use) (b : BUse) (qd : Bool) (aux : Nat → Bool) : Bool :=
  d.ok f.d && a.ok f.a && c.ok f.c && b.bk f.bk.toNat &&
  (match f.bk.toNat with
    | 0 => if b = .none then f.b == 0 else own.ok f.b
    | 1 => true
    | _ => f.b == 0) &&
  (f.bk == 2 || f.imm16 == 0) && (qd || f.qd == 0) && aux f.aux.toNat

/-- aux is zero. -/
def auxZero (n : Nat) : Bool := n == 0

/-- Minor tag t (R55): the type code, with the high nibble zero. -/
def tagT (m : BitVec 8) (tys : List Nat) : Bool := m.toNat / 16 == 0 && tys.contains (m.toNat % 16)

/-- Minor tag ct (R55). -/
def tagCT (m : BitVec 8) (conds : Nat) (tys : List Nat) : Bool :=
  decide (m.toNat / 16 < conds) && tys.contains (m.toNat % 16)

/-- The integer type codes (R53). -/
def intTys : List Nat := [0, 1, 2, 3, 4, 5, 6, 7]

/-- The type's width in bits (R53). -/
def tyWidth : Nat → Nat
  | 0 => 8 | 4 => 8 | 12 => 8 | 13 => 8
  | 1 => 16 | 5 => 16 | 8 => 16 | 9 => 16
  | 3 => 64 | 7 => 64 | 11 => 64
  | _ => 32

/-- A vector register that holds a 64-bit value is even (R100). -/
def pairOk (code : Nat) (r : BitVec 9) : Bool := tyWidth code != 64 || r.toNat % 2 == 0

/-- A two-source uniform operation (R67). -/
def wfU (f : FmtV) : Bool := tagT f.minor intTys && f.ok .uni .uni .no .uni .regImm false auxZero

/-- A vector integer operation with sources a and b, in bits of the type's width (R102). -/
def wfVI (f : FmtV) : Bool :=
  let t := f.minor.toNat % 16
  tagT f.minor intTys && f.ok .vec .vec .no .vec .any false auxZero &&
  pairOk t f.d && pairOk t f.a && (f.bk != 0 || pairOk t f.b)

/-- A vector integer operation with the one source a (R102). -/
def wfV1 (f : FmtV) (tys : List Nat) : Bool :=
  let t := f.minor.toNat % 16
  tagT f.minor tys && f.ok .vec .vec .no .vec .none false auxZero && pairOk t f.d && pairOk t f.a

/-- pos and len of `vbfe` and `vbfi` (R102). -/
def wfPosLen (t aux : Nat) : Bool :=
  let pos := aux % 64; let len := aux / 64 % 128
  len != 0 && decide (pos + len ≤ tyWidth t) && decide (aux < 8192)

/-- A binary32 operation with sources a and b (R105). -/
def wfF2 (f : FmtV) : Bool := f.minor == 0 && f.ok .vec .vec .no .vec .regUni false auxZero

/-- A binary32 operation with the one source a (R105, R111). -/
def wfF1 (f : FmtV) : Bool := f.minor == 0 && f.ok .vec .vec .no .vec .none false auxZero

/-- A three-source operation in packed or single registers (R105). -/
def wfF3 (f : FmtV) : Bool := f.minor == 0 && f.ok .vec .vec .vec .vec .regUni false auxZero

/-- A shuffle (R114). -/
def wfShfl (f : FmtV) (b : BUse) : Bool := f.minor == 0 && f.ok .vec .vec .no .vec b true auxZero

/-- Types that `vred` and `vscan` list for an operation (R115). -/
def redTys : Nat → List Nat
  | 0 => [2, 6, 10] | 1 => [2, 6, 10] | 2 => [2, 6, 10] | 3 => [2, 6, 10] | 4 => [2, 6, 10]
  | 5 => [2, 6] | 6 => [2, 6] | 7 => [2, 6]
  | _ => []

/-- Types that the atomics of R126 and R226 list for an operation. -/
def atomTys : Nat → List Nat
  | 0 => [2, 6, 3, 7, 10] | 1 => [2, 6, 3, 7] | 2 => [2, 6, 3, 7]
  | 3 => [6, 7] | 4 => [6, 7] | 5 => [6, 7] | 6 => [6, 7] | 7 => [6, 7]
  | _ => []

/-- The common checks of format M (R24). `base` says which base kinds the entry accepts: vector, uniform. -/
def FmtM.ok (f : FmtM) (d : Use) (baseV baseU : Bool) (qd : Bool) : Bool :=
  d.ok f.d && (if f.bk then baseU else baseV && decide (f.base.toNat < 256)) && (qd || f.qd == 0)

/-- Element type, count and window of a scratchpad access (R120), and the alignment of d. -/
def wfElems (aux : Nat) (window : Bool) (d : BitVec 9) : Bool :=
  let t := aux % 16; let k := aux / 16 % 4
  decide (t < 8) && (k == 0 || (k == 1 && decide (32 ≤ tyWidth t)) || (k == 2 && tyWidth t == 32)) &&
  (aux / 64 % 2 == (if window then 1 else 0)) && aux / 128 == 0 &&
  d.toNat % (max 1 (tyWidth t / 8 * 2 ^ k / 4)) == 0

/-- The data registers of an atomic: a `cas` takes two values, `.x2` doubles the size (R126, R269). -/
def wfAtomD (op t : Nat) (x2 : Bool) (d : BitVec 9) : Bool :=
  let w := (tyWidth t / 32) * (if x2 then 2 else 1)
  d.toNat % (if op == 7 then 2 * w else w) == 0

/-- The common checks of format E (R26): every register is uniform. -/
def FmtE.ok (f : FmtE) (d a b c : Bool) (cmd : Nat → Bool) (weir imm : Bool) : Bool :=
  (d || f.d == 0) && (a || f.a == 0) && (b || f.b == 0) && (c || f.c == 0) && cmd f.cmd.toNat &&
  (weir || f.weir == 0) && (imm || f.imm16 == 0)

/-- A cmd that must be zero. -/
def cmd0 (n : Nat) : Bool := n == 0

/-- The common checks of format S (R27). -/
def FmtS.ok (f : FmtS) (d a : Use) (dk : Bool → Bool) (sr aux : Bool) (imm : Nat → Bool) : Bool :=
  d.ok f.d && a.ok f.a && dk f.dk && (sr || f.sr == 0) && (aux || f.aux == 0) && imm f.imm32.toNat

/-- Every field of format S but the header is zero. -/
def FmtS.zero (f : FmtS) : Bool :=
  f.ok .no .no (fun b => !b) false false (fun n => n == 0)

/-- Minor tag sc (R55) with the scopes lo to hi. -/
def tagSc (m : BitVec 8) (lo hi : Nat) : Bool := decide (lo ≤ m.toNat) && decide (m.toNat ≤ hi)

/-- The scope code in minor bits [2:0] (R20). -/
def minorScope (m : BitVec 8) : Nat := m.toNat % 8

/-- The function in minor bits [7:3], for tags os and g (R55). -/
def minorFn (m : BitVec 8) : Nat := m.toNat / 8

/-- The 32-bit special registers that may be read with dk = 0 and dk = 1 (R52). -/
def srRead (sr : Nat) (dk : Bool) (aux : Nat) : Bool :=
  if sr == 0 then !dk && aux == 0
  else if sr == 1 || sr == 2 || sr == 3 || sr == 4 then aux == 0
  else if 8 ≤ sr && sr ≤ 15 then !dk && aux == 0
  else if 16 ≤ sr && sr ≤ 20 then aux == 0
  else if sr == 0x20 || sr == 0x22 then !dk && aux == 0
  else if sr == 0x21 then !dk && decide (aux ≤ 1)
  else if sr == 0x30 || sr == 0x40 then (if dk then aux == 0 else decide (aux ≤ 1))
  else false

/-- The special registers that may be written (R52). -/
def srWrite (sr : Nat) (aux : Nat) : Bool :=
  if sr == 0x20 then aux == 0 else if sr == 0x21 then decide (aux ≤ 1) else false

/-- The minor bytes that `vnr.upd` admits (R354). -/
def vnrMinors : List Nat := [0x02, 0x0A, 0x12, 0x16, 0x1A, 0x22, 0x26, 0x2A, 0x56, 0x66]

/-- Legality of every instruction of a slot, and of the steps that carry no word (always true). -/
def Instr.wf : Instr → Bool
  | .sadd _ f => wfU f | .ssub _ f => wfU f | .smul _ f => wfU f | .smulh _ f => wfU f | .sdiv _ f => wfU f
  | .srem _ f => wfU f | .sand _ f => wfU f | .sor _ f => wfU f | .sxor _ f => wfU f | .sshl _ f => wfU f
  | .sshr _ f => wfU f | .ssra _ f => wfU f | .smin _ f => wfU f | .smax _ f => wfU f
  | .sli _ f => tagT f.minor [2, 6] && f.a == 0 && f.qd == 0 && f.aux == 0
  | .slih _ f => f.minor == 0 && f.a == 0 && f.qd == 0 && f.aux == 0
  | .smov _ f => f.minor == 0 && f.ok .uni .uni .no .uni .none false auxZero
  | .scmp _ f => tagCT f.minor 6 intTys && f.ok .uni .uni .no .uni .regImm true auxZero
  | .ssel _ f => f.minor == 0 && f.ok .uni .uni .uni .uni .regImm false auxZero
  | .sld _ f => tagT f.minor intTys && f.ok .uni false true false && f.aux == 0
  | .sst _ f => tagT f.minor intTys && f.ok .uni false true false && f.aux == 0
  | .nop _ f => f.minor == 0 && f.ok .no .no .no .no .none false auxZero
  | .bra _ f => f.minor == 0 && f.l == 0 && f.a == 0 && f.aux == 0
  | .brc _ f => tagCT f.minor 6 [2, 6] && f.l == 0 && Use.vec.ok f.a && f.aux == 0
  | .call _ f => f.minor == 0 && Use.vec.ok f.l && f.l.toNat % 2 == 0 && f.a == 0 && f.aux == 0
  | .ret _ f => f.minor == 0 && f.l == 0 && Use.vec.ok f.a && f.a.toNat % 2 == 0 && f.aux == 0 && f.disp == 0
  | .jmpi _ f => f.minor == 0 && f.l == 0 && Use.vec.ok f.a && f.a.toNat % 2 == 0 && f.aux == 0
  | .wsync _ f => f.minor == 0 && f.d == 0 && f.qd == 0 &&
      (if f.aux == 0 then f.a == 0 else f.aux == 1 && f.imm32 == 0)
  | .exit _ f => f.minor == 0 && f.zero
  | .yield _ f => f.minor == 0 && f.zero
  | .elect _ f => f.minor == 0 && f.ok .vec .no .no .no .none true (fun n => decide (n ≤ 1))
  | .trap _ f => f.minor == 0 && f.ok .no .no (fun b => !b) false false (fun n => decide (n ≤ 0xFFFF))
  | .tret _ f => f.minor == 0 && f.zero
  | .mfsr _ f => f.minor == 0 && (if f.dk then Use.uni else Use.vec).ok f.d && f.a == 0 && f.imm32 == 0 &&
      srRead f.sr.toNat f.dk f.aux.toNat
  | .mtsr _ f => f.minor == 0 && f.d == 0 && Use.vec.ok f.a && !f.dk && f.imm32 == 0 && srWrite f.sr.toNat f.aux.toNat
  | .lnch _ f => f.minor == 0 && f.ok .no .uni (fun b => b) false false (fun n => n == 0)
  | .evnt _ f => f.minor == 0 && f.ok .no .uni (fun b => b) false false (fun n => decide (n ≤ 0xFFFFFF))
  | .brk _ f => f.minor == 0 && f.ok .no .no (fun b => !b) false false (fun n => decide (n ≤ 0xFFFF))
  | .vadd _ f => wfVI f | .vsub _ f => wfVI f | .vmulLo _ f => wfVI f | .vmulHi _ f => wfVI f
  | .vmad _ f => let t := f.minor.toNat % 16
      tagT f.minor intTys && f.ok .vec .vec .vec .vec .any false auxZero &&
      pairOk t f.d && pairOk t f.a && pairOk t f.c && (f.bk != 0 || pairOk t f.b)
  | .vand _ f => wfVI f | .vor _ f => wfVI f | .vxor _ f => wfVI f
  | .vnot _ f => wfV1 f intTys
  | .vshl _ f => wfVI f | .vshr _ f => wfVI f | .vsra _ f => wfVI f | .vmin _ f => wfVI f | .vmax _ f => wfVI f
  | .vabs _ f => wfV1 f [0, 1, 2, 3]
  | .vneg _ f => wfV1 f intTys | .vpopc _ f => wfV1 f intTys | .vclz _ f => wfV1 f intTys
  | .vbrev _ f => wfV1 f intTys
  | .vbfe _ f => let t := f.minor.toNat % 16
      tagT f.minor intTys && f.ok .vec .vec .no .vec .none false (wfPosLen t) && pairOk t f.d && pairOk t f.a
  | .vbfi _ f => let t := f.minor.toNat % 16
      tagT f.minor intTys && f.ok .vec .vec .no .vec .regUni false (wfPosLen t) &&
      pairOk t f.d && pairOk t f.a && (f.bk != 0 || pairOk t f.b)
  | .vsel _ f => let t := f.minor.toNat % 16
      tagT f.minor intTys && f.ok .vec .vec .no .vec .any false (fun n => decide (n < 16)) &&
      pairOk t f.d && pairOk t f.a && (f.bk != 0 || pairOk t f.b)
  | .vmov _ f => let t := f.minor.toNat % 16
      tagT f.minor intTys && f.ok .vec .no .no .vec .any false auxZero && pairOk t f.d && (f.bk != 0 || pairOk t f.b)
  | .vli _ f => tagT f.minor [2, 6, 10, 14, 15] && Use.vec.ok f.d && f.a == 0 && f.qd == 0 && f.aux == 0
  | .vcmp _ f => let t := f.minor.toNat % 16
      tagCT f.minor 6 intTys && f.ok (if f.aux == 1 then .vec else .no) .vec .no .vec .any true
        (fun n => decide (n ≤ 1)) && pairOk t f.a && (f.bk != 0 || pairOk t f.b)
  | .vfadd _ f => wfF2 f | .vfsub _ f => wfF2 f | .vfmul _ f => wfF2 f
  | .vffma _ f => wfF3 f
  | .vfmin _ f => wfF2 f | .vfmax _ f => wfF2 f
  | .vfabs _ f => wfF1 f | .vfneg _ f => wfF1 f
  | .vfcmp _ f => tagCT f.minor 8 [10] && f.ok (if f.aux == 1 then .vec else .no) .vec .no .vec .regUni true
      (fun n => decide (n ≤ 1))
  | .vdadd _ f => wfF2 f && pairOk 11 f.d && pairOk 11 f.a && (f.bk != 0 || pairOk 11 f.b)
  | .vdmul _ f => wfF2 f && pairOk 11 f.d && pairOk 11 f.a && (f.bk != 0 || pairOk 11 f.b)
  | .vdffma _ f => wfF3 f && pairOk 11 f.d && pairOk 11 f.a && pairOk 11 f.c && (f.bk != 0 || pairOk 11 f.b)
  | .vcvt _ f => let s := f.minor.toNat / 16; let t := f.minor.toNat % 16
      decide (s < 14) && decide (t < 14) && s != t && f.ok .vec .vec .no .vec .none false auxZero &&
      pairOk t f.d && pairOk s f.a
  | .vpack _ f => let s := f.minor.toNat / 16; let t := f.minor.toNat % 16
      s == 10 && [14, 15, 12, 13].contains t &&
      f.ok .vec .vec .no .vec .regUni false (fun n => if t == 14 || t == 15 then n == 0 else decide (n ≤ 1))
  | .vunpk _ f => let s := f.minor.toNat / 16; let t := f.minor.toNat % 16
      t == 10 && [14, 15, 12, 13].contains s &&
      f.ok .vec .vec .no .vec .none false (fun n => decide (n < (if s == 14 || s == 15 then 2 else 4)))
  | .vhfmaBf16x2 _ f => wfF3 f | .vhfmaF16x2 _ f => wfF3 f
  | .vrcp _ f => wfF1 f | .vrsq _ f => wfF1 f | .vsqrt _ f => wfF1 f
  | .vdiv _ f => wfF2 f
  | .vexp2 _ f => wfF1 f | .vlog2 _ f => wfF1 f | .vsin _ f => wfF1 f | .vcos _ f => wfF1 f
  | .vshflIdx _ f => wfShfl f .any | .vshflUp _ f => wfShfl f .any | .vshflDown _ f => wfShfl f .any
  | .vshflXor _ f => wfShfl f .any | .vbcast _ f => wfShfl f .uniImm
  | .vred _ f => let o := f.minor.toNat / 16; let t := f.minor.toNat % 16
      (redTys o).contains t && f.ok .vec .vec .no .vec .none false auxZero &&
      (!(o == 3 || o == 4) || f.d.toNat % 2 == 0)
  | .vscan _ f => let o := f.minor.toNat / 16; let t := f.minor.toNat % 16
      (redTys o).contains t && o != 3 && o != 4 && f.ok .vec .vec .no .vec .none false (fun n => decide (n ≤ 1))
  | .vballot _ f => f.minor == 0 && f.ok .vec .no .no .no .none false (fun n => decide (n < 16))
  | .vany _ f => f.minor == 0 && f.ok .no .no .no .no .none true (fun n => decide (n < 16))
  | .vall _ f => f.minor == 0 && f.ok .no .no .no .no .none true (fun n => decide (n < 16))
  | .vld _ f => f.minor == 0 && f.ok .vec true true false && wfElems f.aux.toNat false f.d
  | .vst _ f => f.minor == 0 && f.ok .vec true true false && wfElems f.aux.toNat false f.d
  | .vstCw _ f => f.minor == 0 && f.ok .vec true true false && wfElems f.aux.toNat true f.d
  | .vldt _ f => let t := f.aux.toNat % 16; let b := tyWidth t / 8
      f.minor == 0 && f.ok .vec false true false && decide (t < 8) && (f.aux.toNat / 16) % b == 0 &&
      f.d.toNat % b == 0
  | .vldc _ f => f.minor == 0 && f.ok .vec true true false && wfElems f.aux.toNat false f.d
  | .vatom _ f => let o := f.minor.toNat / 16; let t := f.minor.toNat % 16
      (atomTys o).contains t && f.ok .vec true true false && decide (f.aux.toNat ≤ 1) && wfAtomD o t false f.d
  | .mma _ f => f.minor == 0 && f.ok true false false false cmd0 false false
  | .mopf _ f => f.minor == 0 && f.ok false true false false (fun n => decide (n ≤ 2)) false false
  | .mwait _ f => f.minor == 0 && f.ok true true false false cmd0 false false
  | .mzero _ f => f.minor == 0 && f.ok true true true false cmd0 false false
  | .mrd _ f => let t := f.minor.toNat % 16
      tagT f.minor [2, 6, 3, 7, 10, 11] && f.ok .vec true true false && f.aux == 0 && pairOk t f.d
  | .mwr _ f => let t := f.minor.toNat % 16
      tagT f.minor [2, 6, 3, 7, 10, 11] && f.ok .vec true true false && f.aux == 0 && pairOk t f.d
  | .mld _ f => f.minor == 0 && f.ok true false false false cmd0 false false
  | .mst _ f => f.minor == 0 && f.ok true false false false cmd0 false false
  | .jigSet _ f => f.minor == 0 && f.ok false true false false (fun n => decide (n < 8)) false false
  | .jigSetSv _ f => f.minor == 1 && f.ok false true false false (fun n => decide (n < 8)) false false
  | .jigSetClr _ f => f.minor == 2 && f.ok false false false false (fun n => decide (n < 8)) false false
  | .jop _ f => let o := f.minor.toNat
      decide (o < 8) && f.ok true (o == 6 || o == 7) false false
        (fun n => decide (n < 512) && (!(o == 0 || o == 7) || n / 64 == 0)) false false
  | .gcvtTo _ f => minorFn f.minor == 0 && f.ok .vec .vec .no .vec .none false auxZero
  | .gcvtFrom _ f => minorFn f.minor == 1 && f.ok .vec .vec .no .vec .none false auxZero
  | .gpack _ f => minorFn f.minor == 0 && f.ok .vec .vec .no .vec .none false auxZero
  | .gunpk _ f => minorFn f.minor == 0 && f.ok .vec .vec .no .vec .none false (fun n => decide (n < 64))
  | .slA _ f => f.minor == 0 && f.ok false true false false cmd0 false false
  | .slB _ f => f.minor == 0 && f.ok false true false false cmd0 false false
  | .slC _ f => f.minor == 0 && f.ok false true false false cmd0 false false
  | .slD _ f => f.minor == 0 && f.ok false true false false cmd0 false false
  | .slGo _ f => f.minor == 0 && f.ok true false false false cmd0 false false
  | .slArm _ f => f.minor == 0 && f.ok true true true false cmd0 false false
  | .slSt _ f => f.minor == 0 && f.ok true true false false cmd0 false false
  | .slKill _ f => f.minor == 0 && f.ok false true false false cmd0 false false
  | .fst _ f => tagSc f.minor 6 7 && f.ok false true true true (fun n => decide (n ≤ 1)) false true &&
      f.a.toNat % 2 == 0
  | .fld _ f => tagSc f.minor 6 7 && f.ok true true true false (fun n => decide (n < 8)) false true &&
      f.a.toNat % 2 == 0
  | .fatom _ f => let o := minorFn f.minor; let t := f.cmd.toNat % 16
      decide (6 ≤ minorScope f.minor) && (atomTys o).contains t &&
      f.ok (f.cmd.toNat / 16 == 1) true true true (fun n => decide (n < 32)) false true &&
      f.a.toNat % 2 == 0 && (o != 7 || f.c.toNat % 2 == 0)
  | .fred _ f => let o := minorFn f.minor
      decide (6 ≤ minorScope f.minor) && decide (o ≤ 2) && [9, 8, 10, 2, 6].contains (f.cmd.toNat % 16) &&
      f.ok false true true true (fun n => decide (n < 32)) false true && f.a.toNat % 4 == 0
  | .fcopy _ f => tagSc f.minor 6 7 && f.ok false true true true (fun n => decide (n ≤ 1)) false true &&
      f.a.toNat % 2 == 0
  | .fwait _ f => f.minor == 0 && f.ok true (f.cmd.toNat % 2 == 1) (f.cmd.toNat / 2 == 1) false
      (fun n => decide (n < 4)) false true
  | .fcnt _ f => f.minor == 0 && f.ok true true false false cmd0 false false && f.a.toNat % 2 == 0
  | .fcrd _ f => f.minor == 0 && f.ok true false false false cmd0 false true
  | .fcrdClr _ f => f.minor == 0 && f.ok true false false false (fun n => n == 1) false true
  | .cnlPost _ f => f.minor == 0 && f.ok false true true false (fun n => decide (n ≤ 1)) false false
  | .cnlWt _ f => f.minor == 0 && f.ok true true true (f.cmd.toNat / 8 == 1)
      (fun n => decide (n < 16) && decide (n % 8 < 4) && n != 11) false false && f.d.toNat % 2 == 0
  | .cnlRel _ f => f.minor == 0 && f.ok false true true false (fun n => decide (n ≤ 1)) false false
  | .ltRun _ f => f.minor == 0 && f.ok true true false false cmd0 false false
  | .ltRunCn _ f => f.minor == 1 && f.ok true true false false cmd0 false false
  | .ltWt _ f => f.minor == 0 && f.ok true true (f.cmd == 1) false (fun n => decide (n ≤ 1)) false false
  | .ltSt _ f => f.minor == 0 && f.ok true true false false cmd0 false false
  | .weirSet _ f => f.minor == 0 && (if f.cmd == 1 then f.ok false false false false (fun _ => true) true true &&
      f.imm16 != 0 else f.ok false true false false cmd0 true false)
  | .weirArv _ f => tagSc f.minor 2 6 && f.ok (decide (2 ≤ f.cmd.toNat)) false false false (fun n => decide (n ≤ 3))
      true (f.cmd.toNat % 2 == 1) && (f.cmd.toNat % 2 == 0 || f.imm16 != 0)
  | .weirWt _ f => f.minor == 0 && f.ok false true false false cmd0 true false
  | .weirAw _ f => tagSc f.minor 2 6 && f.ok false false false false (fun n => decide (n ≤ 1)) true (f.cmd == 1) &&
      (f.cmd == 0 || f.imm16 != 0)
  | .weirTst _ f => f.minor == 0 && f.ok true false false false cmd0 true false
  | .wfa _ f => tagSc f.minor 2 3 && f.ok .vec true true false && f.aux == 0
  | .atom _ f => let o := minorFn f.minor; let x := f.aux.toNat; let t := x % 16
      decide (2 ≤ minorScope f.minor) && (atomTys o).contains t && f.ok .vec true true false &&
      decide (x < 512) && (x / 16 % 4 == 0 || (x / 16 % 4 == 1 && t == 7 && (o == 6 || o == 7))) &&
      (x / 64 % 2 == 1 || !(x / 128 == 1 || x / 128 == 3)) && wfAtomD o t (x / 16 % 4 == 1) f.d
  | .fence _ f => tagSc f.minor 2 7 && f.zero
  | .ldAcq _ f => tagSc f.minor 2 7 && f.ok .vec true true false && decide (f.aux.toNat < 8) &&
      pairOk f.aux.toNat f.d
  | .stRel _ f => tagSc f.minor 2 7 && f.ok .vec true true false && decide (f.aux.toNat < 8) &&
      pairOk f.aux.toNat f.d
  | .spn _ f => f.minor == 0 && f.ok false true true false (fun n => decide (n < 64)) false true &&
      decide (f.imm16.toNat / 256 ≤ 8)
  | .jwait _ f => f.minor == 0 && f.ok true false false false (fun n => decide (n < 64)) false false
  | .dove _ f => f.minor == 0 && f.ok false false false false cmd0 false false
  | .vnrUpd _ f => vnrMinors.contains f.minor.toNat && f.ok .no .vec .no .vec .any false (fun n => decide (n < 8))
  | .vnrGet _ f => tagT f.minor [2, 6, 10] && f.ok .vec .vec .no .vec .none false (fun n => decide (n < 8))
  | .stlReq _ f => f.minor == 0 && f.ok true true false false cmd0 false false
  | .cutNext _ f => f.minor == 0 && f.ok true false false false cmd0 false false
  | .flmCfg _ f => f.minor == 0 && f.ok false true false false (fun n => decide (n < 32)) false false
  | .flmPush _ f => f.minor == 0 && f.ok false true false false (fun n => decide (n < 32)) false false
  | .flmPop _ f => f.minor == 0 && f.ok true false false false (fun n => decide (n < 32)) false false
  | .flmTry _ f => f.minor == 0 && f.ok true false false false (fun n => decide (n < 32)) false false
  | _ => true

end Sys2Proof
end

