-- ==== Sys2Proof/Decode.lean ====
section
/-! DEFINITION. Bytes to instructions and back: the fields of the six formats (R18 to R27), the opcode map (R56 to
R65), the fetch line (R12, R13), the host datagram (R424, R427). Decoding is total and rejects by name. -/

namespace Sys2Proof

/-- Why bytes are no instruction. -/
inductive DecodeError where
  | tooShort
  | unassignedMajor (major : Nat)
  | illegalField (major : Nat)
  | notADatagram
  | badLength
deriving DecidableEq, Repr

/-! ### Fields -/

/-- The major code, bits [95:88] (R18). -/
def majorOf (w : Slot) : Nat := (w.extractLsb' 88 8).toNat

/-- The minor field, bits [79:72] (R18). -/
def minorOf (w : Slot) : BitVec 8 := w.extractLsb' 72 8

/-- The header of a word (R18). -/
def Hdr.of (w : Slot) : Hdr :=
  { stall := w.extractLsb' 84 4, gneg := w.extractLsb' 83 1 == 1, guard := w.extractLsb' 80 3 }

/-- The first 16 bits of a word (R18). -/
def Hdr.bits (h : Hdr) (major : Nat) : BitVec 16 :=
  BitVec.ofNat 8 major ++ h.stall ++ BitVec.ofBool h.gneg ++ h.guard

/-- Format V (R22). -/
def FmtV.of (w : Slot) : FmtV :=
  { minor := minorOf w, d := w.extractLsb' 39 1 ++ w.extractLsb' 64 8, a := w.extractLsb' 38 1 ++ w.extractLsb' 56 8,
    b := w.extractLsb' 37 1 ++ w.extractLsb' 48 8, c := w.extractLsb' 36 1 ++ w.extractLsb' 40 8,
    bk := w.extractLsb' 34 2, qd := w.extractLsb' 31 3, aux := w.extractLsb' 16 15, imm16 := w.extractLsb' 0 16 }

/-- The word of a format V instruction (R18, R22). -/
def FmtV.word (f : FmtV) (major : Nat) (h : Hdr) : Slot :=
  h.bits major ++ f.minor ++ f.d.extractLsb' 0 8 ++ f.a.extractLsb' 0 8 ++ f.b.extractLsb' 0 8 ++
    f.c.extractLsb' 0 8 ++ f.d.extractLsb' 8 1 ++ f.a.extractLsb' 8 1 ++ f.b.extractLsb' 8 1 ++
    f.c.extractLsb' 8 1 ++ f.bk ++ f.qd ++ f.aux ++ f.imm16

/-- Format I (R23). -/
def FmtI.of (w : Slot) : FmtI :=
  { minor := minorOf w, d := w.extractLsb' 55 1 ++ w.extractLsb' 64 8, a := w.extractLsb' 54 1 ++ w.extractLsb' 56 8,
    qd := w.extractLsb' 51 3, aux := w.extractLsb' 32 19, imm32 := w.extractLsb' 0 32 }

/-- The word of a format I instruction (R18, R23). -/
def FmtI.word (f : FmtI) (major : Nat) (h : Hdr) : Slot :=
  h.bits major ++ f.minor ++ f.d.extractLsb' 0 8 ++ f.a.extractLsb' 0 8 ++ f.d.extractLsb' 8 1 ++
    f.a.extractLsb' 8 1 ++ f.qd ++ f.aux ++ f.imm32

/-- Format M (R24). -/
def FmtM.of (w : Slot) : FmtM :=
  { minor := minorOf w, d := w.extractLsb' 55 1 ++ w.extractLsb' 64 8,
    base := w.extractLsb' 54 1 ++ w.extractLsb' 56 8, bk := w.extractLsb' 53 1 == 1, qd := w.extractLsb' 50 3,
    aux := w.extractLsb' 32 18, off := w.extractLsb' 0 32 }

/-- The word of a format M instruction (R18, R24). -/
def FmtM.word (f : FmtM) (major : Nat) (h : Hdr) : Slot :=
  h.bits major ++ f.minor ++ f.d.extractLsb' 0 8 ++ f.base.extractLsb' 0 8 ++ f.d.extractLsb' 8 1 ++
    f.base.extractLsb' 8 1 ++ BitVec.ofBool f.bk ++ f.qd ++ f.aux ++ f.off

/-- Format B (R25). -/
def FmtB.of (w : Slot) : FmtB :=
  { minor := minorOf w, l := w.extractLsb' 55 1 ++ w.extractLsb' 64 8, a := w.extractLsb' 54 1 ++ w.extractLsb' 56 8,
    aux := w.extractLsb' 40 14, disp := w.extractLsb' 0 40 }

/-- The word of a format B instruction (R18, R25). -/
def FmtB.word (f : FmtB) (major : Nat) (h : Hdr) : Slot :=
  h.bits major ++ f.minor ++ f.l.extractLsb' 0 8 ++ f.a.extractLsb' 0 8 ++ f.l.extractLsb' 8 1 ++
    f.a.extractLsb' 8 1 ++ f.aux ++ f.disp

/-- Format E (R26). -/
def FmtE.of (w : Slot) : FmtE :=
  { minor := minorOf w, d := w.extractLsb' 39 1 ++ w.extractLsb' 64 8, a := w.extractLsb' 38 1 ++ w.extractLsb' 56 8,
    b := w.extractLsb' 37 1 ++ w.extractLsb' 48 8, c := w.extractLsb' 36 1 ++ w.extractLsb' 40 8,
    cmd := w.extractLsb' 24 12, weir := w.extractLsb' 16 8, imm16 := w.extractLsb' 0 16 }

/-- The word of a format E instruction (R18, R26). -/
def FmtE.word (f : FmtE) (major : Nat) (h : Hdr) : Slot :=
  h.bits major ++ f.minor ++ f.d.extractLsb' 0 8 ++ f.a.extractLsb' 0 8 ++ f.b.extractLsb' 0 8 ++
    f.c.extractLsb' 0 8 ++ f.d.extractLsb' 8 1 ++ f.a.extractLsb' 8 1 ++ f.b.extractLsb' 8 1 ++
    f.c.extractLsb' 8 1 ++ f.cmd ++ f.weir ++ f.imm16

/-- Format S (R27). -/
def FmtS.of (w : Slot) : FmtS :=
  { minor := minorOf w, d := w.extractLsb' 55 1 ++ w.extractLsb' 64 8, a := w.extractLsb' 54 1 ++ w.extractLsb' 56 8,
    dk := w.extractLsb' 53 1 == 1, sr := w.extractLsb' 41 12, aux := w.extractLsb' 32 9,
    imm32 := w.extractLsb' 0 32 }

/-- The word of a format S instruction (R18, R27). -/
def FmtS.word (f : FmtS) (major : Nat) (h : Hdr) : Slot :=
  h.bits major ++ f.minor ++ f.d.extractLsb' 0 8 ++ f.a.extractLsb' 0 8 ++ f.d.extractLsb' 8 1 ++
    f.a.extractLsb' 8 1 ++ BitVec.ofBool f.dk ++ f.sr ++ f.aux ++ f.imm32

/-! ### The opcode map -/

/-- Class 000 (R58): the instruction that a major code names, its fields not yet checked. -/
def decodeUniform (w : Slot) : Nat → Option Instr
  | 1 => some (.sadd (Hdr.of w) (FmtV.of w))
  | 2 => some (.ssub (Hdr.of w) (FmtV.of w))
  | 3 => some (.smul (Hdr.of w) (FmtV.of w))
  | 4 => some (.smulh (Hdr.of w) (FmtV.of w))
  | 5 => some (.sdiv (Hdr.of w) (FmtV.of w))
  | 6 => some (.srem (Hdr.of w) (FmtV.of w))
  | 7 => some (.sand (Hdr.of w) (FmtV.of w))
  | 8 => some (.sor (Hdr.of w) (FmtV.of w))
  | 9 => some (.sxor (Hdr.of w) (FmtV.of w))
  | 10 => some (.sshl (Hdr.of w) (FmtV.of w))
  | 11 => some (.sshr (Hdr.of w) (FmtV.of w))
  | 12 => some (.ssra (Hdr.of w) (FmtV.of w))
  | 13 => some (.smin (Hdr.of w) (FmtV.of w))
  | 14 => some (.smax (Hdr.of w) (FmtV.of w))
  | 15 => some (.sli (Hdr.of w) (FmtI.of w))
  | 16 => some (.slih (Hdr.of w) (FmtI.of w))
  | 17 => some (.smov (Hdr.of w) (FmtV.of w))
  | 18 => some (.scmp (Hdr.of w) (FmtV.of w))
  | 19 => some (.ssel (Hdr.of w) (FmtV.of w))
  | 20 => some (.sld (Hdr.of w) (FmtM.of w))
  | 21 => some (.sst (Hdr.of w) (FmtM.of w))
  | _ => none

/-- Class 001 (R59): the instruction that a major code names, its fields not yet checked. -/
def decodeControl (w : Slot) : Nat → Option Instr
  | 32 => some (.nop (Hdr.of w) (FmtV.of w))
  | 33 => some (.bra (Hdr.of w) (FmtB.of w))
  | 34 => some (.brc (Hdr.of w) (FmtB.of w))
  | 35 => some (.call (Hdr.of w) (FmtB.of w))
  | 36 => some (.ret (Hdr.of w) (FmtB.of w))
  | 37 => some (.jmpi (Hdr.of w) (FmtB.of w))
  | 38 => some (.wsync (Hdr.of w) (FmtI.of w))
  | 39 => some (.exit (Hdr.of w) (FmtS.of w))
  | 40 => some (.yield (Hdr.of w) (FmtS.of w))
  | 41 => some (.elect (Hdr.of w) (FmtV.of w))
  | 48 => some (.trap (Hdr.of w) (FmtS.of w))
  | 49 => some (.tret (Hdr.of w) (FmtS.of w))
  | 50 => some (.mfsr (Hdr.of w) (FmtS.of w))
  | 51 => some (.mtsr (Hdr.of w) (FmtS.of w))
  | 52 => some (.lnch (Hdr.of w) (FmtS.of w))
  | 53 => some (.evnt (Hdr.of w) (FmtS.of w))
  | 54 => some (.brk (Hdr.of w) (FmtS.of w))
  | _ => none

/-- Class 010 (R60): the instruction that a major code names, its fields not yet checked. -/
def decodeVecInt (w : Slot) : Nat → Option Instr
  | 64 => some (.vadd (Hdr.of w) (FmtV.of w))
  | 65 => some (.vsub (Hdr.of w) (FmtV.of w))
  | 66 => some (.vmulLo (Hdr.of w) (FmtV.of w))
  | 67 => some (.vmulHi (Hdr.of w) (FmtV.of w))
  | 68 => some (.vmad (Hdr.of w) (FmtV.of w))
  | 69 => some (.vand (Hdr.of w) (FmtV.of w))
  | 70 => some (.vor (Hdr.of w) (FmtV.of w))
  | 71 => some (.vxor (Hdr.of w) (FmtV.of w))
  | 72 => some (.vnot (Hdr.of w) (FmtV.of w))
  | 73 => some (.vshl (Hdr.of w) (FmtV.of w))
  | 74 => some (.vshr (Hdr.of w) (FmtV.of w))
  | 75 => some (.vsra (Hdr.of w) (FmtV.of w))
  | 76 => some (.vmin (Hdr.of w) (FmtV.of w))
  | 77 => some (.vmax (Hdr.of w) (FmtV.of w))
  | 78 => some (.vabs (Hdr.of w) (FmtV.of w))
  | 79 => some (.vneg (Hdr.of w) (FmtV.of w))
  | 80 => some (.vpopc (Hdr.of w) (FmtV.of w))
  | 81 => some (.vclz (Hdr.of w) (FmtV.of w))
  | 82 => some (.vbrev (Hdr.of w) (FmtV.of w))
  | 83 => some (.vbfe (Hdr.of w) (FmtV.of w))
  | 84 => some (.vbfi (Hdr.of w) (FmtV.of w))
  | 85 => some (.vsel (Hdr.of w) (FmtV.of w))
  | 86 => some (.vmov (Hdr.of w) (FmtV.of w))
  | 87 => some (.vli (Hdr.of w) (FmtI.of w))
  | 88 => some (.vcmp (Hdr.of w) (FmtV.of w))
  | _ => none

/-- Class 011 (R61): the instruction that a major code names, its fields not yet checked. -/
def decodeVecFloat (w : Slot) : Nat → Option Instr
  | 96 => some (.vfadd (Hdr.of w) (FmtV.of w))
  | 97 => some (.vfsub (Hdr.of w) (FmtV.of w))
  | 98 => some (.vfmul (Hdr.of w) (FmtV.of w))
  | 99 => some (.vffma (Hdr.of w) (FmtV.of w))
  | 100 => some (.vfmin (Hdr.of w) (FmtV.of w))
  | 101 => some (.vfmax (Hdr.of w) (FmtV.of w))
  | 102 => some (.vfabs (Hdr.of w) (FmtV.of w))
  | 103 => some (.vfneg (Hdr.of w) (FmtV.of w))
  | 104 => some (.vfcmp (Hdr.of w) (FmtV.of w))
  | 105 => some (.vdadd (Hdr.of w) (FmtV.of w))
  | 106 => some (.vdmul (Hdr.of w) (FmtV.of w))
  | 107 => some (.vdffma (Hdr.of w) (FmtV.of w))
  | 108 => some (.vcvt (Hdr.of w) (FmtV.of w))
  | 109 => some (.vpack (Hdr.of w) (FmtV.of w))
  | 110 => some (.vunpk (Hdr.of w) (FmtV.of w))
  | 111 => some (.vhfmaBf16x2 (Hdr.of w) (FmtV.of w))
  | 112 => some (.vhfmaF16x2 (Hdr.of w) (FmtV.of w))
  | 113 => some (.vrcp (Hdr.of w) (FmtV.of w))
  | 114 => some (.vrsq (Hdr.of w) (FmtV.of w))
  | 115 => some (.vsqrt (Hdr.of w) (FmtV.of w))
  | 116 => some (.vdiv (Hdr.of w) (FmtV.of w))
  | 117 => some (.vexp2 (Hdr.of w) (FmtV.of w))
  | 118 => some (.vlog2 (Hdr.of w) (FmtV.of w))
  | 119 => some (.vsin (Hdr.of w) (FmtV.of w))
  | 120 => some (.vcos (Hdr.of w) (FmtV.of w))
  | _ => none

/-- Class 100 (R62): the instruction that a major code names, its fields not yet checked. -/
def decodeCross (w : Slot) : Nat → Option Instr
  | 128 => some (.vshflIdx (Hdr.of w) (FmtV.of w))
  | 129 => some (.vshflUp (Hdr.of w) (FmtV.of w))
  | 130 => some (.vshflDown (Hdr.of w) (FmtV.of w))
  | 131 => some (.vshflXor (Hdr.of w) (FmtV.of w))
  | 132 => some (.vbcast (Hdr.of w) (FmtV.of w))
  | 133 => some (.vred (Hdr.of w) (FmtV.of w))
  | 134 => some (.vscan (Hdr.of w) (FmtV.of w))
  | 135 => some (.vballot (Hdr.of w) (FmtV.of w))
  | 136 => some (.vany (Hdr.of w) (FmtV.of w))
  | 137 => some (.vall (Hdr.of w) (FmtV.of w))
  | 144 => some (.vld (Hdr.of w) (FmtM.of w))
  | 145 => some (if (w.extractLsb' 38 1) == 1 then .vstCw (Hdr.of w) (FmtM.of w) else .vst (Hdr.of w) (FmtM.of w))
  | 146 => some (.vldt (Hdr.of w) (FmtM.of w))
  | 147 => some (.vldc (Hdr.of w) (FmtM.of w))
  | 148 => some (.vatom (Hdr.of w) (FmtM.of w))
  | _ => none

/-- Class 101 (R63): the instruction that a major code names, its fields not yet checked. -/
def decodeMatrix (w : Slot) : Nat → Option Instr
  | 160 => some (.mma (Hdr.of w) (FmtE.of w))
  | 161 => some (.mopf (Hdr.of w) (FmtE.of w))
  | 162 => some (.mwait (Hdr.of w) (FmtE.of w))
  | 163 => some (.mzero (Hdr.of w) (FmtE.of w))
  | 164 => some (.mrd (Hdr.of w) (FmtM.of w))
  | 165 => some (.mwr (Hdr.of w) (FmtM.of w))
  | 166 => some (.mld (Hdr.of w) (FmtE.of w))
  | 167 => some (.mst (Hdr.of w) (FmtE.of w))
  | 176 => some (if minorOf w == 0 then .jigSet (Hdr.of w) (FmtE.of w)
      else if minorOf w == 1 then .jigSetSv (Hdr.of w) (FmtE.of w) else .jigSetClr (Hdr.of w) (FmtE.of w))
  | 177 => some (.jop (Hdr.of w) (FmtE.of w))
  | 178 => some (if minorFn (minorOf w) == 0 then .gcvtTo (Hdr.of w) (FmtV.of w) else .gcvtFrom (Hdr.of w) (FmtV.of w))
  | 179 => some (.gpack (Hdr.of w) (FmtV.of w))
  | 180 => some (.gunpk (Hdr.of w) (FmtV.of w))
  | _ => none

/-- Class 110 (R64): the instruction that a major code names, its fields not yet checked. -/
def decodeEngine (w : Slot) : Nat → Option Instr
  | 192 => some (.slA (Hdr.of w) (FmtE.of w))
  | 193 => some (.slB (Hdr.of w) (FmtE.of w))
  | 194 => some (.slC (Hdr.of w) (FmtE.of w))
  | 195 => some (.slD (Hdr.of w) (FmtE.of w))
  | 196 => some (.slGo (Hdr.of w) (FmtE.of w))
  | 197 => some (.slArm (Hdr.of w) (FmtE.of w))
  | 198 => some (.slSt (Hdr.of w) (FmtE.of w))
  | 199 => some (.slKill (Hdr.of w) (FmtE.of w))
  | 200 => some (.fst (Hdr.of w) (FmtE.of w))
  | 201 => some (.fld (Hdr.of w) (FmtE.of w))
  | 202 => some (.fatom (Hdr.of w) (FmtE.of w))
  | 203 => some (.fred (Hdr.of w) (FmtE.of w))
  | 204 => some (.fcopy (Hdr.of w) (FmtE.of w))
  | 205 => some (.fwait (Hdr.of w) (FmtE.of w))
  | 206 => some (.fcnt (Hdr.of w) (FmtE.of w))
  | 207 => some (if (FmtE.of w).cmd == 0 then .fcrd (Hdr.of w) (FmtE.of w) else .fcrdClr (Hdr.of w) (FmtE.of w))
  | 208 => some (.cnlPost (Hdr.of w) (FmtE.of w))
  | 209 => some (.cnlWt (Hdr.of w) (FmtE.of w))
  | 210 => some (.cnlRel (Hdr.of w) (FmtE.of w))
  | 216 => some (if minorOf w == 0 then .ltRun (Hdr.of w) (FmtE.of w) else .ltRunCn (Hdr.of w) (FmtE.of w))
  | 217 => some (.ltWt (Hdr.of w) (FmtE.of w))
  | 218 => some (.ltSt (Hdr.of w) (FmtE.of w))
  | _ => none

/-- Class 111 (R65): the instruction that a major code names, its fields not yet checked. -/
def decodeSync (w : Slot) : Nat → Option Instr
  | 224 => some (.weirSet (Hdr.of w) (FmtE.of w))
  | 225 => some (.weirArv (Hdr.of w) (FmtE.of w))
  | 226 => some (.weirWt (Hdr.of w) (FmtE.of w))
  | 227 => some (.weirAw (Hdr.of w) (FmtE.of w))
  | 228 => some (.weirTst (Hdr.of w) (FmtE.of w))
  | 229 => some (.wfa (Hdr.of w) (FmtM.of w))
  | 232 => some (.atom (Hdr.of w) (FmtM.of w))
  | 233 => some (.fence (Hdr.of w) (FmtS.of w))
  | 234 => some (.ldAcq (Hdr.of w) (FmtM.of w))
  | 235 => some (.stRel (Hdr.of w) (FmtM.of w))
  | 240 => some (.spn (Hdr.of w) (FmtE.of w))
  | 241 => some (.jwait (Hdr.of w) (FmtE.of w))
  | 242 => some (.dove (Hdr.of w) (FmtE.of w))
  | 243 => some (.vnrUpd (Hdr.of w) (FmtV.of w))
  | 244 => some (.vnrGet (Hdr.of w) (FmtV.of w))
  | 245 => some (.stlReq (Hdr.of w) (FmtE.of w))
  | 246 => some (.cutNext (Hdr.of w) (FmtE.of w))
  | 248 => some (.flmCfg (Hdr.of w) (FmtE.of w))
  | 249 => some (.flmPush (Hdr.of w) (FmtE.of w))
  | 250 => some (.flmPop (Hdr.of w) (FmtE.of w))
  | 251 => some (.flmTry (Hdr.of w) (FmtE.of w))
  | _ => none

/-- The instruction that a word's major code names, its fields not yet checked; none for an unassigned code. -/
def assemble (w : Slot) : Option Instr :=
  let m := majorOf w
  match m / 32 with
  | 0 => decodeUniform w m
  | 1 => decodeControl w m
  | 2 => decodeVecInt w m
  | 3 => decodeVecFloat w m
  | 4 => decodeCross w m
  | 5 => decodeMatrix w m
  | 6 => decodeEngine w m
  | _ => decodeSync w m

/-- One slot's instruction, or the reason why the word is none. -/
def decodeSlot (w : Slot) : Except DecodeError Instr :=
  match assemble w with
  | none => .error (.unassignedMajor (majorOf w))
  | some i => if i.wf then .ok i else .error (.illegalField (majorOf w))

/-- The word of a slot instruction; none for the steps that no word names. -/
def encodeSlot : Instr → Option Slot
  | .sadd h f => some (f.word 0x1 h)
  | .ssub h f => some (f.word 0x2 h)
  | .smul h f => some (f.word 0x3 h)
  | .smulh h f => some (f.word 0x4 h)
  | .sdiv h f => some (f.word 0x5 h)
  | .srem h f => some (f.word 0x6 h)
  | .sand h f => some (f.word 0x7 h)
  | .sor h f => some (f.word 0x8 h)
  | .sxor h f => some (f.word 0x9 h)
  | .sshl h f => some (f.word 0xA h)
  | .sshr h f => some (f.word 0xB h)
  | .ssra h f => some (f.word 0xC h)
  | .smin h f => some (f.word 0xD h)
  | .smax h f => some (f.word 0xE h)
  | .sli h f => some (f.word 0xF h)
  | .slih h f => some (f.word 0x10 h)
  | .smov h f => some (f.word 0x11 h)
  | .scmp h f => some (f.word 0x12 h)
  | .ssel h f => some (f.word 0x13 h)
  | .sld h f => some (f.word 0x14 h)
  | .sst h f => some (f.word 0x15 h)
  | .nop h f => some (f.word 0x20 h)
  | .bra h f => some (f.word 0x21 h)
  | .brc h f => some (f.word 0x22 h)
  | .call h f => some (f.word 0x23 h)
  | .ret h f => some (f.word 0x24 h)
  | .jmpi h f => some (f.word 0x25 h)
  | .wsync h f => some (f.word 0x26 h)
  | .exit h f => some (f.word 0x27 h)
  | .yield h f => some (f.word 0x28 h)
  | .elect h f => some (f.word 0x29 h)
  | .trap h f => some (f.word 0x30 h)
  | .tret h f => some (f.word 0x31 h)
  | .mfsr h f => some (f.word 0x32 h)
  | .mtsr h f => some (f.word 0x33 h)
  | .lnch h f => some (f.word 0x34 h)
  | .evnt h f => some (f.word 0x35 h)
  | .brk h f => some (f.word 0x36 h)
  | .vadd h f => some (f.word 0x40 h)
  | .vsub h f => some (f.word 0x41 h)
  | .vmulLo h f => some (f.word 0x42 h)
  | .vmulHi h f => some (f.word 0x43 h)
  | .vmad h f => some (f.word 0x44 h)
  | .vand h f => some (f.word 0x45 h)
  | .vor h f => some (f.word 0x46 h)
  | .vxor h f => some (f.word 0x47 h)
  | .vnot h f => some (f.word 0x48 h)
  | .vshl h f => some (f.word 0x49 h)
  | .vshr h f => some (f.word 0x4A h)
  | .vsra h f => some (f.word 0x4B h)
  | .vmin h f => some (f.word 0x4C h)
  | .vmax h f => some (f.word 0x4D h)
  | .vabs h f => some (f.word 0x4E h)
  | .vneg h f => some (f.word 0x4F h)
  | .vpopc h f => some (f.word 0x50 h)
  | .vclz h f => some (f.word 0x51 h)
  | .vbrev h f => some (f.word 0x52 h)
  | .vbfe h f => some (f.word 0x53 h)
  | .vbfi h f => some (f.word 0x54 h)
  | .vsel h f => some (f.word 0x55 h)
  | .vmov h f => some (f.word 0x56 h)
  | .vli h f => some (f.word 0x57 h)
  | .vcmp h f => some (f.word 0x58 h)
  | .vfadd h f => some (f.word 0x60 h)
  | .vfsub h f => some (f.word 0x61 h)
  | .vfmul h f => some (f.word 0x62 h)
  | .vffma h f => some (f.word 0x63 h)
  | .vfmin h f => some (f.word 0x64 h)
  | .vfmax h f => some (f.word 0x65 h)
  | .vfabs h f => some (f.word 0x66 h)
  | .vfneg h f => some (f.word 0x67 h)
  | .vfcmp h f => some (f.word 0x68 h)
  | .vdadd h f => some (f.word 0x69 h)
  | .vdmul h f => some (f.word 0x6A h)
  | .vdffma h f => some (f.word 0x6B h)
  | .vcvt h f => some (f.word 0x6C h)
  | .vpack h f => some (f.word 0x6D h)
  | .vunpk h f => some (f.word 0x6E h)
  | .vhfmaBf16x2 h f => some (f.word 0x6F h)
  | .vhfmaF16x2 h f => some (f.word 0x70 h)
  | .vrcp h f => some (f.word 0x71 h)
  | .vrsq h f => some (f.word 0x72 h)
  | .vsqrt h f => some (f.word 0x73 h)
  | .vdiv h f => some (f.word 0x74 h)
  | .vexp2 h f => some (f.word 0x75 h)
  | .vlog2 h f => some (f.word 0x76 h)
  | .vsin h f => some (f.word 0x77 h)
  | .vcos h f => some (f.word 0x78 h)
  | .vshflIdx h f => some (f.word 0x80 h)
  | .vshflUp h f => some (f.word 0x81 h)
  | .vshflDown h f => some (f.word 0x82 h)
  | .vshflXor h f => some (f.word 0x83 h)
  | .vbcast h f => some (f.word 0x84 h)
  | .vred h f => some (f.word 0x85 h)
  | .vscan h f => some (f.word 0x86 h)
  | .vballot h f => some (f.word 0x87 h)
  | .vany h f => some (f.word 0x88 h)
  | .vall h f => some (f.word 0x89 h)
  | .vld h f => some (f.word 0x90 h)
  | .vst h f => some (f.word 0x91 h)
  | .vstCw h f => some (f.word 0x91 h)
  | .vldt h f => some (f.word 0x92 h)
  | .vldc h f => some (f.word 0x93 h)
  | .vatom h f => some (f.word 0x94 h)
  | .mma h f => some (f.word 0xA0 h)
  | .mopf h f => some (f.word 0xA1 h)
  | .mwait h f => some (f.word 0xA2 h)
  | .mzero h f => some (f.word 0xA3 h)
  | .mrd h f => some (f.word 0xA4 h)
  | .mwr h f => some (f.word 0xA5 h)
  | .mld h f => some (f.word 0xA6 h)
  | .mst h f => some (f.word 0xA7 h)
  | .jigSet h f => some (f.word 0xB0 h)
  | .jigSetSv h f => some (f.word 0xB0 h)
  | .jigSetClr h f => some (f.word 0xB0 h)
  | .jop h f => some (f.word 0xB1 h)
  | .gcvtTo h f => some (f.word 0xB2 h)
  | .gcvtFrom h f => some (f.word 0xB2 h)
  | .gpack h f => some (f.word 0xB3 h)
  | .gunpk h f => some (f.word 0xB4 h)
  | .slA h f => some (f.word 0xC0 h)
  | .slB h f => some (f.word 0xC1 h)
  | .slC h f => some (f.word 0xC2 h)
  | .slD h f => some (f.word 0xC3 h)
  | .slGo h f => some (f.word 0xC4 h)
  | .slArm h f => some (f.word 0xC5 h)
  | .slSt h f => some (f.word 0xC6 h)
  | .slKill h f => some (f.word 0xC7 h)
  | .fst h f => some (f.word 0xC8 h)
  | .fld h f => some (f.word 0xC9 h)
  | .fatom h f => some (f.word 0xCA h)
  | .fred h f => some (f.word 0xCB h)
  | .fcopy h f => some (f.word 0xCC h)
  | .fwait h f => some (f.word 0xCD h)
  | .fcnt h f => some (f.word 0xCE h)
  | .fcrd h f => some (f.word 0xCF h)
  | .fcrdClr h f => some (f.word 0xCF h)
  | .cnlPost h f => some (f.word 0xD0 h)
  | .cnlWt h f => some (f.word 0xD1 h)
  | .cnlRel h f => some (f.word 0xD2 h)
  | .ltRun h f => some (f.word 0xD8 h)
  | .ltRunCn h f => some (f.word 0xD8 h)
  | .ltWt h f => some (f.word 0xD9 h)
  | .ltSt h f => some (f.word 0xDA h)
  | .weirSet h f => some (f.word 0xE0 h)
  | .weirArv h f => some (f.word 0xE1 h)
  | .weirWt h f => some (f.word 0xE2 h)
  | .weirAw h f => some (f.word 0xE3 h)
  | .weirTst h f => some (f.word 0xE4 h)
  | .wfa h f => some (f.word 0xE5 h)
  | .atom h f => some (f.word 0xE8 h)
  | .fence h f => some (f.word 0xE9 h)
  | .ldAcq h f => some (f.word 0xEA h)
  | .stRel h f => some (f.word 0xEB h)
  | .spn h f => some (f.word 0xF0 h)
  | .jwait h f => some (f.word 0xF1 h)
  | .dove h f => some (f.word 0xF2 h)
  | .vnrUpd h f => some (f.word 0xF3 h)
  | .vnrGet h f => some (f.word 0xF4 h)
  | .stlReq h f => some (f.word 0xF5 h)
  | .cutNext h f => some (f.word 0xF6 h)
  | .flmCfg h f => some (f.word 0xF8 h)
  | .flmPush h f => some (f.word 0xF9 h)
  | .flmPop h f => some (f.word 0xFA h)
  | .flmTry h f => some (f.word 0xFB h)
  | _ => none

/-! ### Bytes -/

/-- The little-endian number of a byte string (R3). -/
def leNat : List Byte → Nat
  | [] => 0
  | b :: bs => b.toNat + 256 * leNat bs

/-- The n bytes of a number, least significant first (R3). -/
def leBytes : Nat → Nat → List Byte
  | 0, _ => []
  | n + 1, v => BitVec.ofNat 8 v :: leBytes n (v / 256)

/-- The first slot of a byte string and the bytes that follow it (R12, R18). -/
def decode (bs : List Byte) : Except DecodeError (Instr × List Byte) :=
  if bs.length < 12 then .error .tooShort
  else match decodeSlot (BitVec.ofNat 96 (leNat (bs.take 12))) with
    | .error e => .error e
    | .ok i => .ok (i, bs.drop 12)

/-! ### Host datagrams -/

/-- The command that an op names (R427); op 0x0020 commits when payload byte 1 is 1 (R428). (log 55, DEDUCED) -/
def commandOf (op : Nat) (c : Cmd) : Instr :=
  match op with
  | 0x1 => .sessionOpen c
  | 0x2 => .sessionClose c
  | 0x3 => .sessionProof c
  | 0x10 => .postLaunch c
  | 0x11 => .readRecordStatus c
  | 0x12 => .resumeBrkThread c
  | 0x21 => .canalGroupConfigure c
  | 0x22 => .asidConfigure c
  | 0x23 => .savePoolConfigure c
  | 0x24 => .tenantGrant c
  | 0x30 => .bindingLoad c
  | 0x31 => .shardLoad c
  | 0x32 => .switchPrepare c
  | 0x33 => .switchRequest c
  | 0x34 => .readShardReady c
  | 0x40 => .save c
  | 0x41 => .restore c
  | 0x42 => .reset c
  | 0x50 => .inval c
  | 0x60 => .ringOpen c
  | 0x61 => .ringClose c
  | 0x62 => .ringHeadUpdate c
  | 0x70 => .attestationRequest c
  | 0x80 => .firmwareUpdate c
  | 0x90 => .readCounters c
  | 0x20 => if c.pay[1]? == some 1 then .gridContextCommit c else .gridContextLoad c
  | _ => .unknownCommand op c

/-- The op and the fields of a host command (R427). -/
def opOf : Instr → Option (Nat × Cmd)
  | .sessionOpen c => some (0x1, c)
  | .sessionClose c => some (0x2, c)
  | .sessionProof c => some (0x3, c)
  | .postLaunch c => some (0x10, c)
  | .readRecordStatus c => some (0x11, c)
  | .resumeBrkThread c => some (0x12, c)
  | .canalGroupConfigure c => some (0x21, c)
  | .asidConfigure c => some (0x22, c)
  | .savePoolConfigure c => some (0x23, c)
  | .tenantGrant c => some (0x24, c)
  | .bindingLoad c => some (0x30, c)
  | .shardLoad c => some (0x31, c)
  | .switchPrepare c => some (0x32, c)
  | .switchRequest c => some (0x33, c)
  | .readShardReady c => some (0x34, c)
  | .save c => some (0x40, c)
  | .restore c => some (0x41, c)
  | .reset c => some (0x42, c)
  | .inval c => some (0x50, c)
  | .ringOpen c => some (0x60, c)
  | .ringClose c => some (0x61, c)
  | .ringHeadUpdate c => some (0x62, c)
  | .attestationRequest c => some (0x70, c)
  | .firmwareUpdate c => some (0x80, c)
  | .readCounters c => some (0x90, c)
  | .gridContextLoad c => some (0x20, c)
  | .gridContextCommit c => some (0x20, c)
  | .unknownCommand op c => some (op, c)
  | _ => none

/-- The number in bytes lo to lo + n − 1. -/
def field (bs : List Byte) (lo n : Nat) : Nat := leNat ((bs.drop lo).take n)

/-- A datagram of the host protocol (R424): another magic, or a length that is not the payload's, is discarded. -/
def decodeDatagram (bs : List Byte) : Except DecodeError Instr :=
  if bs.length < 32 || field bs 0 2 != 0x4E48 then .error .notADatagram
  else if field bs 16 4 != bs.length - 32 || 8192 < field bs 16 4 then .error .badLength
  else .ok (commandOf (field bs 4 2)
    { major := field bs 2 1, minor := field bs 3 1, flags := field bs 6 2, session := field bs 8 4,
      seq := field bs 12 4, status := field bs 20 4, resv := field bs 24 8, pay := bs.drop 32 })

/-- The bytes of a datagram (R424). -/
def datagramBytes (op : Nat) (c : Cmd) : List Byte :=
  leBytes 2 0x4E48 ++ leBytes 1 c.major ++ leBytes 1 c.minor ++ leBytes 2 op ++ leBytes 2 c.flags ++
    leBytes 4 c.session ++ leBytes 4 c.seq ++ leBytes 4 c.pay.length ++ leBytes 4 c.status ++ leBytes 8 c.resv ++
    c.pay

/-- The bytes of an instruction: a slot's twelve bytes, or a command's datagram; empty for every other step. -/
def encode (i : Instr) : List Byte :=
  match encodeSlot i with
  | some w => leBytes 12 w.toNat
  | none => match opOf i with
    | some (op, c) => datagramBytes op c
    | none => []

/-- The instruction that the decoder reads from a word of `nbits` bits: a slot when the bits fit one, else a host
datagram. -/
def decodeTableWord (nbits w : Nat) : Option Instr :=
  if nbits ≤ 96 then
    match decode (leBytes 12 w) with
    | .ok (i, _) => some i
    | .error _ => none
  else
    match decodeDatagram (leBytes (nbits / 8) w) with
    | .ok i => some i
    | .error _ => none

/-! ### Fetch lines (R12 to R14) -/

/-- The line word of a fetch line. -/
def lineWord (l : BitVec 512) : W32 := l.extractLsb' 0 32

/-- Slot i of a fetch line. -/
def lineSlot (l : BitVec 512) (i : Nat) : Slot := l.extractLsb' (32 + 96 * i) 96

/-- Start bit i (R13). -/
def lineStart (l : BitVec 512) (i : Nat) : Bool := l.getLsbD i

/-- Target bit 5 + i (R13). -/
def lineTarget (l : BitVec 512) (i : Nat) : Bool := l.getLsbD (5 + i)

/-- The exclusive-or of bytes 4 to 4 + n − 1 of a line (R14). -/
def lineXor (l : BitVec 512) : Nat → BitVec 8
  | 0 => 0
  | n + 1 => lineXor l n ^^^ l.extractLsb' (32 + 8 * n) 8

/-- Whether the parity field agrees with bytes 4 to 63 (R14). -/
def lineParityOk (l : BitVec 512) : Bool := l.extractLsb' 10 8 == lineXor l 60

/-- Whether the line word's kind is code and its reserved field zero (R13). -/
def lineKindOk (l : BitVec 512) : Bool := l.extractLsb' 18 14 == 0

/-- The slots of the bundle that begins at slot i: up to the next start bit, or the end of the line (R16). -/
def bundleSlots (l : BitVec 512) (i : Nat) : List (Nat × Slot) :=
  (go (5 - i) i).map fun k => (k, lineSlot l k)
where
  go : Nat → Nat → List Nat
    | 0, _ => []
    | fuel + 1, k => if k = i || !lineStart l k then k :: go fuel (k + 1) else []

end Sys2Proof
end

