-- ==== Sys2Proof/Machine/Bits.lean ====
section
/-! DEFINITION. Words as integers and back, register lists, and the integer operations of R54, R68 and R103. -/

namespace Sys2Proof.Machine

/-- Register n of a register list; a register beyond the listed ones holds zero (R133). -/
def getR {w : Nat} (r : List (BitVec w)) (n : Nat) : BitVec w := r.getD n 0

/-- Register n replaced; the list grows with zeros to hold it. -/
def setR {w : Nat} : List (BitVec w) → Nat → BitVec w → List (BitVec w)
  | [], 0, v => [v]
  | [], n + 1, v => 0 :: setR [] n v
  | _ :: r, 0, v => v :: r
  | x :: r, n + 1, v => x :: setR r n v

/-- Bits [lo + n − 1 : lo] of a number. -/
def bitsOf (x lo n : Nat) : Nat := x / 2 ^ lo % 2 ^ n

/-- The low w bits read as two's complement. -/
def toS (w x : Nat) : Int := if x % 2 ^ w < 2 ^ (w - 1) then (x % 2 ^ w : Nat) else (x % 2 ^ w : Nat) - (2 ^ w : Nat)

/-- An integer wrapped to w bits (R167). -/
def wrap (w : Nat) (x : Int) : Nat := (x % (2 ^ w : Nat)).toNat

/-- Whether a type code is a signed integer type (R53). -/
def signed (t : Nat) : Bool := t < 4

/-- The low w bits read as the type's signedness says. -/
def toI (t x : Nat) : Int := let w := tyWidth t; if signed t then toS w x else (x % 2 ^ w : Nat)

/-- A w-bit result extended to n bits by the type's signedness (R68, R100). -/
def extend (t n x : Nat) : Nat := wrap n (toI t x)

/-- Count of ones in the low n bits. -/
def popcount : Nat → Nat → Nat
  | 0, _ => 0
  | n + 1, x => x % 2 + popcount n (x / 2)

/-- Count of leading zeros in n bits (R103). -/
def clz : Nat → Nat → Nat
  | 0, _ => 0
  | n + 1, x => if x / 2 ^ n % 2 = 1 then 0 else 1 + clz n x

/-- Bits reversed within n bits (R103). -/
def bitrev : Nat → Nat → Nat
  | 0, _ => 0
  | n + 1, x => x % 2 * 2 ^ n + bitrev n (x / 2)

/-- The binary integer operations of R68 and R103, in code order. -/
inductive IntOp where
  | add | sub | mul | mulh | div | rem | and | or | xor | shl | shr | sra | min | max
deriving DecidableEq, Repr

/-- The w-bit result of an integer operation at type t (R68). (log 74, DEDUCED) -/
def intOp (op : IntOp) (t x y : Nat) : Nat :=
  let w := tyWidth t
  let x := x % 2 ^ w
  let k := y % 2 ^ w
  let xs := toI t x
  let ys := toI t k
  match op with
  | .add => wrap w (xs + ys)
  | .sub => wrap w (xs - ys)
  | .mul => wrap w (xs * ys)
  | .mulh => wrap w ((xs * ys).fdiv (2 ^ w : Nat))
  | .div => if ys = 0 then 2 ^ w - 1 else wrap w (xs.tdiv ys)
  | .rem => if ys = 0 then x else wrap w (xs - ys * xs.tdiv ys)
  | .and => x &&& k
  | .or => x ||| k
  | .xor => x ^^^ k
  | .shl => if w ≤ k then 0 else x * 2 ^ k % 2 ^ w
  | .shr => if w ≤ k then 0 else x / 2 ^ k
  | .sra => if w ≤ k then (if x / 2 ^ (w - 1) = 1 then 2 ^ w - 1 else 0) else wrap w (xs.fdiv (2 ^ k : Nat))
  | .min => wrap w (if xs ≤ ys then xs else ys)
  | .max => wrap w (if xs ≤ ys then ys else xs)

/-- A sign-extended 16-bit immediate as 64 bits (R68). -/
def imm64 (i : BitVec 16) : W64 := i.signExtend 64

/-- The integer conditions of R54 by code. -/
def intCond (c : Nat) (x y : Int) : Bool :=
  match c with
  | 0 => x = y
  | 1 => x ≠ y
  | 2 => x < y
  | 3 => x ≤ y
  | 4 => x > y
  | 5 => x ≥ y
  | _ => false

/-- The operand type of a code (R53). -/
def tyOf (t : Nat) : Ty :=
  match t with
  | 0 => .i8 | 1 => .i16 | 2 => .i32 | 3 => .i64 | 4 => .n8 | 5 => .n16 | 6 => .n32 | 7 => .n64
  | 8 => .f16 | 9 => .bf16 | 10 => .f32 | 11 => .f64 | 12 => .e4m3 | 13 => .e5m2 | 14 => .bf16x2 | _ => .f16x2

/-- The code of an operand type (R53). -/
def tyCode : Ty → Nat
  | .i8 => 0 | .i16 => 1 | .i32 => 2 | .i64 => 3 | .n8 => 4 | .n16 => 5 | .n32 => 6 | .n64 => 7
  | .f16 => 8 | .bf16 => 9 | .f32 => 10 | .f64 => 11 | .e4m3 => 12 | .e5m2 => 13 | .bf16x2 => 14 | .f16x2 => 15

/-- The first element of a list for which a test holds, replaced; otherwise the element is appended. -/
def upsert {α : Type} (p : α → Bool) (a : α) : List α → List α
  | [] => [a]
  | x :: l => if p x then a :: l else x :: upsert p a l

/-- The first element for which a test holds, changed in place. -/
def alterFirst {α : Type} (p : α → Bool) (f : α → α) : List α → List α
  | [] => []
  | x :: l => if p x then f x :: l else x :: alterFirst p f l

/-- Integer square root by successive bits: the largest r below 2^n with r² ≤ x. -/
def isqrt : Nat → Nat → Nat → Nat
  | 0, _, r => r
  | n + 1, x, r => let r' := r + 2 ^ n; isqrt n x (if r' * r' ≤ x then r' else r)

/-- CRC-32 with the Castagnoli polynomial over bytes in order, bits least significant first, begun with ones and complemented
(R253, R259). (log 90, PRESUMED) -/
def crc32c (bs : List Byte) : BitVec 32 :=
  ~~~(bs.foldl (fun c b => (List.range 8).foldl (fun (c : BitVec 32) _ =>
    if c.getLsbD 0 then (c >>> 1) ^^^ 0x82F63B78#32 else c >>> 1) (c ^^^ b.setWidth 32)) (BitVec.allOnes 32))

end Sys2Proof.Machine
end

