-- ==== Sys2Proof/Machine/State.lean ====
section
/-! DEFINITION. The state of one Nerosh 8400 module, as plain data: threads, warps, blocks and cores; the engines
(matrix unit, jig store, sluice, leat); device memory and translation; the fabric ports and the Canal port; the launch
unit; tenancy; the host sessions, event rings and the security processor; the reasons a step can stop; and the state
after module reset. -/

namespace Sys2Proof.Machine

/-- A memory: address and byte pairs, addresses strictly rising, no byte equal to the zero that an unlisted address
reads as. -/
abbrev Memory := List Host.Cell

/-- Addresses strictly rise and no listed byte is zero. -/
def Memory.wf : Memory → Bool
  | [] => true
  | [(_, b)] => b != 0
  | (a, b) :: (a', b') :: m => b != 0 && decide (a < a') && Memory.wf ((a', b') :: m)

/-- Where a register result lands: a vector register or predicate of one thread, a uniform register of one warp, or
the trap registers that `mtsr` writes. Warps are named by their unique number. -/
inductive Dest where
  | v (warp lane n : Nat)
  | q (warp lane n : Nat)
  | s (warp n : Nat)
  | tcause (warp lane : Nat)
  | tepcLo (warp lane : Nat)
  | tepcHi (warp lane : Nat)
deriving DecidableEq, Repr

/-- How a pending result holds its readers: `fixed` by R34, `held` by the last paragraph of R38, `onModule` and
`fabric` at the deferred blocking points of R146. -/
inductive LandKind where
  | fixed | held | onModule | fabric
deriving DecidableEq, Repr

/-- A result that has not landed yet (R34, R38, R40). `land` is its landing cycle, absent while it is unknown; `lanes`
are the threads that issued it, in the warp of its destination. -/
structure Flight where
  id : Nat
  dest : Dest
  val : W64
  land : Option Nat
  kind : LandKind
  lanes : List Nat
deriving DecidableEq, Repr

/-- A fixed-latency destination in flight by scheduled distance (R35): the register, the thread's scheduled position
at issue, the latency, and the register's old and new values. -/
structure Recent where
  file : Nat
  n : Nat
  at_ : Nat
  lat : Nat
  old : W64
  new : W64
deriving DecidableEq, Repr

/-- The scheduling state of a thread (R145). Eviction is a property of the warp, and the handler class a flag. -/
inductive Run where
  | ready
  | gap (until_ : Nat)
  | lineWait
  | blocked (wait : Nat)
  | busy (owner : Nat)
  | parked (until_ : Nat)
  | stopped
  | ending (at_ : Nat)
  | exited
deriving DecidableEq, Repr

/-- A thread (R132): its lane, PC, vector registers, predicates, ready stamp, scheduling state and the cycle before which it
issues no bundle (R33), the scope of a fence whose conditions it has still to meet, the end of the fence's first 2 c and its bundle's PC (R273),
its trap registers
(R396 to R398), the record of R31, its scheduled position (R35), what it has observed of its core's unperformed writes
(R303), and the task it runs, if it is one. -/
structure Thread where
  lane : Nat
  pc : W64
  v : List W32
  q : BitVec 8
  stamp : Nat
  run : Run
  notBefore : Nat
  fence : Option (Nat × Nat × W64)
  handler : Bool
  entered : Bool
  tcause : W32
  tepc : W64
  torigin : W32
  redo : Bool
  parkPc : W64
  sched : Nat
  recent : List Recent
  seen : Nat
  fwd : List Nat
  task : Option Nat
  doved : Bool
deriving DecidableEq, Repr

/-- The pending expectation of a warp (R77): PC, mask M, expected set E and arrived set. -/
structure Expect where
  pc : W64
  m : W64
  e : W64
  arrived : W64
deriving DecidableEq, Repr

/-- The kinds of matrix operation (R193). -/
inductive MKind where
  | product | load | store | zero
deriving DecidableEq, Repr

/-- A parameter block on its way to the staging entry or staged (R193): its offset, kind and eight words, the cycle at
which it is staged, zero once it is; and what was written meanwhile, bytes of a core's pool and accumulator elements
(R198), the bytes of C that a store writes, where its operands 0 to 2 lie (core, block, offset; R187), and its number. -/
structure MStage where
  id : Nat
  places : List (Option (Nat × Nat × Nat))
  off : Nat
  kind : MKind
  words : List W64
  readyAt : Nat
  taint : List (Nat × Nat × Nat)
  ztaint : List Nat
  spans : List (Nat × Nat × Nat)
deriving DecidableEq, Repr

/-- A warp (R134 to R136): slot, its block by unique number, `$wid`, lane set, uniform registers, jig registers (R200), matrix and
sluice staging (R193, R207), its expectation, its threads, and whether it is evicted (R145), until when the
frame and slot that it left stay taken (R393), since when its wake condition holds, the save area that it lies in: runs of the save pool,
place and length, and the register rows of its frame (R142). -/
structure Warp where
  uid : Nat
  slot : Nat
  block : Nat
  wid : W32
  width : Nat
  laneSet : Nat
  s : List W64
  jigs : List (BitVec 512)
  jigBusy : List (Nat × Nat)
  mstage : Option MStage
  slStage : List (Option W64)
  expect : Option Expect
  threads : List Thread
  evicted : Bool
  freeAt : Nat
  condAt : Option Nat
  area : Option (List (Nat × Nat))
  frame : List Nat := []
deriving DecidableEq, Repr

/-- A weir (R84): target, count and phase. -/
structure Weir where
  t : W32
  c : W32
  p : W32
deriving DecidableEq, Repr

/-- A flume (R365). `e = 0` is unconfigured. -/
structure Flume where
  base : Nat
  e : Nat
  a : Nat
  head : Nat
  tail : Nat
  count : Nat
deriving DecidableEq, Repr

/-- A join counter (R346). -/
structure Join where
  count : W32
  poison : W32
deriving DecidableEq, Repr

/-- A task record (R347): the task's number, which is its age too, the block that runs it, payload and entry PC, its tile
mask, the writes its start waits for (R310), and whether a program has written to its cistern entry. -/
structure TaskRec where
  id : Nat
  block : Nat
  pay : List W32
  entry : W64
  mask : BitVec 8
  deps : List Nat
  wild : Bool
deriving DecidableEq, Repr

/-- Who spawned a task: a thread of a warp, or another task (R359, R360). -/
inductive Parent where
  | thread (warp lane : Nat)
  | task (id : Nat)
deriving DecidableEq, Repr

/-- A task in the join structure (R359, R360): parent, the block whose counter it was spawned on, its counter, mask,
where its views are (tile and view), how far it has come, whether it carries a poison mark from a child, whether a
program overwrote its cistern entry (R347), and the writes that its end releases (R310). -/
structure Child where
  id : Nat
  parent : Parent
  core : Nat
  block : Nat
  counter : Nat
  mask : BitVec 8
  views : List (Nat × Nat)
  viewCore : Nat
  viewBlock : Nat
  ended : Bool
  poisoned : Bool
  marked : Bool
  counted : Bool
  wild : Bool
  deps : List Nat
deriving DecidableEq, Repr

/-- A steal request in a victim's mailbox (R362): the thief's core and block number, and the cycle of the post. -/
structure StealReq where
  core : Nat
  block : Nat
  at_ : Nat
deriving DecidableEq, Repr

/-- A resident block (R137): its slot, launch, index, allocations, weirs, flumes, join counters, cistern, cutting-list
cursor, mailbox, veneer views in use and waves formed. -/
structure Block where
  uid : Nat
  slot : Nat
  launch : Nat
  index : Nat
  row : Nat
  accRow : Nat
  weirs : List Weir
  flumes : List Flume
  joins : List Join
  cistern : List TaskRec
  cistHead : Nat
  reserved : Nat
  cursor : Nat
  mailbox : List StealReq
  viewsUsed : List Nat
  waves : Nat
  started : Bool
  held : Bool
deriving DecidableEq, Repr

/-- The wait of a blocked group (R146) with its saved condition (R407). Registers are indices of uniform registers. -/
inductive Wait where
  | wsync
  | weir (n : Nat) (tok : W32)
  | weirArrive (n : Nat) (tok : W32) (arr : Nat)
  | wfa (ea : Nat) (cmp : W32)
  | deferred (dests : List Dest) (fabric : Bool)
  | flmPush (f : Nat) (val : W32)
  | flmPop (f : Nat) (d : Nat)
  | join (n : Nat) (d : Nat)
  | count (n : Nat) (thr : Option W32) (d : Nat) (deadline : Option Nat)
  | canal (member word : Nat) (cond : Nat) (cmp : W64) (d : Nat) (deadline : Option Nat)
  | leat (handle : W64) (d : Nat) (deadline : Option Nat)
  | fence (scope : Nat)
deriving DecidableEq, Repr

/-- A group at a blocking point: its warp and lanes, its wait, the bundle's PC, the cycle it blocked, the tick at which each
thread's watchdog timer last restarted (R394), the threads that have been reported, and, for a wait on a scratchpad word, the
word that met its condition (R93, R230). -/
structure GWait where
  id : Nat
  warp : Nat
  lanes : List Nat
  wait : Wait
  pc : W64
  since : Nat
  timers : List (Nat × Nat)
  told : List Nat
  met : Option W64
deriving DecidableEq, Repr

/-- A completed matrix operation, for the threads that have not acquired its completion (R197, R198): its number, block and
ticket, the bytes of the accumulator allocation that its Z covers, the bytes of C that it wrote, the weir that it credited, the
results of `mwait` that have still to land, the threads that have acquired the completion (core, warp, lane), and the number at
which the first of them did. -/
structure MDone where
  id : Nat
  block : Nat
  ticket : W32
  lo : Nat
  hi : Nat
  spans : List (Nat × Nat × Nat)
  weir : Option Nat
  waiters : List Nat
  seenBy : List (Nat × Nat × Nat)
  known : Option Nat
deriving DecidableEq, Repr

/-- An entry of the matrix queue (R192, R194). `id` is the number of its `mopf`, `places` where its operands lie, `wild` whether
a save found its parameter block altered (R195). `kdone` is the group reached, `readyAt` the earliest completion, `taint`
and `ztaint` what was written while the operation is outstanding (R198: core, pool address and length; pool address of
an accumulator element), `spans` the bytes of C that a store writes, and `waiters` the pending `mwait` results. -/
structure MOp where
  id : Nat
  places : List (Option (Nat × Nat × Nat))
  wild : Bool
  ticket : W32
  launch : Nat
  block : Nat
  kind : MKind
  off : Nat
  words : List W64
  kdone : Nat
  readyAt : Option Nat
  taint : List (Nat × Nat × Nat)
  ztaint : List Nat
  spans : List (Nat × Nat × Nat)
  waiters : List Nat
deriving DecidableEq, Repr

/-- A chunk of a sluice request in flight: its number, the generation at which its device addresses were translated, and the physical
addresses of its bytes at a source and at a destination in device memory (R421). -/
structure Begun where
  chunk : Nat
  gen : Nat
  src : List Nat
  dst : List Nat
deriving DecidableEq, Repr

/-- A sluice request (R207 to R216). `code` is the state of R216, `landed` the payload bytes landed, `chunks` the chunks
not yet landed, `begun` those of them that are in flight, some bytes of them written already (R295), `kept` the chunks landed of a request that
checks its payload, `far` the cluster blocks that its addresses named at its start. -/
structure SReq where
  handle : W32
  launch : Nat
  block : Nat
  words : List W64
  code : Nat
  landed : Nat
  chunks : List Nat
  begun : List Begun
  kept : List (Nat × List Byte)
  far : List Nat
  deps : List Nat
deriving DecidableEq, Repr

/-- An armed request (R215): the count word's offset, its threshold, and its place in arming order. -/
structure Arm where
  req : SReq
  word : Nat
  thr : W32
deriving DecidableEq, Repr

/-- A weir increment that waits for its arrival's release (R87). -/
structure LateArrival where
  id : Nat
  block : Nat
  weir : Nat
  n : Nat
  deps : List Nat
deriving DecidableEq, Repr

/-- A jig sweep under way (R204): `jop` of a group of a block, at a slot of the bundle at `pc`; the cycle before which its
status does not land; the cycle until which earlier passes of the core's port and the core's earlier writes to its own pool
have to be waited for (R205); whether a save has stopped it, so that its group has to issue the `jop` again; the runs of
the core's pool that others wrote meanwhile (R205); the register that holds its scalar; and the chunk begun, whose elements are
written in part (R295): offset and bytes of each, the index that it stops at, and what stopped it. -/
structure Sweep where
  id : Nat
  block : Nat
  warp : Nat
  lanes : List Nat
  op : Nat
  x : Nat
  y : Nat
  z : Nat
  scalar : W32
  d : Nat
  pc : W64
  slot : Nat
  readyAt : Nat
  after : Nat
  deps : List Nat
  again : Bool
  taint : List (Nat × Nat)
  a : Nat := 0
  part : Option (List (Nat × List Byte) × Nat × Option Nat) := none
deriving DecidableEq, Repr

/-- A line of the instruction store (R12, R17): its address space and address, its bytes, and how often it was fetched
with bad parity (R14); `bad` holds the detail of a failed translation (R419). -/
structure ILine where
  asid : Nat
  va : W64
  data : BitVec 512
  bad : Option W32
  tries : Nat
deriving DecidableEq, Repr

/-- The read-modify-write operations of R126, R226 and R270. -/
inductive AtomOp where
  | add | min | max | and | or | xor | exch | cas
deriving DecidableEq, Repr

/-- What one pass of the scratchpad port does (R39, R122): n bytes read, as an element of a type, into w bits from `sh` on of
a result on its way; bytes stored; a lane's read-modify-write, with the thread and first register of its returned value; a
lane's veneer update (R357); the word of a thread's `wfa` looked at (R92); the block of a warp's `mopf`, or the record of one
of its jig registers, read for some lanes (R193, R201); or the payload of a fabric operation read (R223). -/
inductive PassOp where
  | load (n ty : Nat) (dest : Dest) (sh w : Nat)
  | store (bytes : List Byte)
  | atom (op : AtomOp) (ty n : Nat) (v cmp : Nat) (ret : Option (Nat × Nat × Nat))
  | comb (op : Nat) (x : W32)
  | look (warp lane ea : Nat) (cmp : W32) (pc : W64)
  | stage (warp : Nat) (lanes : List Nat) (id : Nat)
  | jig (warp : Nat) (lanes : List Nat) (n : Nat)
  | payload (id : Nat)
deriving DecidableEq, Repr

/-- A pass that a scratchpad access has still to take: its number, block and warp, its cycle, and the pool address at which it
acts (R39). -/
structure PortPass where
  id : Nat
  block : Nat
  warp : Nat
  at_ : Nat
  addr : Nat
  what : PassOp
deriving DecidableEq, Repr

/-- A core (R132 to R157): partition word, launch slots, blocks, warps, the ended warps whose slots no other warp has taken
(R40, R163), the SRAM pool with the last user of runs of its rows (R415), those that last held a register frame, and the kinds of its accumulator elements (R194),
results in flight, waits, the matrix queue, the sluice, jig sweeps, late arrivals, the millrace with the cycle after its last
move or wave, the instruction store and lines asked for, the group table (R147), until when
the issue port is busy, the passes still to come, the ordinary and the handler tag for which it is reserved (R39, R155), and
when the core last issued. -/
structure Core where
  num : Nat
  partition : Option W32
  lslots : List (Nat × Nat)
  blocks : List Block
  warps : List Warp
  ended : List Warp
  sram : Memory
  users : List (Nat × Nat × Nat)
  framed : List Nat := []
  int64s : List Nat
  flights : List Flight
  waits : List GWait
  mq : List MOp
  mTicket : W32
  mStatus : List (W32 × Nat)
  mdone : List MDone
  slq : List SReq
  slCounter : W32
  slDone : List (W32 × Nat × Nat)
  arms : List Arm
  late : List LateArrival
  sweeps : List Sweep
  millrace : List TaskRec
  taskAt : Nat
  ilines : List ILine
  lineReqs : List (Nat × W64)
  groupTable : List (Nat × Nat × Bool × Bool × W64)
  portFree : Nat
  passes : List PortPass
  reserve : Option (Nat × Bool × Bool × W64)
  reserveH : Option (Nat × Bool × Bool × W64)
  issuedAt : Nat
  corrected : Nat
deriving DecidableEq, Repr

/-- Where a remote request goes: a byte of a block's scratchpad on a core (block by unique number), or a physical
device address. -/
inductive Place where
  | cluster (core block off : Nat)
  | device (pa : Nat)
deriving DecidableEq, Repr

/-- What a remote request does at its place. -/
inductive ReqOp where
  | load (ty : Ty) (count : Nat)
  | store (bytes : List Byte)
  | atom (op : AtomOp) (ty : Ty) (n : Nat) (v cmp : BitVec 128) (ret : Bool)
deriving DecidableEq, Repr

/-- A remote load, store or atomic on its way (R125, R266): cluster stores stand in the outbound buffer until they are
performed (R299). `deps` are the writes that must be performed first (R271, R303), `seen` the number below which its thread
had observed its core's writes at issue (R303, R304), `at_` the cycle of its issue, `gen` the generation of its translation (R421), and `acq` says that its
result is an acquire. -/
structure Req where
  id : Nat
  core : Nat
  warp : Nat
  lane : Nat
  launch : Nat
  place : Place
  what : ReqOp
  d : Nat
  deps : List Nat
  seen : Nat
  at_ : Nat
  readyAt : Nat
  gen : Nat
  acq : Bool
deriving DecidableEq, Repr

/-- A fabric operation that has not received all of its completions (R221, R229): who issued it, its packet with the
payload, the completions still to come, the uniform register that a load or atomic writes and its type, the writes it
waits for, the number below which its threads had observed their core's writes at issue (R303), the copy it makes (source
word, length, bytes sent, the source as it stood at issue, where the source lies: a core's pool or device memory, address,
length and place in the copy, the runs of the copy whose source was written since, where the copy lies at this module in the same
form, and the runs that other writes have replaced there since: R228), whether some of it is
still to be sent, the bytes a load takes from the outbound buffer (R299), and where it is known to be performed: coordinate,
offset and length (R298). -/
structure FabOp where
  id : Nat
  core : Nat
  block : Nat
  warp : Nat
  lanes : List Nat
  launch : Nat
  pkt : Packet
  left : Nat
  dest : Option Nat
  ty : Ty
  deps : List Nat
  src : W64
  len : Nat
  sent : Nat
  image : List Byte
  spans : List (Option Nat × Nat × Nat × Nat)
  taint : List (Nat × Nat)
  dspans : List (Option Nat × Nat × Nat × Nat)
  newer : List (Nat × Nat)
  seen : Nat
  unsent : Bool
  fwd : List (Nat × Byte)
  done : List (W64 × Nat × Nat)
deriving DecidableEq, Repr

/-- A combining slot of a fabric port (R254): the packet of its first contribution, each child's delivery (the child's
link, 29, 30 or 32 for the local child) with its hop count, err and value bytes, and whether the contributions differ
(R227). -/
structure FredSlot where
  pkt : Packet
  kids : List (Nat × Nat × Bool × List Byte)
  bad : Bool
deriving DecidableEq, Repr

/-- A request packet in the inbound queue toward the module's cores and memory: what a store's or a copy's payload has still to
write, as parts of one aligned 8-byte word each (R246, R257, R295), and, once some of it is written to device memory, the generation
of its translation and the physical runs of its payload (R421). -/
structure Inbound where
  pkt : Packet
  left : List (Nat × Nat)
  held : Option (Nat × List (Nat × Nat)) := none
deriving DecidableEq, Repr

/-- A split rule (R241) as two words. -/
structure Rule where
  w0 : W64
  w1 : W64
deriving DecidableEq, Repr

/-- A grid context (R238): axis count, extents, own coordinate, ASID set, rules, allowance, step-set version, and
whether it is active. -/
structure GridCtx where
  num : Nat
  n : Nat
  ext : List Nat
  coord : W64
  asids : BitVec 256
  rules : List Rule
  allowance : Nat
  verMajor : Nat
  verMinor : Nat
  active : Bool
deriving DecidableEq, Repr

/-- An Unpolin link (R250 to R253, R264, R265): whether it is up, its working lanes and those it has trained on, what was
agreed, the step-set version that the peer has named (R336), its stop mask, the packets that wait for a channel, the last 256
flits sent, the flits sent again at the last replay, a count of replays, and the flits that this side has asked for again. -/
structure Link where
  num : Nat
  up : Bool
  working : List Nat
  lanes : List Nat
  major : Nat
  minor : Nat
  caps : BitVec 32
  steps : Nat × Nat × BitVec 32
  stop : BitVec 16
  txq : List Packet
  sent : List (List Byte)
  again : List (List Byte)
  replays : Nat
  asked : List Nat
deriving DecidableEq, Repr

/-- A frame of this module waiting to be sent (R258, R274, R276): its kind and payload, the cycle and core of its issue,
whether it is a release not yet eligible and the writes it waits for, and its ASID and launch. -/
structure OutFrame where
  kind : Nat
  pay : List Byte
  at_ : Nat
  core : Nat
  held : Bool
  deps : List Nat
  asid : Nat
  launch : Nat
deriving DecidableEq, Repr

/-- The Canal port (R258 to R263): group, size, index, whether the group has formed and whether this module has left
it; the replica of the Canal words as (member × 256 + word, value) pairs; the next sequence number to apply; frames
received and not yet applied; the queue; release frames held from before the module left or was configured (R262); the frames last
sent; what the module has put on the splitter; the barge as
this module last passed it on, and when it last held it; and the applied frames that later rules look up: collectives
(sequence number, sender, payload), batches (tag, identifier, position, the selectors of each address space just after
it) and switches (tag, sequence number). -/
structure Canal where
  group : Option Nat
  n : Nat
  index : Nat
  formed : Bool
  left : Bool
  words : List (Nat × W64)
  next : Nat
  held : List Frame
  q : List OutFrame
  orphans : List OutFrame
  sent : List Frame
  out : List Frame
  barge : Option Barge
  bargeAt : Nat
  kind4 : List (Nat × Nat × List Byte)
  batches : List (Nat × Nat × Nat × List (Nat × W64))
  switches : List (Nat × Nat)
  version : Option (Nat × Nat)
deriving DecidableEq, Repr

/-- A message at a receiver (R329, R330): run, sender's coordinate and rank, number, length, the bytes that have come,
and whether a waiting step holds it rather than a receive store. -/
structure LtMsg where
  asid : Nat
  ctx : Nat
  lows : W64
  highs : W64
  key : W32
  src : W64
  rank : Nat
  num : Nat
  total : Nat
  pay : List Byte
  inStep : Bool
deriving DecidableEq, Repr

/-- A delivery that a context has handed over and that is not yet accepted (R330, R439): its number on the wire, the
peer, the message number, the payload, the bytes sent, and whether it is parked. -/
structure Delivery where
  id : Nat
  peer : W64
  num : Nat
  pay : List Byte
  sent : Nat
  parked : Bool
deriving DecidableEq, Repr

/-- A collective context (R323, R279 to R284): die, handle, block and launch; the run block; its admission by the Canal
and its place among the collectives of one key; the step, counters, receive store and deliveries; message numbers by
peer; the counts of the completion record; and whether the word that its `wait` step waits for has met the threshold. -/
structure LtCtx where
  die : Nat
  handle : W32
  core : Nat
  block : Nat
  launch : Nat
  grid : Nat
  asid : Nat
  prog : Nat
  lows : W64
  highs : W64
  key : W32
  weir : Option Nat
  rec_ : Nat
  cn : Bool
  kth : Nat
  admitted : Bool
  step : Nat
  values : List Nat
  trips : List Nat
  store : List LtMsg
  out : List Delivery
  sentNum : List (W64 × Nat)
  takenNum : List (W64 × Nat)
  sentB : Nat
  recvB : Nat
  zeros : Nat
  subn : Nat
  infs : Nat
  nans : Nat
  emax : Nat
  emin : Nat
  bins : List Nat
  err : Bool
  met : Bool
  deps : List Nat
deriving DecidableEq, Repr

/-- The regions that the steps of a run name, from its issue until its threads have acquired its end (R333): die, handle, core,
block, warp and weir of the run, whether it has ended, the regions that steps read or write and those that they write, each with
offset, length and element size, and the bytes of its program from which they were taken (R327). -/
structure HotRun where
  die : Nat
  handle : W32
  core : Nat
  block : Nat
  warp : Nat
  weir : Option Nat
  ended : Bool
  named : List (Nat × Nat × Nat)
  written : List (Nat × Nat × Nat)
  program : List Byte := []
deriving DecidableEq, Repr

/-- The leat engines (R280, R282, R330, R331): the run counter of each die, the contexts in the order of service, the
statuses of ended runs, the early-arrival pool by launch, the first pieces of refused messages in refusal order, the
collectives that this module has admitted by the Canal, and the regions of runs whose ends are not acquired. -/
structure Leat where
  counters : List W32
  ctxs : List LtCtx
  done : List (Nat × W32 × Nat)
  pool : List (Nat × LtMsg)
  refused : List Packet
  admitted : List (Nat × List Byte)
  hot : List HotRun
deriving DecidableEq, Repr

/-- A launch record after its checks (R376 to R381). -/
structure LRec where
  check : Bool
  debug : Bool
  gridsync : Bool
  pinned : Bool
  weightBound : Bool
  kernel : W64
  handler : W64
  partition : W32
  width : Nat
  priority : Nat
  grid : Nat
  axes : Nat
  vregs : Nat
  uregs : Nat
  blocks : Nat
  warps : Nat
  weirs : Nat
  flumes : Nat
  core : Nat
  leatpool : Nat
  scratch : Nat
  accsize : Nat
  preload : W64
  preloadLen : Nat
  saves : Nat
  wdog : Nat
  cistoff : Nat
  cistlen : Nat
  vnrwords : Nat
  vnrpool : Nat
  vnrviews : Nat
  cutoff : Nat
  evring : Nat
  gauges : List W32
  tiles : List W64
  levels : List W32
  ext : List Nat
  bind : W64
  batch : W32
  flumeDescs : List W64
  nsucc : Nat
  succ : List W64
deriving DecidableEq, Repr, Inhabited

/-- A launch the module knows (R381, R382, R386): its handle, ASID, record address, record, status, captured
selectors, when it entered its queue, blocks placed and ended, its gridsync start (0 not yet contributed, 1 contributed, 2 come
back, 3 failed: R240), its first error and dropped events,
whether its batch frame has been queued, its place in the order of admission, and the errc and dropped words last
written to its record. -/
structure Launch where
  handle : Nat
  asid : Nat
  addr : W64
  rec_ : LRec
  status : Nat
  bind : W64
  queuedAt : Nat
  placed : Nat
  ended : Nat
  sync : Nat := 0
  evOpen : Bool := false
  go : Bool
  inError : Bool
  errc : W32
  dropped : W32
  framed : Bool
  order : Nat
  told : W32 × W32
deriving DecidableEq, Repr

/-- A post on its way to the launch unit: the writes it releases, the poster's ASID and the record's address. -/
structure Post where
  deps : List Nat
  asid : Nat
  addr : W64
deriving DecidableEq, Repr

/-- A weight binding (R337). -/
structure Binding where
  num : Nat
  tag : Nat
  abase : W64
  bbase : W64
  size : Nat
  ashr : Nat
  bshr : Nat
  sel : Bool
  rword : Nat
deriving DecidableEq, Repr

/-- A shard (R341, R342): binding, copy, span, deadline, ready word; the virtual address of its staging area, the bytes
staged, the chunks of its sluice request still to land, once it runs, the payload landed so far, and the generation at which its
copy's pages have entered the pond, if they have (R345). -/
structure Shard where
  num : Nat
  asid : Nat
  binding : Nat
  copy : Bool
  off : Nat
  len : Nat
  deadline : Nat
  word : W32
  staging : Nat
  staged : Nat
  chunks : List Nat
  kept : List (Nat × List Byte)
  freed : Option Nat
deriving DecidableEq, Repr

/-- A switch that the host has prepared (R343): ASID, switch number, Canal word, bindings, and the value last posted, if
any. -/
structure Prep where
  asid : Nat
  g : W32
  word : Nat
  mask : W64
  posted : Option W64
deriving DecidableEq, Repr

/-- How far a whole-context save of an ASID has come (R408 to R413). -/
inductive SaveState where
  | none
  | pending (deadline : Nat) (img : W64) (size : Nat)
  | stopped (forced : Bool) (img : W64) (size : Nat)
  | saved (img : W64)
  | restoring (img : W64)
deriving DecidableEq, Repr

/-- What a save keeps of one core (R411): blocks, warps, results in flight, waits, engine queues and the scratchpad
and accumulator bytes of each block. -/
structure SavedCore where
  core : Nat
  blocks : List Block
  warps : List Warp
  flights : List Flight
  waits : List GWait
  mq : List MOp
  mdone : List MDone
  slq : List SReq
  arms : List Arm
  late : List LateArrival
  sweeps : List Sweep
  millrace : List TaskRec
  lslots : List (Nat × Nat)
  scratch : List (Nat × Memory)
  acc : List (Nat × Memory × List Nat)
deriving DecidableEq, Repr

/-- A saved context: its image's address and size, the draw of the bytes that the image was written with, its cores and
its leat contexts. -/
structure Saved where
  asid : Nat
  img : W64
  size : Nat
  key : Nat
  cores : List SavedCore
  leat : List LtCtx
deriving DecidableEq, Repr

/-- An address space (R415, R416, R420). -/
structure Asid where
  num : Nat
  root : Nat
  wFabric : Nat
  wSluice : Nat
  wHome : Nat
  bindings : List Binding
  save : SaveState
deriving DecidableEq, Repr

/-- The translators of R419. -/
inductive Translator where
  | die (n : Nat)
  | sluice (core : Nat)
  | ifetch (core : Nat)
  | port
  | launch
deriving DecidableEq, Repr

/-- A cached leaf (R419): translator, ASID, page base, page size in bytes, physical base and permissions. -/
structure TlbEntry where
  who : Translator
  asid : Nat
  va : Nat
  size : Nat
  pa : Nat
  rd : Bool
  wr : Bool
deriving DecidableEq, Repr

/-- A walk asked for by a held bundle (R419), with the generation at which it began (R421); `failed` once it has found no mapping,
until the bundle issues again. -/
structure Walk where
  who : Translator
  asid : Nat
  va : Nat
  gen : Nat
  failed : Bool
deriving DecidableEq, Repr

/-- A host event record (R418). -/
structure Event where
  type : Nat
  asid : Nat
  flags : Nat
  seq : Nat
  handle : Nat
  core : Nat
  warp : Nat
  lane : Nat
  code : Nat
  pc : W64
  payload : W64
  time : W64
  ring : Nat
  deps : List Nat
deriving DecidableEq, Repr

/-- An event ring (R429): entries written, consumed, and where it lies at the host. -/
structure Ring where
  num : Nat
  k : Nat
  qp : Nat
  entries : W64
  tailAddr : W64
  key : Nat
  tail : Nat
  head : Nat
  written : List Event
deriving DecidableEq, Repr

/-- A host session (R425, R426): its number, role, whether it has proved itself, address spaces, version, capabilities, challenge, the
next seq, the commands held, the replies stored, when it last received a datagram, and the command that opened it. -/
structure Session where
  num : Nat
  tenant : Bool
  proved : Bool
  asids : BitVec 256
  major : Nat
  minor : Nat
  caps : BitVec 32
  challenge : BitVec 512
  next : Nat
  held : List (Nat × Instr)
  replies : List (Nat × Nat × List Byte)
  last : Nat
  opening : Option Cmd := none
deriving DecidableEq, Repr

/-- A reply datagram sent to the host: the version and flags of its header, session, seq, op, status and payload (R424). -/
structure Reply where
  major : Nat
  minor : Nat
  flags : Nat
  session : Nat
  seq : Nat
  op : Nat
  status : Nat
  pay : List Byte
deriving DecidableEq, Repr

/-- A firmware slot (R431, R432): the image's rollback index and digest, absent when it holds no valid image. -/
structure FwImage where
  index : Nat
  digest : BitVec 512
deriving DecidableEq, Repr

/-- The security processor (R430 to R434): two firmware slots, which one runs, the fused rollback index, which slot was
written last, the operator key digest, and the number of the identity key it holds, which also names the certificate for its public half. -/
structure Security where
  slots : List (Option FwImage)
  running : Nat
  fused : Nat
  newest : Nat
  operator : Option (BitVec 512)
  identity : Nat
deriving DecidableEq, Repr

/-- The board (R435 to R437): bring-up step, disabled cores, the arithmetic clock in units of 100 MHz, the power cap
in watts, whether the dies have power, and from when on the clock may step again. -/
structure Board where
  step : Nat
  disabled : List Nat
  clk : Nat
  cap : Nat
  powered : Bool
  stepFrom : Nat := 0
deriving DecidableEq, Repr

/-- The host port (R423): its global addresses beside the link-local one, the lanes that have come up, the priority classes that are paused,
and the congestion notification packets sent. -/
structure HostPort where
  globals : List (BitVec 128)
  lanes : Nat
  paused : List Nat
  notices : Nat
deriving DecidableEq, Repr

/-- An RDMA WRITE of this module to the host (R418, R429): queue pair, region key, host address and bytes. -/
structure HostWrite where
  qp : Nat
  key : Nat
  addr : W64
  bytes : List Byte
deriving DecidableEq, Repr

/-- The host counters of R427's command 0x0090. -/
structure Counters where
  port : Nat
  droppedEvents : Nat
  overruns : Nat
  protocol : Nat
deriving DecidableEq, Repr

/-- A mark of the backwater table (R257): the peer's coordinate, when the mark lapses and when the last request packet
for the peer was injected, in ticks of real time. -/
structure Mark where
  peer : W64
  until_ : Nat
  last : Nat
deriving DecidableEq, Repr

/-- A page in the settling pond (R422), of the size that its leaf mapped, with its generation and the address space of the
invalidation that freed it. -/
structure PondPage where
  pa : Nat
  size : Nat
  gen : Nat
  asid : Nat := 0
deriving DecidableEq, Repr

/-- One module. `agenda` holds the external objects that are on their way, in their order of arrival: packets, flits,
frames, host datagrams, board events; `turn` the host commands whose turn has come (R426); `tick` counts real time in units of
1/5354228880 ns, so that a cycle is a whole number of ticks at every clock of R436; `free` numbers the free values drawn so far;
`next` numbers requests, warps, blocks, tasks and waits; `flitAt` is when backwater flits were last repeated; `opened` is one more than the
last cycle whose issues and what follows them at once are over. `agenda`, `turn`, `opened` and `free` are the model's own
fields. -/
structure Mod where
  agenda : List Instr
  turn : List Instr
  free : Nat
  next : Nat
  opened : Nat
  clock : Nat
  tick : Nat
  cores : List Core
  dram : Memory
  reqs : List Req
  kids : List Child
  walks : List Walk
  tlb : List TlbEntry
  gen : Nat
  pond : List PondPage
  grids : List GridCtx
  links : List Link
  portQ : List Packet
  inQ : List Inbound
  outPkts : List (Nat × Packet)
  flits : List W64
  flitAt : Nat
  fabOps : List FabOp
  freds : List FredSlot
  marks : List Mark
  canal : Canal
  leat : Leat
  posts : List Post
  queue : List Nat
  launches : List Launch
  handles : Nat
  savePool : Option Nat
  saveBase : Nat
  asids : List Asid
  saved : List Saved
  shards : List Shard
  preps : List Prep
  sessions : List Session
  sessionNum : Nat
  grants : List (Nat × BitVec 256)
  rings : List Ring
  events : List Event
  eventSeq : Nat
  replies : List Reply
  roceOut : List (Bool × List Byte)
  hostPort : HostPort
  regions : List Region
  hostWrites : List HostWrite
  boardOut : List (List Nat)
  counters : Counters
  security : Security
  board : Board
deriving DecidableEq, Repr

/-- A slot of the bundle being issued: its number in the line and its word. -/
structure BSlot where
  num : Nat
  word : Slot
deriving DecidableEq, Repr

/-- A fault found while the bundle's instructions run (R31, R32): the lane and warp it concerns, the slot, the cause
of R396, the detail bits, and whether a warp-level instruction raised it. -/
structure FaultRec where
  warp : Nat
  lane : Nat
  slot : Nat
  cause : Nat
  detail : W32
  whole : Bool
deriving DecidableEq, Repr

/-- The bundle being issued (R30, R31). `before` is the module as it stood before the bundle issued: sources and
guards are read from it, and it is restored when a warp-level instruction faults or an instruction holds the bundle.
`todo` are the slots still to run, `slots` all of them, `group` the (warp, lane) pairs of the issue group in lane
order, `dead` those that a per-thread instruction's fault keeps from per-thread effects. -/
structure Issue where
  before : Mod
  core : Nat
  pc : W64
  nextPc : W64
  stall : Nat
  slots : List BSlot
  todo : List BSlot
  cur : Nat
  group : List (Nat × Nat)
  dead : List (Nat × Nat)
  redo : Bool
  faults : List FaultRec
  hold : Bool
  passes : Nat
deriving DecidableEq, Repr

/-- The state: the module, and the bundle that is being issued, if any. -/
structure State where
  now : Mod
  issue : Option Issue
deriving DecidableEq, Repr

/-- Why the machine stops. -/
inductive Fault where
  /-- Raised by `step` alone, when the board has removed power from the dies (R436: the thermal trip; the state of
  every launch is lost) and nothing is left on the agenda. Safe: the manual gives a module without power no further
  step until a reset reaches it. -/
  | noPower
deriving DecidableEq, Repr

/-- Why an instruction has no meaning. -/
inductive Refusal where
  /-- Raised by the dispatcher for a row that has no meaning yet; no row is left so. Safe: the machine stops. -/
  | notModelled (mnemonic : String)
deriving DecidableEq, Repr

/-- A core at reset (R435 step 3 and 4): pools, PC table and jig store clear, counters zero. -/
def Core.idle (num : Nat) : Core :=
  { num := num, partition := none, lslots := [], blocks := [], warps := [], ended := [], sram := [], users := [],
    framed := [], int64s := [], flights := [], waits := [], mq := [], mTicket := 0, mStatus := [], mdone := [], slq := [], slCounter := 0,
    slDone := [], arms := [], late := [], sweeps := [], millrace := [], taskAt := 0, ilines := [],
    lineReqs := [], groupTable := [], portFree := 0, passes := [], reserve := none,
    reserveH := none, issuedAt := 0, corrected := 0 }

/-- The Canal port at reset: idle until configured (R435 step 5). -/
def Canal.idle : Canal :=
  { group := none, n := 0, index := 0, formed := false, left := false, words := [], next := 0, held := [], q := [], orphans := [],
    sent := [], out := [], barge := none, bargeAt := 0, kind4 := [], batches := [], switches := [], version := none }

/-- The module right after reset (R435): every counter zero, the generation 1, and no grid context, ASID, binding,
ring or save pool. (log 3, DESIGN CHOICE; log 6, DESIGN CHOICE) -/
def Mod.reset : Mod :=
  { agenda := [], turn := [], free := 0, next := 1, opened := 0, clock := 0, tick := 0, cores := [], dram := [], reqs := [], kids := [],
    walks := [], tlb := [], gen := 1, pond := [], grids := [], links := [], portQ := [], inQ := [], outPkts := [], flits := [],
    flitAt := 0,
    fabOps := [], freds := [], marks := [], canal := Canal.idle,
    leat := { counters := [0, 0, 0, 0], ctxs := [], done := [], pool := [], refused := [], admitted := [], hot := [] },
    posts := [], queue := [], launches := [], handles := 1, savePool := none, saveBase := 0, asids := [], saved := [],
    shards := [], preps := [], sessions := [], sessionNum := 1, grants := [], rings := [], events := [], eventSeq := 0,
    replies := [], roceOut := [],
    hostPort := { globals := [], lanes := 8, paused := [], notices := 0 }, regions := [],
    hostWrites := [], boardOut := [],
    counters := { port := 0, droppedEvents := 0, overruns := 0, protocol := 0 },
    security := { slots := [some { index := 0, digest := 0 }, none], running := 0, fused := 0, newest := 0,
                  operator := none, identity := 0 },
    board := { step := 6, disabled := [], clk := 24, cap := 2800, powered := true } }

/-- The state right after reset. -/
def State.reset : State := { now := Mod.reset, issue := none }

end Sys2Proof.Machine
end

