-- ==== Sys2Proof/Machine/Ops.lean ====
section
/-! DEFINITION. The named operations that every meaning is written with: byte memories, cores, blocks, warps and
threads, reading and writing registers with their latencies (R34 to R38), the bundle's slots (R30, R31), the
scratchpad, faults, taking a trap and returning from one (R396 to R404). -/

namespace Sys2Proof.Machine

/-- What a step answers. -/
abbrev Out := Host.Outcome State Fault Refusal

/-! ### Byte memories -/

/-- One byte; an unlisted address reads as zero. (log 4, DESIGN CHOICE) -/
def Memory.read : Memory → Nat → Byte
  | [], _ => 0
  | (a, b) :: m, x => if a = x then b else if x < a then 0 else Memory.read m x

/-- One byte written in canonical form. -/
def Memory.write : Memory → Nat → Byte → Memory
  | [], x, v => if v = 0 then [] else [(x, v)]
  | (a, b) :: m, x, v =>
    if x < a then (if v = 0 then (a, b) :: m else (x, v) :: (a, b) :: m)
    else if x = a then (if v = 0 then m else (x, v) :: m)
    else (a, b) :: Memory.write m x v

/-- n bytes from an address on. -/
def Memory.readN (m : Memory) (a : Nat) : Nat → List Byte
  | 0 => []
  | n + 1 => m.read a :: Memory.readN m (a + 1) n

/-- A run of bytes written from an address on. -/
def Memory.writeN (m : Memory) (a : Nat) : List Byte → Memory
  | [] => m
  | b :: bs => Memory.writeN (m.write a b) (a + 1) bs

/-- The entries at addresses below a. -/
def Memory.below (a : Nat) : Memory → Memory
  | [] => []
  | e :: m => if e.1 < a then e :: Memory.below a m else []

/-- The entries at addresses from a on. -/
def Memory.from (a : Nat) : Memory → Memory
  | [] => []
  | e :: m => if e.1 < a then Memory.from a m else e :: m

/-- Addresses lo to hi − 1 made zero (R415). -/
def Memory.clear (m : Memory) (lo hi : Nat) : Memory := m.below lo ++ m.from (max lo hi)

/-- The addresses lo to hi − 1 of a memory, as a memory of its own that begins at 0. -/
def Memory.cut (m : Memory) (lo hi : Nat) : Memory := ((m.from lo).below hi).map fun e => (e.1 - lo, e.2)

/-- A memory placed over another from address lo on. -/
def Memory.paste (m : Memory) (lo : Nat) : Memory → Memory
  | [] => m
  | e :: p => Memory.paste (m.write (lo + e.1) e.2) lo p

/-! ### Finding things -/

/-- A core; one that nothing has touched stands as reset left it (R435). -/
def Mod.core (m : Mod) (c : Nat) : Core := (m.cores.find? fun k => k.num == c).getD (Core.idle c)

/-- A core put back. -/
def Mod.setCore (m : Mod) (k : Core) : Mod := { m with cores := upsert (fun x => x.num == k.num) k m.cores }

/-- A core changed. -/
def Mod.onCore (m : Mod) (c : Nat) (f : Core → Core) : Mod := m.setCore { f (m.core c) with num := c }

/-- A warp of a core by its unique number. -/
def Core.warp? (k : Core) (w : Nat) : Option Warp := k.warps.find? fun x => x.uid == w

/-- A warp changed. -/
def Core.onWarp (k : Core) (w : Nat) (f : Warp → Warp) : Core :=
  { k with warps := alterFirst (fun x => x.uid == w) f k.warps }

/-- A block of a core by its unique number. -/
def Core.block? (k : Core) (b : Nat) : Option Block := k.blocks.find? fun x => x.uid == b

/-- A block changed. -/
def Core.onBlock (k : Core) (b : Nat) (f : Block → Block) : Core :=
  { k with blocks := alterFirst (fun x => x.uid == b) f k.blocks }

/-- A thread of a warp by its lane. -/
def Warp.thread? (w : Warp) (l : Nat) : Option Thread := w.threads.find? fun t => t.lane == l

/-- A thread changed. -/
def Warp.onThread (w : Warp) (l : Nat) (f : Thread → Thread) : Warp :=
  { w with threads := alterFirst (fun t => t.lane == l) f w.threads }

/-- A warp of the module. -/
def Mod.warp? (m : Mod) (c w : Nat) : Option Warp := (m.core c).warp? w

/-- A warp changed. -/
def Mod.onWarp (m : Mod) (c w : Nat) (f : Warp → Warp) : Mod := m.onCore c fun k => k.onWarp w f

/-- A block of the module. -/
def Mod.block? (m : Mod) (c b : Nat) : Option Block := (m.core c).block? b

/-- A block changed. -/
def Mod.onBlock (m : Mod) (c b : Nat) (f : Block → Block) : Mod := m.onCore c fun k => k.onBlock b f

/-- A thread of the module. -/
def Mod.thread? (m : Mod) (c w l : Nat) : Option Thread := (m.warp? c w).bind fun x => x.thread? l

/-- A thread changed. -/
def Mod.onThread (m : Mod) (c w l : Nat) (f : Thread → Thread) : Mod := m.onWarp c w fun x => x.onThread l f

/-- The block of a warp. -/
def Mod.blockOf (m : Mod) (c w : Nat) : Option Block := (m.warp? c w).bind fun x => m.block? c x.block

/-- A launch by its handle. -/
def Mod.launch? (m : Mod) (h : Nat) : Option Launch := m.launches.find? fun l => l.handle == h

/-- A launch changed. -/
def Mod.onLaunch (m : Mod) (h : Nat) (f : Launch → Launch) : Mod :=
  { m with launches := alterFirst (fun l => l.handle == h) f m.launches }

/-- The launch of a warp. -/
def Mod.launchOf (m : Mod) (c w : Nat) : Option Launch := (m.blockOf c w).bind fun b => m.launch? b.launch

/-- The launch record of a warp. -/
def Mod.recOf (m : Mod) (c w : Nat) : LRec := ((m.launchOf c w).map (·.rec_)).getD default

/-- The warp width W (R134). -/
def Mod.widthOf (m : Mod) (c w : Nat) : Nat := ((m.warp? c w).map (·.width)).getD 16

/-- An address space. -/
def Mod.asid? (m : Mod) (a : Nat) : Option Asid := m.asids.find? fun x => x.num == a

/-- An address space changed; a first mention makes it, with the default weights of R416. -/
def Mod.onAsid (m : Mod) (a : Nat) (f : Asid → Asid) : Mod :=
  let x := f ((m.asid? a).getD
    { num := a, root := 0, wFabric := 16, wSluice := 16, wHome := 16, bindings := [], save := .none })
  { m with asids := upsert (fun y => y.num == a) x m.asids }

/-- Whether an address space is stopped by a save, saved, or being restored (R410, R413). -/
def Mod.frozen (m : Mod) (asid : Nat) : Bool :=
  match m.asid? asid with
  | none => false
  | some a => match a.save with
    | .none => false
    | .pending _ _ _ => false
    | _ => true

/-- The ASID of a launch. -/
def Mod.asidOf (m : Mod) (launch : Nat) : Nat := ((m.launch? launch).map (·.asid)).getD 0

/-- The next free value of 64 bits (R10) and the module that has drawn it. (log 5, DESIGN CHOICE) -/
def Mod.draw (m : Mod) : W64 × Mod := (Config.free64 m.free, { m with free := m.free + 1 })

/-- A fresh number for a request, a wait, a warp, a block or a task. -/
def Mod.fresh (m : Mod) : Nat × Mod := (m.next, { m with next := m.next + 1 })

/-! ### Reading registers (R30, R35, R37) -/

/-- The value of a register that some undersized results may or may not have reached: `at_ + lat` beyond the thread's
position makes a read undersized, and it returns the old or the new value. (log 27, DEDUCED) -/
def settleReads (clock key : Nat) (t : Thread) (file n : Nat) (base : W64) : W64 :=
  t.recent.foldl (fun v r =>
    if r.file == file && r.n == n && decide (t.sched < r.at_ + r.lat) then
      (if Config.readsNew clock key n then r.new else r.old)
    else v) base

/-- A vector register as a bundle of the thread reads it now. -/
def Mod.readV (m : Mod) (c w l n : Nat) : W32 :=
  match m.thread? c w l with
  | none => 0
  | some t => (settleReads m.clock (w * 64 + l) t 0 n ((getR t.v n).setWidth 64)).setWidth 32

/-- A predicate as a bundle of the thread reads it now; q0 is true (R6, R19). -/
def Mod.readQ (m : Mod) (c w l n : Nat) : Bool :=
  n == 0 || match m.thread? c w l with
  | none => false
  | some t => (settleReads m.clock (w * 64 + l) t 1 n (if t.q.getLsbD n then 1 else 0)) == 1

/-- A uniform register as some lanes of its warp read it now: an undersized reader, or another group before the
landing, sees the old or the new value (R35, R37). -/
def Mod.readS (m : Mod) (c w : Nat) (lanes : List Nat) (n : Nat) : W64 :=
  match m.warp? c w with
  | none => 0
  | some x =>
    let base := (m.core c).flights.foldl (fun v f =>
      if f.dest == .s w n && f.kind == .fixed && Config.readsNew m.clock (w * 64 + 64) n then f.val else v) (getR x.s n)
    lanes.foldl (fun v l => match x.thread? l with
      | none => v
      | some t => settleReads m.clock (w * 64 + l) t 2 n v) base

/-! ### The bundle being issued -/

/-- The module under change and the bundle. -/
structure Bx where
  m : Mod
  x : Issue
deriving DecidableEq, Repr

/-- The module of a bundle changed. -/
def Bx.on (b : Bx) (f : Mod → Mod) : Bx := { b with m := f b.m }

/-- Whether the guard is true for a thread (R19), as it stood before the bundle (R30). -/
def Issue.guardOn (x : Issue) (h : Hdr) (w l : Nat) : Bool :=
  xor (x.before.readQ x.core w l h.guard.toNat) h.gneg

/-- The threads on which an instruction acts: those of the group whose guard is true; a per-thread instruction leaves
out those that fault, and a warp-level one does not act again for a group that carries the record (R31).
(log 9, DEDUCED) -/
def Issue.active (x : Issue) (wl : Bool) (h : Hdr) : List (Nat × Nat) :=
  x.group.filter fun p => x.guardOn h p.1 p.2 && (if wl then !x.redo else !x.dead.contains p)

/-- A vector register as it stood before the bundle. -/
def Issue.v (x : Issue) (w l n : Nat) : W32 := x.before.readV x.core w l n

/-- A pair of vector registers, low first (R100). -/
def Issue.v64 (x : Issue) (w l n : Nat) : W64 := x.v w l (n + 1) ++ x.v w l n

/-- The lanes of a warp in the group. -/
def Issue.lanes (x : Issue) (w : Nat) : List Nat := (x.group.filter fun p => p.1 == w).map (·.2)

/-- A uniform register as it stood before the bundle. -/
def Issue.s (x : Issue) (w n : Nat) : W64 := x.before.readS x.core w (x.lanes w) n

/-- A predicate as it stood before the bundle. -/
def Issue.q (x : Issue) (w l n : Nat) : Bool := x.before.readQ x.core w l n

/-- A fault found by the instruction that runs (R31, R32, R396). -/
def Bx.fault (b : Bx) (whole : Bool) (w l cause : Nat) (detail : W32) : Bx :=
  { b with x := { b.x with faults := b.x.faults ++
      [{ warp := w, lane := l, slot := b.x.cur, cause := cause, detail := detail, whole := whole }] } }

/-- A fault of a warp-level instruction for the threads on which it acts. -/
def Bx.faultAll (b : Bx) (ps : List (Nat × Nat)) (cause : Nat) : Bx :=
  ps.foldl (fun b p => b.fault true p.1 p.2 cause 0) b

/-- The head slot is taken off the list of those to run, and the rest of the step runs on the bundle.
(log 2, DEDUCED) -/
def slotStep (s : State) (f : Bx → Bx) : Out :=
  match s.issue with
  | none => .next s
  | some x => match x.todo with
    | [] => .next s
    | t :: ts =>
      let b := f { m := s.now, x := { x with todo := ts, cur := t.num } }
      .next { now := b.m, issue := some b.x }

/-- A step that acts on each active thread, in lane order. -/
def perThread (wl : Bool) (h : Hdr) (s : State) (f : Nat → Nat → Bx → Bx) : Out :=
  slotStep s fun b => (b.x.active wl h).foldl (fun b p => f p.1 p.2 b) b

/-- A step that acts once for a group when its guard is true for some thread (R66): the warp and the active lanes. -/
def perWarp (h : Hdr) (s : State) (f : Nat → List Nat → Bx → Bx) : Out :=
  slotStep s fun b => match b.x.active true h with
    | [] => b
    | p :: ps => f p.1 ((p :: ps).map (·.2)) b

/-! ### Register results -/

/-- Whether a write of the thread is undersized: its result would land no later than an earlier one's (R35). -/
def Thread.hurried (t : Thread) (file n lat : Nat) : Bool :=
  t.recent.any fun r => r.file == file && r.n == n && decide (t.sched + lat ≤ r.at_ + r.lat)

/-- The lanes of some threads of a warp whose write is undersized (R35). -/
def Mod.hurried (m : Mod) (c w : Nat) (lanes : List Nat) (file n lat : Nat) : List Nat :=
  lanes.filter fun l => match m.thread? c w l with
    | none => false
    | some t => t.hurried file n lat

/-- Whether an earlier result in the pipes of one of some threads would land no earlier than a later one for the same
register. -/
def Flight.yields (f : Flight) (lanes : List Nat) (g : Flight) : Bool :=
  f.dest == g.dest && f.kind == .fixed && f.lanes.any lanes.contains && match f.land, g.land with
    | some x, some y => decide (y ≤ x)
    | _, _ => false

/-- A result enters the pipes of a core. What has issued before is not cancelled (R40), but of an undersized write of the
threads `hurried` either value stands (R35): the later one gives way, or the earlier ones do. (log 27, DEDUCED) -/
def Core.send (k : Core) (hurried : List Nat) (earlier : Bool) (f : Flight) : Core :=
  if hurried.isEmpty then { k with flights := k.flights ++ [f] }
  else if earlier then k
  else { k with flights := k.flights.filter (fun g => !g.yields hurried f) ++ [f] }

/-- A thread remembers a result that it has issued (R35). -/
def Thread.remember (t : Thread) (file n lat : Nat) (old new : W64) : Thread :=
  { t with recent := t.recent ++ [{ file := file, n := n, at_ := t.sched, lat := lat, old := old, new := new }] }

/-- A fixed-latency result on its way to a destination of some threads of one warp: it lands at the latency plus the
passes of the bundle's earlier accesses (R34, R39, R122), and the threads remember it (R35). -/
def Mod.putFixed (m : Mod) (c w : Nat) (lanes : List Nat) (file n : Nat) (dest : Dest) (old new : W64)
    (lat extra : Nat) : Mod :=
  let m := m.onCore c fun k => k.send (m.hurried c w lanes file n lat)
    (Config.earlierStands (m.clock * 65536 + w * 64 + n))
    { id := 0, dest := dest, val := new, land := some (m.clock + lat + extra), kind := .fixed, lanes := lanes }
  lanes.foldl (fun m l => m.onThread c w l fun t => t.remember file n lat old new) m

/-- A 32-bit result for a vector register of one thread. -/
def Bx.putV (b : Bx) (w l n : Nat) (val : W32) (lat : Nat) (extra : Nat := 0) : Bx :=
  b.on fun m => m.putFixed b.x.core w [l] 0 n (.v w l n) ((b.x.v w l n).setWidth 64) (val.setWidth 64) lat extra

/-- A predicate result; a write to q0 is discarded (R6). -/
def Bx.putQ (b : Bx) (w l n : Nat) (val : Bool) (lat : Nat) : Bx :=
  if n = 0 then b
  else b.on fun m => m.putFixed b.x.core w [l] 1 n (.q w l n) (if b.x.q w l n then 1 else 0) (if val then 1 else 0) lat 0

/-- A uniform result of the group. -/
def Bx.putS (b : Bx) (w n : Nat) (val : W64) (lat : Nat) (extra : Nat := 0) : Bx :=
  b.on fun m => m.putFixed b.x.core w (b.x.lanes w) 2 n (.s w n) (b.x.s w n) val lat extra

/-- A result of type t for a vector register or pair, extended under R100. -/
def Bx.putT (b : Bx) (w l n t r : Nat) (lat : Nat) (extra : Nat := 0) : Bx :=
  if tyWidth t = 64 then
    (b.putV w l n (BitVec.ofNat 32 r) lat extra).putV w l (n + 1) (BitVec.ofNat 32 (r / 2 ^ 32)) lat extra
  else b.putV w l n (BitVec.ofNat 32 (if t < 8 then extend t 32 r else r)) lat extra

/-- A pending result of a uniform register whose readers are held (R38, last paragraph). -/
def Mod.putHeld (m : Mod) (c w : Nat) (lanes : List Nat) (n : Nat) (val : W64) (land : Option Nat) (id : Nat) : Mod :=
  m.onCore c fun k => { k with flights := k.flights ++
    [{ id := id, dest := .s w n, val := val, land := land, kind := .held, lanes := lanes }] }

/-- A result placed in its register: it has landed. -/
def Mod.place (m : Mod) (c : Nat) (d : Dest) (val : W64) : Mod :=
  match d with
  | .v w l n => m.onThread c w l fun t => { t with v := setR t.v n (val.setWidth 32) }
  | .q w l n => m.onThread c w l fun t =>
      { t with q := if n = 0 then t.q else if val = 0 then t.q &&& ~~~(1#8 <<< n) else t.q ||| (1#8 <<< n) }
  | .s w n => m.onWarp c w fun x => { x with s := setR x.s n val }
  | .tcause w l => m.onThread c w l fun t => { t with tcause := val.setWidth 32 }
  | .tepcLo w l => m.onThread c w l fun t =>
      let e := t.tepc.extractLsb' 32 32 ++ val.extractLsb' 0 32
      { t with tepc := e, redo := t.redo && e == t.parkPc }
  | .tepcHi w l => m.onThread c w l fun t =>
      let e := val.extractLsb' 0 32 ++ t.tepc.extractLsb' 0 32
      { t with tepc := e, redo := t.redo && e == t.parkPc }

/-- The warp of a destination. -/
def Dest.warp : Dest → Nat
  | .v w _ _ => w
  | .q w _ _ => w
  | .s w _ => w
  | .tcause w _ => w
  | .tepcLo w _ => w
  | .tepcHi w _ => w

/-- Whether a result has reached its landing cycle. -/
def Flight.due (f : Flight) (clock : Nat) : Bool :=
  match f.land with
  | some x => decide (x ≤ clock)
  | none => false


/-! ### Threads -/

/-- The cycle since which a thread is ready, if it is (R33, R145, R153). -/
def Thread.readySince (t : Thread) (clock : Nat) : Option Nat :=
  if clock < t.notBefore then none
  else match t.run with
    | .ready => some t.stamp
    | .gap u => if u ≤ clock then some (max u t.notBefore) else none
    | _ => none

/-- The thread issues no bundle before a cycle (R33, R81, R89); one at a blocking point or in a jig sweep stays there (R145,
R204). -/
def Thread.holdTill (t : Thread) (u : Nat) : Thread :=
  let t := { t with notBefore := max t.notBefore u }
  match t.run with
  | .blocked _ => t
  | .busy _ => t
  | _ => { t with run := .gap t.notBefore }

/-- A thread that counts as running for an expectation (R77). -/
def Thread.running (t : Thread) : Bool :=
  !t.handler && match t.run with
  | .parked _ => false
  | .ending _ => false
  | .exited => false
  | _ => true

/-- Whether a thread has ended. -/
def Thread.ended (t : Thread) : Bool := t.run == .exited

/-- The latest landing of the fixed results that a thread issued (R40). -/
def Core.lastLanding (k : Core) (w l : Nat) (atLeast : Nat) : Nat :=
  k.flights.foldl (fun h f => if f.kind == .fixed && f.lanes.contains l &&
      f.dest.warp == w then
      max h (f.land.getD 0) else h) atLeast

/-- The latest landing of the fixed results that any thread of a warp issued (R37, R79). -/
def Core.warpLanding (k : Core) (w : Nat) (atLeast : Nat) : Nat :=
  k.flights.foldl (fun h f => if f.kind == .fixed &&
      f.dest.warp == w then
      max h (f.land.getD 0) else h) atLeast

/-- A thread leaves its warp's pending expectation, if it is in it (R78). Completion is looked for afterwards. -/
def Warp.leaveExpect (w : Warp) (i : Nat) : Warp :=
  match w.expect with
  | none => w
  | some e => { w with expect := some { e with e := e.e &&& ~~~(1#64 <<< i), arrived := e.arrived &&& ~~~(1#64 <<< i) } }

/-- The relative lane of a lane (R113). -/
def relLane (width l : Nat) : Nat := l - l / width * width

/-- A wait has made progress: the watchdog timers of its threads restart at a tick (R394). -/
def GWait.restart (g : GWait) (tick : Nat) : GWait := { g with timers := g.timers.map fun p => (p.1, tick) }

/-- Some waits have made progress (R394). -/
def Core.progress (k : Core) (tick : Nat) (p : GWait → Bool) : Core :=
  { k with waits := k.waits.map fun g => if p g then g.restart tick else g }

/-- A thread is no part of the waits that a test picks; a wait without threads is over. -/
def Core.dropWaiter (k : Core) (w l : Nat) (p : GWait → Bool) : Core :=
  let out := fun (g : GWait) => { g with lanes := g.lanes.erase l, timers := g.timers.filter fun t => t.1 != l }
  { k with waits := (k.waits.map fun g => if g.warp == w && p g then out g else g).filter fun g => !g.lanes.isEmpty }

/-- Whether a result is that of a deferred load or atomic, and not of `mwait` (R38, R273). -/
def Flight.ofAccess (f : Flight) : Bool :=
  match f.kind, f.dest with
  | .fabric, _ => true
  | .onModule, .v _ _ _ => true
  | _, _ => false

/-- Whether a wait of R394 waits for a result: a bundle for a deferred destination of its own, a fence for its thread's
deferred loads and atomics. -/
def GWait.awaits (g : GWait) (f : Flight) : Bool :=
  match g.wait with
  | .deferred ds _ => ds.contains f.dest
  | .fence _ => f.ofAccess && f.dest.warp == g.warp && f.lanes.any g.lanes.contains
  | _ => false

/-- Every result that a test picks lands, earliest issued first; that is progress for the waits on it (R394). -/
def Mod.landWhere (m : Mod) (c : Nat) (p : Flight → Bool) : Mod :=
  let fs := (m.core c).flights
  (fs.filter p).foldl (fun m f => m.place c f.dest f.val)
    (m.onCore c fun k => ({ k with flights := fs.filter fun f => !p f } : Core).progress m.tick fun g =>
      (fs.filter p).any g.awaits)

/-- A thread leaves the expectation of its warp (R78, R394). -/
def Mod.leave (m : Mod) (c w l : Nat) : Mod :=
  (m.onWarp c w fun x => x.leaveExpect (relLane x.width l)).onCore c fun k =>
    (k.progress m.tick fun g => g.warp == w && g.wait == .wsync).dropWaiter w l fun g => g.wait == .wsync

/-- What holds a thread besides the bundle that it issued last: a wait that it is part of (R146), or the jig sweep of its
group (R204). (log 76, DEDUCED) -/
def Core.heldBy (k : Core) (w l : Nat) : Option Run :=
  match k.waits.find? fun g => g.warp == w && g.lanes.contains l with
  | some g => some (.blocked g.id)
  | none => (k.sweeps.find? fun s => s.warp == w && s.lanes.contains l).map fun s => .busy s.id

/-- The first error of a launch is recorded and the launch is marked in error (R396, R403). -/
def Mod.launchError (m : Mod) (h : Nat) (errc : W32) : Mod :=
  m.onLaunch h fun l => { l with inError := true, errc := if l.inError then l.errc else errc }

/-! ### Taking a trap and returning from one -/

/-- `$torigin` of a thread at a park (R398). -/
def torigin (slot block : Nat) (task redo : Bool) (wid : W32) : W32 :=
  BitVec.ofNat 32 (slot % 256 + block % 16 * 256 + (if task then 4096 else 0) + (if redo then 8192 else 0) +
    wid.toNat % 2 ^ 15 * 65536 + wid.toNat / 2 ^ 31 * 2 ^ 31)

/-- A task thread's poison (R358). -/
def Mod.poison (m : Mod) (t : Thread) : Mod :=
  match t.task with
  | none => m
  | some id => { m with kids := alterFirst (fun k => k.id == id) (fun k => { k with poisoned := true }) m.kids }

/-- A thread's execution ends: it takes part in nothing more (R82). Its results that have not landed are discarded
where all their threads have ended (R40). (log 33, DEDUCED) -/
def Mod.finish (m : Mod) (c w l : Nat) : Mod :=
  let m := (m.onThread c w l fun t => { t with run := .exited, handler := false }).onCore c fun k =>
    k.dropWaiter w l fun _ => true
  let gone := fun (k : Nat) => match m.thread? c w k with | none => true | some t => t.ended
  m.onCore c fun k => { k with flights := k.flights.filter fun f =>
    !(f.lanes.contains l && f.lanes.all gone &&
      f.dest.warp == w) }

/-- A fault in the handler, or a trap of a launch without one, ends the thread as `exit` does, max(S, 1) c after the bundle
issued: the launch is in error, a task thread is poisoned (R82, R403). -/
def Mod.dieInHandler (m : Mod) (c w l : Nat) (cause : W32) : Mod :=
  let m := match m.blockOf c w with
    | none => m
    | some b => m.launchError b.launch cause
  let m := match m.thread? c w l with
    | none => m
    | some t => m.poison t
  (m.leave c w l).onThread c w l fun t => { t with run := .ending (max t.notBefore m.clock) }

/-- TAKING A TRAP (R399): the thread leaves its group and its expectation, `$tcause`, `$tepc` and `$torigin` are
written, and it stays parked until the results it issued have landed; a trap taken in the handler ends the thread
(R403). -/
def Mod.park (m : Mod) (c w l : Nat) (cause slot : Nat) (detail : W32) (tepc : W64) (redo : Bool) : Mod :=
  let code : W32 := BitVec.ofNat 32 (cause + slot * 256) ||| (detail <<< (16 : Nat))
  match m.warp? c w, m.thread? c w l with
  | some x, some t =>
    if t.handler then m.dieInHandler c w l code
    else
      let bs := ((m.block? c x.block).map (·.slot)).getD 0
      let h := (m.core c).lastLanding w l m.clock
      (m.leave c w l).onThread c w l fun t =>
        { t with tcause := code, tepc := tepc, torigin := torigin x.slot bs t.task.isSome redo x.wid, redo := redo,
                 parkPc := tepc, entered := false, run := .parked h }
  | _, _ => m

/-- Entry at the handler (R399): the PC becomes the launch's handler entry, the thread takes the handler class and the
stamp of this cycle; a launch without a handler ends the thread. A wait that the bundle of the trap began holds the
handler's first bundle. (log 76, DEDUCED) -/
def Mod.enterHandler (m : Mod) (c w l : Nat) : Mod :=
  match m.launchOf c w, m.thread? c w l with
  | some la, some t =>
    if la.rec_.handler = 0 then m.dieInHandler c w l t.tcause
    else
      let run := ((m.core c).heldBy w l).getD .ready
      m.onThread c w l fun t =>
        { t with pc := la.rec_.handler, handler := true, entered := true, stamp := m.clock, run := run, recent := [] }
  | _, _ => m

/-- RETURN FROM A TRAP (R94, R402): the thread leaves the handler class and goes on at `$tepc`, a control transfer,
with its registers as they stand and with the record of R31. -/
def Mod.tret (m : Mod) (c w l : Nat) (pc : W64) : Mod :=
  m.onThread c w l fun t => { t.holdTill t.notBefore with pc := pc, handler := false, entered := true }

/-! ### The scratchpad (R71, R121, R143) -/

/-- Where an allocation's byte lies in the core's pool: rows of 768 bytes (R139, R143). -/
def Block.at_ (b : Block) (off : Nat) : Nat := b.row * 768 + off

/-- A core's outstanding matrix operations, from their `mopf` on, and its jig sweeps remember that n bytes at an address
of core c's pool were written (R198, R205). (log 32, DEDUCED) -/
def Core.touch (k : Core) (c a n : Nat) : Core :=
  { k with
    mq := k.mq.map fun o => { o with taint := o.taint ++ [(c, a, n)] },
    warps := k.warps.map fun w => { w with mstage := w.mstage.map fun s => { s with taint := s.taint ++ [(c, a, n)] } },
    sweeps := if k.num = c then k.sweeps.map fun s => { s with taint := s.taint ++ [(a, n)] } else k.sweeps }

/-- Whether two byte ranges meet. -/
def overlaps (a n b k : Nat) : Bool := decide (a < b + k) && decide (b < a + n)

/-- What a count word says (R220): done, expected. -/
def countDone (v : Nat) : Nat := v % 2 ^ 32

/-- The expected field of a count word (R220). -/
def countExpected (v : Nat) : Nat := v / 2 ^ 32 % 2 ^ 30

/-- Whether a count word meets the condition of `fwait` (R230). -/
def countMet (thr : Option W32) (v : Nat) : Bool := decide ((thr.map (·.toNat)).getD (countExpected v) ≤ countDone v)

/-- The waits on a scratchpad word examine it when it is written (R93, R230); a write to the word of a wait on address is
progress (R394). (log 23, DEDUCED) -/
def Core.examineWaits (k : Core) (tick a n : Nat) : Core :=
  { k with waits := k.waits.map fun g =>
      match (k.warp? g.warp).bind fun w => k.block? w.block with
      | none => g
      | some b =>
        if g.met.isSome then g
        else match g.wait with
          | .wfa ea cmp =>
            let v := leNat (k.sram.readN (b.at_ ea) 4)
            if overlaps a n (b.at_ ea) 4 then
              { g.restart tick with met := if v = cmp.toNat then none else some (BitVec.ofNat 64 v) }
            else g
          | .count i thr _ _ =>
            let v := leNat (k.sram.readN (b.at_ (8 * i)) 8)
            if overlaps a n (b.at_ (8 * i)) 8 && countMet thr v then { g with met := some (BitVec.ofNat 64 v) } else g
          | _ => g }

/-- An armed request put into ascending threshold order, after those of equal threshold (R215). -/
def insertArm (x : Arm) : List Arm → List Arm
  | [] => [x]
  | y :: l => if x.thr.toNat < y.thr.toNat then x :: y :: l else y :: insertArm x l

/-- The writes of a core that are not performed, and its passes still to come. -/
def Mod.coreWrites (m : Mod) (c : Nat) : List Nat :=
  (m.core c).passes.map (·.id) ++ (m.reqs.filter fun r => r.core == c && (match r.what with
    | .load _ _ => false
    | _ => true)).map (·.id) ++ (m.fabOps.filter fun o => o.core == c && o.pkt.op != 2).map (·.id)

/-- The armed requests whose count word a write has brought to their threshold enter the queue; that write acquires, so that they
wait for the writes given too (R215, R308). (log 31, DEDUCED) -/
def Core.fireArms (k : Core) (acquired : List Nat) (a n : Nat) : Core :=
  let fires := fun (x : Arm) => match k.block? x.req.block with
    | none => false
    | some b => overlaps a n (b.at_ x.word) 4 &&
        decide (x.thr.toNat ≤ leNat (k.sram.readN (b.at_ x.word) 4))
  let go := (k.arms.filter fires).foldl (fun l x => insertArm x l) []
  { k with arms := k.arms.filter fun x => !fires x,
           slq := k.slq ++ go.map fun x => { x.req with deps := x.req.deps ++ acquired } }

/-- The run of a copy that n bytes at an address of a core's pool, or of device memory, touch through one of its spans. -/
def spanHit (where_ : Option Nat) (a n : Nat) (s : Option Nat × Nat × Nat × Nat) : Option (Nat × Nat) :=
  if s.1 == where_ && overlaps s.2.1 s.2.2.1 a n then
    let lo := max s.2.1 a
    some (s.2.2.2 + (lo - s.2.1), min (s.2.1 + s.2.2.1) (a + n) - lo)
  else none

/-- The source bytes of outstanding copies that n bytes at an address of a core's pool, or of device memory, touch are
remembered, and the bytes of their copies at this module that are written over (R228). -/
def Mod.touchCopies (m : Mod) (where_ : Option Nat) (a n : Nat) : Mod :=
  { m with fabOps := m.fabOps.map fun o => if o.spans.isEmpty && o.dspans.isEmpty then o else
      { o with taint := o.taint ++ o.spans.filterMap (spanHit where_ a n),
               newer := o.newer ++ o.dspans.filterMap (spanHit where_ a n) } }

/-- Bytes written to device memory. -/
def Mod.dramWrite (m : Mod) (pa : Nat) (bs : List Byte) : Mod :=
  Mod.touchCopies { m with dram := m.dram.writeN pa bs } none pa bs.length

/-- Whether a request writes. -/
def Req.writes (r : Req) : Bool :=
  match r.what with
  | .load _ _ => false
  | _ => true

/-- Whether a write is still to be performed. -/
def Mod.unperformed (m : Mod) (id : Nat) : Bool :=
  m.reqs.any (fun r => r.id == id && r.writes) || m.fabOps.any (fun o => o.id == id && o.pkt.op != 2) ||
    m.cores.any fun k => k.passes.any fun p => p.id == id

/-- Whether every write of a set is performed. -/
def Mod.allPerformed (m : Mod) (ids : List Nat) : Bool := ids.all fun i => !m.unperformed i

/-- The `wait` steps that have begun on a word of a core's pool examine it after a write (R281, R326). -/
def Mod.examineLeat (m : Mod) (c a n : Nat) : Mod :=
  let one := fun (x : LtCtx) => match (if x.core = c then m.block? c x.block else none) with
    | none => x
    | some b =>
      let w := leNat ((m.core c).sram.readN (b.at_ (x.prog + 8 * x.step)) 8)
      let word := b.at_ (8 * bitsOf w 33 18)
      if x.admitted = true ∧ m.allPerformed x.deps = true ∧ bitsOf w 0 4 = 13 ∧ overlaps a n word 4 = true ∧ bitsOf w 51 13 ≤ leNat ((m.core c).sram.readN word 4) then
        { x with met := true } else x
  if m.leat.ctxs.isEmpty then m else { m with leat := { m.leat with ctxs := m.leat.ctxs.map one } }

/-- The engines that hold bytes of a core's pool as operands remember that they were written; where the matrix unit of a core
writes them, that core's own operations see it in their order instead (R197, R198, R205, R228). -/
def Mod.touchAll (m : Mod) (unit : Option Nat) (c a n : Nat) : Mod :=
  let one := fun (k : Core) => if unit = some k.num then { k with sweeps := (k.touch c a n).sweeps } else k.touch c a n
  Mod.touchCopies { m with cores := m.cores.map one } (some c) a n

/-- Bytes written to a core's pool: the engines that hold them as operands remember it, and the waits and armed requests
on the words written examine them. -/
def Mod.poolWriteRaw (m : Mod) (unit : Option Nat) (c a : Nat) (bs : List Byte) : Mod :=
  let m := m.touchAll unit c a bs.length
  (m.onCore c fun k =>
    (({ k with sram := k.sram.writeN a bs } : Core).examineWaits m.tick a bs.length).fireArms
      (if k.arms.isEmpty then [] else m.coreWrites c) a bs.length).examineLeat c a
      bs.length

/-- The bytes of a veneer view of a launch (R353). -/
def viewBytes (r : LRec) : Nat := (4 * r.vnrwords + 7) / 8 * 8

/-- The elements of a block's held veneer views that n bytes at an address of the pool touch (R357). -/
def Block.heldElems (b : Block) (r : LRec) (a n : Nat) : List Nat :=
  b.viewsUsed.flatMap fun v => (List.range r.vnrwords).filterMap fun e =>
    let at_ := b.at_ (r.vnrpool + v * viewBytes r + 4 * e)
    if overlaps at_ 4 a n then some at_ else none

/-- The elements of held veneer views of a core that n bytes at an address touch (R357). -/
def Mod.heldElems (m : Mod) (c a n : Nat) : List Nat :=
  (m.core c).blocks.flatMap fun b => b.heldElems (((m.launch? b.launch).map (·.rec_)).getD default) a n

/-- The address in the pool of a cistern entry of a block: the i-th from the head (R350). -/
def cisternAt (r : LRec) (b : Block) (i : Nat) : Nat :=
  b.at_ (r.cistoff + 64 * ((b.cistHead + i) % r.cistlen))

/-- A block's tasks whose cistern entries n bytes of the pool at an address touch are marked (R347). -/
def Block.markEntries (b : Block) (r : LRec) (a n : Nat) : Block :=
  { b with cistern := b.cistern.zipIdx.map fun p =>
      if overlaps (cisternAt r b p.2) 64 a n then { p.1 with wild := true } else p.1 }

/-- The tasks whose cistern entries n bytes of a core's pool at an address touch are marked (R347). -/
def Mod.markCisterns (m : Mod) (c a n : Nat) : Mod :=
  let rec_ := fun (b : Block) => ((m.launch? b.launch).map (·.rec_)).getD default
  m.onCore c fun k => { k with blocks := k.blocks.map fun b =>
    if b.cistern.isEmpty then b else b.markEntries (rec_ b) a n }

/-- Bytes written to a core's pool by anything but the veneer unit: elements of held views that they touch become
undefined (R357), and tasks whose cistern entries they touch are marked (R347). -/
def Mod.poolWriteBy (m : Mod) (unit : Option Nat) (c a : Nat) (bs : List Byte) : Mod :=
  let m := m.markCisterns c a bs.length
  (m.heldElems c a bs.length).foldl (fun m e =>
    Mod.poolWriteRaw { m with free := m.free + 1 } unit c e ((List.range 4).map fun i => Config.freeByte m.free i))
    (m.poolWriteRaw unit c a bs)

/-- Bytes written to a core's pool by the veneer unit: tasks whose cistern entries they touch are marked (R347, R357). -/
def Mod.veneerWrite (m : Mod) (c a : Nat) (bs : List Byte) : Mod := (m.markCisterns c a bs.length).poolWriteRaw none c a bs

/-- Bytes written to a core's pool by anything but the veneer and matrix units. -/
def Mod.poolWrite (m : Mod) (c a : Nat) (bs : List Byte) : Mod := m.poolWriteBy none c a bs

/-- The elements of outstanding leat runs that n bytes at an address of a core's pool touch, in regions that a function picks:
address and size (R333). -/
def Mod.hotElems (m : Mod) (pick : HotRun → List (Nat × Nat × Nat)) (c a n : Nat) : List (Nat × Nat) :=
  m.leat.hot.flatMap fun h => match (if h.core = c then m.block? c h.block else none) with
    | none => []
    | some b => (pick h).flatMap fun r =>
      if overlaps (b.at_ r.1) r.2.1 a n then
        (List.range ((n + r.2.2 - 1) / r.2.2 + 1)).filterMap fun i =>
          let e := b.at_ r.1 + (max a (b.at_ r.1) - b.at_ r.1) / r.2.2 * r.2.2 + i * r.2.2
          if overlaps e r.2.2 a n && decide (e < b.at_ r.1 + r.2.1) then some (e, r.2.2) else none
      else []

/-- Bytes written to a core's pool by a thread: elements of regions that an outstanding leat run reads or writes become
undefined where the write touches them (R333). (log 91, DEDUCED) -/
def Mod.threadWrite (m : Mod) (c a : Nat) (bs : List Byte) : Mod :=
  (m.hotElems (·.named) c a bs.length).foldl (fun m e =>
    Mod.poolWrite { m with free := m.free + 1 } c e.1 ((List.range e.2).map fun i => Config.freeByte m.free i))
    (m.poolWrite c a bs)

/-- Bytes written to a block's scratchpad. -/
def Mod.swrite (m : Mod) (c : Nat) (b : Block) (off : Nat) (bs : List Byte) : Mod := m.poolWrite c (b.at_ off) bs

/-- The runs of pools that outstanding stores of the matrix unit are writing, or have written without any thread's having
acquired it: core, address, length (R198). -/
def Core.storing (k : Core) : List (Nat × Nat × Nat) :=
  (k.mq.flatMap fun o => if o.kind == .store then o.spans else []) ++
    (k.mdone.flatMap fun d => if d.known.isNone then d.spans else []) ++
    k.warps.flatMap fun w => match w.mstage with
      | some s => if s.kind == .store then s.spans else []
      | none => []

/-- n bytes read at an address of a core's pool, free values among them where some runs of pools cover them. -/
def Mod.hideRuns (m : Mod) (spans : List (Nat × Nat × Nat)) (c a : Nat) (bs : List Byte) : List Byte :=
  (bs.zipIdx).map fun p =>
    if spans.any fun t => t.1 == c && overlaps t.2.1 t.2.2 (a + p.2) 1 then Config.freeByte m.free (a + p.2) else p.1

/-- n bytes of a core's pool as a thread or an engine reads them: a byte that an outstanding store of the matrix unit is
writing reads as an undefined value (R198). (log 28, DEDUCED) -/
def Mod.poolRead (m : Mod) (c a n : Nat) : List Byte :=
  m.hideRuns (m.cores.flatMap Core.storing) c a ((m.core c).sram.readN a n)

/-- n bytes of a core's pool as a thread reads them: what an outstanding leat run writes reads as an undefined value (R333).
(log 91, DEDUCED) -/
def Mod.threadRead (m : Mod) (c a n : Nat) : List Byte :=
  let hot := m.hotElems (·.written) c a n
  ((m.poolRead c a n).zipIdx).map fun p =>
    if hot.any fun e => overlaps e.1 e.2 (a + p.2) 1 then Config.freeByte m.free (a + p.2) else p.1

/-- Whether a thread comes after the completion of a matrix operation: it has acquired it, or has acquired anything since another
thread did. (log 32, DEDUCED) -/
def Mod.afterDone (m : Mod) (d : MDone) (t : Nat × Nat × Nat) : Bool :=
  d.seenBy.contains t || match d.known with
    | none => false
    | some n => decide (n < ((m.thread? t.1 t.2.1 t.2.2).map (·.seen)).getD 0)

/-- The runs of C that some completed stores of the matrix unit have written, of whose completion one of some threads (core, warp,
lane) does not know (R197, R198). -/
def Mod.unseenRuns (m : Mod) (ts : List (Nat × Nat × Nat)) : List (Nat × Nat × Nat) :=
  m.cores.flatMap fun k => k.mdone.flatMap fun d => if ts.all (m.afterDone d) then [] else d.spans

/-- n bytes of a core's pool as some threads (core, warp, lane) read them: what a completed store of the matrix unit has written is
an undefined value to one that has not acquired the completion (R198). -/
def Mod.readBy (m : Mod) (ts : List (Nat × Nat × Nat)) (c a n : Nat) : List Byte :=
  m.hideRuns (m.unseenRuns ts) c a (m.threadRead c a n)

/-- Some threads of a core have acquired the completion of some matrix operations (R197). -/
def Mod.learnDone (m : Mod) (c w : Nat) (ls : List Nat) (p : Core → MDone → Bool) : Mod :=
  let ts := ls.map fun l => (c, w, l)
  let one := fun (k : Core) (d : MDone) => if p k d then
    { d with seenBy := d.seenBy ++ ts.filter (fun t => !d.seenBy.contains t), known := some (d.known.getD m.next) } else d
  { m with cores := m.cores.map fun k => if k.mdone.any (p k) then { k with mdone := k.mdone.map (one k) } else k }

/-- A thread of a warp has acquired the ends of some runs: their regions are ordinary again (R283, R333). -/
def Mod.coolRuns (m : Mod) (p : HotRun → Bool) : Mod :=
  if m.leat.hot.any p then { m with leat := { m.leat with hot := m.leat.hot.filter fun h => !p h } } else m

/-- n bytes of a block's scratchpad. -/
def Mod.sread (m : Mod) (c : Nat) (b : Block) (off n : Nat) : List Byte := m.poolRead c (b.at_ off) n

/-- n bytes of the scratchpad of a warp's block as some of its threads read them, as a number. -/
def Mod.sreadOf (m : Mod) (c w : Nat) (ls : List Nat) (off n : Nat) : Nat :=
  match m.blockOf c w with
  | none => 0
  | some b => leNat (m.readBy (ls.map fun l => (c, w, l)) c (b.at_ off) n)

/-- A number written to the scratchpad of a warp's block in n bytes. -/
def Mod.swriteOf (m : Mod) (c w off n val : Nat) : Mod :=
  match m.blockOf c w with
  | none => m
  | some b => m.threadWrite c (b.at_ off) (leBytes n val)

/-- The launch's scratch size, against which range checks are made (R143). -/
def Mod.scratchOf (m : Mod) (c w : Nat) : Nat := (m.recOf c w).scratch

/-- The cause of a scratchpad access of n bytes at ea that must be aligned on `al`: alignment 0x07, range 0x08
(R71, R121). (log 93, DESIGN CHOICE) -/
def accessFault (ea al n size : Nat) : Option Nat :=
  if ea % al ≠ 0 then some 0x07 else if size < ea + n then some 0x08 else none

/-! ### Addresses and passes -/

/-- ea of format M (R24). -/
def Issue.ea (x : Issue) (f : FmtM) (w l : Nat) : Nat :=
  ((if f.bk then x.s w f.base.toNat else (x.v w l f.base.toNat).setWidth 64) + f.off.signExtend 64).toNat

/-- The 8-byte words that n bytes at ea touch. -/
def wordsOf (ea n : Nat) : List Nat := (List.range ((ea % 8 + n + 7) / 8)).map fun i => ea / 8 + i

/-- The passes of an access to a list of words, each with its bank: the largest count of distinct words in one bank
(R39). -/
def passesOf (words : List Nat) : Nat :=
  let ws := words.eraseDups
  ws.foldl (fun p x => max p (ws.filter fun y => y % 96 == x % 96).length) 1

/-- The passes of an access in which every lane counts by itself (R127). -/
def passesEach (words : List Nat) : Nat :=
  words.foldl (fun p x => max p (words.filter fun y => y % 96 == x % 96).length) 1

/-- The bundle's accesses so far have taken these passes (R122); the core's port is busy for them (R39). -/
def Bx.addPasses (b : Bx) (p : Nat) : Bx :=
  let n := b.x.passes + p
  { x := { b.x with passes := n },
    m := Mod.onCore { b.m with free := b.m.free + 1 } b.x.core fun k => { k with portFree := b.m.clock + n } }

/-! ### Writes not yet performed (R298, R303) -/

/-- The writes that a release by some threads of one warp covers: their own, those they read by forwarding, and those
of their core that they have seen (R303), as far as they are not performed; a scratchpad access that still has passes to take
is not (R39). (log 29, DEDUCED) -/
def Mod.releaseSet (m : Mod) (c w : Nat) (lanes : List Nat) : List Nat :=
  let ts := lanes.filterMap fun l => m.thread? c w l
  let seen := ts.foldl (fun a t => max a t.seen) 0
  let fwd := ts.flatMap (·.fwd)
  ((m.core c).passes.filter fun p => p.warp == w || decide (p.id < seen)).map (·.id) ++
  (m.reqs.filter fun r => r.writes && ((r.core == c && r.warp == w && lanes.contains r.lane) ||
      (r.core == c && decide (r.id < seen)) || fwd.contains r.id)).map (·.id) ++
    (m.fabOps.filter fun o => o.pkt.op != 2 && ((o.core == c && o.warp == w && lanes.any o.lanes.contains) ||
      (o.core == c && decide (o.id < seen)) || fwd.contains o.id)).map (·.id)

/-- Threads acquire: from now on their releases cover every write of their core that stands unperformed (R303,
R304). (log 29, DEDUCED) -/
def Mod.acquire (m : Mod) (c w : Nat) (lanes : List Nat) : Mod :=
  lanes.foldl (fun m l => m.onThread c w l fun t => { t with seen := m.next }) m

/-! ### Waits (R145, R146) -/

/-- A thread enters a wait; one that parks, is stopped or has ended stays so, and the wait holds it afterwards (R145). -/
def Thread.stopAt (t : Thread) (id : Nat) : Thread :=
  match t.run with
  | .parked _ => t
  | .stopped => t
  | .ending _ => t
  | .exited => t
  | _ => { t with run := .blocked id }

/-- Threads of a warp enter a blocking point. -/
def Mod.block (m : Mod) (c w : Nat) (lanes : List Nat) (wait : Wait) (pc : W64) : Mod :=
  let id := m.next
  let m := Mod.onCore { m with next := m.next + 1 } c fun k => { k with waits := k.waits ++
    [{ id := id, warp := w, lanes := lanes, wait := wait, pc := pc, since := m.clock,
       timers := lanes.map fun l => (l, m.tick), told := [], met := none }] }
  lanes.foldl (fun m l => m.onThread c w l fun t => t.stopAt id) m

/-- A thread whose wait has ended: another wait that its bundle began goes on to hold it, else it is in gap until the cycle
given and its own of R33 (R145). (log 76, DEDUCED) -/
def Thread.wakeUp (t : Thread) (id : Nat) (other : Option Run) (free : Nat) : Thread :=
  let t := { t with notBefore := max t.notBefore free }
  if t.run == .blocked id then { t with run := other.getD (.gap t.notBefore) } else t

/-- A wait ends: its threads are in gap until the cycle given (R145). -/
def Mod.wake (m : Mod) (c : Nat) (g : GWait) (free : Nat) : Mod :=
  let m := m.onCore c fun k => { k with waits := k.waits.filter fun x => x.id != g.id }
  g.lanes.foldl (fun m l => m.onThread c g.warp l fun t => t.wakeUp g.id ((m.core c).heldBy g.warp l) free) m

/-- Threads issue no bundle before a cycle (R33, R37). -/
def Mod.holdTill (m : Mod) (c w : Nat) (lanes : List Nat) (u : Nat) : Mod :=
  lanes.foldl (fun m l => m.onThread c w l fun t => t.holdTill u) m

/-! ### Events to the host (R418) -/

/-- The events in the device queue: every one that waits but those of `evnt`, which found room in their ring (R98, R418). -/
def Mod.queuedEvents (m : Mod) : List Event := m.events.filter fun e => e.type != 1

/-- A host event joins the events that wait to be written to their ring; beyond 4096 in the device queue its oldest is dropped and
counted. -/
def Mod.event (m : Mod) (e : Event) : Mod :=
  let e := { e with seq := m.eventSeq, time := BitVec.ofNat 64 m.clock }
  if e.type == 1 || decide (m.queuedEvents.length < 4096) then { m with events := m.events ++ [e], eventSeq := m.eventSeq + 1 }
  else { m with events := (m.events.eraseP fun x => x.type != 1) ++ [e], eventSeq := m.eventSeq + 1,
                counters := { m.counters with droppedEvents := m.counters.droppedEvents + 1 } }

/-- An event about a thread of a warp. -/
def Mod.threadEvent (m : Mod) (type c w lane code : Nat) (pc payload : W64) : Mod :=
  match m.launchOf c w, m.warp? c w with
  | some la, some x => m.event
      { type := type, asid := la.asid, flags := 0, seq := 0, handle := la.handle, core := c, warp := x.slot,
        lane := lane, code := code, pc := pc, payload := payload, time := 0, ring := la.rec_.evring, deps := [] }
  | _, _ => m

/-- An event without a thread, into ring 0. -/
def Mod.plainEvent (m : Mod) (type asid flags code : Nat) (payload : W64) : Mod :=
  m.event { type := type, asid := asid, flags := flags, seq := 0, handle := 0, core := 0xFFFF, warp := 0, lane := 0,
            code := code, pc := 0, payload := payload, time := 0, ring := 0, deps := [] }

end Sys2Proof.Machine
end

