-- ==== Sys2Proof/Machine/Float.lean ====
section
/-! DEFINITION. Numbers of the floating-point formats as exact values, their rounding (R164 to R174), the sign of zero
sums (R183), the float comparisons (R54, R107), the conversions (R108), and Podric blocks (R168 to R171). -/

namespace Sys2Proof.Machine

/-- An exact value: NaN, an infinity, or (−1)^neg · m · 2^e (R165). -/
inductive Num where
  | nan
  | inf (neg : Bool)
  | fin (neg : Bool) (m : Nat) (e : Int)
deriving DecidableEq, Repr

/-- A floating-point format (R164): width, fraction bits, bias, whether it has infinities. -/
structure FFmt where
  w : Nat
  p : Nat
  bias : Nat
  infs : Bool
deriving DecidableEq, Repr

/-- The format of a float type code (R53, R164); a packed pair's element format. -/
def ffmt (t : Nat) : FFmt :=
  match t with
  | 8 => ⟨16, 10, 15, true⟩
  | 15 => ⟨16, 10, 15, true⟩
  | 9 => ⟨16, 7, 127, true⟩
  | 14 => ⟨16, 7, 127, true⟩
  | 11 => ⟨64, 52, 1023, true⟩
  | 12 => ⟨8, 3, 7, false⟩
  | 13 => ⟨8, 2, 15, true⟩
  | _ => ⟨32, 23, 127, true⟩

/-- binary32. -/
def f32 : FFmt := ffmt 10

/-- binary64. -/
def f64 : FFmt := ffmt 11

/-- The all-ones exponent field. -/
def FFmt.emax (f : FFmt) : Nat := 2 ^ (f.w - 1 - f.p) - 1

/-- The largest finite encoding (R164). -/
def FFmt.maxFin (f : FFmt) : Nat :=
  if f.infs then f.emax * 2 ^ f.p - 1 else f.emax * 2 ^ f.p + 2 ^ f.p - 2

/-- The canonical NaN (R164). -/
def FFmt.qnan (f : FFmt) : Nat :=
  if f.infs then f.emax * 2 ^ f.p + 2 ^ (f.p - 1) else f.emax * 2 ^ f.p + 2 ^ f.p - 1

/-- The sign bit. -/
def FFmt.signBit (f : FFmt) (neg : Bool) : Nat := if neg then 2 ^ (f.w - 1) else 0

/-- The value of an encoding (R165, R166). -/
def unF (f : FFmt) (x : Nat) : Num :=
  let neg := decide (x / 2 ^ (f.w - 1) % 2 = 1)
  let e := x / 2 ^ f.p % 2 ^ (f.w - 1 - f.p)
  let m := x % 2 ^ f.p
  if e = 0 then .fin neg m (1 - (f.bias : Int) - f.p)
  else if f.infs && e == f.emax then (if m = 0 then .inf neg else .nan)
  else if !f.infs && e == f.emax && m == 2 ^ f.p - 1 then .nan
  else .fin neg (2 ^ f.p + m) ((e : Int) - f.bias - f.p)

/-- m · 2^k as the nearest integer, ties to even (R172). -/
def roundShift (m : Nat) (k : Int) : Nat :=
  match k with
  | .ofNat k => m * 2 ^ k
  | .negSucc k =>
    let d := 2 ^ (k + 1)
    let q := m / d
    let r := m % d
    if 2 * r < d then q else if d < 2 * r then q + 1 else if q % 2 = 0 then q else q + 1

/-- `round_ne(x, fmt)` for a floating-point format, as an encoding (R172). -/
def roundNe (f : FFmt) (x : Num) : Nat :=
  match x with
  | .nan => f.qnan
  | .inf neg => f.signBit neg + (if f.infs then f.maxFin + 1 else f.maxFin)
  | .fin neg m e =>
    if m = 0 then f.signBit neg
    else
      let top : Int := max ((Nat.log2 m : Int) + e) (1 - (f.bias : Int))
      let n := roundShift m (e - (top - f.p))
      let bits := ((top + f.bias) * (2 ^ f.p : Nat) + n - (2 ^ f.p : Nat)).toNat
      f.signBit neg + (if f.maxFin < bits then (if f.infs then f.maxFin + 1 else f.maxFin) else bits)

/-- `round_ne(x, integer)` of a finite value (R172). -/
def roundInt (neg : Bool) (m : Nat) (e : Int) : Int :=
  let n : Int := roundShift m e
  if neg then -n else n

/-- The exact product (R101, R179): ∞ × 0 is NaN; signs multiply. -/
def Num.mul (a b : Num) : Num :=
  match a, b with
  | .nan, _ => .nan
  | _, .nan => .nan
  | .inf s, .inf t => .inf (s != t)
  | .inf s, .fin t m _ => if m = 0 then .nan else .inf (s != t)
  | .fin s m _, .inf t => if m = 0 then .nan else .inf (s != t)
  | .fin s m e, .fin t n g => .fin (s != t) (m * n) (e + g)

/-- The sign turned. -/
def Num.neg : Num → Num
  | .nan => .nan
  | .inf s => .inf (!s)
  | .fin s m e => .fin (!s) m e

/-- Whether a value is NaN. -/
def Num.isNan : Num → Bool
  | .nan => true
  | _ => false

/-- The value times 2^k, exactly (R176). -/
def Num.scale (k : Int) : Num → Num
  | .fin s m e => .fin s m (e + k)
  | x => x

/-- An integer as an exact value; zero is +0. -/
def Num.ofInt (x : Int) : Num := .fin (decide (x < 0)) x.natAbs 0

/-- A signed multiple of 2^lo, from a value whose exponent is at least lo. -/
def Num.units (lo : Int) : Num → Int
  | .fin s m e => let n : Int := m * 2 ^ (e - lo).toNat; if s then -n else n
  | _ => 0

/-- The exact sum of a list of addends (R101, R180, R183). -/
def Num.sum (xs : List Num) : Num :=
  if xs.any Num.isNan then .nan
  else if xs.contains (.inf false) then (if xs.contains (.inf true) then .nan else .inf false)
  else if xs.contains (.inf true) then .inf true
  else
    let lo := xs.foldl (fun a x => match x with | .fin _ _ e => if e < a then e else a | _ => a) 0
    let t := xs.foldl (fun a x => a + x.units lo) 0
    if t = 0 then .fin (xs.all fun x => match x with | .fin s m _ => s && m == 0 | _ => false) 0 0
    else .fin (decide (t < 0)) t.natAbs lo

/-- The exact sum of two values. -/
def Num.add (a b : Num) : Num := Num.sum [a, b]

/-- Compare two values that are not NaN: a < b, with −0 equal to +0 (R54). -/
def Num.lt (a b : Num) : Bool :=
  match a, b with
  | .nan, _ => false
  | _, .nan => false
  | .inf s, .inf t => s && !t
  | .inf s, .fin _ _ _ => s
  | .fin _ _ _, .inf t => !t
  | .fin s m e, .fin t n g =>
    let lo := if e < g then e else g
    decide ((Num.fin s m e).units lo < (Num.fin t n g).units lo)

/-- The float conditions of R54 by code. -/
def floatCond (c : Nat) (a b : Num) : Bool :=
  let un := a.isNan || b.isNan
  match c with
  | 0 => !un && !a.lt b && !b.lt a
  | 1 => un || a.lt b || b.lt a
  | 2 => a.lt b
  | 3 => !un && !b.lt a
  | 4 => b.lt a
  | 5 => !un && !a.lt b
  | 6 => !un
  | _ => un

/-- The sign bit of a value that is not NaN. -/
def Num.isNeg : Num → Bool
  | .nan => false
  | .inf s => s
  | .fin s _ _ => s

/-- The ordering of R107, in which −0 lies below +0. -/
def Num.below (a b : Num) : Bool := a.lt b || (!b.lt a && a.isNeg && !b.isNeg)

/-- The smaller (or larger) of two encodings under R107; a NaN gives way to a number. -/
def fMinMax (f : FFmt) (max : Bool) (x y : Nat) : Nat :=
  let a := unF f x
  let b := unF f y
  if a.isNan then (if b.isNan then f.qnan else y)
  else if b.isNan then x
  else if max then (if a.below b then y else x) else (if b.below a then y else x)

/-- `round_ne(a + b, fmt)` on encodings (R106). -/
def fAdd (f : FFmt) (x y : Nat) : Nat := roundNe f ((unF f x).add (unF f y))

/-- `round_ne(a − b, fmt)` on encodings (R106). -/
def fSub (f : FFmt) (x y : Nat) : Nat := roundNe f ((unF f x).add (unF f y).neg)

/-- `round_ne(a · b, fmt)` on encodings (R106). -/
def fMul (f : FFmt) (x y : Nat) : Nat := roundNe f ((unF f x).mul (unF f y))

/-- `round_ne(a · b + c, fmt)` on encodings (R106). -/
def fFma (f : FFmt) (x y z : Nat) : Nat := roundNe f (((unF f x).mul (unF f y)).add (unF f z))

/-- The bits [lo, lo + 16) fused per half of a packed pair (R106). -/
def hFma (f : FFmt) (x y z : Nat) : Nat :=
  fFma f (bitsOf x 0 16) (bitsOf y 0 16) (bitsOf z 0 16) +
    2 ^ 16 * fFma f (bitsOf x 16 16) (bitsOf y 16 16) (bitsOf z 16 16)

/-- Bit 31 cleared or inverted, a NaN made canonical (R107). -/
def fSign (flip : Bool) (x : Nat) : Nat :=
  match unF f32 x with
  | .nan => f32.qnan
  | _ => if flip then x ^^^ 2 ^ 31 else x % 2 ^ 31

/-- The least and the greatest value of an integer type (R167). -/
def intRange (t : Nat) : Int × Int :=
  let w := tyWidth t
  if signed t then (-(2 ^ (w - 1) : Nat), (2 ^ (w - 1) : Nat) - 1) else (0, (2 ^ w : Nat) - 1)

/-- An integer held to a type's range (R108), as w bits. -/
def saturate (t : Nat) (x : Int) : Nat :=
  let r := intRange t
  wrap (tyWidth t) (if x < r.1 then r.1 else if r.2 < x then r.2 else x)

/-- A stored value of any scalar type as an exact value. -/
def readNum (t x : Nat) : Num := if t < 8 then Num.ofInt (toI t x) else unF (ffmt t) x

/-- An exact value stored as any scalar type (R108, R172). -/
def writeNum (t : Nat) (x : Num) : Nat :=
  if t < 8 then
    match x with
    | .nan => 0
    | .inf s => saturate t (if s then (intRange t).1 else (intRange t).2)
    | .fin s m e => saturate t (roundInt s m e)
  else roundNe (ffmt t) x

/-- `vcvt`: a value of type s converted to type d (R108). -/
def convert (s d x : Nat) : Nat := writeNum d (readNum s (x % 2 ^ tyWidth s))

/-! ### Podric blocks -/

/-- The value of a block element (R168); a NaN block holds NaNs. -/
def blockVal (m e mant : Nat) : Num :=
  if e = 255 then .nan
  else
    let v := toS m mant
    .fin (decide (v < 0)) v.natAbs ((e : Int) - 127 - ((m : Int) - 2))

/-- Whether |a| < |b| for finite values. -/
def Num.absLt (a b : Num) : Bool :=
  match a, b with
  | .fin _ m e, .fin _ n g => (Num.fin false m e).lt (.fin false n g)
  | _, _ => false

/-- `pack` of R170: the exponent byte and the mantissas, as m-bit fields. -/
def packBlock (m : Nat) (xs : List Num) : Nat × List Nat :=
  if xs.any (fun x => match x with | .fin _ _ _ => false | _ => true) then (255, xs.map fun _ => 0)
  else
    match xs.foldl (fun a x => if a.absLt x then x else a) (.fin false 0 0) with
    | .fin _ am ae =>
      if am = 0 then (0, xs.map fun _ => 0)
      else
        let e : Int := (Nat.log2 am : Int) + ae + 127
        let E : Int := if e < 0 then 0 else if 254 < e then 254 else e
        let u : Int := E - 127 - ((m : Int) - 2)
        let lim : Int := (2 ^ (m - 1) : Nat) - 1
        (E.toNat, xs.map fun x => match x with
          | .fin s n g =>
            let v := roundInt s n (g - u)
            wrap m (if v < -lim then -lim else if lim < v then lim else v)
          | _ => 0)
    | _ => (255, xs.map fun _ => 0)

/-- The mantissa string of a block as a number, element 0 lowest (R169). -/
def mantString (m : Nat) : List Nat → Nat
  | [] => 0
  | x :: xs => x % 2 ^ m + 2 ^ m * mantString m xs

end Sys2Proof.Machine
end

