-- ==== Sys2Proof/Machine/Special.lean ====
section
/-! DEFINITION. The special functions of R111 and R112: exact quotients and roots with a sticky bit, and 2^x, log₂ x,
sin x and cos x as enclosures in fixed point whose precision grows until both ends round to one binary32 value. -/

namespace Sys2Proof.Machine

/-- The quotient of two positive magnitudes with a sticky bit in the last place: rounds as the exact quotient. -/
def quot (s : Bool) (m n : Nat) (e g : Int) : Num :=
  let k := 64 + Nat.log2 n
  let q := m * 2 ^ k / n
  .fin s (2 * q + (if m * 2 ^ k % n = 0 then 0 else 1)) (e - g - k - 1)

/-- IEEE 754 division (R112). -/
def Num.div (a b : Num) : Num :=
  match a, b with
  | .nan, _ => .nan
  | _, .nan => .nan
  | .inf _, .inf _ => .nan
  | .inf s, .fin t _ _ => .inf (s != t)
  | .fin s _ _, .inf t => .fin (s != t) 0 0
  | .fin s m e, .fin t n g =>
    if n = 0 then (if m = 0 then .nan else .inf (s != t))
    else if m = 0 then .fin (s != t) 0 0
    else quot (s != t) m n e g

/-- 1 as an exact value. -/
def oneNum : Num := .fin false 1 0

/-- The square root with a sticky bit: rounds as the exact root (R111, R112). -/
def Num.sqrt (a : Num) : Num :=
  match a with
  | .nan => .nan
  | .inf s => if s then .nan else .inf false
  | .fin s m e =>
    if m = 0 then .fin s 0 0
    else if s then .nan
    else
      let odd := (e % 2).toNat
      let x := m * 2 ^ (128 + odd)
      let r := isqrt (Nat.log2 x / 2 + 1) x 0
      .fin false (2 * r + (if r * r = x then 0 else 1)) ((e - odd - 128) / 2 - 1)

/-- 1/√a: √(1/a), the quotient carried far enough that the root's sticky bit holds (R111). -/
def Num.rsqrt (a : Num) : Num :=
  match a with
  | .nan => .nan
  | .inf s => if s then .nan else .fin false 0 0
  | .fin s m e =>
    if m = 0 then .inf s
    else if s then .nan
    else
      let odd := (e % 2).toNat
      -- 1/√(m·2^odd · 2^(e − odd)): the root of 2^(2k)/(m·2^odd) is 2^k/√(m·2^odd)
      let y := m * 2 ^ odd
      let k := 128 + Nat.log2 y
      let x := 2 ^ (2 * k) / y
      let r := isqrt (Nat.log2 x / 2 + 1) x 0
      .fin false (2 * r + (if r * r * y = 2 ^ (2 * k) then 0 else 1)) (-((e - odd) / 2) - k - 1)

/-! ### Fixed point: a value v stands for v / 2^P -/

/-- Σ t / (2k + 1) with t divided by d at each step, alternating in sign when asked: arc tangents of 1/n. -/
def atanSum : Nat → Nat → Nat → Nat → Bool → Int
  | 0, _, _, _, _ => 0
  | fuel + 1, t, d, k, alt =>
    (t / (2 * k + 1) : Nat) + (if alt then -(atanSum fuel (t / d) d (k + 1) alt) else atanSum fuel (t / d) d (k + 1) alt)

/-- π (Machin), within 2^12 units. -/
def piFix (P : Nat) : Int :=
  16 * atanSum P (2 ^ P / 5) 25 0 true - 4 * atanSum P (2 ^ P / 239) 57121 0 true

/-- ln 2 as twice the inverse hyperbolic tangent of 1/3, within 2^12 units. -/
def ln2Fix (P : Nat) : Int := 2 * atanSum P (2 ^ P / 3) 9 0 false

/-- Σ t·x^k/k! from t on: e^x for t = 1. -/
def expSum : Nat → Nat → Int → Int → Nat → Int
  | 0, _, _, t, _ => t
  | fuel + 1, P, x, t, k => t + (if t = 0 then 0 else expSum fuel P x ((t * x).fdiv (2 ^ P : Nat) / k) (k + 1))

/-- Σ (−1)^j t·x^(2j)/((k)(k+1)…): sine from t = x, k = 2, cosine from t = 1, k = 1. -/
def trigSum : Nat → Nat → Int → Int → Nat → Int
  | 0, _, _, t, _ => t
  | fuel + 1, P, xx, t, k =>
    t - (if t = 0 then 0 else trigSum fuel P xx ((t * xx).fdiv (2 ^ P : Nat) / (k * (k + 1))) (k + 2))

/-- Σ z^(2k+1)/(2k+1) from t = z: the inverse hyperbolic tangent. -/
def atanhSum : Nat → Nat → Int → Int → Nat → Int
  | 0, _, _, _, _ => 0
  | fuel + 1, P, zz, t, k =>
    if t = 0 then 0 else t / (2 * k + 1) + atanhSum fuel P zz ((t * zz).fdiv (2 ^ P : Nat)) (k + 1)

/-- m · 2^e in P fraction bits, rounded down. -/
def toFix (P : Nat) (m : Nat) (e : Int) : Nat :=
  match e + P with
  | .ofNat k => m * 2 ^ k
  | .negSucc k => m / 2 ^ (k + 1)

/-- A fixed-point integer as an exact value. -/
def fixNum (P : Nat) (v : Int) (shift : Int) : Num := .fin (decide (v < 0)) v.natAbs (shift - P)

/-- An enclosure of 2^a for −160 < a < 160: fixed-point ends and a power of two. -/
def exp2Fix (P : Nat) (s : Bool) (m : Nat) (e : Int) : Int × Int :=
  let v : Int := if s then -(toFix P m e : Int) else toFix P m e
  let n := v.fdiv (2 ^ P : Nat)
  let f := v - n * (2 ^ P : Nat)
  (expSum P P ((f * ln2Fix P).fdiv (2 ^ P : Nat)) (2 ^ P : Nat) 1, n)

/-- log₂ of m · 2^e in fixed point. -/
def log2Fix (P : Nat) (m : Nat) (e : Int) : Int :=
  let l := Nat.log2 m
  let one : Int := (2 ^ P : Nat)
  let y : Int := toFix P m (-(l : Int))
  let z := ((y - one) * one).fdiv (y + one)
  let ln := 2 * atanhSum P P ((z * z).fdiv one) z 0
  (e + l) * one + (ln * one).fdiv (ln2Fix P)

/-- sin or cos of m · 2^e in P fraction bits, by reduction modulo π/2 (R111). -/
def trigFix (P : Nat) (cosine : Bool) (s : Bool) (m : Nat) (e : Int) : Int :=
  let W := P + 192
  let x : Int := toFix W m e
  let h := (piFix (W + 160)).fdiv (2 ^ 161 : Nat)
  let hp := piFix (W + 160)
  let k := x.fdiv h
  let r := x - (k * hp).fdiv (2 ^ 161 : Nat)
  let rr := (r * r).fdiv (2 ^ W : Nat)
  let sn := trigSum W W rr r 2
  let cs := trigSum W W rr (2 ^ W : Nat) 1
  let q := ((if cosine then k + 1 else k) % 4).toNat
  let v := match q with
    | 0 => sn
    | 1 => cs
    | 2 => -sn
    | _ => -cs
  (if s && !cosine then -v else v).fdiv (2 ^ 192 : Nat)

/-- The binary32 rounding of a real whose fixed-point approximations `f P` are each within 2^14 units: the first
precision at which both ends of the enclosure round alike decides. (log 10, DEDUCED) -/
def refine (f : Nat → Int × Int) : List Nat → Nat
  | [] => f32.qnan
  | P :: Ps =>
    let v := f P
    let lo := roundNe f32 (fixNum P (v.1 - 16384) v.2)
    let hi := roundNe f32 (fixNum P (v.1 + 16384) v.2)
    if lo = hi then lo else refine f Ps

/-- The precisions tried. (log 10, DEDUCED) -/
def precisions : List Nat := [192, 384, 768, 1536]

/-- `vrcp` (R111, R112). -/
def fRcp (x : Nat) : Nat := roundNe f32 (oneNum.div (unF f32 x))

/-- `vrsq` (R111, R112). -/
def fRsq (x : Nat) : Nat := roundNe f32 (unF f32 x).rsqrt

/-- `vsqrt` (R111, R112). -/
def fSqrt (x : Nat) : Nat := roundNe f32 (unF f32 x).sqrt

/-- `vdiv` (R111, R112). -/
def fDiv (x y : Nat) : Nat := roundNe f32 ((unF f32 x).div (unF f32 y))

/-- `vexp2` (R111, R112); 2^n for an integer n is exact. -/
def fExp2 (x : Nat) : Nat :=
  match unF f32 x with
  | .nan => f32.qnan
  | .inf s => roundNe f32 (if s then .fin false 0 0 else .inf false)
  | .fin s m e =>
    if m = 0 then roundNe f32 oneNum
    else if 0 ≤ e - 8 || (Num.fin false 160 0).lt (.fin false m e) then
      roundNe f32 (if s then .fin false 0 0 else .inf false)
    else
      let a := (Num.fin s m e)
      if a.lt (.fin true 150 0) || !((Num.fin true 150 0).lt a) then roundNe f32 (.fin false 0 0)
      else
        let n := roundInt s m e
        if !(a.lt (Num.ofInt n)) && !((Num.ofInt n).lt a) then roundNe f32 (.fin false 1 n)
        else refine (fun P => exp2Fix P s m e) precisions

/-- `vlog2` (R111, R112); the logarithm of a power of two is exact. -/
def fLog2 (x : Nat) : Nat :=
  match unF f32 x with
  | .nan => f32.qnan
  | .inf s => roundNe f32 (if s then .nan else .inf false)
  | .fin s m e =>
    if m = 0 then roundNe f32 (.inf true)
    else if s then f32.qnan
    else if 2 ^ Nat.log2 m = m then roundNe f32 (Num.ofInt (e + Nat.log2 m))
    else refine (fun P => (log2Fix P m e, 0)) precisions

/-- `vsin` (R111, R112). -/
def fSin (x : Nat) : Nat :=
  match unF f32 x with
  | .nan => f32.qnan
  | .inf _ => f32.qnan
  | .fin s m e =>
    if m = 0 then x else refine (fun P => (trigFix P false s m e, 0)) precisions

/-- `vcos` (R111, R112). -/
def fCos (x : Nat) : Nat :=
  match unF f32 x with
  | .nan => f32.qnan
  | .inf _ => f32.qnan
  | .fin s m e =>
    if m = 0 then roundNe f32 oneNum else refine (fun P => (trigFix P true s m e, 0)) precisions

end Sys2Proof.Machine
end

