-- ==== Sys2Proof/Machine/Operands.lean ====
section
/-! DEFINITION. The operand forms: format V's operand b of every kind (R22, R68, R100), register runs of memory
accesses (R100, R120), and the uniform operands of formats E and S. -/

namespace Sys2Proof.Machine

/-- The type code in minor bits [3:0] (R53, R55). -/
def tyOfMinor (m : BitVec 8) : Nat := m.toNat % 16

/-- The code in minor bits [7:4] (R55). -/
def hiOfMinor (m : BitVec 8) : Nat := m.toNat / 16

/-- Operand a of a uniform instruction as 64 bits. -/
def Issue.ua (x : Issue) (f : FmtV) (w : Nat) : W64 := x.s w f.a.toNat

/-- Operand b of a uniform instruction: a register, or the sign-extended immediate (R68). -/
def Issue.ub (x : Issue) (f : FmtV) (w : Nat) : W64 := if f.bk = 2 then imm64 f.imm16 else x.s w f.b.toNat

/-- A vector operand of width w as a number (R100). -/
def Issue.vw (x : Issue) (w l : Nat) (t n : Nat) : Nat :=
  if tyWidth t = 64 then (x.v64 w l n).toNat else (x.v w l n).toNat % 2 ^ tyWidth t

/-- Operand b of a vector instruction at a type's width (R22, R100). -/
def Issue.vb (x : Issue) (f : FmtV) (w l t : Nat) : Nat :=
  if f.bk = 0 then x.vw w l t f.b.toNat
  else if f.bk = 1 then (x.s w f.b.toNat).toNat % 2 ^ tyWidth t
  else (imm64 f.imm16).toNat % 2 ^ tyWidth t

/-- Whether a vector instruction is warp-bound because operand b is a uniform register (R57). -/
def isBound (f : FmtV) : Bool := f.bk == 1

/-- The registers that an access of `count` elements of type t takes, as one number, low register first (R100, R120):
elements below 32 bits take a register each. -/
def Issue.vrun (x : Issue) (w l d : Nat) : Nat → Nat
  | 0 => 0
  | n + 1 => (x.v w l d).toNat + 2 ^ 32 * x.vrun w l (d + 1) n

/-- Consecutive registers written from one number, low register first. -/
def Bx.putRun (b : Bx) (w l d : Nat) (r lat extra : Nat) : Nat → Bx
  | 0 => b
  | n + 1 => Bx.putRun (b.putV w l d (BitVec.ofNat 32 r) lat extra) w l (d + 1) (r / 2 ^ 32) lat extra n

/-- Elements in an access by the count field (R120). -/
def elemCount (k : Nat) : Nat := if k = 0 then 1 else if k = 1 then 2 else 4

/-- The type of a scratchpad access (R120). -/
def elemTy (f : FmtM) : Nat := f.aux.toNat % 16

/-- The bytes of a scratchpad access (R120). -/
def elemBytes (f : FmtM) : Nat := tyWidth (f.aux.toNat % 16) / 8 * elemCount (f.aux.toNat / 16 % 4)

/-- The registers of a scratchpad access (R120). -/
def elemRegs (f : FmtM) : Nat := max 1 (elemBytes f / 4)

/-- The value that a load of some bytes leaves in its registers: 8- and 16-bit elements are extended (R121). -/
def loadVal (t raw : Nat) : Nat := if tyWidth t < 32 then extend t 32 raw else raw

/-- A uniform operand of format E or S. -/
def Issue.u (x : Issue) (w : Nat) (r : BitVec 9) : W64 := x.s w r.toNat

end Sys2Proof.Machine
end

