-- ==== Sys2Proof/Machine/Flags.lean ====
section
/-! DEFINITION. The predicates: the integer and float conditions of R54 as results of the compares (R70, R104, R107),
and the writing of a compare's result. -/

namespace Sys2Proof.Machine

/-- An integer compare at a type's width and signedness (R54, R70). -/
def cmpInt (minor : BitVec 8) (x y : Nat) : Bool :=
  intCond (hiOfMinor minor) (toI (tyOfMinor minor) x) (toI (tyOfMinor minor) y)

/-- A binary32 compare (R54, R107). -/
def cmpF32 (minor : BitVec 8) (x y : Nat) : Bool := floatCond (hiOfMinor minor) (unF f32 x) (unF f32 y)

/-- The result of a vector compare: the predicate, and the register of the second form (R104). -/
def Bx.putCmp (b : Bx) (f : FmtV) (w l : Nat) (r : Bool) : Bx :=
  let b := b.putQ w l f.qd.toNat r 4
  if f.aux = 1 then b.putV w l f.d.toNat (if r then 1 else 0) 4 else b

/-- The condition of `brc` on v[a] against zero (R73). -/
def brcTaken (minor : BitVec 8) (a : W32) : Bool := cmpInt minor a.toNat 0

end Sys2Proof.Machine
end

