-- ==== Sys2Proof/Machine/VecInt.lean ====
section
/-! DEFINITION. Vector integer instructions (R102 to R104). -/

namespace Sys2Proof.Machine

/-- A vector instruction of one result: each active thread writes d at the type's width, 4 c after issue (R34, R100). -/
def vecInt (f : FmtV) (h : Hdr) (s : State) (r : Issue → Nat → Nat → Nat) : Out :=
  perThread (isBound f) h s fun w l b => b.putT w l f.d.toNat (tyOfMinor f.minor) (r b.x w l) 4

/-- A two-source operation: the uniform operation's result on operands a and b (R103). -/
def vecInt2 (op : IntOp) (h : Hdr) (f : FmtV) (s : State) : Out :=
  let t := tyOfMinor f.minor
  vecInt f h s fun x w l => intOp op t (x.vw w l t f.a.toNat) (x.vb f w l t)

/-- A one-source operation on operand a (R103). -/
def vecInt1 (op : Nat → Nat → Nat) (h : Hdr) (f : FmtV) (s : State) : Out :=
  let t := tyOfMinor f.minor
  vecInt f h s fun x w l => op t (x.vw w l t f.a.toNat)

/-- The field of `vbfe`, extended to the type's width (R103). -/
def bfe (t aux x : Nat) : Nat :=
  let pos := aux % 64
  let len := aux / 64
  let v := bitsOf x pos len
  if signed t then wrap (tyWidth t) (toS len v) else v

/-- The insertion of `vbfi` (R103). -/
def bfi (aux x y : Nat) : Nat :=
  let pos := aux % 64
  let len := aux / 64
  y - bitsOf y pos len * 2 ^ pos + bitsOf x 0 len * 2 ^ pos

/-- `vadd` (R103). -/
def execVadd (h : Hdr) (f : FmtV) (s : State) : Out := vecInt2 .add h f s

/-- `vsub` (R103). -/
def execVsub (h : Hdr) (f : FmtV) (s : State) : Out := vecInt2 .sub h f s

/-- `vmul.lo` (R103). -/
def execVmulLo (h : Hdr) (f : FmtV) (s : State) : Out := vecInt2 .mul h f s

/-- `vmul.hi` (R103). -/
def execVmulHi (h : Hdr) (f : FmtV) (s : State) : Out := vecInt2 .mulh h f s

/-- `vmad` (R103). -/
def execVmad (h : Hdr) (f : FmtV) (s : State) : Out :=
  let t := tyOfMinor f.minor
  vecInt f h s fun x w l =>
    wrap (tyWidth t) (toI t (x.vw w l t f.a.toNat) * toI t (x.vb f w l t) + toI t (x.vw w l t f.c.toNat))

/-- `vand` (R103). -/
def execVand (h : Hdr) (f : FmtV) (s : State) : Out := vecInt2 .and h f s

/-- `vor` (R103). -/
def execVor (h : Hdr) (f : FmtV) (s : State) : Out := vecInt2 .or h f s

/-- `vxor` (R103). -/
def execVxor (h : Hdr) (f : FmtV) (s : State) : Out := vecInt2 .xor h f s

/-- `vnot` (R103). -/
def execVnot (h : Hdr) (f : FmtV) (s : State) : Out := vecInt1 (fun t x => 2 ^ tyWidth t - 1 - x) h f s

/-- `vshl` (R103). -/
def execVshl (h : Hdr) (f : FmtV) (s : State) : Out := vecInt2 .shl h f s

/-- `vshr` (R103). -/
def execVshr (h : Hdr) (f : FmtV) (s : State) : Out := vecInt2 .shr h f s

/-- `vsra` (R103). -/
def execVsra (h : Hdr) (f : FmtV) (s : State) : Out := vecInt2 .sra h f s

/-- `vmin` (R103). -/
def execVmin (h : Hdr) (f : FmtV) (s : State) : Out := vecInt2 .min h f s

/-- `vmax` (R103). -/
def execVmax (h : Hdr) (f : FmtV) (s : State) : Out := vecInt2 .max h f s

/-- `vabs` (R103). -/
def execVabs (h : Hdr) (f : FmtV) (s : State) : Out := vecInt1 (fun t x => wrap (tyWidth t) (toI t x).natAbs) h f s

/-- `vneg` (R103). -/
def execVneg (h : Hdr) (f : FmtV) (s : State) : Out := vecInt1 (fun t x => wrap (tyWidth t) (-(toI t x))) h f s

/-- `vpopc` (R103). -/
def execVpopc (h : Hdr) (f : FmtV) (s : State) : Out := vecInt1 (fun t x => popcount (tyWidth t) x) h f s

/-- `vclz` (R103). -/
def execVclz (h : Hdr) (f : FmtV) (s : State) : Out := vecInt1 (fun t x => clz (tyWidth t) x) h f s

/-- `vbrev` (R103). -/
def execVbrev (h : Hdr) (f : FmtV) (s : State) : Out := vecInt1 (fun t x => bitrev (tyWidth t) x) h f s

/-- `vbfe` (R103). -/
def execVbfe (h : Hdr) (f : FmtV) (s : State) : Out := vecInt1 (fun t x => bfe t f.aux.toNat x) h f s

/-- `vbfi` (R103). -/
def execVbfi (h : Hdr) (f : FmtV) (s : State) : Out :=
  let t := tyOfMinor f.minor
  vecInt f h s fun x w l => bfi f.aux.toNat (x.vw w l t f.a.toNat) (x.vb f w l t)

/-- The predicate that aux [3:0] names, negated by bit 3 (R103, R119). -/
def auxPred (x : Issue) (aux : BitVec 15) (w l : Nat) : Bool :=
  xor (x.q w l (aux.toNat % 8)) (aux.getLsbD 3)

/-- `vsel` (R103). -/
def execVsel (h : Hdr) (f : FmtV) (s : State) : Out :=
  let t := tyOfMinor f.minor
  vecInt f h s fun x w l => if auxPred x f.aux w l then x.vw w l t f.a.toNat else x.vb f w l t

/-- `vmov` (R103). -/
def execVmov (h : Hdr) (f : FmtV) (s : State) : Out :=
  vecInt f h s fun x w l => x.vb f w l (tyOfMinor f.minor)

/-- `vli` (R103). -/
def execVli (h : Hdr) (f : FmtI) (s : State) : Out :=
  perThread false h s fun w l b => b.putV w l f.d.toNat f.imm32 4

/-- `vcmp` (R104). -/
def execVcmp (h : Hdr) (f : FmtV) (s : State) : Out :=
  let t := tyOfMinor f.minor
  perThread (isBound f) h s fun w l b =>
    b.putCmp f w l (cmpInt f.minor (b.x.vw w l t f.a.toNat) (b.x.vb f w l t))

end Sys2Proof.Machine
end

