-- ==== Sys2Proof/Machine/VecFloat.lean ====
section
/-! DEFINITION. Vector float instructions, conversion, packing and the special functions (R105 to R112). -/

namespace Sys2Proof.Machine

/-- A 32-bit result of operands a, b and c in each active thread (R105, R106). -/
def vecF (f : FmtV) (lat : Nat) (h : Hdr) (s : State) (op : Nat → Nat → Nat → Nat) : Out :=
  perThread (isBound f) h s fun w l b => b.putV w l f.d.toNat
    (BitVec.ofNat 32 (op (b.x.vw w l 6 f.a.toNat) (b.x.vb f w l 6) (b.x.vw w l 6 f.c.toNat))) lat

/-- A binary64 result in register pairs, 10 c after issue (R34, R105, R106). -/
def vecD (f : FmtV) (h : Hdr) (s : State) (op : Nat → Nat → Nat → Nat) : Out :=
  perThread (isBound f) h s fun w l b => b.putT w l f.d.toNat 11
    (op (b.x.vw w l 11 f.a.toNat) (b.x.vb f w l 11) (b.x.vw w l 11 f.c.toNat)) 10

/-- `vfadd` (R106). -/
def execVfadd (h : Hdr) (f : FmtV) (s : State) : Out := vecF f 6 h s fun x y _ => fAdd f32 x y

/-- `vfsub` (R106). -/
def execVfsub (h : Hdr) (f : FmtV) (s : State) : Out := vecF f 6 h s fun x y _ => fSub f32 x y

/-- `vfmul` (R106). -/
def execVfmul (h : Hdr) (f : FmtV) (s : State) : Out := vecF f 6 h s fun x y _ => fMul f32 x y

/-- `vffma` (R106). -/
def execVffma (h : Hdr) (f : FmtV) (s : State) : Out := vecF f 6 h s fun x y z => fFma f32 x y z

/-- `vfmin` (R107). -/
def execVfmin (h : Hdr) (f : FmtV) (s : State) : Out := vecF f 4 h s fun x y _ => fMinMax f32 false x y

/-- `vfmax` (R107). -/
def execVfmax (h : Hdr) (f : FmtV) (s : State) : Out := vecF f 4 h s fun x y _ => fMinMax f32 true x y

/-- `vfabs` (R107). -/
def execVfabs (h : Hdr) (f : FmtV) (s : State) : Out := vecF f 4 h s fun x _ _ => fSign false x

/-- `vfneg` (R107). -/
def execVfneg (h : Hdr) (f : FmtV) (s : State) : Out := vecF f 4 h s fun x _ _ => fSign true x

/-- `vfcmp` (R107). -/
def execVfcmp (h : Hdr) (f : FmtV) (s : State) : Out :=
  perThread (isBound f) h s fun w l b =>
    b.putCmp f w l (cmpF32 f.minor (b.x.vw w l 6 f.a.toNat) (b.x.vb f w l 6))

/-- `vdadd` (R106). -/
def execVdadd (h : Hdr) (f : FmtV) (s : State) : Out := vecD f h s fun x y _ => fAdd f64 x y

/-- `vdmul` (R106). -/
def execVdmul (h : Hdr) (f : FmtV) (s : State) : Out := vecD f h s fun x y _ => fMul f64 x y

/-- `vdffma` (R106). -/
def execVdffma (h : Hdr) (f : FmtV) (s : State) : Out := vecD f h s fun x y z => fFma f64 x y z

/-- `vcvt` (R108). -/
def execVcvt (h : Hdr) (f : FmtV) (s : State) : Out :=
  let sc := hiOfMinor f.minor
  let t := tyOfMinor f.minor
  perThread (isBound f) h s fun w l b => b.putT w l f.d.toNat t (convert sc t (b.x.vw w l sc f.a.toNat)) 6

/-- The packed word of `vpack`: two 16-bit values, or one half of the old word replaced by two bytes (R109). -/
def packed (t aux old x y : Nat) : Nat :=
  if t = 14 ∨ t = 15 then convert 10 t x + 2 ^ 16 * convert 10 t y
  else
    let two := convert 10 t x + 256 * convert 10 t y
    if aux = 0 then two + 2 ^ 16 * bitsOf old 16 16 else bitsOf old 0 16 + 2 ^ 16 * two

/-- `vpack` (R109). -/
def execVpack (h : Hdr) (f : FmtV) (s : State) : Out :=
  perThread (isBound f) h s fun w l b => b.putV w l f.d.toNat (BitVec.ofNat 32
    (packed (tyOfMinor f.minor) f.aux.toNat (b.x.vw w l 6 f.d.toNat) (b.x.vw w l 6 f.a.toNat) (b.x.vb f w l 6))) 6

/-- The binary32 value of element k of a packed word (R110). -/
def unpacked (t k x : Nat) : Nat :=
  let n := if t = 14 ∨ t = 15 then 16 else 8
  roundNe f32 (unF (ffmt t) (bitsOf x (n * k) n))

/-- `vunpk` (R110). -/
def execVunpk (h : Hdr) (f : FmtV) (s : State) : Out :=
  vecF f 6 h s fun x _ _ => unpacked (hiOfMinor f.minor) f.aux.toNat x

/-- `vhfma.bf16x2` (R106). -/
def execVhfmaBf16x2 (h : Hdr) (f : FmtV) (s : State) : Out := vecF f 6 h s fun x y z => hFma (ffmt 9) x y z

/-- `vhfma.f16x2` (R106). -/
def execVhfmaF16x2 (h : Hdr) (f : FmtV) (s : State) : Out := vecF f 6 h s fun x y z => hFma (ffmt 8) x y z

/-- `vrcp` (R111, R112). -/
def execVrcp (h : Hdr) (f : FmtV) (s : State) : Out := vecF f 14 h s fun x _ _ => fRcp x

/-- `vrsq` (R111, R112). -/
def execVrsq (h : Hdr) (f : FmtV) (s : State) : Out := vecF f 14 h s fun x _ _ => fRsq x

/-- `vsqrt` (R111, R112). -/
def execVsqrt (h : Hdr) (f : FmtV) (s : State) : Out := vecF f 14 h s fun x _ _ => fSqrt x

/-- `vdiv` (R111, R112). -/
def execVdiv (h : Hdr) (f : FmtV) (s : State) : Out := vecF f 14 h s fun x y _ => fDiv x y

/-- `vexp2` (R111, R112). -/
def execVexp2 (h : Hdr) (f : FmtV) (s : State) : Out := vecF f 14 h s fun x _ _ => fExp2 x

/-- `vlog2` (R111, R112). -/
def execVlog2 (h : Hdr) (f : FmtV) (s : State) : Out := vecF f 14 h s fun x _ _ => fLog2 x

/-- `vsin` (R111, R112). -/
def execVsin (h : Hdr) (f : FmtV) (s : State) : Out := vecF f 14 h s fun x _ _ => fSin x

/-- `vcos` (R111, R112). -/
def execVcos (h : Hdr) (f : FmtV) (s : State) : Out := vecF f 14 h s fun x _ _ => fCos x

end Sys2Proof.Machine
end

