-- ==== Sys2Proof/Machine/CrossLane.lean ====
section
/-! DEFINITION. Cross-lane instructions (R113 to R119): shuffles, reductions, scans and votes over the active lanes of
one warp. -/

namespace Sys2Proof.Machine

/-- The active lane at a relative lane, if there is one (R113). -/
def laneAt (width : Nat) (ls : List Nat) (j : Int) : Option Nat :=
  ls.find? fun l => decide ((relLane width l : Int) = j) && decide (j < width)

/-- A shuffle by a rule for the lane named: relative lane and selector to relative lane (R114). -/
def shuffle (sel : Nat → Nat → Int) (h : Hdr) (f : FmtV) (s : State) : Out :=
  perWarp h s fun w ls b =>
    let width := b.x.before.widthOf b.x.core w
    ls.foldl (fun b l =>
      let from_ := laneAt width ls (sel (relLane width l) (b.x.vb f w l 6))
      let v := match from_ with
        | some k => b.x.v w k f.a.toNat
        | none => b.x.v w l f.a.toNat
      (b.putV w l f.d.toNat v 6).putQ w l f.qd.toNat from_.isSome 6) b

/-- `vshfl.idx` (R114). -/
def execVshflIdx (h : Hdr) (f : FmtV) (s : State) : Out := shuffle (fun _ k => k) h f s

/-- `vshfl.up` (R114). -/
def execVshflUp (h : Hdr) (f : FmtV) (s : State) : Out := shuffle (fun i k => (i : Int) - k) h f s

/-- `vshfl.down` (R114). -/
def execVshflDown (h : Hdr) (f : FmtV) (s : State) : Out := shuffle (fun i k => (i : Int) + k) h f s

/-- `vshfl.xor` (R114). -/
def execVshflXor (h : Hdr) (f : FmtV) (s : State) : Out := shuffle (fun i k => ((i ^^^ k : Nat) : Int)) h f s

/-- `vbcast` (R114). -/
def execVbcast (h : Hdr) (f : FmtV) (s : State) : Out := shuffle (fun _ k => k) h f s

/-- The fold of two values by a reduction operation of R115. (log 74, DEDUCED) -/
def redOp (op t x y : Nat) : Nat :=
  match op with
  | 0 => if t = 10 then fAdd f32 x y else intOp .add t x y
  | 1 => if t = 10 then fMinMax f32 false x y else intOp .min t x y
  | 2 => if t = 10 then fMinMax f32 true x y else intOp .max t x y
  | 5 => x &&& y
  | 6 => x ||| y
  | _ => x ^^^ y

/-- The identity of a reduction operation (R115). -/
def redIdentity (op t : Nat) : Nat :=
  match op with
  | 0 => if t = 10 then 0x80000000 else 0
  | 1 => if t = 10 then 0x7F800000 else if t = 2 then 0x7FFFFFFF else 0xFFFFFFFF
  | 2 => if t = 10 then 0xFF800000 else if t = 2 then 0x80000000 else 0
  | 5 => 0xFFFFFFFF
  | _ => 0

/-- A list of values folded, of which the first is not combined with an identity (R115: inactive lanes are skipped in
the `.f32` minimum and maximum); a lone NaN is made canonical. -/
def foldVals (op t : Nat) : List Nat → Nat
  | [] => redIdentity op t
  | x :: xs => xs.foldl (redOp op t) (if t = 10 && (unF f32 x).isNan then f32.qnan else x)

/-- One step of the butterfly of R116 with distance d. -/
def butterflyStep (d : Nat) (xs : List Nat) : List Nat :=
  (List.range xs.length).map fun i => fAdd f32 (xs.getD (min i (i ^^^ d)) 0) (xs.getD (max i (i ^^^ d)) 0)

/-- The butterfly sum over 2^n lanes (R116). -/
def butterfly : Nat → Nat → List Nat → List Nat
  | 0, _, xs => xs
  | n + 1, d, xs => butterfly n (2 * d) (butterflyStep d xs)

/-- The value that `vred` gives for the active values in ascending lane order (R116). -/
def reduce (op t width : Nat) (vals : List (Nat × Nat)) : Nat :=
  if op = 0 && t = 10 then
    ((butterfly (Nat.log2 width) 1 ((List.range width).map fun i =>
      match vals.find? fun p => p.1 == i with | some p => p.2 | none => 0x80000000)).getD 0 0)
  else foldVals op t (vals.map (·.2))

/-- Whether value x at its lane ranks before the best so far, for `minidx` (or `maxidx`) (R117). -/
def ranksBefore (mx : Bool) (t x best : Nat) : Bool :=
  if t = 10 then
    let a := unF f32 x
    let b := unF f32 best
    if a.isNan then false else if b.isNan then true else if mx then b.below a else a.below b
  else if mx then decide (toI t best < toI t x) else decide (toI t x < toI t best)

/-- The chosen lane and value of `minidx` and `maxidx` (R117). -/
def chooseIdx (mx : Bool) (t : Nat) : List (Nat × Nat) → Nat × Nat
  | [] => (0, 0)
  | p :: ps =>
    let r := ps.foldl (fun b p => if ranksBefore mx t p.2 b.2 then p else b) p
    if t = 10 && (unF f32 r.2).isNan then (r.1, f32.qnan) else r

/-- The active values of a register, with their relative lanes, in ascending lane order (R113). -/
def activeVals (x : Issue) (w : Nat) (ls : List Nat) (n : Nat) : List (Nat × Nat) :=
  ls.map fun l => (relLane (x.before.widthOf x.core w) l, (x.v w l n).toNat)

/-- `vred` (R115 to R117). -/
def execVred (h : Hdr) (f : FmtV) (s : State) : Out :=
  perWarp h s fun w ls b =>
    let op := hiOfMinor f.minor
    let t := tyOfMinor f.minor
    let vals := activeVals b.x w ls f.a.toNat
    if op = 3 || op = 4 then
      let r := chooseIdx (op == 4) t vals
      ls.foldl (fun b l => (b.putV w l f.d.toNat (BitVec.ofNat 32 r.2) 10).putV w l (f.d.toNat + 1)
        (BitVec.ofNat 32 r.1) 10) b
    else
      let r := reduce op t (b.x.before.widthOf b.x.core w) vals
      ls.foldl (fun b l => b.putV w l f.d.toNat (BitVec.ofNat 32 r) 10) b

/-- The prefix that `vscan` gives a relative lane (R118): the `.f32` minimum and maximum skip to the first active value,
every other operation starts from the identity. -/
def scanAt (op t : Nat) (ex : Bool) (vals : List (Nat × Nat)) (i : Nat) : Nat :=
  let xs := (vals.filter fun p => if ex then decide (p.1 < i) else decide (p.1 ≤ i)).map (·.2)
  if t = 10 && op != 0 then foldVals op t xs else xs.foldl (redOp op t) (redIdentity op t)

/-- `vscan` (R115, R118). -/
def execVscan (h : Hdr) (f : FmtV) (s : State) : Out :=
  perWarp h s fun w ls b =>
    let vals := activeVals b.x w ls f.a.toNat
    ls.foldl (fun b l => b.putV w l f.d.toNat (BitVec.ofNat 32
      (scanAt (hiOfMinor f.minor) (tyOfMinor f.minor) (f.aux == 1) vals (relLane (b.x.before.widthOf b.x.core w) l)))
      10) b

/-- The ballot: bit i for each active relative lane whose vote is 1 (R119). -/
def ballot (x : Issue) (aux : BitVec 15) (w : Nat) (ls : List Nat) : W64 :=
  ls.foldl (fun m l => if auxPred x aux w l then m ||| (1#64 <<< relLane (x.before.widthOf x.core w) l) else m) 0

/-- `vballot` (R119). -/
def execVballot (h : Hdr) (f : FmtV) (s : State) : Out :=
  perWarp h s fun w ls b =>
    let m := ballot b.x f.aux w ls
    let wide := b.x.before.widthOf b.x.core w == 64
    ls.foldl (fun b l =>
      let b := b.putV w l f.d.toNat (m.extractLsb' 0 32) 10
      if wide then b.putV w l (f.d.toNat + 1) (m.extractLsb' 32 32) 10 else b) b

/-- `vany` (R119). -/
def execVany (h : Hdr) (f : FmtV) (s : State) : Out :=
  perWarp h s fun w ls b =>
    let r := ls.any fun l => auxPred b.x f.aux w l
    ls.foldl (fun b l => b.putQ w l f.qd.toNat r 10) b

/-- `vall` (R119). -/
def execVall (h : Hdr) (f : FmtV) (s : State) : Out :=
  perWarp h s fun w ls b =>
    let r := ls.all fun l => auxPred b.x f.aux w l
    ls.foldl (fun b l => b.putQ w l f.qd.toNat r 10) b

end Sys2Proof.Machine
end

