-- ==== Sys2Proof/Machine/Control.lean ====
section
/-! DEFINITION. Control transfers (R72 to R75), `wsync` (R76 to R79), `elect`, `yield`, `exit`, `nop` (R80 to R83). -/

namespace Sys2Proof.Machine

/-- The linear slot number of a PC (R15). -/
def linearPc (pc : W64) : Nat := (pc.extractLsb' 6 50).toNat * 5 + (pc.extractLsb' 0 3).toNat

/-- The PC of a linear slot number inside the address space (R25). -/
def pcOfLinear (t : Nat) : W64 := BitVec.ofNat 64 (t / 5 * 64 + t % 5)

/-- Whether a PC is laid out as R15 says. -/
def pcLegal (pc : W64) : Bool :=
  decide ((pc.extractLsb' 0 3).toNat < 5) && pc.extractLsb' 3 3 == 0 && pc.extractLsb' 56 8 == 0

/-- The linear number of a displaced transfer; none outside 0 .. 5 × 2^50 − 1 (R25). -/
def displaced (base : Nat) (disp : BitVec 40) : Option Nat :=
  let t : Int := base + disp.toInt
  if t < 0 ∨ (5 * 2 ^ 50 : Nat) ≤ t then none else some t.toNat

/-- The PC of the slot that is running. -/
def Bx.slotPc (b : Bx) : W64 := b.x.pc.extractLsb' 3 61 ++ BitVec.ofNat 3 b.x.cur

/-- A taken transfer of one thread (R17, R73). -/
def Bx.transfer (b : Bx) (w l : Nat) (pc : W64) : Bx :=
  b.on fun m => m.onThread b.x.core w l fun t => { t with pc := pc, entered := true }

/-- A transfer by displacement from a linear number: a target outside the address space is the branch-target fault of
R25, with `$tcause` bit 16 set. -/
def Bx.transferBy (b : Bx) (w l : Nat) (base : Nat) (disp : BitVec 40) : Bx :=
  match displaced base disp with
  | none => b.fault false w l 0x04 1
  | some t => b.transfer w l (pcOfLinear t)

/-- `bra` (R73). -/
def execBra (h : Hdr) (f : FmtB) (s : State) : Out :=
  perThread false h s fun w l b => b.transferBy w l (linearPc b.slotPc) f.disp

/-- `brc` (R73). -/
def execBrc (h : Hdr) (f : FmtB) (s : State) : Out :=
  perThread false h s fun w l b =>
    if brcTaken f.minor (b.x.v w l f.a.toNat) then b.transferBy w l (linearPc b.slotPc) f.disp else b

/-- `call`: the link pair holds the next bundle's PC (R73, R74). -/
def execCall (h : Hdr) (f : FmtB) (s : State) : Out :=
  perThread false h s fun w l b =>
    match displaced (linearPc b.slotPc) f.disp with
    | none => b.fault false w l 0x04 1
    | some t =>
      ((b.putV w l f.l.toNat (b.x.nextPc.extractLsb' 0 32) 1).putV w l (f.l.toNat + 1)
        (b.x.nextPc.extractLsb' 32 32) 1).transfer w l (pcOfLinear t)

/-- `ret` (R73). -/
def execRet (h : Hdr) (f : FmtB) (s : State) : Out :=
  perThread false h s fun w l b => b.transfer w l (b.x.v64 w l f.a.toNat)

/-- `jmpi` (R73): bits of the register PC that R15 wants zero, and a slot above 4, take no part in its linear number.
(log 30, DEDUCED; log 80, DESIGN CHOICE) -/
def execJmpi (h : Hdr) (f : FmtB) (s : State) : Out :=
  perThread false h s fun w l b => b.transferBy w l (linearPc (b.x.v64 w l f.a.toNat)) f.disp

/-- The mask of R76. -/
def wsyncMask (x : Issue) (f : FmtI) (w : Nat) : W64 :=
  let m := if f.aux = 1 then x.s w f.a.toNat else f.imm32.setWidth 64
  m &&& BitVec.ofNat 64 (2 ^ x.before.widthOf x.core w - 1)

/-- The lanes of a warp that hold a running thread, as relative bits (R77). -/
def Warp.runningSet (w : Warp) : W64 :=
  w.threads.foldl (fun m t => if t.running then m ||| (1#64 <<< relLane w.width t.lane) else m) 0

/-- One thread arrives at the expectation of its warp; none when PC or mask differ (R77). -/
def Warp.arrive (w : Warp) (pc m : W64) (i : Nat) : Option Warp :=
  match w.expect with
  | none => some { w with expect := some { pc := pc, m := m, e := (m ||| (1#64 <<< i)) &&& w.runningSet,
                                           arrived := 1#64 <<< i } }
  | some e =>
    if e.pc = pc ∧ e.m = m then some { w with expect := some { e with arrived := e.arrived ||| (1#64 <<< i) } }
    else none

/-- The threads of a group arrive one after another (R77). -/
def Warp.arriveAll (w : Warp) (pc m : W64) : List Nat → Option Warp
  | [] => some w
  | l :: ls => match w.arrive pc m (relLane w.width l) with
    | none => none
    | some w => w.arriveAll pc m ls

/-- `wsync` (R76, R77): in the handler state it is illegal (R401); a mismatch is the fault 0x0C. The arrived threads
wait until the expectation completes. -/
def execWsync (h : Hdr) (f : FmtI) (s : State) : Out :=
  perWarp h s fun w ls b =>
    match b.m.warp? b.x.core w with
    | none => b
    | some x =>
      if ls.any fun l => match x.thread? l with | some t => t.handler | none => false then
        b.faultAll (ls.map fun l => (w, l)) 0x02
      else match x.arriveAll b.x.pc (wsyncMask b.x f w) ls with
        | none => b.faultAll (ls.map fun l => (w, l)) 0x0C
        | some y => b.on fun m =>
          let m := m.onCore b.x.core fun k => k.progress m.tick fun g => g.warp == w && g.wait == .wsync
          (m.onWarp b.x.core w fun _ => y).block b.x.core w ls .wsync b.x.pc

/-- `elect`: the lowest relative lane whose guard is true (R80). (log 30, DEDUCED) -/
def execElect (h : Hdr) (f : FmtV) (s : State) : Out :=
  perWarp h s fun w ls b =>
    let width := b.x.before.widthOf b.x.core w
    let e := ls.foldl (fun a l => min a (relLane width l)) 64
    ls.foldl (fun b l =>
      let b := b.putQ w l f.qd.toNat (decide (relLane width l = e)) 4
      if f.aux = 1 then b.putV w l f.d.toNat (BitVec.ofNat 32 e) 4 else b) b

/-- `yield`: at least 8 c until the next bundle, and the youngest stamp (R81). -/
def execYield (h : Hdr) (_f : FmtS) (s : State) : Out :=
  perThread false h s fun w l b => b.on fun m => m.onThread b.x.core w l fun t => t.holdTill (m.clock + 8)

/-- `exit`: the thread leaves its expectation and ends max(S, 1) c after issue (R82). -/
def execExit (h : Hdr) (_f : FmtS) (s : State) : Out :=
  perThread false h s fun w l b => b.on fun m =>
    (m.leave b.x.core w l).onThread b.x.core w l fun t =>
      { t with run := .ending (m.clock + max b.x.stall 1) }

/-- `nop` (R83). -/
def execNop (_h : Hdr) (_f : FmtV) (s : State) : Out := slotStep s fun b => b

end Sys2Proof.Machine
end

