-- ==== Sys2Proof/Machine/System.lean ====
section
/-! DEFINITION. System instructions (R94 to R98) and the special registers (R52, R379). -/

namespace Sys2Proof.Machine

/-- `trap`: after the bundle's other effects, the thread parks with `$tepc` at the next bundle (R94). -/
def execTrap (h : Hdr) (f : FmtS) (s : State) : Out :=
  perThread false h s fun w l b => b.on fun m => m.park b.x.core w l 0x01 b.x.cur f.imm32 b.x.nextPc false

/-- `brk`: with the launch's debug flag the thread stops and the host receives an event (R94). -/
def execBrk (h : Hdr) (f : FmtS) (s : State) : Out :=
  perThread false h s fun w l b =>
    if (b.m.recOf b.x.core w).debug then b.on fun m =>
      (m.onThread b.x.core w l fun t => { t with run := .stopped }).threadEvent 4 b.x.core w l f.imm32.toNat b.x.pc 0
    else b

/-- A trap register as a bundle of the thread reads it: an `mtsr` less than 4 c before may or may not have reached it
(R95). File 3 holds `$tcause`, 0, and the halves of `$tepc`, 1 and 2. -/
def Mod.readTrap (m : Mod) (c w l n : Nat) : W32 :=
  match m.thread? c w l with
  | none => 0
  | some t =>
    let base : W32 := if n = 0 then t.tcause else if n = 1 then t.tepc.extractLsb' 0 32 else t.tepc.extractLsb' 32 32
    (settleReads m.clock (w * 64 + l) t 3 n (base.setWidth 64)).setWidth 32

/-- `$tepc` as a bundle of the thread reads it. -/
def Mod.readTepc (m : Mod) (c w l : Nat) : W64 := m.readTrap c w l 2 ++ m.readTrap c w l 1

/-- `tret`: the return from the handler; outside the handler state it is illegal (R94, R402). -/
def execTret (h : Hdr) (_f : FmtS) (s : State) : Out :=
  perThread false h s fun w l b =>
    match b.x.before.thread? b.x.core w l with
    | none => b
    | some t =>
      if t.handler then b.on fun m =>
        m.tret b.x.core w l (b.x.before.readTepc b.x.core w l)
      else b.fault false w l 0x02 0

/-- The linear rank of a coordinate in a grid, axis 0 fastest (R379). -/
def rankOf (coord : W64) : List Nat → Nat → Nat
  | [], _ => 0
  | e :: es, k => (coord.extractLsb' (12 * k) 12).toNat + e * rankOf coord es (k + 1)

/-- A grid context of the module. -/
def Mod.grid? (m : Mod) (g : Nat) : Option GridCtx := m.grids.find? fun x => x.num == g

/-- `$lvlk` of a thread (R379); none where the launch declares no such level. -/
def Mod.levelOf (m : Mod) (c w l k : Nat) : Option W32 :=
  let r := m.recOf c w
  let e := r.levels.getD k 0
  if e.getLsbD 6 = false then none
  else some (match (e.extractLsb' 0 3).toNat with
    | 0 => BitVec.ofNat 32 (relLane (m.widthOf c w) l)
    | 1 => match m.warp? c w with | some x => x.wid | none => 0
    | 2 => BitVec.ofNat 32 (((m.blockOf c w).map (·.index)).getD 0)
    | 3 => BitVec.ofNat 32 (c / 128)
    | 4 => BitVec.ofNat 32 (c / 256)
    | 5 => if r.axes = 0 then 0
      else BitVec.ofNat 32 (match m.grid? r.grid with | some g => rankOf g.coord g.ext 0 | none => 0)
    | _ => 0)

/-- `$crda` to `$crde`: the module's own coordinate in the launch's context; an axis beyond the grid's count reads 0
(R52, R238). -/
def Mod.crdOf (m : Mod) (c w k : Nat) : W64 :=
  let r := m.recOf c w
  match m.grid? r.grid with
  | some g => if k < r.axes ∧ k < g.n then (g.coord.extractLsb' (12 * k) 12).setWidth 64 else 0
  | none => 0

/-- The value of a special register for a thread (R52); none where the read is illegal. A core's number counts over the module,
128 cores to a cluster and 256 to a die. (log 81, DESIGN CHOICE) -/
def Mod.special (m : Mod) (c w l sr : Nat) : Option W64 :=
  let hd := match m.thread? c w l with | some t => t.handler | none => false
  match sr with
  | 0x000 => some (BitVec.ofNat 64 l)
  | 0x001 => some ((match m.warp? c w with | some x => x.wid | none => 0).setWidth 64)
  | 0x002 => some (BitVec.ofNat 64 c)
  | 0x003 => some (BitVec.ofNat 64 (c / 128))
  | 0x004 => some (BitVec.ofNat 64 (c / 256))
  | 0x020 => if hd then some ((m.readTrap c w l 0).setWidth 64) else none
  | 0x021 => if hd then some (m.readTepc c w l) else none
  | 0x022 => if hd then (m.thread? c w l).map fun t =>
      ((t.torigin &&& ~~~(0x2000#32)) ||| (if t.redo then 0x2000#32 else 0)).setWidth 64 else none
  | 0x030 => some (((m.launchOf c w).map (·.bind)).getD 0)
  | 0x040 => some (BitVec.ofNat 64 m.clock)
  | n =>
    if 8 ≤ n ∧ n ≤ 15 then (m.levelOf c w l (n - 8)).map (·.setWidth 64)
    else if 16 ≤ n ∧ n ≤ 20 then some (m.crdOf c w (n - 16))
    else none

/-- `mfsr` (R52, R95). -/
def execMfsr (h : Hdr) (f : FmtS) (s : State) : Out :=
  if f.dk then
    perWarp h s fun w ls b => match b.x.before.special b.x.core w (ls.headD 0) f.sr.toNat with
      | none => b.faultAll (ls.map fun l => (w, l)) 0x02
      | some v => b.putS w f.d.toNat v 2
  else
    perThread false h s fun w l b => match b.x.before.special b.x.core w l f.sr.toNat with
      | none => b.fault false w l 0x02 0
      | some v => b.putV w l f.d.toNat (if f.aux = 1 then v.extractLsb' 32 32 else v.extractLsb' 0 32) 4

/-- `mtsr`: `$tcause` or a half of `$tepc` of a handler's own thread (R95). -/
def execMtsr (h : Hdr) (f : FmtS) (s : State) : Out :=
  perThread false h s fun w l b =>
    match b.x.before.thread? b.x.core w l with
    | none => b
    | some t =>
      if t.handler then
        let n := if f.sr = 0x020 then 0 else if f.aux = 0 then 1 else 2
        let d : Dest := if n = 0 then .tcause w l else if n = 1 then .tepcLo w l else .tepcHi w l
        b.on fun m => m.putFixed b.x.core w [l] 3 n d ((b.x.before.readTrap b.x.core w l n).setWidth 64)
          ((b.x.v w l f.a.toNat).setWidth 64) 4 0
      else b.fault false w l 0x02 0

/-- The entries of the launch unit's post queue: one at least, and the manual states no number (R97).
(log 26, DESIGN CHOICE) -/
def postQueueSize : Nat := 1 + Config.postQueueMore

/-- `lnch`: the record is posted once, a release at device scope; a full post queue holds the bundle (R97). -/
def execLnch (h : Hdr) (f : FmtS) (s : State) : Out :=
  perWarp h s fun w ls b =>
    let a := b.x.s w f.a.toNat
    if a.toNat % 512 ≠ 0 then b.faultAll (ls.map fun l => (w, l)) 0x07
    else if postQueueSize ≤ b.m.posts.length then { b with x := { b.x with hold := true } }
    else b.on fun m => { m with posts := m.posts ++
      [{ deps := m.releaseSet b.x.core w ls, asid := ((m.launchOf b.x.core w).map (·.asid)).getD 0, addr := a }] }

/-- Whether an event ring has no room, counting the events that wait for it; a ring that is not open has none (R98,
R377, R429). -/
def Mod.ringFull (m : Mod) (n : Nat) : Bool :=
  match m.rings.find? fun r => r.num == n with
  | none => true
  | some r => decide (2 ^ r.k ≤ r.tail - r.head + (m.events.filter fun e => e.ring == n).length)

/-- `evnt`: a host event with the code and the payload, a release at system scope; a full ring, or one that was not
open at the launch's admission, drops it and counts (R98, R377). -/
def execEvnt (h : Hdr) (f : FmtS) (s : State) : Out :=
  perWarp h s fun w ls b => b.on fun m =>
    match m.launchOf b.x.core w, m.warp? b.x.core w with
    | some la, some x =>
      if !la.evOpen || m.ringFull la.rec_.evring then m.onLaunch la.handle (fun y => { y with dropped := y.dropped + 1 })
      else m.event
        { type := 1, asid := la.asid, flags := 0, seq := 0, handle := la.handle, core := b.x.core, warp := x.slot,
          lane := ls.headD 0, code := f.imm32.toNat, pc := b.x.pc, payload := b.x.s w f.a.toNat, time := 0,
          ring := la.rec_.evring, deps := m.releaseSet b.x.core w ls }
    | _, _ => m

end Sys2Proof.Machine
end

