-- ==== Sys2Proof/Machine/Order.lean ====
section
/-! DEFINITION. The order that a thread's own accesses keep (R296, R300, R303, R304): which writes of its core that are not
performed yet it has issued or observed, the bytes of its own core's pool that they name, and the passes of the scratchpad
port, which an access still has to take after its issue cycle (R39, R122, R144). -/

namespace Sys2Proof.Machine

/-- The pool address of a byte of a warp's block. -/
def Mod.poolAt (m : Mod) (c w ea : Nat) : Nat := ((m.blockOf c w).map fun b => b.at_ ea).getD ea

/-! ### Address words and patterns -/

/-- Axis k of a coordinate or of a side of a pattern. -/
def axisOf (p : W64) (k : Nat) : Nat := bitsOf p.toNat (12 * k) 12

/-- Whether a pattern names a coordinate. -/
def inPattern (lows highs coord : W64) : Bool :=
  (List.range 5).all fun k => decide (axisOf lows k ≤ axisOf coord k) && decide (axisOf coord k ≤ axisOf highs k)

/-- The kind of an address word (R208). -/
def addrKind (w : W64) : Nat := bitsOf w.toNat 56 3

/-- The address of an address word (R208). -/
def addrOf (w : W64) : Nat := bitsOf w.toNat 0 56

/-- The space and the offset that an address word names on a module: device memory, or a block slot of a core. -/
def addrSpace (a : W64) : (Nat × Nat × Nat) × Nat :=
  if addrKind a = 3 then ((3, bitsOf a.toNat 32 10, bitsOf a.toNat 44 4), bitsOf a.toNat 0 21)
  else ((0, 0, 0), addrOf a)

/-- The block of a core in a slot. -/
def Core.blockIn? (k : Core) (slot : Nat) : Option Block := k.blocks.find? fun b => b.slot == slot

/-! ### Writes that a thread has issued or observed -/

/-- The bytes that a request touches. -/
def ReqOp.bytes : ReqOp → Nat
  | .load t k => tyWidth (tyCode t) / 8 * k
  | .store bs => bs.length
  | .atom _ _ n _ _ _ => n

/-- Whether a thread has observed a write of its core by its number: by reading it forwarded, or by an acquire (R303). -/
def Thread.observed (t : Thread) (id : Nat) : Bool := decide (id < t.seen) || t.fwd.contains id

/-- Whether a thread has issued a request, or observed the write that it makes. -/
def Mod.ownsReq (m : Mod) (c w l : Nat) (r : Req) : Bool :=
  r.core == c && ((r.warp == w && r.lane == l) ||
    (r.writes && match m.thread? c w l with | some t => t.observed r.id | none => false))

/-- Whether a thread has issued a fabric operation, or observed the write that it makes. -/
def Mod.ownsOp (m : Mod) (c w l : Nat) (o : FabOp) : Bool :=
  o.core == c && ((o.warp == w && o.lanes.contains l) ||
    (o.pkt.op != 2 && match m.thread? c w l with | some t => t.observed o.id | none => false))

/-- The bytes of each address that a fabric operation of this module touches: a store's payload, a copy, a load's or an
atomic's operand; the result of a `fred` has no order with the thread's other accesses (R229). -/
def FabOp.span (o : FabOp) : Nat :=
  match o.pkt.op with
  | 0 => o.pkt.pay.length
  | 1 => o.len
  | 6 => 0
  | _ => tyWidth (bitsOf o.pkt.opd1.toNat 5 4) / 8

/-- Whether a fabric operation is known to be performed at a coordinate for byte i (R298). -/
def FabOp.doneAt (o : FabOp) (coord : W64) (i : Nat) : Bool :=
  o.done.any fun d => d.1 == coord && decide (d.2.1 ≤ i) && decide (i < d.2.1 + d.2.2)

/-- Whether a fabric operation names this module and is not wholly performed here. -/
def Mod.openHere (m : Mod) (o : FabOp) : Bool :=
  match m.grid? o.pkt.ctx with
  | some g => inPattern o.pkt.lows o.pkt.highs g.coord && (List.range o.span).any fun i => !o.doneAt g.coord i
  | none => false

/-- The runs of a core's own pool that some unperformed accesses of the core name: each with the number of the access.
(log 77, DESIGN CHOICE) -/
def Mod.runsHere (m : Mod) (c : Nat) (req : Req → Bool) (op : FabOp → Bool) : List (Nat × Nat × Nat) :=
  (m.reqs.filterMap fun r => match r.place with
    | .cluster t b off =>
      if t = c ∧ req r = true then (m.block? c b).map fun x => (r.id, x.at_ off, r.what.bytes) else none
    | .device _ => none) ++
  (m.fabOps.filterMap fun o =>
    let sp := addrSpace o.pkt.addr
    if sp.1.1 = 3 ∧ sp.1.2.1 = c ∧ op o = true ∧ m.openHere o = true then
      ((m.core c).blockIn? sp.1.2.2).bind fun b =>
        if b.launch = o.launch then some (o.id, b.at_ sp.2, o.span) else none
    else none)

/-- Those that a thread has issued, loads among them, or whose writes it has observed. -/
def Mod.ownRuns (m : Mod) (c w l : Nat) : List (Nat × Nat × Nat) := m.runsHere c (m.ownsReq c w l) (m.ownsOp c w l)

/-- The unperformed writes that a core has issued to its own pool (R205). -/
def Mod.selfWrites (m : Mod) (c : Nat) : List Nat :=
  (m.runsHere c (fun r => r.core == c && r.writes) fun o => o.core == c && o.pkt.op != 2).map (·.1)

/-- Whether an access of a thread to n bytes of its core's own pool must wait: an access of the thread to them, a load among
them, or a write to them that it has observed, is not performed there yet (R296, R300, R304).
(log 77, DESIGN CHOICE) -/
def Mod.mustWait (m : Mod) (c w l a n : Nat) : Bool := (m.ownRuns c w l).any fun r => overlaps r.2.1 r.2.2 a n

/-- Whether an access of some threads of a warp to n bytes of their block must wait for an access of an earlier bundle. -/
def Bx.mustWait (b : Bx) (w : Nat) (ls : List Nat) (off n : Nat) : Bool :=
  ls.any fun l => b.x.before.mustWait b.x.core w l (b.m.poolAt b.x.core w off) n

/-! ### Passes still to come (R39, R122) -/

/-- The threads of a core for which a result is on its way: its own lane, or those that issued the result of a uniform register. -/
def Core.threadsOf (k : Core) (d : Dest) : List (Nat × Nat × Nat) :=
  match d with
  | .v w l _ => [(k.num, w, l)]
  | _ => (((k.flights.filter fun f => f.dest == d).getLast?.map (·.lanes)).getD []).map fun l => (k.num, d.warp, l)

/-- A register result of w bits read as an element of type t, put into bits from `sh` on of a value. -/
def putBits (old : W64) (sh w x : Nat) : W64 :=
  let mask := BitVec.ofNat 64 (2 ^ w - 1) <<< sh
  (old &&& ~~~mask) ||| ((BitVec.ofNat 64 x <<< sh) &&& mask)

/-- The last of some things that a test picks is changed. -/
def alterLast {α : Type} (p : α → Bool) (f : α → α) (l : List α) : List α := (alterFirst p f l.reverse).reverse

/-- A result on its way changes to what its pass has read, also in what the threads remember of it (R35). -/
def Mod.reread (m : Mod) (c : Nat) (d : Dest) (f : W64 → W64) : Mod :=
  let late := fun (x : Flight) => x.dest == d && (x.kind == .fixed || x.kind == .held)
  let lanes := (((m.core c).flights.filter late).getLast?.map (·.lanes)).getD []
  let m := m.onCore c fun k => { k with flights := alterLast late (fun x => { x with val := f x.val }) k.flights }
  let at_ := match d with
    | .v w _ n => some (w, 0, n)
    | .s w n => some (w, 2, n)
    | _ => none
  match at_ with
  | none => m
  | some (w, file, n) => lanes.foldl (fun m l => m.onThread c w l fun t =>
      { t with recent := alterLast (fun r => r.file == file && r.n == n) (fun r => { r with new := f r.new }) t.recent }) m

/-- A thread's `wfa` looks at its word: the thread waits while it is equal, and else has acquired (R92, R93). -/
def Mod.lookAt (m : Mod) (c w l ea : Nat) (cmp : W32) (pc : W64) : Mod :=
  if ((m.thread? c w l).map Thread.ended).getD true then m
  else if m.sreadOf c w [l] ea 4 = cmp.toNat then m.block c w [l] (.wfa ea cmp) pc else m.acquire c w [l]

/-- A read-modify-write of an operand at type t: the new value (R126, R226, R270). -/
def atomNew (op : AtomOp) (t old v cmp : Nat) : Nat :=
  match op with
  | .add => if t = 10 then fAdd f32 old v else intOp .add t old v
  | .min => intOp .min t old v
  | .max => intOp .max t old v
  | .and => old &&& v
  | .or => old ||| v
  | .xor => old ^^^ v
  | .exch => v
  | .cas => if old = cmp then v else old

/-- comb(p, x) of a veneer operator (R354). -/
def vnrComb (op : Nat) (p x : W32) : W32 := BitVec.ofNat 32 (redOp (op / 16) (op % 16) p.toNat x.toNat)

/-- An element of a held view updated (R357). -/
def Mod.vnrUpdate (m : Mod) (c a op : Nat) (x : W32) : Mod :=
  m.veneerWrite c a (leBytes 4 (vnrComb op (BitVec.ofNat 32 (leNat (m.poolRead c a 4))) x).toNat)

/-- What one pass of a core's scratchpad port does to bytes, results and waits (R39, R122, R127, R357). -/
def Mod.passDoes (m : Mod) (c : Nat) (p : PortPass) : Mod :=
  match p.what with
  | .load n ty d sh w =>
    let x := extend ty w (leNat (m.readBy ((m.core c).threadsOf d) c p.addr n))
    m.reread c d fun old => putBits old sh w x
  | .store bs => m.threadWrite c p.addr bs
  | .atom op ty n v cmp ret =>
    let old := leNat (m.readBy ((ret.map fun r => [(c, r.1, r.2.1)]).getD []) c p.addr n)
    let m := m.threadWrite c p.addr (leBytes n (atomNew op ty old v cmp))
    match ret with
    | none => m
    | some (w, l, d) => (List.range (n / 4)).foldl (fun m i =>
        m.reread c (.v w l (d + i)) fun _ => BitVec.ofNat 64 (old / 2 ^ (32 * i) % 2 ^ 32)) m
  | .comb op x => m.vnrUpdate c p.addr op x
  | .look w l ea cmp pc => m.lookAt c w l ea cmp pc
  | .stage _ _ _ => m
  | .jig _ _ _ => m
  | .payload _ => m

/-- What engines remember of writes, as it was before a write of an access that was issued before they took their operands
(R197, R205, R228). -/
def Mod.untouch (m : Mod) (old : Mod) (id : Nat) : Mod :=
  let copy := fun (o : FabOp) => if id < o.id then
    { o with taint := ((old.fabOps.find? fun x => x.id == o.id).map (·.taint)).getD [] } else o
  let one := fun (k : Core) =>
    let k0 := old.core k.num
    let op := fun (o : MOp) => if id < o.id then { o with taint := ((k0.mq.find? fun x => x.id == o.id).map (·.taint)).getD [] } else o
    let sw := fun (s : Sweep) => if id < s.id then { s with taint := ((k0.sweeps.find? fun x => x.id == s.id).map (·.taint)).getD [] } else s
    let st := fun (w : Warp) => { w with mstage := w.mstage.map fun g =>
      if id < g.id then { g with taint := (((k0.warp? w.uid).bind (·.mstage)).map (·.taint)).getD [] } else g }
    { k with mq := k.mq.map op, sweeps := k.sweeps.map sw, warps := k.warps.map st }
  { m with fabOps := m.fabOps.map copy, cores := m.cores.map one }

/-- The module as the passes to come of a core's accesses leave it: what an access of a later slot, or of a later cycle, finds
(R39, R122). -/
def Mod.afterPasses (m : Mod) (c : Nat) : Mod := (m.core c).passes.foldl (fun m p => m.passDoes c p) m

/-- A pass that an access of a warp has still to take, p cycles from now (R39, R122). -/
def Bx.later (b : Bx) (w p addr : Nat) (what : PassOp) : Bx :=
  b.on fun m =>
    let q : PortPass := { id := m.next, block := ((m.warp? b.x.core w).map (·.block)).getD 0, warp := w,
                          at_ := m.clock + p, addr := addr, what := what }
    Mod.onCore { m with next := m.next + 1 } b.x.core fun k => { k with passes := k.passes ++ [q] }

/-- n bytes at an offset of a warp's block as an access of some threads in the bundle finds them behind the passes still to come (R39, R122). -/
def Bx.readAhead (b : Bx) (w : Nat) (ls : List Nat) (off n : Nat) : Nat :=
  (b.m.afterPasses b.x.core).sreadOf b.x.core w ls off n

/-- What an access has read of a word at issue it reads again in its own pass, for the result of a uniform register (R39, R122). -/
def Bx.readAgain (b : Bx) (w off n ty : Nat) (d : Dest) : Bx :=
  if b.x.passes = 0 then b
  else b.later w b.x.passes (b.m.poolAt b.x.core w off) (.load n ty d 0 64)

/-- Bytes at an offset of a warp's block written in the access's own pass (R39, R122). -/
def Bx.writePass (b : Bx) (w off n val : Nat) : Bx :=
  if b.x.passes = 0 then b.on fun m => m.swriteOf b.x.core w off n val
  else b.later w b.x.passes (b.m.poolAt b.x.core w off) (.store (leBytes n val))

end Sys2Proof.Machine
end

