-- ==== Sys2Proof/Machine/LocalMem.lean ====
section
/-! DEFINITION. Scratchpad loads and stores, the transposing load, the cluster window and atomics at block scope
(R120 to R127), and the requests that leave a core (R124, R125, R298). -/

namespace Sys2Proof.Machine

/-- The words of an access of n bytes at ea in a warp's block. -/
def Bx.words (b : Bx) (w ea n : Nat) : List Nat := wordsOf (b.m.poolAt b.x.core w ea) n

/-- The pass, counted from 0, in which an access to some words of the pool reaches one of them: the distinct words of one
bank in the order in which the lanes name them (R39). (log 78, DESIGN CHOICE) -/
def passOf (words : List Nat) (x : Nat) : Nat := (words.eraseDups.filter fun y => y % 96 == x % 96).idxOf x

/-- The same where every lane counts by itself: after the words that earlier lanes name in the bank (R127). -/
def passAfter (earlier : List Nat) (x : Nat) : Nat := (earlier.filter fun y => y % 96 == x % 96).length

/-- A local scratchpad access by each active thread (R39, R121, R122): threads whose check fails fault, the others access
their runs of bytes, each told by how much its result lands late and in which pass it reaches a word; then the port has taken
the passes. `each` says whether every lane counts as a pass of its own (R127). A thread whose own write to the bytes, of an
earlier bundle, is not performed yet holds the bundle (R30, R296). (log 77, DESIGN CHOICE) -/
def scratchAccess (wl each : Bool) (h : Hdr) (s : State) (check : Bx → Nat → Nat → Option Nat)
    (runs : Bx → Nat → Nat → List (Nat × Nat)) (go : Nat → Nat → Nat → (Nat → Nat) → Bx → Bx) : Out :=
  slotStep s fun b0 =>
    let ps := b0.x.active wl h
    let ok := ps.filter fun p => (check b0 p.1 p.2).isNone
    let b := ps.foldl (fun b p => match check b0 p.1 p.2 with
      | some cause => b.fault wl p.1 p.2 cause 0
      | none => b) b0
    if ok.isEmpty then b
    else if ok.any fun p => (runs b0 p.1 p.2).any fun r =>
        b0.x.before.mustWait b0.x.core p.1 p.2 (b0.m.poolAt b0.x.core p.1 r.1) r.2 then
      { b with x := { b.x with hold := true } }
    else
      let wordsAt := fun (p : Nat × Nat) => (runs b0 p.1 p.2).flatMap fun r => b0.words p.1 r.1 r.2
      let ws := ok.flatMap wordsAt
      let n := if each then passesEach ws else passesOf ws
      let pass := fun (earlier : List Nat) (x : Nat) => b0.x.passes + (if each then passAfter earlier x else passOf ws x)
      let r := ok.foldl (fun r p => (r.1 ++ wordsAt p, go p.1 p.2 (b0.x.passes + n - 1) (pass r.1) r.2)) ([], b)
      r.2.addPasses n

/-- The check of a naturally aligned access of n bytes (R121). -/
def Bx.check (b : Bx) (w ea n : Nat) : Option Nat := accessFault ea n n (b.m.scratchOf b.x.core w)

/-- The parts of n bytes at ea that lie in one word each: offset from ea, length. -/
def wordParts (ea n : Nat) : List (Nat × Nat) :=
  (List.range ((ea % 8 + n + 7) / 8)).map fun i =>
    let lo := max ea (ea / 8 * 8 + 8 * i)
    (lo - ea, min (ea + n) (ea / 8 * 8 + 8 * i + 8) - lo)

/-- n bytes at ea stored, each word in its pass (R39, R122). -/
def Bx.storeRun (b : Bx) (w ea n val : Nat) (pass : Nat → Nat) : Bx :=
  (wordParts ea n).foldl (fun b q =>
    let a := b.m.poolAt b.x.core w (ea + q.1)
    let bs := leBytes q.2 (val / 2 ^ (8 * q.1))
    if pass (a / 8) = 0 then b.on fun m => m.threadWrite b.x.core a bs else b.later w (pass (a / 8)) a (.store bs)) b

/-- What a load has read in its issue cycle of words that later passes reach is read again in those passes: n bytes at ea,
as an element of type ty below 32 bits, or four bytes to a register. -/
def Bx.rereads (b : Bx) (w l d ea n ty : Nat) (pass : Nat → Nat) : Bx :=
  let one := fun (b : Bx) (ea n ty d : Nat) =>
    let a := b.m.poolAt b.x.core w ea
    if pass (a / 8) = 0 then b else b.later w (pass (a / 8)) a (.load n ty (.v w l d) 0 32)
  if n < 4 then one b ea n ty d else (List.range (n / 4)).foldl (fun b i => one b (ea + 4 * i) 4 6 (d + i)) b

/-- `vld` (R121). -/
def execVld (h : Hdr) (f : FmtM) (s : State) : Out :=
  let n := elemBytes f
  scratchAccess f.bk false h s (fun b w l => b.check w (b.x.ea f w l) n) (fun b w l => [(b.x.ea f w l, n)])
    fun w l extra pass b =>
      (b.putRun w l f.d.toNat (loadVal (elemTy f) (b.m.sreadOf b.x.core w [l] (b.x.ea f w l) n)) 10 extra
        (elemRegs f)).rereads w l f.d.toNat (b.x.ea f w l) n (elemTy f) pass

/-- `vst` (R121). -/
def execVst (h : Hdr) (f : FmtM) (s : State) : Out :=
  let n := elemBytes f
  scratchAccess f.bk false h s (fun b w l => b.check w (b.x.ea f w l) n) (fun b w l => [(b.x.ea f w l, n)])
    fun w l _ pass b => b.storeRun w (b.x.ea f w l) n (b.x.vrun w l f.d.toNat (elemRegs f)) pass

/-- A cluster address resolved for n bytes (R124): the target core of the module, block and offset, or the cause.
(log 94, DESIGN CHOICE) -/
def Mod.clusterAt (m : Mod) (c w ea n : Nat) : Except Nat (Nat × Nat × Nat) :=
  let off := ea % 2 ^ 21
  if bitsOf ea 21 11 ≠ 0 ∨ bitsOf ea 39 1 ≠ 0 ∨ bitsOf ea 44 20 ≠ 0 ∨ m.scratchOf c w < off + n then .error 0x08
  else
    let t := c / 128 * 128 + bitsOf ea 32 7
    match (m.core t).blockIn? (bitsOf ea 40 4), m.blockOf c w with
    | some b, some own => if b.launch = own.launch then .ok (t, b.uid, off) else .error 0x09
    | _, _ => .error 0x09

/-- The alignment and cluster checks of an access of n bytes (R121, R124, R125). -/
def Mod.clusterCheck (m : Mod) (c w ea n : Nat) : Option Nat :=
  if ea % n ≠ 0 then some 0x07
  else match m.clusterAt c w ea n with
    | .error cause => some cause
    | .ok _ => none

/-- A request leaves the core: it takes a number, and is performed later. -/
def Mod.request (m : Mod) (c w l : Nat) (place : Place) (what : ReqOp) (d : Nat) (deps : List Nat) (readyAt : Nat)
    (acq : Bool := false) : Mod :=
  { m with next := m.next + 1, reqs := m.reqs ++
    [{ id := m.next, core := c, warp := w, lane := l, launch := ((m.blockOf c w).map (·.launch)).getD 0,
       place := place, what := what, d := d, deps := deps,
       seen := ((m.thread? c w l).map (·.seen)).getD 0, at_ := m.clock, readyAt := readyAt, gen := m.gen, acq := acq }] }

/-- Registers of one thread pending until a request's result lands (R38). -/
def Mod.putPending (m : Mod) (c w l d n id : Nat) (kind : LandKind) : Mod :=
  m.onCore c fun k => { k with flights := k.flights ++ (List.range n).map fun i =>
    { id := id, dest := .v w l (d + i), val := 0, land := none, kind := kind, lanes := [l] } }

/-- `vst.cw`: a store through the cluster window, into the outbound buffer (R125, R298). -/
def execVstCw (h : Hdr) (f : FmtM) (s : State) : Out :=
  let n := elemBytes f
  perThread f.bk h s fun w l b =>
    let ea := b.x.ea f w l
    if ea % n ≠ 0 then b.fault f.bk w l 0x07 0
    else match b.m.clusterAt b.x.core w ea n with
      | .error cause => b.fault f.bk w l cause 0
      | .ok (t, blk, off) => b.on fun m => m.request b.x.core w l (.cluster t blk off)
          (.store (leBytes n (b.x.vrun w l f.d.toNat (elemRegs f)))) 0 [] m.clock

/-- `vldc`: a deferred load from a cluster address, 20 c at the least (R125). -/
def execVldc (h : Hdr) (f : FmtM) (s : State) : Out :=
  let n := elemBytes f
  perThread f.bk h s fun w l b =>
    let ea := b.x.ea f w l
    if ea % n ≠ 0 then b.fault f.bk w l 0x07 0
    else match b.m.clusterAt b.x.core w ea n with
      | .error cause => b.fault f.bk w l cause 0
      | .ok (t, blk, off) => b.on fun m =>
          (m.putPending b.x.core w l f.d.toNat (elemRegs f) m.next .onModule).request b.x.core w l
            (.cluster t blk off) (.load (tyOf (elemTy f)) (elemCount (f.aux.toNat / 16 % 4))) f.d.toNat [] (m.clock + 20)

/-- The four element addresses of `vldt` for a relative lane; they wrap as ea does (R24, R123).
(log 79, DESIGN CHOICE) -/
def vldtAddrs (ea stride bytes i : Nat) : List Nat :=
  (List.range 4).map fun r => (ea + r * stride + i * bytes) % 2 ^ 64

/-- `vldt`: a 4 × W sub-matrix delivered by columns, 12 c (R123). -/
def execVldt (h : Hdr) (f : FmtM) (s : State) : Out :=
  let n := tyWidth (f.aux.toNat % 16) / 8
  let stride := f.aux.toNat / 16
  let addrs := fun (b : Bx) w l =>
    vldtAddrs (b.x.ea f w l) stride n (relLane (b.x.before.widthOf b.x.core w) l)
  scratchAccess true false h s
    (fun b w l => (addrs b w l).findSome? fun a => b.check w a n)
    (fun b w l => (addrs b w l).map fun a => (a, n))
    fun w l extra pass b =>
      let raw := (addrs b w l).foldr (fun a r => b.m.sreadOf b.x.core w [l] a n + 2 ^ (8 * n) * r) 0
      let b := b.putRun w l f.d.toNat raw 12 extra n
      (addrs b w l).zipIdx.foldl (fun b q =>
        let a := b.m.poolAt b.x.core w q.1
        let d := f.d.toNat + n * q.2 / 4
        if pass (a / 8) = 0 then b
        else if n = 8 then
          (b.later w (pass (a / 8)) a (.load 4 6 (.v w l d) 0 32)).later w (pass (a / 8)) (a + 4) (.load 4 6 (.v w l (d + 1)) 0 32)
        else b.later w (pass (a / 8)) a (.load n 7 (.v w l d) (8 * (n * q.2 % 4)) (8 * n))) b

/-- The atomic operation of a code (R126). -/
def atomOpOf (n : Nat) : AtomOp :=
  match n with
  | 0 => .add | 1 => .min | 2 => .max | 3 => .and | 4 => .or | 5 => .xor | 6 => .exch | _ => .cas

/-- The operand and the comparand of an atomic whose data registers begin at d, of n bytes each: `cas` compares with
the first and stores the second (R126). -/
def Issue.atomArgs (x : Issue) (w l d : Nat) (op : AtomOp) (n : Nat) : Nat × Nat :=
  let k := n / 4
  if op = .cas then (x.vrun w l (d + k) k, x.vrun w l d k) else (x.vrun w l d k, 0)

/-- One lane's atomic of n bytes on the scratchpad of its block, in its pass (R126, R127); `ret` returns the old value to the
registers from d on. -/
def Bx.atomHere (b : Bx) (w l ea d : Nat) (op : AtomOp) (t n : Nat) (ret : Bool) (extra : Nat) (pass : Nat → Nat) : Bx :=
  let a := b.x.atomArgs w l d op n
  let at_ := b.m.poolAt b.x.core w ea
  let old := b.m.sreadOf b.x.core w [l] ea n
  let p := pass (at_ / 8)
  let b := if p = 0 then b.on fun m => m.swriteOf b.x.core w ea n (atomNew op t old a.1 a.2)
    else b.later w p at_ (.atom op t n a.1 a.2 (if ret then some (w, l, d) else none))
  if ret then b.putRun w l d old 10 extra (n / 4) else b

/-- `vatom` (R126, R127). -/
def execVatom (h : Hdr) (f : FmtM) (s : State) : Out :=
  let t := tyOfMinor f.minor
  let n := tyWidth t / 8
  let op := atomOpOf (hiOfMinor f.minor)
  scratchAccess f.bk true h s (fun b w l => b.check w (b.x.ea f w l) n) (fun b w l => [(b.x.ea f w l, n)])
    fun w l extra pass b => b.atomHere w l (b.x.ea f w l) f.d.toNat op t n (f.aux == 1) extra pass

end Sys2Proof.Machine
end

