-- ==== Sys2Proof/Machine/WeirInstr.lean ====
section
/-! DEFINITION. Weirs (R84 to R91): increments, waits and the five instructions. -/

namespace Sys2Proof.Machine

/-- A weir of a block; one that was never set holds zeros (R84). -/
def Block.weir (b : Block) (n : Nat) : Weir := b.weirs.getD n { t := 0, c := 0, p := 0 }

/-- A weir replaced. -/
def Block.setWeir (b : Block) (n : Nat) (x : Weir) : Block := { b with weirs := b.weirs.set n x }

/-- `increment` of R87 on a weir whose target is not 0. -/
def Weir.inc (x : Weir) (n : Nat) : Weir :=
  if x.t.toNat ≤ x.c.toNat + n then { x with p := x.p + 1, c := 0 } else { x with c := BitVec.ofNat 32 (x.c.toNat + n) }

/-- The watchdog timers of the waits on a weir restart (R394). -/
def Core.weirProgress (k : Core) (block n tick : Nat) : Core :=
  { k with waits := k.waits.map fun g =>
      let here := match k.warp? g.warp with | some w => w.block == block | none => false
      match g.wait with
      | .weir i _ => if here && i == n then g.restart tick else g
      | .weirArrive i _ _ => if here && i == n then g.restart tick else g
      | _ => g }

/-- An increment of n at a block's weir (R87). -/
def Mod.weirInc (m : Mod) (c b i n : Nat) : Mod :=
  if n = 0 then m
  else m.onCore c fun k => (k.onBlock b fun x => x.setWeir i ((x.weir i).inc n)).weirProgress b i m.tick

/-- A credit that an engine brings: a target of 0 puts the launch in error (R86, R396). -/
def Mod.weirCredit (m : Mod) (c b i n : Nat) : Mod :=
  match m.block? c b with
  | none => m
  | some x => if (x.weir i).t = 0 then m.launchError x.launch 0x0B else m.weirInc c b i n

/-- Whether a warp's block has a weir (R84). -/
def Mod.hasWeir (m : Mod) (c w n : Nat) : Bool :=
  match m.blockOf c w with
  | some b => decide (n < b.weirs.length)
  | none => false

/-- A weir of a warp's block. -/
def Mod.weirOf (m : Mod) (c w n : Nat) : Weir :=
  match m.blockOf c w with
  | some b => b.weir n
  | none => { t := 0, c := 0, p := 0 }

/-- The block number of a warp. -/
def Mod.buid (m : Mod) (c w : Nat) : Nat := ((m.warp? c w).map (·.block)).getD 0

/-- The weir fault of an instruction that names a weir the block has not, or one whose target is 0 (R84, R86). -/
def Mod.weirFault (m : Mod) (c w n : Nat) : Bool := !m.hasWeir c w n || (m.weirOf c w n).t == 0

/-- `weir.set` (R86). -/
def execWeirSet (h : Hdr) (f : FmtE) (s : State) : Out :=
  perWarp h s fun w ls b =>
    let t : W32 := if f.cmd = 1 then f.imm16.setWidth 32 else (b.x.u w f.a).extractLsb' 0 32
    let n := f.weir.toNat
    if !b.m.hasWeir b.x.core w n || t == 0 then b.faultAll (ls.map fun l => (w, l)) 0x0B
    else b.on fun m => m.onBlock b.x.core (m.buid b.x.core w) fun x =>
      x.setWeir n { x.weir n with t := t, c := 0 }

/-- An arrival of some threads of a warp at a scope (R87, R91): at block scope, or when every write of the release is
performed, the increment is made at issue; otherwise it waits. The number of a waiting increment, or none. -/
def Mod.arrive (m : Mod) (c w : Nat) (ls : List Nat) (scope i n : Nat) : Option Nat × Mod :=
  let deps := m.releaseSet c w ls
  if scope ≤ 2 || m.allPerformed deps then (none, m.weirInc c (m.buid c w) i n)
  else
    (some m.next, Mod.onCore { m with next := m.next + 1 } c fun k => { k with late := k.late ++
      [{ id := m.next, block := m.buid c w, weir := i, n := n, deps := deps }] })

/-- The increment of an arrival: imm16 with an odd cmd, else the number of threads (R87). -/
def arriveCount (f : FmtE) (ls : List Nat) : Nat := if f.cmd.toNat % 2 = 1 then f.imm16.toNat else ls.length

/-- `weir.arv` (R87). -/
def execWeirArv (h : Hdr) (f : FmtE) (s : State) : Out :=
  perWarp h s fun w ls b =>
    let i := f.weir.toNat
    if b.m.weirFault b.x.core w i then b.faultAll (ls.map fun l => (w, l)) 0x0B
    else
      let tok := (b.m.weirOf b.x.core w i).p
      let b := b.on fun m => (m.arrive b.x.core w ls (minorScope f.minor) i (arriveCount f ls)).2
      if 2 ≤ f.cmd.toNat then b.putS w f.d.toNat (tok.setWidth 64) 2 else b

/-- Some threads of a warp have waited for a weir: they acquire, also the completions of the matrix operations and the ends of the
runs that have credited it (R91, R197, R283, R333). -/
def Mod.weirAcquire (m : Mod) (c w : Nat) (ls : List Nat) (i : Nat) : Mod :=
  ((m.acquire c w ls).learnDone c w ls fun _ d => d.block == m.buid c w && d.weir == some i).coolRuns fun r =>
    r.core == c && r.warp == w && r.ended && r.weir == some i

/-- A wait on a weir by some threads that is over at issue: they acquire, and go on once the fixed-latency results that their
warp has issued have landed (R37, R91). -/
def Mod.passWeir (m : Mod) (c w : Nat) (ls : List Nat) (i : Nat) : Mod :=
  (m.weirAcquire c w ls i).holdTill c w ls ((m.core c).warpLanding w 0)

/-- `weir.wt` (R89). -/
def execWeirWt (h : Hdr) (f : FmtE) (s : State) : Out :=
  perWarp h s fun w ls b =>
    let i := f.weir.toNat
    let tok := (b.x.u w f.a).extractLsb' 0 32
    if b.m.weirFault b.x.core w i then b.faultAll (ls.map fun l => (w, l)) 0x0B
    else if (b.m.weirOf b.x.core w i).p ≠ tok then b.on fun m => m.passWeir b.x.core w ls i
    else b.on fun m => m.block b.x.core w ls (.weir i tok) b.x.pc

/-- `weir.aw`: arrive, then wait for the phase to change (R89). -/
def execWeirAw (h : Hdr) (f : FmtE) (s : State) : Out :=
  perWarp h s fun w ls b =>
    let i := f.weir.toNat
    if b.m.weirFault b.x.core w i then b.faultAll (ls.map fun l => (w, l)) 0x0B
    else
      let tok := (b.m.weirOf b.x.core w i).p
      let r := b.m.arrive b.x.core w ls (minorScope f.minor) i (arriveCount f ls)
      match r.1 with
      | some id => { b with m := r.2.block b.x.core w ls (.weirArrive i tok id) b.x.pc }
      | none =>
        if (r.2.weirOf b.x.core w i).p ≠ tok then { b with m := r.2.passWeir b.x.core w ls i }
        else { b with m := r.2.block b.x.core w ls (.weir i tok) b.x.pc }

/-- `weir.tst` (R90). -/
def execWeirTst (h : Hdr) (f : FmtE) (s : State) : Out :=
  perWarp h s fun w ls b =>
    let i := f.weir.toNat
    if !b.m.hasWeir b.x.core w i then b.faultAll (ls.map fun l => (w, l)) 0x0B
    else
      let x := b.m.weirOf b.x.core w i
      b.putS w f.d.toNat (x.p ++ x.c) 2

/-- WEIR_DEFERRED_INCREMENT: the increment of an arrival whose release is complete is made (R87, R88). -/
def execWeirDeferredIncrement (c id : Nat) (s : State) : Out :=
  match (s.now.core c).late.find? fun a => a.id == id with
  | none => .next s
  | some a =>
    if s.now.allPerformed a.deps then
      let m := s.now.onCore c fun k => { k with late := k.late.filter fun x => x.id != id }
      .next { s with now := m.weirCredit c a.block a.weir a.n }
    else .next s

end Sys2Proof.Machine
end

