-- ==== Sys2Proof/Machine/Translate.lean ====
section
/-! DEFINITION. Translation (R419 to R421): the page-table walk, the cached leaves, walks of held bundles, and access
to device memory through a translator. -/

namespace Sys2Proof.Machine

/-- What a page-table entry says (R420). -/
inductive Pte where
  | bad
  | table (pa : Nat)
  | leaf (pa : Nat) (rd wr : Bool)
deriving DecidableEq, Repr

/-- The size of the page that a leaf of a level maps. -/
def levelSize (lvl : Nat) : Nat := 2 ^ (12 + 9 * lvl)

/-- An entry of a table of a level taken apart: unmapped and malformed entries are `bad` (R420). -/
def pteOf (lvl e : Nat) : Pte :=
  let pa := bitsOf e 12 40 * 4096
  if e % 2 = 0 ∨ bitsOf e 4 8 ≠ 0 ∨ bitsOf e 52 12 ≠ 0 ∨ Config.dramBytes ≤ pa then .bad
  else if e / 2 % 2 = 1 then
    (if 3 ≤ lvl ∨ pa % levelSize lvl ≠ 0 then .bad else .leaf pa (e / 4 % 2 == 1) (e / 8 % 2 == 1))
  else if lvl = 0 then .bad else .table pa

/-- The walk of a virtual address from a table of a level down: page size, physical base and permissions (R420). -/
def walkFrom (mem : Memory) (va : Nat) : Nat → Nat → Option (Nat × Nat × Bool × Bool)
  | 0, table => match pteOf 0 (leNat (mem.readN (table + 8 * bitsOf va 12 9) 8)) with
    | .leaf pa rd wr => some (4096, pa, rd, wr)
    | _ => none
  | n + 1, table =>
    match pteOf (n + 1) (leNat (mem.readN (table + 8 * bitsOf va (12 + 9 * (n + 1)) 9) 8)) with
    | .leaf pa rd wr => some (levelSize (n + 1), pa, rd, wr)
    | .table pa => walkFrom mem va n pa
    | .bad => none

/-- The walk of an address space; addresses have 56 bits. -/
def Mod.walk (m : Mod) (asid va : Nat) : Option (Nat × Nat × Bool × Bool) :=
  if 2 ^ 56 ≤ va then none
  else match m.asid? asid with
    | none => none
    | some a => walkFrom m.dram va 4 a.root

/-- The cached leaf that a translator holds for an address. -/
def Mod.cached (m : Mod) (who : Translator) (asid va : Nat) : Option TlbEntry :=
  m.tlb.find? fun e => e.who == who && e.asid == asid && decide (e.va ≤ va) && decide (va < e.va + e.size)

/-- A walk's leaf joins a translator's cache. -/
def Mod.cache (m : Mod) (who : Translator) (asid va : Nat) (p : Nat × Nat × Bool × Bool) : TlbEntry × Mod :=
  let e : TlbEntry :=
    { who := who, asid := asid, va := va / p.1 * p.1, size := p.1, pa := p.2.1, rd := p.2.2.1, wr := p.2.2.2 }
  (e, { m with tlb := e :: m.tlb })

/-- The translation of an address at a translator whose requester does not hold a bundle: a cached leaf, or a walk.
An error says whether the page is mapped and only the permission lacks (R420). -/
def Mod.xlate (m : Mod) (who : Translator) (asid va : Nat) (wr : Bool) : Except Bool Nat × Mod :=
  let r := match m.cached who asid va with
    | some e => (some e, m)
    | none => match m.walk asid va with
      | none => (none, m)
      | some p => let r := m.cache who asid va p; (some r.1, r.2)
  (match r.1 with
    | none => .error false
    | some e => if (if wr then e.wr else e.rd) then .ok (e.pa + (va - e.va)) else .error true, r.2)

/-- The pieces of a run of bytes that lie in one 4 KiB page each. -/
def pagePieces (va n : Nat) : List (Nat × Nat) :=
  (List.range (n / 4096 + 2)).filterMap fun i =>
    let lo := max va ((va / 4096 + i) * 4096)
    let hi := min (va + n) ((va / 4096 + i + 1) * 4096)
    if lo < hi then some (lo, hi - lo) else none

/-- The physical runs of a virtual run (R419, R420). -/
def Mod.xlateRun (m : Mod) (who : Translator) (asid : Nat) (wr : Bool) :
    List (Nat × Nat) → Except Bool (List (Nat × Nat)) × Mod
  | [] => (.ok [], m)
  | p :: ps =>
    let r := m.xlate who asid p.1 wr
    match r.1 with
    | .error e => (.error e, r.2)
    | .ok pa =>
      let q := r.2.xlateRun who asid wr ps
      match q.1 with
      | .error e => (.error e, q.2)
      | .ok l => (.ok ((pa, p.2) :: l), q.2)

/-- n bytes of device memory at a virtual address. -/
def Mod.devRead (m : Mod) (who : Translator) (asid va n : Nat) : Except Bool (List Byte) × Mod :=
  let r := m.xlateRun who asid false (pagePieces va n)
  match r.1 with
  | .error e => (.error e, r.2)
  | .ok l => (.ok (l.flatMap fun p => r.2.dram.readN p.1 p.2), r.2)

/-- Bytes laid over physical runs of device memory. -/
def Mod.dramSpread (m : Mod) : List (Nat × Nat) → List Byte → Mod
  | [], _ => m
  | p :: ps, bs => Mod.dramSpread (m.dramWrite p.1 (bs.take p.2)) ps (bs.drop p.2)

/-- Bytes written to device memory at a virtual address; nothing is written where a page's translation fails. -/
def Mod.devWrite (m : Mod) (who : Translator) (asid va : Nat) (bs : List Byte) : Except Bool Unit × Mod :=
  let r := m.xlateRun who asid true (pagePieces va bs.length)
  match r.1 with
  | .error e => (.error e, r.2)
  | .ok l => (.ok (), r.2.dramSpread l bs)

/-! ### Walks of held bundles (R267) -/

/-- What an instruction's address gives at its die's cache: a physical address, a fault with its detail bits (R396), or
a walk to wait for. -/
inductive Xlated where
  | phys (pa : Nat)
  | fault (detail : W32)
  | wait
deriving DecidableEq, Repr

/-- The translation of one lane's address for an instruction of a core (R267, R396). -/
def Mod.xlateLane (m : Mod) (c asid ea : Nat) (wr : Bool) : Xlated :=
  let w : W32 := if wr then 2 else 0
  if 2 ^ 56 ≤ ea then .fault (4 ||| w)
  else match m.cached (.die (c / 256)) asid ea with
    | some e => if (if wr then e.wr else e.rd) then .phys (e.pa + (ea - e.va)) else .fault (1 ||| w)
    | none =>
      if m.walks.any fun k => k.who == .die (c / 256) && k.asid == asid && k.va == ea / 4096 * 4096 && k.failed then
        .fault w
      else .wait

/-- Walks that the shared walker runs at once (R419). -/
def walkerSlots : Nat := 64

/-- A walk asked for, once; where the walker runs 64 already the bundle asks again. -/
def Mod.askWalk (m : Mod) (c asid ea : Nat) : Mod :=
  let k : Walk := { who := .die (c / 256), asid := asid, va := ea / 4096 * 4096, gen := m.gen, failed := false }
  if m.walks.any (fun x => x.who == k.who && x.asid == k.asid && x.va == k.va && !x.failed) ||
      decide (walkerSlots ≤ (m.walks.filter fun x => !x.failed).length) then m
  else { m with walks := m.walks ++ [k] }

/-- The failed walks of some addresses, now answered, leave the list. (log 22, DEDUCED) -/
def Mod.dropWalks (m : Mod) (c asid : Nat) (eas : List Nat) : Mod :=
  { m with walks := m.walks.filter fun k =>
      !(k.who == .die (c / 256) && k.asid == asid && k.failed && eas.any fun ea => ea / 4096 * 4096 == k.va) }

/-- TRANSLATION_WALK_COMPLETE: the oldest walk that a held bundle waits for reads the page table: its leaf joins the
cache, or the walk has failed (R267, R419, R420). (log 22, DEDUCED) -/
def execTranslationWalkComplete (s : State) : Out :=
  match s.now.walks.find? fun k => !k.failed with
  | none => .next s
  | some k =>
    let m := s.now
    match m.walk k.asid k.va with
    | some p =>
      let r := m.cache k.who k.asid k.va p
      .next { s with now := { r.2 with walks := m.walks.erase k } }
    | none =>
      .next { s with now := { m with walks := m.walks.erase k ++ [{ k with failed := true }] } }

end Sys2Proof.Machine
end

