-- ==== Sys2Proof/Machine/Atomic.lean ====
section
/-! DEFINITION. `wfa` (R92, R93), and the operations of every scope: `atom`, `ld.acq`, `st.rel`, `fence` (R266 to
R273). -/

namespace Sys2Proof.Machine

/-- `wfa`: each thread waits while the word equals its register, which is looked at in the word's pass (R92, R93); until then the
thread issues nothing. -/
def execWfa (h : Hdr) (f : FmtM) (s : State) : Out :=
  scratchAccess f.bk false h s (fun b w l => b.check w (b.x.ea f w l) 4) (fun b w l => [(b.x.ea f w l, 4)])
    fun w l _ pass b =>
      let ea := b.x.ea f w l
      let v := b.x.v w l f.d.toNat
      let a := b.m.poolAt b.x.core w ea
      let p := pass (a / 8)
      if p = 0 then b.on fun m => m.lookAt b.x.core w l ea v b.x.pc
      else (b.on fun m => m.holdTill b.x.core w [l] (m.clock + p)).later w p a (.look w l ea v b.x.pc)

/-- The writes that a release by one thread waits for at a scope. At block scope every observer is on the thread's own core
and none reads behind what it has observed (`Mod.mustWait`, `Mod.reqOpen`), so none is waited for (R87, R271, R303). -/
def Bx.relDeps (b : Bx) (rel : Bool) (scope w l : Nat) : List Nat :=
  if rel && decide (3 ≤ scope) then b.m.releaseSet b.x.core w [l] else []

/-- Lower bounds of the landing of a deferred result, by scope (R266). -/
def scopeWait (scope : Nat) : Nat := if scope = 3 then 24 else if scope ≤ 5 then 160 else 240

/-- An access of n bytes by each active thread beyond its own block (R266, R267): at cluster scope a cluster address, at
wider scopes a device-memory address. Threads whose check fails fault, and a translation that is not cached holds the
bundle until its walk has come back. (log 93, DESIGN CHOICE) -/
def remoteAccess (h : Hdr) (f : FmtM) (s : State) (scope n : Nat) (wr : Bool)
    (go : Nat → Nat → Place → Bx → Bx) : Out :=
  slotStep s fun b0 =>
    let c := b0.x.core
    let ps := b0.x.active f.bk h
    let aligned := fun (p : Nat × Nat) => b0.x.ea f p.1 p.2 % n == 0
    if scope = 3 then
      ps.foldl (fun b p =>
        if !aligned p then b.fault f.bk p.1 p.2 0x07 0
        else match b0.m.clusterAt c p.1 (b0.x.ea f p.1 p.2) n with
          | .error cause => b.fault f.bk p.1 p.2 cause 0
          | .ok t => go p.1 p.2 (.cluster t.1 t.2.1 t.2.2) b) b0
    else
      let asid := fun (w : Nat) => ((b0.m.launchOf c w).map (·.asid)).getD 0
      let tr := fun (p : Nat × Nat) => b0.m.xlateLane c (asid p.1) (b0.x.ea f p.1 p.2) wr
      let waits := ps.filter fun p => aligned p && tr p == .wait
      if !waits.isEmpty then
        { m := waits.foldl (fun m p => m.askWalk c (asid p.1) (b0.x.ea f p.1 p.2)) b0.m,
          x := { b0.x with hold := true } }
      else
        let b := ps.foldl (fun b p =>
          if !aligned p then b.fault f.bk p.1 p.2 0x07 0
          else match tr p with
            | .phys pa => go p.1 p.2 (.device pa) b
            | .fault d => b.fault f.bk p.1 p.2 0x0A d
            | .wait => b) b0
        ps.foldl (fun b p => b.on fun m => m.dropWalks c (asid p.1) [b0.x.ea f p.1 p.2]) b

/-- The operand bytes of an `atom` (R269). -/
def atomBytes (f : FmtM) : Nat := tyWidth (f.aux.toNat % 16) / 8 * (if f.aux.toNat / 16 % 4 = 1 then 2 else 1)

/-- `atom` (R268 to R271). -/
def execAtom (h : Hdr) (f : FmtM) (s : State) : Out :=
  let scope := minorScope f.minor
  let t := f.aux.toNat % 16
  let n := atomBytes f
  let op := atomOpOf (minorFn f.minor)
  let ret := f.aux.toNat / 64 % 2 == 1
  let acq := f.aux.toNat / 128 % 2 == 1
  let rel := f.aux.toNat / 256 % 2 == 1
  if scope = 2 then
    scratchAccess f.bk true h s (fun b w l => b.check w (b.x.ea f w l) n) (fun b w l => [(b.x.ea f w l, n)])
      fun w l extra pass b =>
        let b := b.atomHere w l (b.x.ea f w l) f.d.toNat op t n ret extra pass
        if acq then b.on fun m => m.acquire b.x.core w [l] else b
  else
    remoteAccess h f s scope n true fun w l place b =>
      let a := b.x.atomArgs w l f.d.toNat op n
      let deps := b.relDeps rel scope w l
      b.on fun m =>
        (if ret then m.putPending b.x.core w l f.d.toNat (n / 4) m.next .onModule else m).request b.x.core w l place
          (.atom op (tyOf t) n (BitVec.ofNat 128 a.1) (BitVec.ofNat 128 a.2) ret) f.d.toNat deps
          (m.clock + scopeWait scope) acq

/-- The registers of an element of a type. -/
def tyRegs (t : Nat) : Nat := max 1 (tyWidth t / 32)

/-- `ld.acq` (R272). -/
def execLdAcq (h : Hdr) (f : FmtM) (s : State) : Out :=
  let scope := minorScope f.minor
  let t := f.aux.toNat % 16
  let n := tyWidth t / 8
  if scope = 2 then
    scratchAccess f.bk true h s (fun b w l => b.check w (b.x.ea f w l) n) (fun b w l => [(b.x.ea f w l, n)])
      fun w l extra pass b =>
        let b := (b.putRun w l f.d.toNat (loadVal t (b.m.sreadOf b.x.core w [l] (b.x.ea f w l) n)) 10 extra
          (tyRegs t)).rereads w l f.d.toNat (b.x.ea f w l) n t pass
        b.on fun m => m.acquire b.x.core w [l]
  else
    remoteAccess h f s scope n false fun w l place b => b.on fun m =>
      (m.putPending b.x.core w l f.d.toNat (tyRegs t) m.next .onModule).request b.x.core w l place
        (.load (tyOf t) 1) f.d.toNat [] (m.clock + scopeWait scope) true

/-- `st.rel` (R272). -/
def execStRel (h : Hdr) (f : FmtM) (s : State) : Out :=
  let scope := minorScope f.minor
  let t := f.aux.toNat % 16
  let n := tyWidth t / 8
  if scope = 2 then
    scratchAccess f.bk true h s (fun b w l => b.check w (b.x.ea f w l) n) (fun b w l => [(b.x.ea f w l, n)])
      fun w l _ pass b => b.storeRun w (b.x.ea f w l) n (b.x.vrun w l f.d.toNat (tyRegs t)) pass
  else
    remoteAccess h f s scope n true fun w l place b =>
      let deps := b.relDeps true scope w l
      b.on fun m => m.request b.x.core w l place
        (.store (leBytes n (b.x.vrun w l f.d.toNat (tyRegs t)))) 0 deps m.clock

/-- Whether an unperformed write counts as visible at block scope by forwarding: a buffered cluster or fabric write
(R273, R299), or a local store whose passes its core's later accesses follow (R39). -/
def Mod.forwardable (m : Mod) (id : Nat) : Bool :=
  m.reqs.any (fun r => r.id == id && (match r.place, r.what with
    | .cluster _ _ _, .store _ => true
    | _, _ => false)) ||
  m.fabOps.any (fun o => o.id == id && decide (o.pkt.op ≤ 1)) || m.cores.any fun k => k.passes.any fun p => p.id == id

/-- The writes that a fence by a thread waits for (R273). -/
def Mod.fenceDeps (m : Mod) (c w l scope : Nat) : List Nat :=
  let ds := m.releaseSet c w [l]
  if scope = 2 then ds.filter fun i => !m.forwardable i else ds

/-- The results of deferred loads and atomics that a thread has pending (R38, R273). -/
def Core.pendingOf (k : Core) (w l : Nat) : List Flight :=
  k.flights.filter fun f => f.ofAccess && f.lanes.contains l && f.dest.warp == w

/-- Whether the writes and results for which a fence of a thread waits are all there (R273, R305). -/
def Mod.fenceOver (m : Mod) (c w l scope : Nat) : Bool :=
  (m.fenceDeps c w l scope).isEmpty && ((m.core c).pendingOf w l).isEmpty

/-- A thread whose fence is over goes on, and its earlier reads count as acquires (R305). -/
def Mod.endFence (m : Mod) (c w l : Nat) : Mod :=
  (m.acquire c w [l]).onThread c w l fun t => { t with fence := none }

/-- `fence`: the thread goes on when its earlier writes are visible and its deferred results have landed, 2 c after
issue at the earliest; for these 2 c it is in gap, and longer it is at the fence wait (R145, R273).
(log 24, DEDUCED) -/
def execFence (h : Hdr) (f : FmtS) (s : State) : Out :=
  perThread false h s fun w l b => b.on fun m => m.onThread b.x.core w l fun t =>
    { t.holdTill (m.clock + 2) with fence := some (f.minor.toNat, m.clock + 2, b.x.pc) }

end Sys2Proof.Machine
end

