-- ==== Sys2Proof/Machine/Sluice.lean ====
section
/-! DEFINITION. The sluice (R207 to R217): staging, the checks of a request, its chunks, arming and cancelling. -/

namespace Sys2Proof.Machine

/-! ### Address, shape and completion words (R208 to R210) -/

/-- len0 of a shape. -/
def shLen (s : W64) : Nat := bitsOf s.toNat 0 16
/-- Runs per plane. -/
def shRuns (s : W64) : Nat := bitsOf s.toNat 16 12 + 1
/-- Planes. -/
def shPlanes (s : W64) : Nat := bitsOf s.toNat 28 8 + 1
/-- Whether the destination is the strided side. -/
def shDst (s : W64) : Bool := bitsOf s.toNat 36 1 == 1
/-- The stride between runs in bytes. -/
def shStr1 (s : W64) : Nat := bitsOf s.toNat 37 13 * 16
/-- The stride between planes in bytes. -/
def shStr2 (s : W64) : Nat := bitsOf s.toNat 50 14 * 4096

/-- The bytes of a transfer. -/
def shTotal (s : W64) : Nat := shLen s * shRuns s * shPlanes s

/-- The offset of byte i on the strided side (R209). -/
def shStrided (s : W64) (i : Nat) : Nat :=
  i / (shLen s * shRuns s) * shStr2 s + i / shLen s % shRuns s * shStr1 s + i % shLen s

/-- The bytes that the strided side spans. -/
def shSpan (s : W64) : Nat := (shPlanes s - 1) * shStr2 s + (shRuns s - 1) * shStr1 s + shLen s

/-- The offset of byte i at the source. -/
def srcOff (s : W64) (i : Nat) : Nat := if shDst s then i else shStrided s i

/-- The offset of byte i at the destination. -/
def dstOff (s : W64) (i : Nat) : Nat := if shDst s then shStrided s i else i

/-- The bytes spanned at the source. -/
def srcSpan (s : W64) : Nat := if shDst s then shTotal s else shSpan s

/-- The bytes spanned at the destination. -/
def dstSpan (s : W64) : Nat := if shDst s then shSpan s else shTotal s

/-- The checks of R208 on W0 or W1 that spans n bytes. -/
def Mod.slAddrOk (m : Mod) (c w : Nat) (a : W64) (n : Nat) : Bool :=
  bitsOf a.toNat 59 5 == 0 &&
  (match addrKind a with
    | 0 => true
    | 1 => bitsOf a.toNat 21 35 == 0
    | 2 => bitsOf a.toNat 44 12 == 0 && (match m.clusterAt c w (addrOf a) n with
      | .ok _ => true
      | .error _ => false)
    | _ => false)

/-- The checks of R209. -/
def shapeOk (s : W64) : Bool :=
  shLen s != 0 && decide (shTotal s ≤ 2 ^ 32 - 1) &&
  !(shDst s && ((shStr1 s == 0 && decide (1 < shRuns s)) || (shStr2 s == 0 && decide (1 < shPlanes s))))

/-- Bit n of a word. -/
def bitAt (w : W64) (n : Nat) : Bool := bitsOf w.toNat n 1 == 1

/-- The scope of W3. -/
def slScope (w3 : W64) : Nat := bitsOf w3.toNat 9 3

/-- soff of W3. -/
def slSoff (w3 : W64) : Nat := bitsOf w3.toNat 16 21

/-- The checks of R210 for a shape, a weir count and a scratch size. -/
def completionOk (w3 sh : W64) (weirs scratch : Nat) : Bool :=
  (!bitAt w3 8 || decide (bitsOf w3.toNat 0 8 < weirs)) && decide (2 ≤ slScope w3) && decide (slScope w3 ≤ 6) &&
  (!bitAt w3 14 || shDst sh) && !bitAt w3 15 &&
  (!bitAt w3 12 || (slSoff w3 % 4 == 0 && decide (slSoff w3 + 4 ≤ scratch))) && bitsOf w3.toNat 37 11 == 0

/-- The checks of R208 to R210 on a staged request. -/
def Mod.slOk (m : Mod) (c w : Nat) (ws : List W64) : Bool :=
  let sh := getR ws 2
  shapeOk sh && m.slAddrOk c w (getR ws 0) (srcSpan sh) && m.slAddrOk c w (getR ws 1) (dstSpan sh) &&
  completionOk (getR ws 3) sh (((m.blockOf c w).map fun b => b.weirs.length).getD 0) (m.scratchOf c w)

/-! ### Staging and starting (R211 to R213, R215) -/

/-- A staging instruction: word i and its valid bit (R211). -/
def slStageWord (i : Nat) (h : Hdr) (f : FmtE) (s : State) : Out :=
  perWarp h s fun w _ b =>
    let v := b.x.u w f.a
    b.on fun m => m.onWarp b.x.core w fun x => { x with slStage := x.slStage.set i (some v) }

/-- `sl.a` (R211). -/
def execSlA (h : Hdr) (f : FmtE) (s : State) : Out := slStageWord 0 h f s

/-- `sl.b` (R211). -/
def execSlB (h : Hdr) (f : FmtE) (s : State) : Out := slStageWord 1 h f s

/-- `sl.c` (R211). -/
def execSlC (h : Hdr) (f : FmtE) (s : State) : Out := slStageWord 2 h f s

/-- `sl.d` (R211). -/
def execSlD (h : Hdr) (f : FmtE) (s : State) : Out := slStageWord 3 h f s

/-- The empty staging set (R207). -/
def slEmpty : List (Option W64) := [none, none, none, none]

/-- The staged words of a warp, if all four are valid. -/
def Mod.staged (m : Mod) (c w : Nat) : Option (List W64) :=
  match m.warp? c w with
  | none => none
  | some x => match x.slStage with
    | [some a, some b, some c, some d] => some [a, b, c, d]
    | _ => none

/-- The cluster blocks that the addresses of a request's words name (R208). -/
def Mod.slFar (m : Mod) (c : Nat) (ws : List W64) : List Nat :=
  [0, 1].filterMap fun i =>
    let a := getR ws i
    if addrKind a < 2 then none
    else ((m.core (c / 128 * 128 + bitsOf a.toNat 32 7)).blockIn? (bitsOf a.toNat 40 4)).map (·.uid)

/-- The request of four words with a handle: its source reads wait for the issuer's writes, which it sees where they are
performed (R213, R308). -/
def Mod.slRequest (m : Mod) (c w : Nat) (ls : List Nat) (ws : List W64) (handle : W32) : SReq :=
  { handle := handle, launch := ((m.blockOf c w).map (·.launch)).getD 0, block := m.buid c w, words := ws, code := 0,
    landed := 0, chunks := List.range ((shTotal (getR ws 2) + 255) / 256), begun := [], kept := [], far := m.slFar c ws,
    deps := m.releaseSet c w ls }

/-- Entries of the sluice queue (R213). -/
def sluiceQueue : Nat := 64

/-- Entries of the arm table (R215). -/
def armTable : Nat := 32

/-- A start that the staging set and the checks of R208 to R212 allow: the set is emptied and the handle written. A staging set that
is not complete comes first, then the words' checks, then those of `sl.arm`. (log 103, DESIGN CHOICE) -/
def slStart (h : Hdr) (f : FmtE) (s : State) (check : Nat → Bx → Option Nat) (full : Core → Bool)
    (enter : Nat → SReq → Bx → Core → Core) : Out :=
  perWarp h s fun w ls b =>
    let c := b.x.core
    let ps := ls.map fun l => (w, l)
    match b.m.staged c w with
    | none => b.faultAll ps 0x12
    | some ws =>
      if !b.m.slOk c w ws then b.faultAll ps 0x11
      else match check w b with
        | some cause => b.faultAll ps cause
        | none =>
          if full (b.m.core c) then { b with x := { b.x with hold := true } }
          else
            let handle := (b.m.core c).slCounter
            let r := b.m.slRequest c w ls ws handle
            (b.on fun m => (m.onCore c fun k => enter w r b { k with slCounter := k.slCounter + 1 }).onWarp c w
              fun x => { x with slStage := slEmpty }).putS w f.d.toNat (handle.setWidth 64) 2

/-- `sl.go`: the request enters the queue of 64; a full queue holds the bundle (R213). A running request keeps its entry.
(log 101, DESIGN CHOICE) -/
def execSlGo (h : Hdr) (f : FmtE) (s : State) : Out :=
  slStart h f s (fun _ _ => none) (fun k => decide (sluiceQueue ≤ k.slq.length))
    fun _ r _ k => { k with slq := k.slq ++ [r] }

/-- `sl.arm`: the request is armed on a count word; a threshold that the word meets already fires at once (R215). -/
def execSlArm (h : Hdr) (f : FmtE) (s : State) : Out :=
  slStart h f s (fun w b => accessFault (b.x.u w f.a).toNat 4 4 (b.m.scratchOf b.x.core w))
    (fun k => decide (armTable ≤ k.arms.length))
    fun w r b k =>
      let off := (b.x.u w f.a).toNat
      let arm : Arm := { req := r, word := off, thr := (b.x.u w f.b).extractLsb' 0 32 }
      ({ k with arms := k.arms ++ [arm] } : Core).fireArms (b.m.coreWrites b.x.core) (b.m.poolAt b.x.core w off) 4

/-- The requests and the arm entries of a core that a save has set aside (R411). -/
def Mod.slAside (m : Mod) (c : Nat) : List SReq :=
  m.saved.flatMap fun v => v.cores.flatMap fun k =>
    if k.core = c then k.slq ++ k.arms.map fun a => { a.req with code := 0 } else []

/-- The status word of `sl.st` for a handle; a request that a save has set aside reads as it stands in the image (R216, R411). -/
def Core.slStatus (k : Core) (aside : List SReq) (hd : W32) : W64 :=
  let d := (k.slCounter - hd).toNat
  if d = 0 ∨ 2 ^ 31 < d then 7
  else if 65536 < d then 2
  else
    let word := fun (code bytes : Nat) => BitVec.ofNat 64 (code + 2 ^ 32 * bytes)
    match (k.slq ++ aside).find? fun r => r.handle == hd with
    | some r => word r.code r.landed
    | none => if k.arms.any fun a => a.req.handle == hd then 0
      else match k.slDone.find? fun p => p.1 == hd with
        | some p => word p.2.1 p.2.2
        | none => 2

/-- `sl.st` (R216). -/
def execSlSt (h : Hdr) (f : FmtE) (s : State) : Out :=
  perWarp h s fun w _ b => b.putS w f.d.toNat
    ((b.m.core b.x.core).slStatus (b.m.slAside b.x.core) ((b.x.u w f.a).extractLsb' 0 32)) 4

/-- A request leaves the queue or the arm table with a code and the bytes it has landed; those of the 65,536 most recent handles
are kept (R216). -/
def Core.slEnd (k : Core) (hd : W32) (code landed : Nat) : Core :=
  { k with slq := k.slq.filter fun r => r.handle != hd, arms := k.arms.filter fun a => a.req.handle != hd,
           slDone := (hd, code, landed) :: k.slDone.filter fun p => decide ((k.slCounter - p.1).toNat ≤ 65536) }

/-! ### Running a request (R214) -/

/-- A byte that the sluice reads or writes: in a core's pool, or in device memory. -/
inductive BytePlace where
  | pool (c a : Nat)
  | dev (pa : Nat)
deriving DecidableEq, Repr

/-- Where byte `off` of a side of a request lies; an error is the status it stops with (R216). -/
def Mod.slByteAt (m : Mod) (c : Nat) (r : SReq) (a : W64) (off : Nat) (wr : Bool) : Except Nat BytePlace × Mod :=
  let scratch := ((m.launch? r.launch).map fun l => l.rec_.scratch).getD 0
  let asid := ((m.launch? r.launch).map (·.asid)).getD 0
  match addrKind a with
  | 0 =>
    let q := m.xlate (.sluice c) asid (addrOf a + off) wr
    (match q.1 with | .ok pa => .ok (.dev pa) | .error _ => .error 3, q.2)
  | 1 => (match m.block? c r.block with
    | some b => if addrOf a + off < scratch then .ok (.pool c (b.at_ (addrOf a + off))) else .error 4
    | none => .error 4, m)
  | _ =>
    let t := c / 128 * 128 + bitsOf a.toNat 32 7
    (match (m.core t).blockIn? (bitsOf a.toNat 40 4) with
      | some b => if r.far.contains b.uid ∧ b.launch = r.launch ∧ addrOf a % 2 ^ 21 + off < scratch then
          .ok (.pool t (b.at_ (addrOf a % 2 ^ 21 + off))) else .error 4
      | none => .error 4, m)

/-- The places of some bytes of a side; the first that cannot be reached stops it. -/
def Mod.slPlaces (m : Mod) (c : Nat) (r : SReq) (a : W64) (wr : Bool) :
    List Nat → Except Nat (List BytePlace) × Mod
  | [] => (.ok [], m)
  | o :: os =>
    let q := m.slByteAt c r a o wr
    match q.1 with
    | .error e => (.error e, q.2)
    | .ok p =>
      let t := q.2.slPlaces c r a wr os
      match t.1 with
      | .error e => (.error e, t.2)
      | .ok ps => (.ok (p :: ps), t.2)

/-- A byte read at a place. -/
def Mod.byteRead (m : Mod) : BytePlace → Byte
  | .pool c a => (m.poolRead c a 1).headD 0
  | .dev pa => m.dram.read pa

/-- Bytes written from a place on. -/
def Mod.runWrite (m : Mod) (p : BytePlace) (vs : List Byte) : Mod :=
  match p with
  | .pool c a => m.poolWrite c a vs
  | .dev pa => m.dramWrite pa vs

/-- The place after a place. -/
def BytePlace.next : BytePlace → BytePlace
  | .pool c a => .pool c (a + 1)
  | .dev pa => .dev (pa + 1)

/-- Bytes at places, gathered into runs of bytes that follow one another. -/
def gatherRuns : List (BytePlace × Byte) → List (BytePlace × List Byte)
  | [] => []
  | p :: ps => match gatherRuns ps with
    | (q, vs) :: rs => if q = p.1.next then (p.1, p.2 :: vs) :: rs else (p.1, [p.2]) :: (q, vs) :: rs
    | [] => [(p.1, [p.2])]

/-- Bytes written at their places, each run of bytes that follow one another as one write. -/
def Mod.bytesWrite (m : Mod) (ps : List (BytePlace × Byte)) : Mod :=
  (gatherRuns ps).foldl (fun m r => m.runWrite r.1 r.2) m

/-- Where a side of a request begins, in a space of its own: none for device memory, else the core; with its length. -/
def Mod.slHull (m : Mod) (c : Nat) (r : SReq) (a : W64) (n : Nat) : Option (Option Nat × Nat × Nat) :=
  match addrKind a with
  | 0 => some (none, addrOf a, n)
  | 1 => (m.block? c r.block).map fun b => (some c, b.at_ (addrOf a), n)
  | _ =>
    let t := c / 128 * 128 + bitsOf a.toNat 32 7
    ((m.core t).blockIn? (bitsOf a.toNat 40 4)).map fun b => (some t, b.at_ (addrOf a % 2 ^ 21), n)

/-- Whether byte i of a request lies where its source and destination ranges overlap (R214): each range is the whole span of its side,
the gaps between runs too, and in device memory it is one of virtual addresses. (log 102, DESIGN CHOICE) -/
def slClash (src dst : Option (Option Nat × Nat × Nat)) (so d : Nat) : Bool :=
  match src, dst with
  | some x, some y => x.1 == y.1 && (overlaps (x.2.1 + so) 1 y.2.1 y.2.2 || overlaps (y.2.1 + d) 1 x.2.1 x.2.2)
  | _, _ => false

/-- One bit of a reflected CRC-64. -/
def crc64Bit (c : W64) : W64 := if c.getLsbD 0 then (c >>> (1 : Nat)) ^^^ 0xC96C5795D7870F42 else c >>> (1 : Nat)

/-- One byte of the CRC-64 of R214. -/
def crc64Byte (c : W64) (b : Byte) : W64 :=
  let c := c ^^^ b.setWidth 64
  crc64Bit (crc64Bit (crc64Bit (crc64Bit (crc64Bit (crc64Bit (crc64Bit (crc64Bit c)))))))

/-- The CRC-64 of ECMA-182, reflected, with initial value and final exclusive-or all ones (R214). -/
def crc64 (bs : List Byte) : W64 := ~~~(bs.foldl crc64Byte (~~~0))

/-- SLUICE_REQUEST_START: the oldest queued request begins, when fewer than four run and the stores before it are
visible (R213, R214). -/
def execSluiceRequestStart (c : Nat) (s : State) : Out :=
  let k := s.now.core c
  match k.slq.find? fun r => r.code == 0 with
  | none => .next s
  | some r =>
    if 4 ≤ (k.slq.filter fun r => r.code == 1).length ∨ !s.now.allPerformed r.deps then .next s
    else .next { s with now := s.now.onCore c fun k =>
      { k with slq := alterFirst (fun x => x.handle == r.handle) (fun x => { x with code := 1 }) k.slq } }

/-- A request's state changed. -/
def Mod.onSl (m : Mod) (c : Nat) (hd : W32) (f : SReq → SReq) : Mod :=
  m.onCore c fun k => { k with slq := alterFirst (fun x => x.handle == hd) f k.slq }

/-- The payload of a request that checks it, in byte order. -/
def SReq.payload (r : SReq) : List Byte :=
  (List.range r.kept.length).flatMap fun i => ((r.kept.find? fun p => p.1 == i).map (·.2)).getD []

/-- Whether the checksum at the dense source differs from the payload's; an error is the status it stops with. -/
def Mod.slCrcBad (m : Mod) (c : Nat) (r : SReq) : Except Nat Bool × Mod :=
  let n := shTotal (getR r.words 2)
  let q := m.slPlaces c r (getR r.words 0) false ((List.range 8).map fun i => n + i)
  match q.1 with
  | .error e => (.error e, q.2)
  | .ok ps => (.ok (leNat (ps.map q.2.byteRead) != (crc64 r.payload).toNat), q.2)

/-- The end of a request whose chunks have all landed: the checksum, the signal, the status (R214). -/
def Mod.slFinish (m : Mod) (c : Nat) (r : SReq) : Mod :=
  let w3 := getR r.words 3
  let q := if bitAt w3 14 then m.slCrcBad c r else (.ok false, m)
  match q.1 with
  | .error e => q.2.onCore c fun k => k.slEnd r.handle e r.landed
  | .ok bad =>
    let m := q.2
    let m := if bitAt w3 12 then
        match m.block? c r.block with
        | none => m
        | some b =>
          let old := leNat ((m.core c).sram.readN (b.at_ (slSoff w3)) 4)
          let v := if bad then 0xFFFFFFFE
            else bitsOf w3.toNat 48 16 + (if bitAt w3 13 then old else 0)
          m.swrite c b (slSoff w3) (leBytes 4 v)
      else m
    m.onCore c fun k => k.slEnd r.handle (if bad then 6 else 2) r.landed

/-- The byte numbers of a chunk of a request (R214). -/
def chunkBytes (sh : W64) (i : Nat) : List Nat := (List.range (min 256 (shTotal sh - 256 * i))).map fun j => 256 * i + j

/-- The places of a chunk's bytes at a side of a request: a chunk in flight keeps the physical addresses of its device bytes (R421). -/
def Mod.slSide (m : Mod) (c : Nat) (r : SReq) (a : W64) (wr : Bool) (held offs : List Nat) : Except Nat (List BytePlace) × Mod :=
  if addrKind a = 0 ∧ held ≠ [] then (.ok (held.map .dev), m) else m.slPlaces c r a wr offs

/-- A chunk of a request in flight. -/
def SReq.flight? (r : SReq) (i : Nat) : Option Begun := r.begun.find? fun b => b.chunk == i

/-- The places of a chunk's bytes at its source and at its destination, or the status with which the request stops (R216). -/
def Mod.slEnds (m : Mod) (c : Nat) (r : SReq) (i : Nat) : Except Nat (List BytePlace × List BytePlace) × Mod :=
  let sh := getR r.words 2
  let bytes := chunkBytes sh i
  let held := r.flight? i
  let a := m.slSide c r (getR r.words 0) false ((held.map (·.src)).getD []) (bytes.map (srcOff sh))
  match a.1 with
  | .error e => (.error e, a.2)
  | .ok src =>
    let b := a.2.slSide c r (getR r.words 1) true ((held.map (·.dst)).getD []) (bytes.map (dstOff sh))
    match b.1 with
    | .error e => (.error e, b.2)
    | .ok dst => (.ok (src, dst), b.2)

/-- The bytes of a chunk with given places: where each goes, and its value, a free one where source and destination overlap
(R214). -/
def Mod.slValues (m : Mod) (c : Nat) (r : SReq) (i : Nat) (src dst : List BytePlace) : List (BytePlace × Byte) :=
  let sh := getR r.words 2
  let hs := m.slHull c r (getR r.words 0) (srcSpan sh)
  let hd := m.slHull c r (getR r.words 1) (dstSpan sh)
  dst.zip (((chunkBytes sh i).zip src).map fun p =>
    if slClash hs hd (srcOff sh p.1) (dstOff sh p.1) then Config.freeByte m.free p.1 else m.byteRead p.2)

/-- The bytes of a chunk: where each goes, and its value; or the status with which the request stops (R214, R216).
(log 20, DEDUCED) -/
def Mod.slBytes (m : Mod) (c : Nat) (r : SReq) (i : Nat) : Except Nat (List (BytePlace × Byte)) × Mod :=
  let q := m.slEnds c r i
  match q.1 with
  | .error e => (.error e, q.2)
  | .ok p => (.ok (q.2.slValues c r i p.1 p.2), { q.2 with free := q.2.free + 1 })

/-- A chunk of a running request lands: its bytes are written, the weir is credited, and the last one ends the request
(R214). (log 20, DEDUCED) -/
def Mod.slChunk (m : Mod) (c : Nat) (r : SReq) (i : Nat) : Mod :=
  let q := m.slBytes c r i
  match q.1 with
  | .error e => q.2.onCore c fun k => k.slEnd r.handle e r.landed
  | .ok ps =>
    let m := q.2.bytesWrite ps
    let w3 := getR r.words 3
    let m := if bitAt w3 8 then m.weirCredit c r.block (bitsOf w3.toNat 0 8) ps.length else m
    let r : SReq := { r with
      landed := r.landed + ps.length, chunks := r.chunks.erase i, begun := r.begun.filter fun b => b.chunk != i,
      kept := if bitAt w3 14 then (i, ps.map (·.2)) :: r.kept else [] }
    let m := m.onSl c r.handle fun _ => r
    if r.chunks.isEmpty then m.slFinish c r else m

/-- The physical addresses of a side in device memory. -/
def deviceAddrs (ps : List BytePlace) : List Nat := ps.filterMap fun p => match p with
  | .dev pa => some pa
  | .pool _ _ => none

/-- A chunk is in flight: its addresses are translated (R421), and some of its bytes, in no fixed order, are written before it lands
(R295). -/
def Mod.slMix (m : Mod) (c : Nat) (r : SReq) (i : Nat) : Mod :=
  let q := m.slEnds c r i
  match q.1 with
  | .error e => q.2.onCore c fun k => k.slEnd r.handle e r.landed
  | .ok p =>
    let m := { q.2 with free := q.2.free + 1 }
    let ps := q.2.slValues c r i p.1 p.2
    let first := (ps.zipIdx.filter fun p => Config.order (m.free + p.2) % 2 == 1).map (·.1)
    let b : Begun := { chunk := i, gen := m.gen, src := deviceAddrs p.1, dst := deviceAddrs p.2 }
    (Mod.bytesWrite { m with free := m.free + ps.length } first).onSl c r.handle fun x => { x with begun := b :: x.begun }

/-- A chunk of a running request of a core lands (R214), or is in flight and some of its bytes are written before it (R295). -/
def chunkLanded (c handle i : Nat) (s : State) : Out :=
  match (s.now.core c).slq.find? fun r => r.handle.toNat == handle && r.code == 1 with
  | none => .next s
  | some r =>
    if !r.chunks.contains i || s.now.frozen (s.now.asidOf r.launch) then .next s
    else if (r.flight? i).isNone && Config.order s.now.free % 2 == 1 then
      .next { s with now := Mod.slMix { s.now with free := s.now.free + 1 } c r i }
    else .next { s with now := Mod.slChunk { s.now with free := s.now.free + 1 } c r i }

/-- The chunks of a request that are in flight land (R217, R411). -/
def Mod.landBegun (m : Mod) (c : Nat) (r : SReq) : Mod :=
  r.begun.foldl (fun m b => match (m.core c).slq.find? fun x => x.handle == r.handle with
    | some x => m.slChunk c x b.chunk
    | none => m) m

/-- A request of a core by its handle, in its queue or its arm table. -/
def Core.request? (k : Core) (hd : W32) : Option SReq := (k.slq ++ k.arms.map (·.req)).find? fun r => r.handle == hd

/-- `sl.kill`: an armed, queued or running request of the launch is cancelled; the chunks that it has begun land first (R217). -/
def execSlKill (h : Hdr) (f : FmtE) (s : State) : Out :=
  perWarp h s fun w _ b =>
    let c := b.x.core
    let hd := (b.x.u w f.a).extractLsb' 0 32
    let la := ((b.m.blockOf c w).map (·.launch)).getD 0
    match ((b.m.core c).request? hd).filter fun r => r.launch == la with
    | none => b
    | some r => b.on fun m =>
      let m := m.landBegun c r
      match (m.core c).request? hd with
      | some x => m.onCore c fun k => k.slEnd hd 5 x.landed
      | none => m

end Sys2Proof.Machine
end

