-- ==== Sys2Proof/Machine/FabricInstr.lean ====
section
/-! DEFINITION. The fabric instructions (R218 to R231): patterns, count words, what a core's outbound buffer forwards
(R299), and the eight entries with their landing and clearing forms. -/

namespace Sys2Proof.Machine

/-! ### Patterns (R218) -/

/-- Whether a pattern names coordinates of a grid only, and keeps the form of R218. -/
def GridCtx.patternOk (g : GridCtx) (lows highs : W64) : Bool :=
  bitsOf lows.toNat 60 4 == 0 && bitsOf highs.toNat 60 4 == 0 &&
  (List.range 5).all fun k =>
    if k < g.n then decide (axisOf lows k ≤ axisOf highs k) && decide (axisOf highs k < g.ext.getD k 0)
    else axisOf lows k == 0 && axisOf highs k == 0

/-- The expected count of a pattern. -/
def GridCtx.count (g : GridCtx) (lows highs : W64) : Nat :=
  (List.range g.n).foldl (fun p k => p * (axisOf highs k - axisOf lows k + 1)) 1

/-- The grid context on which a warp's launch runs; none with `axes` = 0 (R239). -/
def Mod.gridOf (m : Mod) (c w : Nat) : Option GridCtx :=
  let r := m.recOf c w
  if r.axes = 0 then none else m.grid? r.grid

/-! ### Address words and descriptors (R208, R223) -/

/-- Whether an address word is a fabric destination: kind 000, or kind 011 with its fields (R208). -/
def fabDestOk (a : W64) : Bool :=
  bitsOf a.toNat 59 5 == 0 &&
  (match addrKind a with
    | 0 => true
    | 3 => bitsOf a.toNat 21 11 == 0 && bitsOf a.toNat 42 2 == 0 && bitsOf a.toNat 48 8 == 0
    | _ => false)

/-- The cause of a descriptor of R223 with a landing bit, for a scratch size and a destination; none when it passes. -/
def descFault (d dest : W64) (lnd : Bool) (scratch : Nat) : Option Nat :=
  let off := bitsOf d.toNat 0 21
  let len := bitsOf d.toNat 21 13
  let land := bitsOf d.toNat 34 21
  if len < 8 ∨ 4096 < len ∨ len % 8 ≠ 0 ∨ land % 8 ≠ 0 ∨ (lnd = false ∧ land ≠ 0) ∨ bitsOf d.toNat 55 9 ≠ 0 ∨
      (lnd = true ∧ addrKind dest ≠ 3) then some 0x13
  else if off % 8 ≠ 0 ∨ (addrKind dest = 0 ∧ addrOf dest % 8 ≠ 0) then some 0x07
  else if scratch < off + len then some 0x08
  else none

/-- opd1 of a packet (R248). -/
def opd1Of (fn ty land : Nat) (ret : Bool) : W64 :=
  BitVec.ofNat 64 (fn + 32 * ty + 512 * land + (if ret then 2 ^ 30 else 0))

/-! ### Issuing an operation (R221, R222, R229) -/

/-- Commands of a core that its port has not sent yet (R222). -/
def Mod.fabUnsent (m : Mod) (c : Nat) : Nat := (m.fabOps.filter fun o => o.core == c && o.unsent).length

/-- The request packet of an operation of a warp: its count word, pattern, address and flags (R248). -/
def Mod.fabPacket (m : Mod) (c w : Nat) (g : GridCtx) (op scope n : Nat) (lnd : Bool) (lows highs addr : W64) :
    Packet :=
  { op := op, hop := 0, lnd := lnd, err := false, cn := scope == 7, tree := op == 6, ctx := g.num,
    asid := ((m.launchOf c w).map (·.asid)).getD 0, lows := lows, highs := highs, addr := addr, src := g.coord,
    core := c, cnt := n, len := 0, tag := m.next % 2 ^ 32, opd0 := 0, opd1 := 0, pay := [] }

/-- The expected field of a count word rises by what an operation expects, behind the passes still to come that reach the word
(R221). -/
def Bx.addExpected (b : Bx) (w off add old : Nat) : Bx :=
  let a := b.m.poolAt b.x.core w off
  if (b.m.core b.x.core).passes.any fun p => overlaps p.addr 64 a 8 then
    b.later w b.x.passes a (.atom .add 7 8 (2 ^ 32 * add) 0 none)
  else b.on fun m => m.swriteOf b.x.core w off 8 (old + 2 ^ 32 * add)

/-- Whether the payload of a descriptor of R223 is still to be written by an earlier access of one of some threads (R296). -/
def Bx.payloadOpen (b : Bx) (w : Nat) (ls : List Nat) (d : W64) : Bool :=
  b.mustWait w ls (bitsOf d.toNat 0 21) (bitsOf d.toNat 21 13)

/-- The checks that every operation with a count word shares, and its issue (R218, R220 to R222), in this order: the grid and the
pattern, the count word's place, the entry's own checks, and the expected count; then a full command queue holds the bundle.
(log 100, DESIGN CHOICE) -/
def fabIssue (h : Hdr) (f : FmtE) (s : State) (check : Nat → GridCtx → Bx → Option Nat)
    (one : Bool) (hold : Nat → List Nat → GridCtx → Bx → Bool) (go : Nat → List Nat → GridCtx → Bx → Bx) : Out :=
  perWarp h s fun w ls b =>
    let ps := ls.map fun l => (w, l)
    match b.m.gridOf b.x.core w with
    | none => b.faultAll ps 0x13
    | some g =>
      let lows := b.x.u w f.a
      let highs := b.x.s w (f.a.toNat + 1)
      if !g.patternOk lows highs then b.faultAll ps 0x13
      else if b.m.scratchOf b.x.core w < 8 * f.imm16.toNat + 8 then b.faultAll ps 0x08
      else match check w g b with
        | some cause => b.faultAll ps cause
        | none =>
          let old := b.readAhead w ls (8 * f.imm16.toNat) 8
          let add := if one then 1 else g.count lows highs
          if 2 ^ 30 - 1 < countExpected old + add then b.faultAll ps 0x14
          else if 16 ≤ b.m.fabUnsent b.x.core ∨ (hold w ls g b || b.mustWait w ls (8 * f.imm16.toNat) 8) = true then
            { b with x := { b.x with hold := true } }
          else go w ls g (b.addExpected w (8 * f.imm16.toNat) add old)

/-- An operation that has been issued: `.cn` waits for the writes before it of every thread of the warp (R229). -/
def Bx.fabPush (b : Bx) (w : Nat) (ls : List Nat) (p : Packet) (left : Nat) (dest : Option Nat) (ty : Ty)
    (src : W64) (len : Nat) (image : List Byte) (fwd : List (Nat × Byte)) : Bx :=
  b.on fun m =>
    let o : FabOp := {
      id := m.next, core := b.x.core, block := m.buid b.x.core w, warp := w, lanes := ls,
      launch := ((m.blockOf b.x.core w).map (·.launch)).getD 0, pkt := p, left := left, dest := dest, ty := ty,
      deps := if p.cn then m.releaseSet b.x.core w ((List.range 64).filter fun l => (m.thread? b.x.core w l).isSome) else [],
      src := src, len := len, sent := 0, image := image, spans := [], taint := [], dspans := [], newer := [],
      seen := ls.foldl (fun n l => max n (((m.thread? b.x.core w l).map (·.seen)).getD 0)) 0,
      unsent := true, fwd := fwd, done := [] }
    { m with next := m.next + 1, fabOps := m.fabOps ++ [o] }

/-- The issuing group stays in gap while its payload is read (R223). -/
def Bx.fabGap (b : Bx) (w len : Nat) : Bx :=
  b.on fun m => m.holdTill b.x.core w (b.x.lanes w) (m.clock + max (4 + (len + 63) / 64) (b.x.passes + 1))

/-- The payload of an operation is read from an offset once the bundle's accesses before it have taken their passes and those of its
own cycle are over: an access of the second kind (R122, R144, R223). -/
def Bx.fabRead (b : Bx) (w off id : Nat) : Bx := b.later w (b.x.passes + 1) (b.m.poolAt b.x.core w off) (.payload id)

/-- `fst` (R223, R224). -/
def execFst (h : Hdr) (f : FmtE) (s : State) : Out :=
  let lnd := f.cmd.toNat % 2 == 1
  fabIssue h f s (fun w _ b =>
      if !fabDestOk (b.x.u w f.b) then some 0x13
      else descFault (b.x.u w f.c) (b.x.u w f.b) lnd (b.m.scratchOf b.x.core w))
    false (fun w ls _ b => b.payloadOpen w ls (b.x.u w f.c)) fun w ls g b =>
      let d := (b.x.u w f.c).toNat
      let len := bitsOf d 21 13
      let lows := b.x.u w f.a
      let highs := b.x.s w (f.a.toNat + 1)
      let pay := leBytes len (b.readAhead w ls (bitsOf d 0 21) len)
      let p := b.m.fabPacket b.x.core w g 0 f.minor.toNat f.imm16.toNat lnd lows highs (b.x.u w f.b)
      ((b.fabPush w ls { p with len := len, pay := pay, opd1 := opd1Of 0 0 (bitsOf d 34 21) false }
        (g.count lows highs) none .n64 0 0 [] []).fabRead w (bitsOf d 0 21) b.m.next).fabGap w len

/-- The bytes that a core's outbound buffer holds for byte i at an address word of a coordinate: the number of each
buffered write and its byte; a write that is performed there is in the buffer no more (R299). -/
def Mod.buffered (m : Mod) (c launch : Nat) (g : Option GridCtx) (coord a : W64) (i : Nat) : List (Nat × Byte) :=
  let here := addrSpace a
  (m.fabOps.filterMap fun o =>
    let there := addrSpace o.pkt.addr
    let bytes := if o.pkt.op = 1 then o.image else o.pkt.pay
    let off := here.2 + i - there.2
    if o.core = c ∧ o.launch = launch ∧ o.pkt.op ≤ 1 ∧ (g.map (·.num)) = some o.pkt.ctx ∧
        inPattern o.pkt.lows o.pkt.highs coord = true ∧ here.1 = there.1 ∧ there.2 ≤ here.2 + i ∧
        off < bytes.length ∧ o.doneAt coord off = false then
      some (o.id, bytes.getD off 0) else none) ++
  (if (g.map (·.coord)) = some coord ∧ addrKind a = 3 then
    m.reqs.filterMap fun r => match r.place, r.what with
      | .cluster t blk off, .store bs =>
        if r.core = c ∧ r.launch = launch ∧ t = here.1.2.1 ∧
            ((m.core t).blockIn? here.1.2.2).map (·.uid) = some blk ∧ off ≤ here.2 + i ∧
            here.2 + i - off < bs.length then some (r.id, bs.getD (here.2 + i - off) 0) else none
      | _, _ => none
  else [])

/-- The youngest of some buffered bytes. -/
def youngest (l : List (Nat × Byte)) : Option (Nat × Byte) :=
  l.foldl (fun a x => match a with
    | none => some x
    | some y => if y.1 < x.1 then some x else a) none

/-- What a load of n bytes takes from the outbound buffer: by byte, the write's number and the byte (R299). -/
def Mod.forwarded (m : Mod) (c launch : Nat) (g : Option GridCtx) (coord a : W64) (n : Nat) : List (Nat × Nat × Byte) :=
  (List.range n).filterMap fun i => (youngest (m.buffered c launch g coord a i)).map fun p => (i, p.1, p.2)

/-- Threads have read some unperformed writes by forwarding (R303). -/
def Mod.sawForwarded (m : Mod) (c w : Nat) (ls ids : List Nat) : Mod :=
  if ids.isEmpty then m
  else ls.foldl (fun m l => m.onThread c w l fun t => { t with fwd := (t.fwd ++ ids).eraseDups }) m

/-- The type that a cmd of `fld` names (R222). -/
def fldTy (cmd : Nat) : Nat := cmd % 4 + (if cmd / 4 % 2 = 1 then 0 else 4)

/-- A uniform register pending at the fabric blocking point (R38, R225). -/
def Bx.fabPending (b : Bx) (w d : Nat) (ls : List Nat) (id : Nat) : Bx :=
  b.on fun m => m.onCore b.x.core fun k => { k with flights := k.flights ++
    [{ id := id, dest := .s w d, val := 0, land := none, kind := .fabric, lanes := ls }] }

/-- `fld` (R225). It takes its bytes from the outbound buffer where that holds them all, and else from the place itself, behind the
writes that the buffer holds: a load is performed at one point (R299, R302). -/
def execFld (h : Hdr) (f : FmtE) (s : State) : Out :=
  let t := fldTy f.cmd.toNat
  let n := tyWidth t / 8
  fabIssue h f s (fun w g b =>
      if g.count (b.x.u w f.a) (b.x.s w (f.a.toNat + 1)) != 1 || !fabDestOk (b.x.u w f.b) then some 0x13
      else if (addrSpace (b.x.u w f.b)).2 % n ≠ 0 then some 0x07 else none)
    true (fun _ _ _ _ => false) fun w ls g b =>
      let lows := b.x.u w f.a
      let a := b.x.u w f.b
      let la := ((b.m.blockOf b.x.core w).map (·.launch)).getD 0
      let buffered := b.m.forwarded b.x.core la (some g) lows a n
      let fw := if buffered.length = n then buffered else []
      let p := b.m.fabPacket b.x.core w g 2 f.minor.toNat f.imm16.toNat false lows lows a
      ((b.on fun m => m.sawForwarded b.x.core w ls (fw.map (·.2.1))).fabPending w f.d.toNat ls b.m.next).fabPush w ls
        { p with opd1 := opd1Of 0 t 0 false } 1 (some f.d.toNat) (tyOf t) 0 0 [] (fw.map fun x => (x.1, x.2.2))

/-- `fatom` (R226). -/
def execFatom (h : Hdr) (f : FmtE) (s : State) : Out :=
  let t := f.cmd.toNat % 16
  let ret := f.cmd.toNat / 16 == 1
  let n := tyWidth t / 8
  let op := minorFn f.minor
  fabIssue h f s (fun w g b =>
      if (ret && g.count (b.x.u w f.a) (b.x.s w (f.a.toNat + 1)) != 1) || !fabDestOk (b.x.u w f.b) then some 0x13
      else if (addrSpace (b.x.u w f.b)).2 % n ≠ 0 then some 0x07 else none)
    false (fun _ _ _ _ => false) fun w ls g b =>
      let lows := b.x.u w f.a
      let highs := b.x.s w (f.a.toNat + 1)
      let p := b.m.fabPacket b.x.core w g 4 (minorScope f.minor) f.imm16.toNat false lows highs (b.x.u w f.b)
      let pay := if op = 7 then leBytes 8 (b.x.s w (f.c.toNat + 1)).toNat else []
      (if ret then b.fabPending w f.d.toNat ls b.m.next else b).fabPush w ls
        { p with opd0 := b.x.u w f.c, opd1 := opd1Of op t 0 ret, len := pay.length, pay := pay }
        (g.count lows highs) (if ret then some f.d.toNat else none) (tyOf t) 0 0 [] []

/-- Freds of this module outstanding in a context (R256). -/
def Mod.fredsOut (m : Mod) (ctx : Nat) : Nat := (m.fabOps.filter fun o => o.pkt.op == 6 && o.pkt.ctx == ctx).length

/-- A coordinate's 60 bits. -/
def coordOf (x : W64) : W64 := BitVec.ofNat 64 (bitsOf x.toNat 0 60)

/-- `fred` (R227, R256). -/
def execFred (h : Hdr) (f : FmtE) (s : State) : Out :=
  let t := f.cmd.toNat % 16
  let lnd := f.cmd.toNat / 16 == 1
  fabIssue h f s (fun w g b =>
      let d := coordOf (b.x.s w (f.a.toNat + 2))
      if !fabDestOk (b.x.u w f.b) || !g.patternOk d d || !inPattern (b.x.u w f.a) (b.x.s w (f.a.toNat + 1)) g.coord then
        some 0x13
      else descFault (b.x.u w f.c) (b.x.u w f.b) lnd (b.m.scratchOf b.x.core w))
    true (fun w ls g b => decide (g.allowance ≤ b.m.fredsOut g.num) || b.payloadOpen w ls (b.x.u w f.c)) fun w ls g b =>
      let d := (b.x.u w f.c).toNat
      let len := bitsOf d 21 13
      let pay := leBytes len (b.readAhead w ls (bitsOf d 0 21) len)
      let p := b.m.fabPacket b.x.core w g 6 (minorScope f.minor) f.imm16.toNat lnd (b.x.u w f.a)
        (b.x.s w (f.a.toNat + 1)) (b.x.u w f.b)
      let q : Packet := { p with
        len := len, pay := pay, opd0 := coordOf (b.x.s w (f.a.toNat + 2))
        opd1 := opd1Of (minorFn f.minor) t (bitsOf d 34 21) false }
      ((b.fabPush w ls q 1 none .n64 0 0 [] []).fabRead w (bitsOf d 0 21) b.m.next).fabGap w len

/-- A block that fabric packets reach: live on a core, or in a saved context (R412). -/
inductive Spot where
  | live (core block : Nat)
  | saved (asid core block : Nat)
deriving DecidableEq, Repr

/-- A block by core and unique number, live or saved. -/
def Mod.spotOf (m : Mod) (c blk : Nat) : Option Spot :=
  match m.block? c blk with
  | some _ => some (.live c blk)
  | none => (m.saved.find? fun v => v.cores.any fun k => k.core == c && k.blocks.any fun b => b.uid == blk).map fun v =>
      .saved v.asid c blk

/-- A saved core's scratchpad image of a block. -/
def Mod.savedScratch (m : Mod) (asid core blk : Nat) : Memory :=
  match (m.saved.find? fun v => v.asid == asid).bind fun v => v.cores.find? fun k => k.core == core with
  | some k => ((k.scratch.find? fun p => p.1 == blk).map (·.2)).getD []
  | none => []

/-- n bytes at an offset of a reached block. -/
def Mod.spotRead (m : Mod) (t : Spot) (off n : Nat) : List Byte :=
  match t with
  | .live c b => match m.block? c b with
    | some x => m.sread c x off n
    | none => []
  | .saved a c b => (m.savedScratch a c b).readN off n

/-- The source of a copy from byte i on: n bytes, or none where a byte cannot be reached: an address without a mapping, or past the
scratch size (R228). (log 18, DEDUCED; log 19, DEDUCED) -/
def Mod.copySource (m : Mod) (c blk launch asid : Nat) (src : W64) (i n : Nat) : Option (List Byte) × Mod :=
  if addrKind src = 0 then
    let r := m.devRead .port asid (addrOf src + i) n
    (match r.1 with | .ok bs => some bs | .error _ => none, r.2)
  else match m.spotOf c blk with
    | some t =>
      if ((m.launch? launch).map fun l => l.rec_.scratch).getD 0 < addrOf src + i + n then (none, m)
      else (some (m.spotRead t (addrOf src + i) n), m)
    | none => (none, m)

/-- Where n bytes of a copy at a virtual address lie in device memory, from byte i of the copy on: the pages that have a
mapping. -/
def Mod.pageSpans (m : Mod) (asid va i n : Nat) (wr : Bool) : List (Option Nat × Nat × Nat × Nat) :=
  ((pagePieces va n).foldl (fun a p => (a.1 ++ (match (m.xlateRun .port asid wr [p]).1 with
    | .ok l => l.map fun q => (none, q.1, q.2, a.2)
    | .error _ => []), a.2 + p.2)) ([], i)).1

/-- Where n bytes of a copy's source from byte i on lie (R228); those of a page without a mapping lie nowhere. -/
def Mod.copySpans (m : Mod) (c blk asid : Nat) (src : W64) (i n : Nat) : List (Option Nat × Nat × Nat × Nat) :=
  if addrKind src = 0 then m.pageSpans asid (addrOf src + i) i n false
  else match m.block? c blk with
    | some b => [(some c, b.at_ (addrOf src + i), n, i)]
    | none => []

/-- Where n bytes of a copy from byte i on come to lie at this module, if its pattern names it (R228). -/
def Mod.copyHere (m : Mod) (p : Packet) (i n : Nat) : List (Option Nat × Nat × Nat × Nat) :=
  match m.grid? p.ctx with
  | none => []
  | some g =>
    if !inPattern p.lows p.highs g.coord then []
    else if addrKind p.addr = 0 then m.pageSpans p.asid (addrOf p.addr + i) i n true
    else
      let sp := addrSpace p.addr
      match (m.core sp.1.2.1).blockIn? sp.1.2.2 with
      | some b => [(some sp.1.2.1, b.at_ (sp.2 + i), n, i)]
      | none => []

/-- Spans of a copy added where no span stands for their bytes yet. -/
def addSpans (old new : List (Option Nat × Nat × Nat × Nat)) : List (Option Nat × Nat × Nat × Nat) :=
  old ++ new.filter fun s => !old.any fun t => decide (t.2.2.2 ≤ s.2.2.2) && decide (s.2.2.2 + s.2.2.1 ≤ t.2.2.2 + t.2.2.1)

/-- `fcopy` (R228): where the source lies is remembered, so that what is written to it before the copy is done can be told.
(log 19, DEDUCED) -/
def execFcopy (h : Hdr) (f : FmtE) (s : State) : Out :=
  let lnd := f.cmd.toNat % 2 == 1
  fabIssue h f s (fun w _ b =>
      let src := b.x.u w f.c
      let x := (b.x.s w (f.c.toNat + 1)).toNat
      if f.c.toNat % 2 = 1 ∨ !fabDestOk (b.x.u w f.b) ∨ bitsOf src.toNat 59 5 ≠ 0 ∨ 1 < addrKind src ∨
          (addrKind src = 1 ∧ bitsOf src.toNat 21 35 ≠ 0) ∨ bitsOf x 0 32 = 0 ∨ bitsOf x 53 11 ≠ 0 then some 0x13
      else none)
    false (fun _ _ _ _ => false) fun w ls g b =>
      let x := (b.x.s w (f.c.toNat + 1)).toNat
      let lows := b.x.u w f.a
      let highs := b.x.s w (f.a.toNat + 1)
      let src := b.x.u w f.c
      let la := ((b.m.blockOf b.x.core w).map (·.launch)).getD 0
      let img := b.m.copySource b.x.core (b.m.buid b.x.core w) la (b.m.asidOf la) src 0 (bitsOf x 0 32)
      let p := b.m.fabPacket b.x.core w g 1 f.minor.toNat f.imm16.toNat lnd lows highs (b.x.u w f.b)
      let spans := b.m.copySpans b.x.core (b.m.buid b.x.core w) (b.m.asidOf la) src 0 (bitsOf x 0 32)
      let dspans := b.m.copyHere p 0 (bitsOf x 0 32)
      (b.fabPush w ls { p with opd1 := opd1Of 0 0 (bitsOf x 32 21) false } (g.count lows highs) none .n64 src
        (bitsOf x 0 32) (img.1.getD []) []).on fun m =>
          { m with fabOps := alterFirst (fun o => o.id == b.m.next) (fun o => { o with spans := spans, dspans := dspans }) m.fabOps }

/-- The deadline of a timeout in µs from now, in ticks. -/
def Mod.deadline (m : Mod) (us : W64) : Nat := m.tick + bitsOf us.toNat 0 32 * 1000 * Config.ticksPerNs

/-- `fwait`: an access of an earlier bundle to the count word that is not performed yet holds the bundle (R230, R296). -/
def execFwait (h : Hdr) (f : FmtE) (s : State) : Out :=
  perWarp h s fun w ls b =>
    let ps := ls.map fun l => (w, l)
    let n := f.imm16.toNat
    let c := b.x.core
    if (b.m.gridOf c w).isNone then b.faultAll ps 0x13
    else if b.m.scratchOf c w < 8 * n + 8 then b.faultAll ps 0x08
    else
      let thr := if f.cmd.toNat % 2 = 1 then some ((b.x.u w f.a).extractLsb' 0 32) else none
      let v := b.readAhead w ls (8 * n) 8
      if b.mustWait w ls (8 * n) 8 then { b with x := { b.x with hold := true } }
      else if countMet thr v then b.on fun m =>
        (m.putHeld c w (b.x.lanes w) f.d.toNat (BitVec.ofNat 64 v) (some (m.clock + 10)) 0).acquire c w ls
      else b.on fun m =>
        let dl := if f.cmd.toNat / 2 = 1 then some (m.deadline (b.x.u w f.b)) else none
        (m.putHeld c w (b.x.lanes w) f.d.toNat 0 none m.next).block c w ls (.count n thr f.d.toNat dl) b.x.pc

/-- `fcnt` (R231). -/
def execFcnt (h : Hdr) (f : FmtE) (s : State) : Out :=
  perWarp h s fun w ls b =>
    match b.m.gridOf b.x.core w with
    | none => b.faultAll (ls.map fun l => (w, l)) 0x13
    | some g =>
      let lows := b.x.u w f.a
      let highs := b.x.s w (f.a.toNat + 1)
      if g.patternOk lows highs then b.putS w f.d.toNat (BitVec.ofNat 64 (g.count lows highs)) 2
      else b.faultAll (ls.map fun l => (w, l)) 0x13

/-- A count word read in the access's own pass, and cleared there if asked; an access of an earlier bundle to it that is not
performed yet holds the bundle (R39, R122, R231, R296). -/
def readCount (h : Hdr) (f : FmtE) (s : State) (clear : Bool) : Out :=
  perWarp h s fun w ls b =>
    let ps := ls.map fun l => (w, l)
    let n := f.imm16.toNat
    if (b.m.gridOf b.x.core w).isNone then b.faultAll ps 0x13
    else if b.m.scratchOf b.x.core w < 8 * n + 8 then b.faultAll ps 0x08
    else
      let b1 := (b.putS w f.d.toNat (BitVec.ofNat 64 (b.readAhead w ls (8 * n) 8)) 10 b.x.passes).readAgain w (8 * n) 8 7
        (.s w f.d.toNat)
      if b.mustWait w ls (8 * n) 8 then { b with x := { b.x with hold := true } }
      else (if clear then b1.writePass w (8 * n) 8 0 else b1).addPasses 1

/-- `fcrd` (R231). -/
def execFcrd (h : Hdr) (f : FmtE) (s : State) : Out := readCount h f s false

/-- `fcrd.clr` (R231). -/
def execFcrdClr (h : Hdr) (f : FmtE) (s : State) : Out := readCount h f s true

end Sys2Proof.Machine
end

