-- ==== Sys2Proof/Machine/Fabric.lean ====
section
/-! DEFINITION. The fabric ports (R238 to R257): split rules and expansion, delivery and its answers, reducing stores,
completions, backwater. -/

namespace Sys2Proof.Machine

/-! ### Split rules (R241, R242) -/

/-- The link code of a rule. -/
def Rule.link (u : Rule) : Nat := bitsOf u.w1.toNat 12 5
/-- The ranged axis of a rule. -/
def Rule.k (u : Rule) : Nat := bitsOf u.w1.toNat 17 3
/-- The lowest value of the ranged axis. -/
def Rule.lo (u : Rule) : Nat := bitsOf u.w0.toNat 48 12
/-- The highest value of the ranged axis. -/
def Rule.hi (u : Rule) : Nat := bitsOf u.w1.toNat 0 12
/-- dist. -/
def Rule.dist (u : Rule) : Nat := bitsOf u.w1.toNat 20 3
/-- Whether a rule belongs to the tree table. -/
def Rule.tree (u : Rule) : Bool := bitsOf u.w1.toNat 23 1 == 1
/-- The fixed value of axis a. -/
def Rule.fix (u : Rule) (a : Nat) : Nat := bitsOf u.w0.toNat (12 * a) 12

/-- A coordinate, or a side of a pattern, from its axes. -/
def ofAxes (l : List Nat) : W64 := BitVec.ofNat 64 (l.foldr (fun x a => x + 4096 * a) 0)

/-- The part of a box that a rule matches; none when it is empty (R244). -/
def Rule.cut (u : Rule) (lows highs : W64) : Option (W64 × W64) :=
  let side := fun (a : Nat) => if a < u.k then (max (axisOf lows a) (u.fix a), min (axisOf highs a) (u.fix a))
    else if a = u.k then (max (axisOf lows a) u.lo, min (axisOf highs a) u.hi)
    else (axisOf lows a, axisOf highs a)
  let l := (List.range 5).map side
  if l.all fun p => decide (p.1 ≤ p.2) then some (ofAxes (l.map (·.1)), ofAxes (l.map (·.2))) else none

/-- Whether a rule matches a coordinate. -/
def Rule.matches (u : Rule) (coord : W64) : Bool := (u.cut coord coord).isSome

/-- The coordinates in a box. -/
def boxSize (lows highs : W64) : Nat :=
  (List.range 5).foldl (fun p k => p * (axisOf highs k - axisOf lows k + 1)) 1

/-- The rule of a table that matches a coordinate. -/
def GridCtx.rule? (g : GridCtx) (tree : Bool) (coord : W64) : Option Rule :=
  g.rules.find? fun u => u.tree == tree && u.matches coord

/-- A link by its number. -/
def Mod.link? (m : Mod) (l : Nat) : Option Link := m.links.find? fun x => x.num == l

/-- Whether a packet may be sent on a link: it is up, and a canal-scope packet needs capability 3 (R253, R265). -/
def Mod.linkTakes (m : Mod) (l : Nat) (cn : Bool) : Bool :=
  match m.link? l with
  | some k => k.up && (!cn || k.caps.getLsbD 3)
  | none => false

/-- The virtual channel, of 16, on which a packet travels its next link: the class has eight, by the links crossed so far; the
packet stands with the hop count at which it arrives (R250, R251). (log 25, DESIGN CHOICE) -/
def packetVc (p : Packet) : Nat := (if p.cls then 8 else 0) + (p.hop - 1)

/-- The bytes of a packet on a link: a header flit and its payload flits (R248). (log 37, DEDUCED) -/
def packetBytes (p : Packet) : Nat := 64 * (1 + (p.pay.length + 63) / 64)

/-- The header flit of a packet (R248). -/
def packetHeader (p : Packet) : List Byte :=
  let bit := fun (b : Bool) => if b then 1 else 0
  leBytes 1 (p.op % 16 + 16 * bit p.cls + 32 * (p.hop % 8)) ++
  leBytes 1 (bit p.lnd + 2 * bit p.err + 4 * bit p.cn + 8 * bit p.tree + 16 * (p.resv1 % 16)) ++
  leBytes 1 (p.ctx % 8 + 8 * (p.resv2 % 32)) ++ leBytes 1 p.asid ++ leBytes 8 p.lows.toNat ++ leBytes 8 p.highs.toNat ++
  leBytes 8 p.addr.toNat ++ leBytes 8 p.src.toNat ++ leBytes 2 p.core ++ leBytes 2 p.cnt ++ leBytes 4 p.len ++
  leBytes 4 p.tag ++ leBytes 8 p.opd0.toNat ++ leBytes 8 p.opd1.toNat

/-- The flits of a packet: the header, then the payload in flits of 64 bytes, the last padded with zero bytes (R248). -/
def packetFlits (p : Packet) : List (List Byte) :=
  (packetHeader p) :: (List.range ((p.pay.length + 63) / 64)).map fun i =>
    let f := (p.pay.drop (64 * i)).take 64
    f ++ List.replicate (64 - f.length) 0

/-- What becomes of a part of a packet's pattern (R244). -/
inductive Branch where
  | here (p : Packet)
  | failed (n : Nat) (foreign overrun : Bool)
  | link (l : Nat) (p : Packet)
deriving DecidableEq, Repr

/-- The expansion of a packet against the route table, in rule order (R244, R247). A packet stands in a link's queue
with the hop count at which it arrives. -/
def Mod.expand (m : Mod) (g : GridCtx) (p : Packet) : List Branch :=
  (g.rules.filter fun u => !u.tree).filterMap fun u =>
    match u.cut p.lows p.highs with
    | none => none
    | some s =>
      let n := boxSize s.1 s.2
      some (if u.link = 31 then .here { p with lows := s.1, highs := s.2 }
        else if u.link = 30 ∨ u.link = 29 then .failed n (u.link = 29) false
        else if p.hop = 7 then .failed n false true
        else if m.linkTakes u.link p.cn then .link u.link { p with lows := s.1, highs := s.2, hop := p.hop + 1 }
        else .failed n false false)

/-! ### Answers -/

/-- The answer to a request packet: op, err, multiplicity or length, payload (R248); one to leat data is told by opd1. -/
def answerOf (p : Packet) (op : Nat) (err : Bool) (len : Nat) (pay : List Byte) (own : W64) : Packet :=
  { op := op, cls := true, hop := 0, lnd := false, err := err, cn := false, tree := false, ctx := p.ctx, asid := p.asid,
    lows := p.src, highs := p.src, addr := BitVec.ofNat 64 p.core, src := own, core := p.core, cnt := p.cnt,
    len := len, tag := p.tag, opd0 := 0, opd1 := if p.op = 8 then 1 else 0, pay := pay }

/-- A packet enters a link's queue. -/
def Mod.sendOn (m : Mod) (l : Nat) (p : Packet) : Mod :=
  { m with links := alterFirst (fun k => k.num == l) (fun k => { k with txq := k.txq ++ [p] }) m.links }

/-- A route overrun is counted for the host (R247). -/
def Mod.overrun (m : Mod) : Mod := { m with counters := { m.counters with overruns := m.counters.overruns + 1 } }

/-- An answer goes to the issuing module by the route table: to the own port's queue, or on a link; one whose context
this module does not hold goes back on the link its request came on, which is written as link 24 (R247). -/
def Mod.sendAnswer (m : Mod) (r : Packet) : Mod :=
  match m.grid? r.ctx with
  | none => { m with outPkts := m.outPkts ++ [(24, { r with hop := 1 })] }
  | some g => (m.expand g r).foldl (fun m b => match b with
      | .here q => { m with portQ := m.portQ ++ [q] }
      | .link l q => m.sendOn l q
      | .failed _ _ long => if long then m.overrun else m) m

/-- Whether a copy's piece is its last (R249). -/
def lastPiece (p : Packet) : Bool := bitsOf p.opd0.toNat 0 32 + p.len == bitsOf p.opd0.toNat 32 32

/-- The multiplicity of a completion for n coordinates: a piece that is not the last counts none (R249). -/
def multOf (p : Packet) (n : Nat) : Nat := if p.op = 1 ∧ lastPiece p = false then 0 else n

/-- The completion of a request for n coordinates. -/
def Mod.complete (m : Mod) (p : Packet) (own : W64) (err : Bool) (n : Nat) : Mod :=
  if p.op = 1 ∧ lastPiece p = false ∧ err = false then m
  else m.sendAnswer (answerOf p 7 err (multOf p n) [] own)

/-! ### Delivery (R208, R219, R221, R224 to R226, R249, R412) -/

/-- The block of a launch of a context and ASID in a slot of a core, with the launch's scratch size (R247). -/
def Mod.gridSpot (m : Mod) (asid ctx core slot : Nat) : Option (Spot × Nat) :=
  let ok := fun (b : Block) => b.slot == slot && match m.launch? b.launch with
    | some l => l.asid == asid && l.rec_.axes != 0 && l.rec_.grid == ctx
    | none => false
  let size := fun (b : Block) => ((m.launch? b.launch).map fun l => l.rec_.scratch).getD 0
  match (m.core core).blocks.find? ok with
  | some b => some (.live core b.uid, size b)
  | none =>
    (m.saved.findSome? fun v => if v.asid = asid then
      v.cores.findSome? fun k => if k.core = core then (k.blocks.find? ok).map fun b => (Spot.saved asid core b.uid, size b)
        else none
      else none)

/-- A saved block. -/
def Mod.savedAt (m : Mod) (asid core blk : Nat) : Option Block :=
  (m.saved.find? fun v => v.asid == asid).bind fun v => v.cores.findSome? fun k =>
    if k.core = core then k.blocks.find? fun x => x.uid == blk else none

/-- The source bytes of copies from a saved block that n bytes at its former pool address touch are remembered (R228). -/
def Mod.touchSaved (m : Mod) (c blk a n : Nat) : Mod :=
  let t := m.touchCopies (some c) a n
  { m with fabOps := (m.fabOps.zip t.fabOps).map fun p => if p.1.core = c ∧ p.1.block = blk then p.2 else p.1 }

/-- Bytes written to the image of a saved block x: its outstanding matrix operations remember it (R198, R412), elements of its held
views that the bytes touch become undefined (R357), and tasks whose cistern entries they touch are marked (R347). -/
def Mod.savedWrite (m : Mod) (asid c : Nat) (x : Block) (off : Nat) (bs : List Byte) : Mod :=
  let r := ((m.launch? x.launch).map (·.rec_)).getD default
  let a := x.at_ off
  let bytes := fun (p : Memory) => (x.heldElems r a bs.length).foldl (fun (p : Memory) e =>
    p.writeN (e - x.at_ 0) ((List.range 4).map fun i => Config.freeByte m.free (e + i))) (p.writeN off bs)
  let mark := fun (o : MOp) => { o with taint := o.taint ++ [(c, a, bs.length)] }
  let onCore := fun (k : SavedCore) =>
    let k := { k with mq := k.mq.map mark }
    if k.core = c then { k with
      scratch := k.scratch.map fun p => if p.1 = x.uid then (p.1, bytes p.2) else p,
      blocks := k.blocks.map fun b => if b.uid = x.uid then b.markEntries r a bs.length else b } else k
  let onSaved := fun (v : Saved) => if v.asid = asid then { v with cores := v.cores.map onCore } else v
  { m with saved := m.saved.map onSaved, free := m.free + 1 }

/-- Bytes written at an offset of a reached block, live or in a saved context; copies whose source it is remember it (R228). -/
def Mod.spotWrite (m : Mod) (t : Spot) (off : Nat) (bs : List Byte) : Mod :=
  match t with
  | .live c b => match m.block? c b with
    | some x => m.swrite c x off bs
    | none => m
  | .saved a c b => match m.savedAt a c b with
    | some x => (m.touchSaved c b (x.at_ off) bs.length).savedWrite a c x off bs
    | none => m

/-- n bytes at an offset of a reached block as an access of some threads (core, warp, lane) of this module reads them, or of
another module's (R198, R333). -/
def Mod.spotLoad (m : Mod) (ts : List (Nat × Nat × Nat)) (t : Spot) (off n : Nat) : List Byte :=
  match t with
  | .live c b => match m.block? c b with
    | some x => m.readBy ts c (x.at_ off) n
    | none => []
  | .saved _ _ _ => m.spotRead t off n

/-- Bytes written at an offset of a reached block by a thread's access (R333). -/
def Mod.spotStore (m : Mod) (t : Spot) (off : Nat) (bs : List Byte) : Mod :=
  match t with
  | .live c b => match m.block? c b with
    | some x => m.threadWrite c (x.at_ off) bs
    | none => m
  | .saved _ _ _ => m.spotWrite t off bs

/-- A count word after completions: done rises modulo 2^32, err is set (R220, R221). -/
def creditWord (v n : Nat) (err : Bool) : Nat :=
  let w := v - v % 2 ^ 32 + (v + n) % 2 ^ 32
  if err ∧ v < 2 ^ 63 then w + 2 ^ 63 else w

/-- A count word or landing word of a reached block credited. -/
def Mod.creditSpot (m : Mod) (t : Spot) (off n : Nat) (err : Bool) : Mod :=
  m.spotWrite t off (leBytes 8 (creditWord (leNat (m.spotRead t off 8)) n err))

/-- Where the n bytes of a request lie at this module: a reached block's offset, or device memory; and the landing
offset, which must fit. None where the access fails before anything is written. The offset of a copy's later piece may have
passed the 21 bits of its field, and is then outside every block (R219, R249). -/
def Mod.target (m : Mod) (p : Packet) (n : Nat) : Option (Option (Spot × Nat)) × Option (Spot × Nat) :=
  let land := bitsOf p.opd1.toNat 9 21
  if addrKind p.addr = 3 then
    match m.gridSpot p.asid p.ctx (bitsOf p.addr.toNat 32 10) (bitsOf p.addr.toNat 44 4) with
    | none => (none, none)
    | some t =>
      let off := bitsOf p.addr.toNat 0 32
      if p.lnd = true ∧ t.2 < land + 8 then (none, none)
      else (if t.2 < off + n then none else some (some (t.1, off)), if p.lnd then some (t.1, land) else none)
  else (if p.lnd then none else some none, none)

/-- The payload of a store or of a piece of a copy written at this module; whether it failed (R219, R224, R249). -/
def Mod.writeHere (m : Mod) (p : Packet) (t : Option (Option (Spot × Nat))) : Bool × Mod :=
  match t with
  | none => (true, m)
  | some (some s) => (false, m.spotStore s.1 s.2 p.pay)
  | some none =>
    let r := m.devWrite .port p.asid (addrOf p.addr) p.pay
    (match r.1 with | .ok _ => false | .error _ => true, r.2)

/-- A piece of a copy reaches the staging area of a loading shard: the bytes staged are counted, and once the payload and
its checksum are there the sluice request runs in chunks of 256 bytes; a piece that fails stops the transfer (R341,
R342). -/
def Mod.stagePiece (m : Mod) (p : Packet) (failed : Bool) : Mod :=
  let off := bitsOf p.opd0.toNat 0 32
  let mine := fun (x : Shard) => x.asid == p.asid && x.word == 0 && x.chunks.isEmpty && addrKind p.addr == 0 &&
    addrOf p.addr == x.staging + off && bitsOf p.opd0.toNat 32 32 == x.len + 8
  let take := fun (x : Shard) => if !mine x then x
    else if failed then { x with word := 0xFFFFFFFD }
    else
      let n := x.staged + p.pay.length
      { x with staged := n, chunks := if x.len + 8 ≤ n then List.range ((x.len + 255) / 256) else [] }
  { m with shards := m.shards.map take }

/-- What is left of a run of bytes without another. -/
def runLess (r s : Nat × Nat) : List (Nat × Nat) :=
  if overlaps r.1 r.2 s.1 s.2 then
    (if r.1 < s.1 then [(r.1, s.1 - r.1)] else []) ++
      (if s.1 + s.2 < r.1 + r.2 then [(s.1 + s.2, r.1 + r.2 - (s.1 + s.2))] else [])
  else [r]

/-- An operation of this module, found by the packet that carries a part of it, is known to be performed at a coordinate for n
bytes from byte `off` on (R298): its own bytes stand there now (R228). -/
def Mod.markDone (m : Mod) (p : Packet) (coord : W64) (off n : Nat) : Mod :=
  let note := fun (o : FabOp) => { o with done := o.done ++ [(coord, off, n)], newer := o.newer.flatMap fun r => runLess r (off, n) }
  { m with fabOps := alterFirst (fun o => o.id % 2 ^ 32 == p.tag && o.pkt.ctx == p.ctx) note m.fabOps }

/-- The byte of an operation at which a packet's payload begins (R249). -/
def packetFrom (p : Packet) : Nat := if p.op = 1 then bitsOf p.opd0.toNat 0 32 else 0

/-- The parts of a packet's payload that lie in one aligned 8-byte word of their destination each (R295). -/
def packetParts (p : Packet) : List (Nat × Nat) :=
  wordParts (if addrKind p.addr = 3 then bitsOf p.addr.toNat 0 32 else addrOf p.addr) p.pay.length

/-- The physical address of byte i of a run of bytes that lies in some physical runs. -/
def physAt : List (Nat × Nat) → Nat → Option Nat
  | [], _ => none
  | r :: rs, i => if i < r.2 then some (r.1 + i) else physAt rs (i - r.2)

/-- One part of a payload written (R224, R295), at the physical address that it was translated to, if it was (R421). -/
def Mod.writePart (m : Mod) (g : GridCtx) (p : Packet) (held : Option (Nat × List (Nat × Nat))) (q : Nat × Nat) : Mod :=
  let p' := { p with lnd := false, addr := p.addr + BitVec.ofNat 64 q.1, pay := (p.pay.drop q.1).take q.2 }
  let m := match held.bind fun h => physAt h.2 q.1 with
    | some pa => m.dramWrite pa p'.pay
    | none => (m.writeHere p' (m.target p' q.2).1).2
  if p.src = g.coord then m.markDone p g.coord ((packetFrom p) + q.1) q.2 else m

/-- A store or a piece of a copy whose last parts are written at this module: landing word, completion (R221, R249). One that is
translated already goes where it was translated to (R421). -/
def Mod.storeHere (m : Mod) (g : GridCtx) (p : Packet) (held : Option (Nat × List (Nat × Nat))) (parts : List (Nat × Nat)) : Mod :=
  let t := m.target p p.pay.length
  let last := p.op == 0 || lastPiece p
  let r := if p.err then (true, m) else if held.isSome then (false, m) else m.writeHere p t.1
  let r : Bool × Mod := if r.1 then (true, if p.src = g.coord then r.2.markDone p g.coord (packetFrom p) p.pay.length else r.2)
    else (false, parts.foldl (fun m q => m.writePart g p held q) m)
  let r : Bool × Mod := if p.op = 1 then (r.1, r.2.stagePiece p r.1) else r
  let m := match t.2 with
    | some l => if last then r.2.creditSpot l.1 l.2 1 r.1
      else if r.1 then r.2.creditSpot l.1 l.2 0 true else r.2
    | none => r.2
  m.complete p g.coord r.1 1

/-- The threads of this module that issued the operation that a packet carries; none for another module's. -/
def Mod.issuersOf (m : Mod) (p : Packet) : List (Nat × Nat × Nat) :=
  match m.grid? p.ctx, m.fabOps.find? fun o => o.id % 2 ^ 32 == p.tag && o.pkt.ctx == p.ctx with
  | some g, some o => if p.src = g.coord then o.lanes.map fun l => (o.core, o.warp, l) else []
  | _, _ => []

/-- n bytes read at this module for a packet, or none. -/
def Mod.readHere (m : Mod) (p : Packet) (n : Nat) : Option (List Byte) × Mod :=
  match (m.target { p with lnd := false } n).1 with
  | none => (none, m)
  | some (some s) => (some (m.spotLoad (m.issuersOf p) s.1 s.2 n), m)
  | some none =>
    let r := m.devRead .port p.asid (addrOf p.addr) n
    (match r.1 with | .ok bs => some bs | .error _ => none, r.2)

/-- A load performed at this module (R225). -/
def Mod.loadHere (m : Mod) (g : GridCtx) (p : Packet) : Mod :=
  let r := m.readHere p (tyWidth (bitsOf p.opd1.toNat 5 4) / 8)
  let r := (r.1, if p.src = g.coord then r.2.markDone p g.coord 0 8 else r.2)
  match r.1 with
  | some bs => r.2.sendAnswer (answerOf p 3 false bs.length bs g.coord)
  | none => r.2.sendAnswer (answerOf p 3 true 0 [] g.coord)

/-- An atomic performed at this module (R226). -/
def Mod.atomHere (m : Mod) (g : GridCtx) (p : Packet) : Mod :=
  let t := bitsOf p.opd1.toNat 5 4
  let n := tyWidth t / 8
  let op := atomOpOf (bitsOf p.opd1.toNat 0 5)
  let ret := bitsOf p.opd1.toNat 30 1 == 1
  let r := m.readHere p n
  let r := (r.1, if p.src = g.coord then r.2.markDone p g.coord 0 8 else r.2)
  match r.1 with
  | none => r.2.sendAnswer (answerOf p (if ret then 5 else 7) true (if ret then 0 else 1) [] g.coord)
  | some bs =>
    let old := leNat bs
    let cut := fun (x : Nat) => x % 2 ^ (8 * n)
    let v := cut (if op = .cas then leNat p.pay else p.opd0.toNat)
    let w := r.2.writeHere { p with pay := leBytes n (atomNew op t old v (cut p.opd0.toNat)) }
      (r.2.target { p with lnd := false } n).1
    if w.1 then w.2.sendAnswer (answerOf p (if ret then 5 else 7) true (if ret then 0 else 1) [] g.coord)
    else if ret then w.2.sendAnswer (answerOf p 5 false n bs g.coord)
    else w.2.sendAnswer (answerOf p 7 false 1 [] g.coord)

/-! ### Reducing stores (R227, R254, R255) -/

/-- The elements of a contribution widened to 32 bits each, four bytes an element. -/
def fredWiden (t : Nat) (pay : List Byte) : List Byte :=
  let n := tyWidth t / 8
  (List.range (pay.length / n)).flatMap fun i =>
    let x := leNat ((pay.drop (n * i)).take n)
    leBytes 4 (if n = 4 then x else convert t 10 x)

/-- The identity of an operation as a 32-bit element (R227). -/
def fredIdentity (op t : Nat) : Nat :=
  if t = 2 ∨ t = 6 then
    (match op with
      | 0 => 0
      | 1 => if t = 2 then 0x7FFFFFFF else 0xFFFFFFFF
      | _ => if t = 2 then 0x80000000 else 0)
  else match op with
    | 0 => 0x80000000
    | 1 => 0x7F800000
    | _ => 0xFF800000

/-- Two elements combined (R227, R254). -/
def fredCombine (op t a b : Nat) : Nat :=
  if t = 2 ∨ t = 6 then intOp (if op = 0 then .add else if op = 1 then .min else .max) t a b
  else if op = 0 then fAdd f32 a b else fMinMax f32 (op == 2) a b

/-- Two lists of elements combined. -/
def fredZip (op t : Nat) (a b : List Byte) : List Byte :=
  (List.range (a.length / 4)).flatMap fun i =>
    leBytes 4 (fredCombine op t (leNat ((a.drop (4 * i)).take 4)) (leNat ((b.drop (4 * i)).take 4)))

/-- The elements narrowed to the type at the final write. (log 15, DESIGN CHOICE) -/
def fredNarrow (t : Nat) (a : List Byte) : List Byte :=
  let n := tyWidth t / 8
  (List.range (a.length / 4)).flatMap fun i =>
    let x := leNat ((a.drop (4 * i)).take 4)
    leBytes n (if t = 2 ∨ t = 6 then x else convert 10 t x)

/-- Function and type of a contribution. -/
def fredOp (p : Packet) : Nat := bitsOf p.opd1.toNat 0 5
/-- The type of a contribution. -/
def fredTy (p : Packet) : Nat := bitsOf p.opd1.toNat 5 4

/-- The tree link of a coordinate, 31 when this module holds it. -/
def GridCtx.treeLink (g : GridCtx) (coord : W64) : Nat := ((g.rule? true coord).map Rule.link).getD 30

/-- Whether a packet of the tree belongs to a `gridsync` start: the bit `ret`, which no `fred` uses, is set (R240).
(log 88, DESIGN CHOICE) -/
def packetIsStart (p : Packet) : Bool := bitsOf p.opd1.toNat 30 1 == 1

/-- The children of an operation at this module, in the order in which they combine: tree links, 29, 30, and 32 for the
local child (R254); a start waits for no coordinate that is unoccupied (R240). -/
def GridCtx.fredKids (g : GridCtx) (p : Packet) : List Nat :=
  let parent := g.treeLink p.opd0
  let met := fun (l : Nat) => g.rules.any fun u => u.tree && u.link == l && (u.cut p.lows p.highs).isSome
  ((List.range 24).filter fun l => l != parent && met l) ++ ([29, 30].filter fun l => met l && !(packetIsStart p)) ++
    (if inPattern p.lows p.highs g.coord then [32] else [])

/-- Two contributions that R227 matches by their order differ in what must agree. (log 16, DEDUCED) -/
def fredDiffer (a b : Packet) : Bool :=
  !(a.opd1 == b.opd1 && a.len == b.len && a.lows == b.lows && a.highs == b.highs && a.lnd == b.lnd)

/-- A launch of a context and an address space whose `gridsync` start has contributed learns how it has ended (R240). -/
def Mod.startCredit (m : Mod) (p : Packet) (err : Bool) : Mod :=
  let mine := fun (l : Launch) => l.sync == 1 && l.asid == p.asid && l.rec_.axes != 0 && l.rec_.grid == p.ctx
  { m with launches := alterFirst mine (fun l => { l with sync := if err then 3 else 2 }) m.launches }

/-- A fence that waits for an operation has made progress (R394). -/
def Mod.fenceProgress (m : Mod) (c id : Nat) : Mod :=
  m.onCore c fun k => k.progress m.tick fun g => match g.wait with
    | .fence sc => g.lanes.any fun l => (m.fenceDeps c g.warp l sc).contains id
    | _ => false

/-- A completed `fred` credits the contributor at this module: its oldest operation to that destination that has been sent
(R227, R254). -/
def Mod.fredCredit (m : Mod) (p : Packet) (err : Bool) : Mod :=
  if (packetIsStart p) then m.startCredit p err
  else match m.fabOps.find? fun o => o.pkt.op == 6 && !o.unsent && o.pkt.ctx == p.ctx && o.pkt.asid == p.asid && o.pkt.opd0 == p.opd0 &&
      o.pkt.addr == p.addr with
  | none => m
  | some o =>
    let m := m.fenceProgress o.core o.id
    let m := { m with fabOps := m.fabOps.filter fun x => x.id != o.id }
    match m.spotOf o.core o.block with
    | some t => m.creditSpot t (8 * o.pkt.cnt) 1 err
    | none => m

/-- The multicast of an operation's completions over the tree, away from a link; one that arrives with hop count 7 is not sent
on (R247, R254). (log 14, DESIGN CHOICE) -/
def Mod.fredMulticast (m : Mod) (g : GridCtx) (p : Packet) (from_ : Nat) (err : Bool) : Mod :=
  let m := if inPattern p.lows p.highs g.coord then m.fredCredit p err else m
  let met := fun (l : Nat) => g.rules.any fun u => u.tree && u.link == l && (u.cut p.lows p.highs).isSome
  let ls := (List.range 24).filter fun l => l != from_ && met l && m.linkTakes l false
  if p.hop = 7 then (if ls.isEmpty then m else m.overrun)
  else ls.foldl (fun m l => m.sendOn l { p with
    op := 7, cls := true, hop := p.hop + 1, err := err, tree := true, src := g.coord, len := 1, pay := [] }) m

/-- The combined value written at the module that holds the destination: its last parts, the landing word raised once, and the
completions sent (R227, R254); one of contributions that differ has nothing to write. (log 14, DESIGN CHOICE) -/
def Mod.fredLand (m : Mod) (g : GridCtx) (p : Packet) (held : Option (Nat × List (Nat × Nat))) (parts : List (Nat × Nat)) : Mod :=
  let t := m.target p p.pay.length
  let r := if held.isSome then (false, m) else m.writeHere p t.1
  let m := if r.1 then r.2 else parts.foldl (fun m q => m.writePart g p held q) m
  let err := p.err || r.1
  let m := match t.2 with
    | some l => m.creditSpot l.1 l.2 1 err
    | none => m
  m.fredMulticast g p 31 err

/-- The combined value at the module that holds the destination: narrowed, it enters the inbound queue; contributions that
differ leave the destination unwritten, and end in their turn; a start has no value (R227, R240, R254).
(log 14, DESIGN CHOICE) -/
def Mod.fredRoot (m : Mod) (g : GridCtx) (s : FredSlot) (err : Bool) (acc : List Byte) : Mod :=
  let p := { s.pkt with pay := fredNarrow (fredTy s.pkt) acc, hop := 0, err := err }
  if packetIsStart p then m.fredMulticast g p 31 (err || s.bad)
  else if s.bad then { m with inQ := m.inQ ++ [{ pkt := { p with pay := [], lnd := false, err := true }, left := [] }] }
  else { m with inQ := m.inQ ++ [{ pkt := p, left := packetParts p }] }

/-- A slot whose children have all delivered combines their values in order and sends them on (R254).
(log 14, DESIGN CHOICE; log 15, DESIGN CHOICE; log 16, DEDUCED) -/
def Mod.fredFinish (m : Mod) (g : GridCtx) (s : FredSlot) : Mod :=
  let op := fredOp s.pkt
  let t := fredTy s.pkt
  let n := s.pkt.len / (tyWidth t / 8)
  let ident := (List.range n).flatMap fun _ => leBytes 4 (fredIdentity op t)
  let vals := (g.fredKids s.pkt).map fun k => match s.kids.find? fun x => x.1 == k with
    | some x => (x.2.1, x.2.2.1, x.2.2.2)
    | none => (0, true, ident)
  let acc := match vals with
    | [] => []
    | v :: vs => vs.foldl (fun a x => fredZip op t a x.2.2) v.2.2
  let hop : Nat := vals.foldl (fun h v => max h v.1) 0
  let err := vals.any fun v => v.2.1
  let parent : Nat := g.treeLink s.pkt.opd0
  if parent = 31 then m.fredRoot g s err acc
  else if parent < 24 ∧ hop < 7 ∧ m.linkTakes parent s.pkt.cn = true then
    let q := { s.pkt with hop := hop + 1, err := err || s.bad, src := g.coord, pay := if s.bad then [] else acc,
                          len := if s.bad then 0 else s.pkt.len }
    m.sendOn parent q
  else
    let m := if parent < 24 ∧ hop = 7 then m.overrun else m
    m.fredMulticast g { s.pkt with hop := 0 } 31 true

/-- A child that needs no delivery: an absent or foreign one, or one behind a link that is down or does not carry the operation's
scope (R254, R255, R265). -/
def Mod.fredSilent (m : Mod) (cn : Bool) (k : Nat) : Bool := k == 29 || k == 30 || (decide (k < 24) && !m.linkTakes k cn)

/-- Whether every child that must deliver has done so. -/
def Mod.fredReady (m : Mod) (g : GridCtx) (s : FredSlot) : Bool :=
  (g.fredKids s.pkt).all fun k => m.fredSilent s.pkt.cn k || s.kids.any fun x => x.1 == k

/-- A child's delivery joins the first slot of its operation that does not hold one of that child yet (R227, R254). -/
def joinSlot (child : Nat) (p : Packet) : List FredSlot → List FredSlot
  | [] => [{ pkt := p, kids := [(child, p.hop, p.err, p.pay)], bad := false }]
  | s :: l =>
    if s.pkt.ctx == p.ctx && s.pkt.asid == p.asid && s.pkt.opd0 == p.opd0 && s.pkt.addr == p.addr &&
        !s.kids.any fun x => x.1 == child then
      { s with kids := s.kids ++ [(child, p.hop, p.err, p.pay)], bad := s.bad || fredDiffer s.pkt p } :: l
    else s :: joinSlot child p l

/-- Slots whose children have all delivered are worked off. -/
def Mod.fredSettle (m : Mod) (g : GridCtx) : Mod :=
  let done := m.freds.filter fun s => s.pkt.ctx == g.num && m.fredReady g s
  let m1 := { m with freds := m.freds.filter fun s => !(s.pkt.ctx == g.num && m.fredReady g s) }
  done.foldl (fun m s => m.fredFinish g s) m1

/-- The error completion of a contribution that cannot be combined, on the way back to its contributors (R219, R254). -/
def fredError (p : Packet) (own : W64) : Packet :=
  { p with op := 7, cls := true, hop := 1, err := true, tree := true, src := own, len := 1, pay := [] }

/-- A contribution reaches this module's port: its child is the local one, or the tree link toward its sender (R254). Where the
module's tree gives the destination as absent or foreign, no value can come together, and the contributor is answered with an
error at once (R219); a tree that names a foreign coordinate for the destination or for a contributor is reported, once for an
operation (R219, R242). -/
def Mod.fredArrive (m : Mod) (g : GridCtx) (p : Packet) (own : Bool) : Mod :=
  let child := if own then 32 else g.treeLink p.src
  let parent := g.treeLink p.opd0
  let freds := joinSlot child p m.freds
  let foreign := parent == 29 || (g.fredKids p).contains 29
  let m := if foreign && decide (m.freds.length < freds.length) then m.plainEvent 8 p.asid 0 0 p.lows else m
  if parent = 29 ∨ parent = 30 then
    if own then m.fredCredit p true
    else if child < 24 then m.sendOn child (fredError p g.coord)
    else m
  else Mod.fredSettle { m with freds := freds } g

/-! ### The synchronised start (R240) -/

/-- The coordinate to which the count of a start goes: the one whose every axis is 0, or the lowest occupied one (R240),
by the number that its five axes make with axis 0 least. (log 88, DESIGN CHOICE) -/
def GridCtx.startRoot (g : GridCtx) : W64 :=
  let full := ofAxes ((List.range g.n).map fun k => g.ext.getD k 1 - 1)
  match g.rule? false 0 with
  | some u =>
    if u.link = 29 ∨ u.link = 30 then
      let lows := ((g.rules.filter fun u => !u.tree && u.link != 29 && u.link != 30).filterMap fun u =>
        u.cut 0 full).map fun s => s.1.toNat
      BitVec.ofNat 64 (lows.foldl min full.toNat)
    else 0
  | none => 0

/-- This module's contribution to the start of a launch: a count of one (R240). (log 88, DESIGN CHOICE) -/
def GridCtx.startPacket (g : GridCtx) (asid : Nat) : Packet :=
  { op := 6, hop := 0, lnd := false, err := false, cn := false, tree := true, ctx := g.num, asid := asid, lows := 0,
    highs := ofAxes ((List.range g.n).map fun k => g.ext.getD k 1 - 1), addr := 0, src := g.coord, core := 0, cnt := 0,
    len := 4, tag := 0, opd0 := g.startRoot, opd1 := opd1Of 0 6 0 true, pay := leBytes 4 1 }

/-! ### Requests at a port -/

/-- A request for this module, leat data too, enters the inbound queue toward its cores and memory (R246, R257). -/
def Mod.performHere (m : Mod) (p : Packet) : Mod :=
  { m with inQ := m.inQ ++ [{ pkt := p, left := if p.op ≤ 1 then (packetParts p) else [] }] }

/-- Whether two requests of the inbound queue keep their order: those of one source module (R246), and the results of `fred`s of one
destination, which are matched by their order and have no order with other requests (R227, R229). -/
def Inbound.inOrder (i j : Inbound) : Bool :=
  i.pkt.ctx == j.pkt.ctx &&
  (if i.pkt.op == 6 || j.pkt.op == 6 then
    i.pkt.op == 6 && j.pkt.op == 6 && i.pkt.asid == j.pkt.asid && i.pkt.opd0 == j.pkt.opd0 && i.pkt.addr == j.pkt.addr
   else i.pkt.src == j.pkt.src)

/-- The requests of the inbound queue that may be performed next: the first of each source module (R246). -/
def firstOfSource : List Inbound → List Inbound
  | [] => []
  | i :: l => i :: (firstOfSource l).filter fun j => !i.inOrder j

/-- Whether a request of the inbound queue is a store or a copy with parts still to write, and reaches its place. -/
def Mod.mayPart (m : Mod) (i : Inbound) : Bool :=
  i.pkt.op != 2 && i.pkt.op != 4 && i.pkt.op != 8 && decide (1 < i.left.length) && !(i.pkt.op == 1 && i.pkt.err) && (i.held.isSome || !(m.writeHere i.pkt (m.target i.pkt i.pkt.pay.length).1).1)

/-- The generation at which a packet's payload for device memory is translated, and its physical runs (R421). -/
def Mod.heldRuns (m : Mod) (p : Packet) : Option (Nat × List (Nat × Nat)) :=
  if addrKind p.addr = 3 then none
  else match (m.xlateRun .port p.asid true (pagePieces (addrOf p.addr) p.pay.length)).1 with
    | .ok l => some (m.gen, l)
    | .error _ => none

/-- A request of the inbound queue is served: a load or an atomic is performed; leat data goes to the leat engine; of a payload some parts may be written first, in
no fixed order, before the rest and its landing (R224, R225, R226, R295). (log 1, DESIGN CHOICE) -/
def Mod.serveInbound (m : Mod) (leat : Mod → Packet → Mod) (i : Inbound) : Mod :=
  match m.grid? i.pkt.ctx with
  | none => { m with inQ := m.inQ.erase i }
  | some g =>
    let some_ := i.left.zipIdx.filter fun q => Config.order (m.free + q.2) % 2 == 1
    if m.mayPart i && Config.order m.free % 2 == 1 && decide (some_.length < i.left.length) then
      let held := i.held.orElse fun _ => m.heldRuns i.pkt
      let m := some_.foldl (fun m q => m.writePart g i.pkt held q.1) { m with free := m.free + 1 + i.left.length }
      { m with inQ := alterFirst (fun j => j == i) (fun j =>
          { j with held := held, left := j.left.filter fun q => !(some_.map (·.1)).contains q }) m.inQ }
    else
      let m := { m with inQ := m.inQ.erase i }
      match i.pkt.op with
      | 2 => m.loadHere g i.pkt
      | 4 => m.atomHere g i.pkt
      | 6 => m.fredLand g i.pkt i.held i.left
      | 8 => leat m i.pkt
      | _ => m.storeHere g i.pkt i.held i.left

/-- A part of a packet's pattern that no module takes is answered, reported when foreign, and counted when it has
overrun its route (R219, R242, R247). -/
def Mod.failPart (m : Mod) (p : Packet) (own : W64) (n : Nat) (foreign long : Bool) : Mod :=
  let m := if foreign then m.plainEvent 8 p.asid 0 0 p.lows else m
  let m := if long then m.overrun else m
  m.complete p own true n

/-- A request for a context that this module does not hold, or that is not active, is answered with an error completion; that of a
contribution goes back on its tree link (R219, R247, R254). -/
def Mod.noContext (m : Mod) (g : Option GridCtx) (p : Packet) : Mod :=
  let own := (g.map (·.coord)).getD 0
  if p.op ≠ 6 then m.complete p own true (boxSize p.lows p.highs)
  else match g with
    | none => { m with outPkts := m.outPkts ++ [(24, fredError p 0)] }
    | some g => if g.treeLink p.src < 24 then m.sendOn (g.treeLink p.src) (fredError p own) else m

/-- A request packet at a port: expanded, and each part performed, forwarded or answered (R244). -/
def Mod.portRequest (m : Mod) (p : Packet) : Mod :=
  match m.grid? p.ctx with
  | none => m.noContext none p
  | some g =>
    if !g.active then m.noContext (some g) p
    else if p.op = 6 then m.fredArrive g p false
    else (m.expand g p).foldl (fun m b => match b with
      | .here q => m.performHere q
      | .failed n fr ov => m.failPart p g.coord n fr ov
      | .link l q => m.sendOn l q) m

/-- The packets that a link holds when it goes down return error completions (R253); those of responses and of the tree are
answered to no one. (log 89, DEDUCED) -/
def Mod.dropHeld (m : Mod) (l : Nat) : Mod :=
  let held := ((m.link? l).map (·.txq)).getD []
  let m := { m with links := alterFirst (fun k => k.num == l) (fun k => { k with txq := [] }) m.links }
  held.foldl (fun m p =>
    let own := ((m.grid? p.ctx).map (·.coord)).getD 0
    if p.cls then m
    else if p.op = 6 then match m.grid? p.ctx with
      | some g => m.fredMulticast g { p with hop := 0 } l true
      | none => m
    else m.failPart p own (boxSize p.lows p.highs) false false) m

/-- Each link that is up sends what waits on channels that are not stopped, and keeps the last 256 flits for a replay (R250,
R251, R253). (log 8, DESIGN CHOICE) -/
def Mod.drainLinks (m : Mod) : Mod :=
  let goes := fun (k : Link) (p : Packet) => k.up && !k.stop.getLsbD (packetVc p)
  let out := m.links.flatMap fun k => (k.txq.filter (goes k)).map fun p => (k.num, p)
  if out.isEmpty then m
  else { m with
    outPkts := m.outPkts ++ out,
    links := m.links.map fun k =>
      let flits := k.sent ++ (k.txq.filter (goes k)).flatMap packetFlits
      { k with txq := k.txq.filter fun p => !goes k p, sent := flits.drop (flits.length - 256) } }

/-- Whether a packet's header passes the checks of R248. -/
def packetOk (p : Packet) : Bool :=
  decide (p.op ≤ 8) && p.cls == (p.op == 3 || p.op == 5 || p.op == 7) && p.resv1 == 0 && p.resv2 == 0 && bitsOf p.lows.toNat 60 4 == 0 && bitsOf p.highs.toNat 60 4 == 0 && decide (p.len ≤ 4096) &&
  (p.op == 8 || bitsOf p.opd1.toNat 31 33 == 0) && decide (p.hop ≤ 7)

/-- A packet discarded, one protocol error counted (R248). -/
def Mod.protocolError (m : Mod) : Mod :=
  { m with counters := { m.counters with protocol := m.counters.protocol + 1 } }

/-! ### Injection (R229, R249, R251, R257) -/

/-- The marks of peers that a pattern names (R257). -/
def Mod.marksOf (m : Mod) (lows highs : W64) : List Mark :=
  m.marks.filter fun k => decide (m.tick < k.until_) && inPattern lows highs k.peer

/-- Whether backwater lets a request packet for a pattern be injected: 40 ns after the last one for a marked peer
(R257). -/
def Mod.backwaterOpen (m : Mod) (lows highs : W64) : Bool :=
  (m.marksOf lows highs).all fun k => decide (k.last + 40 * Config.ticksPerNs ≤ m.tick)

/-- The peers toward which a request packet travels, as a box: the coordinates that it names, the destination of a `fred`, the peer of
leat data (R227, R257, R329). -/
def packetPeers (p : Packet) : W64 × W64 :=
  if p.op = 6 then (p.opd0, p.opd0) else if p.op = 8 then (p.addr, p.addr) else (p.lows, p.highs)

/-- Whether a fabric operation touches n bytes at a place of this module. -/
def Mod.opMeets (m : Mod) (o : FabOp) (p : Place) (n : Nat) : Bool :=
  let sp := addrSpace o.pkt.addr
  match p with
  | .cluster c b off => sp.1.1 == 3 && sp.1.2.1 == c && (((m.core c).blockIn? sp.1.2.2).map (·.uid) == some b) &&
      overlaps sp.2 o.span off n
  | .device pa => sp.1.1 == 0 && match (m.xlateRun .port o.pkt.asid false (pagePieces sp.2 o.span)).1 with
      | .ok l => l.any fun q => overlaps q.1 q.2 pa n
      | .error _ => false

/-- Whether an operation of a core touches bytes that another one touches, in one space of a module. -/
def FabOp.meetsOp (o x : FabOp) : Bool :=
  let a := addrSpace o.pkt.addr
  let b := addrSpace x.pkt.addr
  a.1 == b.1 && overlaps a.2 o.span b.2 x.span

/-- Whether an operation's threads had observed a write of their core by its issue, or have been given it by forwarding (R303,
R304). -/
def Mod.opHadSeen (m : Mod) (o : FabOp) (id : Nat) : Bool :=
  decide (id < o.seen) || o.lanes.any fun l => match m.thread? o.core o.warp l with | some t => t.fwd.contains id | none => false

/-- Whether an operation is a write that stands in the outbound buffer (R299). -/
def FabOp.buffered (o : FabOp) : Bool := decide (o.pkt.op ≤ 1)

/-- Whether an earlier operation must leave before another: of one warp (R229), a buffered write of its core to common bytes (R296,
R299), of one module for a `fred` of one destination,
whose order tells which contributions belong together (R227), and a write observed before to common bytes (R300, R304). -/
def Mod.leavesFirst (m : Mod) (x o : FabOp) : Bool :=
  x.unsent && decide (x.id < o.id) &&
  ((x.core == o.core && x.warp == o.warp) ||
   (x.core == o.core && x.launch == o.launch && x.buffered && o.buffered && x.pkt.ctx == o.pkt.ctx && x.meetsOp o) ||
   (x.pkt.op == 6 && o.pkt.op == 6 && x.pkt.ctx == o.pkt.ctx && x.pkt.asid == o.pkt.asid && x.pkt.opd0 == o.pkt.opd0 &&
     x.pkt.addr == o.pkt.addr) ||
   (x.core == o.core && x.pkt.op != 2 && m.opHadSeen o x.id && x.meetsOp o))

/-- Whether an earlier request of the core must be performed before an operation that touches its bytes at this module: the
thread's own, both of them in the outbound buffer, or a write that it had observed; a load takes a buffered store's bytes instead (R296, R299, R300, R304). -/
def Mod.reqBefore (m : Mod) (r : Req) (o : FabOp) : Bool :=
  let buffered := match r.place, r.what with | .cluster _ _ _, .store _ => true | _, _ => false
  decide (r.id < o.id) && r.core == o.core && !(buffered && o.pkt.op == 2) &&
  ((r.warp == o.warp && o.lanes.contains r.lane) || (buffered && o.buffered) || (r.writes && m.opHadSeen o r.id)) &&
  m.openHere o && m.opMeets o r.place r.what.bytes

/-- Whether a load that could not take all of its bytes from the outbound buffer at its issue still has bytes there, of earlier
writes: it goes to its place behind them (R296, R299, R302). -/
def Mod.loadWaits (m : Mod) (o : FabOp) : Bool :=
  o.pkt.op == 2 && o.fwd.isEmpty && (List.range o.span).any fun i =>
    (m.buffered o.core o.launch (m.grid? o.pkt.ctx) o.pkt.lows o.pkt.addr i).any fun p => decide (p.1 < o.id)

/-- Whether an operation's next packet may leave: what must leave or be performed before it has done so, the writes it waits
for are performed, the passes of earlier accesses of its core are over, its payload is in the buffer (R223), and backwater does not
hold it. -/
def Mod.injectable (m : Mod) (o : FabOp) : Bool :=
  o.unsent && m.allPerformed o.deps && m.backwaterOpen (packetPeers o.pkt).1 (packetPeers o.pkt).2 &&
  !(m.core o.core).passes.any (fun p => decide (p.id < o.id) || p.what == .payload o.id) && !m.loadWaits o &&
  !(m.fabOps.any fun x => m.leavesFirst x o) && !m.reqs.any fun r => m.reqBefore r o

/-- The marks of the peers of a pattern remember an injection. -/
def Mod.noteInjection (m : Mod) (lows highs : W64) : Mod :=
  { m with marks := m.marks.map fun k => if inPattern lows highs k.peer then { k with last := m.tick } else k }

/-- The next piece of a copy: its packet and the operation after it (R249, R228); bytes whose source was written since the issue
are free values. The piece's place is the address word plus the bytes sent: past bit 31 of a word of kind 011 it goes on in the core
field. (log 18, DEDUCED; log 19, DEDUCED; log 98, DESIGN CHOICE) -/
def Mod.copyPiece (m : Mod) (o : FabOp) : Packet × FabOp × Mod :=
  let n := min 4096 (o.len - o.sent)
  let r := m.copySource o.core o.block o.launch o.pkt.asid o.src o.sent n
  let head := fun (off len : Nat) => { o.pkt with
    addr := o.pkt.addr + BitVec.ofNat 64 off, len := len, opd0 := BitVec.ofNat 64 (off + 2 ^ 32 * o.len) }
  match r.1 with
  | none => ({ head o.len 0 with err := true }, { o with unsent := false }, r.2)
  | some bs =>
    let late := fun (i : Nat) => o.taint.any fun t => decide (t.1 ≤ o.sent + i) && decide (o.sent + i < t.1 + t.2)
    let pay := bs.zipIdx.map fun p => if late p.2 then Config.freeByte r.2.free p.2 else p.1
    let spans := addSpans o.spans (r.2.copySpans o.core o.block o.pkt.asid o.src o.sent n)
    let dspans := addSpans o.dspans (r.2.copyHere o.pkt o.sent n)
    ({ head o.sent n with pay := pay },
      { o with sent := o.sent + n, spans := spans, dspans := dspans, unsent := decide (o.sent + n < o.len) }, { r.2 with free := r.2.free + 1 })

/-- The next packet of an operation leaves its core and is expanded at the own port. -/
def Mod.inject (m : Mod) (o : FabOp) : Mod :=
  let put := fun (m : Mod) (x : FabOp) => { m with fabOps := alterFirst (fun y => y.id == x.id) (fun _ => x) m.fabOps }
  let m := m.noteInjection (packetPeers o.pkt).1 (packetPeers o.pkt).2
  if o.pkt.op = 1 then
    let r := m.copyPiece o
    (put r.2.2 r.2.1).portRequest r.1
  else
    let m := put m { o with unsent := false }
    if o.pkt.op = 6 then
      match m.grid? o.pkt.ctx with
      | some g => m.fredArrive g { o.pkt with pay := fredWiden (fredTy o.pkt) o.pkt.pay } true
      | none => m
    else m.portRequest o.pkt

/-! ### Completions (R219, R221, R225, R226, R254) -/

/-- The pending result of an operation lands, in the live core or in a saved context. -/
def Mod.landFab (m : Mod) (c id : Nat) (val : W64) : Mod :=
  let f := fun (x : Flight) => if x.id = id ∧ x.kind = .fabric then { x with val := val, land := some m.clock } else x
  let m := m.onCore c fun k => { k with flights := k.flights.map f }
  let onCore := fun (k : SavedCore) => if k.core = c then { k with flights := k.flights.map f } else k
  { m with saved := m.saved.map fun v => { v with cores := v.cores.map onCore } }

/-- The value of a fabric load or atomic: its bytes extended by the type's signedness (R225, R226). -/
def fabValue (t : Ty) (bs : List Byte) : W64 := BitVec.ofNat 64 (extend (tyCode t) 64 (leNat bs))

/-- Bytes with some replaced. -/
def overlay (bs : List Byte) (fwd : List (Nat × Byte)) : List Byte :=
  fwd.foldl (fun l p => l.set p.1 p.2) bs

/-- An error completion of a shard's copy stops its transfer (R342). -/
def Mod.shardFailed (m : Mod) (num : Nat) : Mod :=
  { m with shards := m.shards.map fun x => if x.num = num ∧ x.word = 0 then { x with word := 0xFFFFFFFD } else x }

/-- A copy that is over: what this module's own coordinate took of bytes whose source was written before the end is undefined, as far
as no later write has replaced it (R228). (log 19, DEDUCED) -/
def Mod.endCopy (m : Mod) (o : FabOp) : Mod :=
  match m.grid? o.pkt.ctx with
  | none => m
  | some g =>
    if o.pkt.op ≠ 1 ∨ inPattern o.pkt.lows o.pkt.highs g.coord = false then m
    else (o.newer.foldl (fun l r => l.flatMap fun t => runLess t r) o.taint).foldl (fun m t =>
      let pay := (List.range t.2).map fun i => Config.freeByte m.free i
      let p := { o.pkt with lnd := false, addr := o.pkt.addr + BitVec.ofNat 64 t.1, pay := pay }
      let m := { m with free := m.free + 1 }
      (m.writeHere p (m.target p t.2).1).2) m

/-- A response packet that is this module's: the count word is credited, a pending result lands, and an operation with
all of its completions is over (R221). -/
def Mod.takeResponse (m : Mod) (p : Packet) : Mod :=
  match m.fabOps.find? fun o => o.id % 2 ^ 32 == p.tag && o.pkt.op != 6 && o.pkt.ctx == p.ctx with
  | none => m
  | some o =>
    let n := if p.op = 7 then p.len else 1
    let left := o.left - n
    let took := fun (x : FabOp) =>
      { x with left := left, done := if p.err || p.len = 0 then x.done else x.done ++ [(p.src, 0, x.span)] }
    let m := if left = 0 then m.fenceProgress o.core o.id else m
    let ops := if left = 0 then m.fabOps.filter fun x => x.id != o.id
      else alterFirst (fun x => x.id == o.id) took m.fabOps
    let m := { m with fabOps := ops }
    let m := if left = 0 then m.endCopy o else m
    let m := match m.spotOf o.core o.block with
      | some t => m.creditSpot t (8 * o.pkt.cnt) n p.err
      | none => m
    let m := if o.core = 1024 ∧ p.err = true then m.shardFailed o.block else m
    match o.dest with
    | some _ => m.landFab o.core o.id (if p.err then 0 else fabValue o.ty (overlay p.pay o.fwd))
    | none => m

/-- FABRIC_COMPLETION_ARRIVAL: a response packet reaches this module, from its own port's queue or from a link, and is
taken, forwarded, or spread over the tree (R219, R221, R244, R254). -/
def execFabricCompletionArrival (p : Option Packet) (s : State) : Out :=
  let m := s.now
  match p with
  | none => match m.portQ.find? fun q => q.opd1 == 0 with
    | none => .next s
    | some q => .next { s with now := Mod.takeResponse { m with portQ := m.portQ.erase q } q }
  | some q =>
    if !packetOk q ∨ (q.op ≠ 3 ∧ q.op ≠ 5 ∧ q.op ≠ 7) then .next { s with now := m.protocolError }
    else match m.grid? q.ctx with
      | none => .next s
      | some g =>
        if q.tree then .next { s with now := m.fredMulticast g q (g.treeLink q.src) q.err }
        else .next { s with now := (m.expand g q).foldl (fun m b => match b with
          | .here r => m.takeResponse r
          | .link l r => m.sendOn l r
          | .failed _ _ ov => if ov then m.overrun else m) m }

/-- FWAIT_TIMEOUT: the deadline of a fabric count wait has passed: the count word lands with to = 1 (R230). -/
def execFwaitTimeout (c id : Nat) (s : State) : Out :=
  let m := s.now
  match (m.core c).waits.find? fun g => g.id == id with
  | none => .next s
  | some g => match g.wait with
    | .count n _ _ (some dl) =>
      if m.tick < dl ∨ g.met.isSome then .next s
      else
        let v := m.sreadOf c g.warp g.lanes (8 * n) 8
        let val := BitVec.ofNat 64 (v % 2 ^ 62 + 2 ^ 62 + v / 2 ^ 63 * 2 ^ 63)
        let m := m.onCore c fun k => { k with flights := k.flights.map fun f =>
          if f.id == g.id && f.kind == LandKind.held then { f with val := val, land := some m.clock } else f }
        .next { s with now := m.wake c g m.clock }
    | _ => .next s

/-! ### Backwater (R257) -/

/-- A peer is marked for 16 µs; in a full table of 128 the mark goes that was made first, whatever later causes have renewed
(R257). (log 99, DESIGN CHOICE) -/
def Mod.mark (m : Mod) (peer : W64) : Mod :=
  let until_ := m.tick + 16000 * Config.ticksPerNs
  match m.marks.find? fun k => k.peer == peer with
  | some _ => { m with marks := m.marks.map fun k => if k.peer = peer then { k with until_ := until_ } else k }
  | none =>
    let l := if 128 ≤ m.marks.length then m.marks.drop 1 else m.marks
    { m with marks := l ++ [{ peer := peer, until_ := until_, last := 0 }] }

/-- The coordinates of a box, axis 0 fastest. -/
def boxCoords (lows highs : W64) : List W64 :=
  ((List.range 5).foldl (fun l k => (List.range (axisOf highs k - axisOf lows k + 1)).flatMap fun i =>
    l.map fun c => c ||| BitVec.ofNat 64 ((axisOf lows k + i) * 2 ^ (12 * k))) [0])

/-- Peers for which a link's queue holds more than 512 KiB of packets are marked (R257). (log 37, DEDUCED) -/
def Mod.markQueues (m : Mod) : Mod :=
  let size := fun (l : List Packet) => l.foldl (fun n p => n + (packetBytes p)) 0
  m.links.foldl (fun m k =>
    if size k.txq ≤ 512 * 1024 then m
    else ((k.txq.flatMap fun p => boxCoords (packetPeers p).1 (packetPeers p).2).eraseDups.filter fun c =>
      decide (512 * 1024 < size (k.txq.filter fun p => inPattern (packetPeers p).1 (packetPeers p).2 c))).foldl Mod.mark m) m

/-- Whether a link takes a backwater flit: it is up, its ends have agreed on them, and channel 7 is not stopped (R251, R257,
R265). -/
def Link.takesFlits (k : Link) : Bool := k.up && k.caps.getLsbD 2 && !k.stop.getLsbD 7

/-- The link on which backwater flits for a peer leave: the first of the route, where it takes them (R251, R265). -/
def Mod.flitLink (m : Mod) (ctx : Nat) (peer : W64) : Option Nat :=
  match (m.grid? ctx).bind fun g => g.rule? false peer with
  | none => none
  | some u => (m.link? u.link).bind fun k => if k.takesFlits then some k.num else none

/-- The peers of some that backwater flits can reach (R257, R265). -/
def Mod.flitsTo (m : Mod) (l : List (Nat × W64)) : List W64 :=
  l.filterMap fun p => (m.flitLink p.1 p.2).map fun _ => p.2

/-- BACKWATER_FLIT: a peer has sent a backwater flit naming itself, on a link that carries them (R257, R265). -/
def execBackwaterFlit (x : BackwaterFlit) (s : State) : Out :=
  match s.now.link? x.link with
  | none => .next s
  | some k => if k.up && k.caps.getLsbD 2 then .next { s with now := s.now.mark x.peer } else .next s

/-- BACKWATER_LAPSE: a mark lapses 16 µs after its last cause (R257). -/
def execBackwaterLapse (peer : W64) (s : State) : Out :=
  .next { s with now := { s.now with marks := s.now.marks.filter fun k =>
    !(k.peer == peer && decide (k.until_ ≤ s.now.tick)) } }

end Sys2Proof.Machine
end

