-- ==== Sys2Proof/Machine/CanalInstr.lean ====
section
/-! DEFINITION. The Canal instructions (R274 to R277), and held results that a wait's end lands. -/

namespace Sys2Proof.Machine

/-- Whether the module belongs to a formed Canal group (R274). -/
def Canal.member (k : Canal) : Bool := k.group.isSome && k.formed && !k.left

/-- Frames that the queue holds (R258). -/
def canalQueue : Nat := 64

/-- A frame put into the queue at its issue cycle and core number (R274). -/
def insertFrame (f : OutFrame) : List OutFrame → List OutFrame
  | [] => [f]
  | x :: l => if f.at_ = x.at_ ∧ f.core < x.core then f :: x :: l else x :: insertFrame f l

/-- A frame of this module queued. -/
def Mod.postFrame (m : Mod) (f : OutFrame) : Mod := { m with canal := { m.canal with q := insertFrame f m.canal.q } }

/-- A 16-byte entry (R260). -/
def canalEntry (idx : Nat) (add : Bool) (val : W64) : List Byte :=
  leBytes 8 (idx + (if add then 256 else 0)) ++ leBytes 8 val.toNat

/-- The frame of `cnl.post` or `cnl.rel` by some threads of a warp; a full queue holds the bundle (R274 to R276). -/
def canalPost (kind : Nat) (h : Hdr) (f : FmtE) (s : State) : Out :=
  perWarp h s fun w ls b =>
    let a := b.x.u w f.a
    if !b.m.canal.member || 256 ≤ a.toNat then b.faultAll (ls.map fun l => (w, l)) 0x15
    else if canalQueue ≤ b.m.canal.q.length then { b with x := { b.x with hold := true } }
    else
      let deps := if kind = 1 then b.m.releaseSet b.x.core w ls else []
      let la := ((b.m.blockOf b.x.core w).map (·.launch)).getD 0
      b.on fun m => m.postFrame
        { kind := kind, pay := canalEntry a.toNat (f.cmd.toNat % 2 == 1) (b.x.u w f.b), at_ := m.clock,
          core := b.x.core, held := kind == 1 && !m.allPerformed deps, deps := deps, asid := m.asidOf la, launch := la }

/-- `cnl.post` (R275). -/
def execCnlPost (h : Hdr) (f : FmtE) (s : State) : Out := canalPost 0 h f s

/-- `cnl.rel` (R276). -/
def execCnlRel (h : Hdr) (f : FmtE) (s : State) : Out := canalPost 1 h f s

/-- A Canal word of a member in the replica (R260, R262). -/
def Canal.word (k : Canal) (member idx : Nat) : W64 :=
  ((k.words.find? fun p => p.1 == member * 256 + idx).map (·.2)).getD 0

/-- The condition of `cnl.wt` (R277). -/
def canalCond (cond : Nat) (word cmp : W64) : Bool :=
  match cond with
  | 0 => decide (cmp.toNat ≤ word.toNat)
  | 1 => word == cmp
  | 2 => word != cmp
  | _ => true

/-- `cnl.wt` (R277). -/
def execCnlWt (h : Hdr) (f : FmtE) (s : State) : Out :=
  perWarp h s fun w ls b =>
    let c := b.x.core
    let a := b.x.u w f.a
    let member := bitsOf a.toNat 8 6
    let d := f.d.toNat
    if !b.m.canal.member || 2 ^ 14 ≤ a.toNat || b.m.canal.n ≤ member then b.faultAll (ls.map fun l => (w, l)) 0x15
    else
      let word := b.m.canal.word member (bitsOf a.toNat 0 8)
      let cond := f.cmd.toNat % 8
      let cmp := b.x.u w f.b
      b.on fun m =>
        if canalCond cond word cmp then
          ((m.putHeld c w (b.x.lanes w) d word (some (m.clock + 10)) 0).putHeld c w (b.x.lanes w) (d + 1) 0
            (some (m.clock + 10)) 0).acquire c w ls
        else
          let dl := if f.cmd.toNat / 8 = 1 then some (m.deadline (b.x.u w f.c)) else none
          ((m.putHeld c w (b.x.lanes w) d 0 none m.next).putHeld c w (b.x.lanes w) (d + 1) 0 none m.next).block c w ls
            (.canal member (bitsOf a.toNat 0 8) cond cmp d dl) b.x.pc

/-- The held results of a wait land at a cycle with values by register (R38, R145). -/
def Mod.landHeld (m : Mod) (c id land : Nat) (vals : List (Nat × W64)) : Mod :=
  let f := fun (x : Flight) =>
    if x.id = id ∧ x.kind = .held then
      match x.dest with
      | .s _ n => { x with land := some land, val := ((vals.find? fun p => p.1 == n).map (·.2)).getD 0 }
      | _ => x
    else x
  m.onCore c fun k => { k with flights := k.flights.map f }

/-- A wait ends with held results: they land, and its threads are in gap until then (R145). -/
def Mod.wakeWith (m : Mod) (c : Nat) (g : GWait) (land : Nat) (vals : List (Nat × W64)) : Mod :=
  (m.landHeld c g.id land vals).wake c g land

/-- A wait that a save has taken from its core ends in the image, like one on a core (R145, R411, R412). -/
def SavedCore.wakeWith (k : SavedCore) (g : GWait) (land seen : Nat) (vals : List (Nat × W64)) (acq : Bool) : SavedCore :=
  let set := fun (f : Flight) => if f.id = g.id ∧ f.kind = .held then
      match f.dest with
      | .s _ n => { f with land := some land, val := ((vals.find? fun p => p.1 == n).map (·.2)).getD 0 }
      | _ => f
    else f
  let waits := k.waits.filter fun x => x.id != g.id
  let rest : Core := { Core.idle k.core with waits := waits, sweeps := k.sweeps }
  let one := fun (t : Thread) => if g.lanes.contains t.lane then
      let t := t.wakeUp g.id (rest.heldBy g.warp t.lane) land
      if acq then { t with seen := seen } else t
    else t
  { k with
    waits := waits, flights := k.flights.map set,
    warps := k.warps.map fun w => if w.uid = g.warp then { w with threads := w.threads.map one } else w }

/-- The waits of saved contexts that `f` picks, by core, end: it gives the values of their registers and whether the end is an
acquire. -/
def Mod.wakeSaved (m : Mod) (f : Nat → GWait → Option (List (Nat × W64) × Bool)) : Mod :=
  let core := fun (k : SavedCore) => k.waits.foldl (fun k g => match f k.core g with
    | some r => k.wakeWith g (m.clock + 2) m.next r.1 r.2
    | none => k) k
  { m with saved := m.saved.map fun v => { v with cores := v.cores.map core } }

/-- CANAL_WAIT_TIMEOUT: the deadline of a Canal wait has passed: status 1 with the word at expiry (R277). -/
def execCanalWaitTimeout (c id : Nat) (s : State) : Out :=
  let m := s.now
  match (m.core c).waits.find? fun g => g.id == id with
  | none => .next s
  | some g => match g.wait with
    | .canal member word _ _ d (some dl) =>
      if m.tick < dl then .next s
      else .next { s with now := m.wakeWith c g m.clock [(d, m.canal.word member word), (d + 1, 1)] }
    | _ => .next s

end Sys2Proof.Machine
end

