-- ==== Sys2Proof/Machine/Gauge.lean ====
section
/-! DEFINITION. Gauges (R175, R176) and the gauge conversions (R206). -/

namespace Sys2Proof.Machine

/-- A gauge slot taken apart (R175). -/
structure GaugeW where
  fmt : Nat
  mb : Nat
  len : Nat
  scale : Int
deriving DecidableEq, Repr

/-- The fields of a gauge word (R175). -/
def gaugeOf (g : W32) : GaugeW :=
  { fmt := (g.extractLsb' 0 5).toNat, mb := (g.extractLsb' 8 4).toNat, len := 16 * 2 ^ (g.extractLsb' 12 2).toNat,
    scale := (g.extractLsb' 16 7).toInt }

/-- Whether a gauge word is one that R175 admits. -/
def gaugeLegal (g : W32) : Bool :=
  let x := gaugeOf g
  g.extractLsb' 5 3 == 0 && g.extractLsb' 14 2 == 0 && g.extractLsb' 23 9 == 0 &&
  (if x.fmt = 16 then decide (2 ≤ x.mb) && decide (x.mb ≤ 8) && g.extractLsb' 12 2 != 3
   else decide (x.fmt < 14) && x.mb == 0 && g.extractLsb' 12 2 == 0 && (decide (8 ≤ x.fmt) || x.scale == 0))

/-- Gauge i of a warp's launch, as admission captured it (R177). -/
def Mod.gauge (m : Mod) (c w i : Nat) : GaugeW := gaugeOf ((m.recOf c w).gauges.getD i 0)

/-- A stored scalar element read through a gauge (R176). -/
def gaugeRead (g : GaugeW) (x : Nat) : Num := (readNum g.fmt (x % 2 ^ tyWidth g.fmt)).scale g.scale

/-- A value written through a scalar gauge (R176). -/
def gaugeWrite (g : GaugeW) (x : Num) : Nat := writeNum g.fmt (x.scale (-g.scale))

/-- `gcvt.to` (R206). -/
def execGcvtTo (h : Hdr) (f : FmtV) (s : State) : Out :=
  perThread false h s fun w l b =>
    let g := b.x.before.gauge b.x.core w (minorScope f.minor)
    b.putT w l f.d.toNat g.fmt (gaugeWrite g (unF f32 (b.x.vw w l 6 f.a.toNat))) 6

/-- `gcvt.from` (R206); an element of 64 bits stands in a register pair (R100). -/
def execGcvtFrom (h : Hdr) (f : FmtV) (s : State) : Out :=
  perThread false h s fun w l b =>
    let g := b.x.before.gauge b.x.core w (minorScope f.minor)
    b.putV w l f.d.toNat (BitVec.ofNat 32 (roundNe f32 (gaugeRead g (b.x.vw w l g.fmt f.a.toNat)))) 6

/-- The registers that a block's mantissa string takes (R206). -/
def stringRegs (g : GaugeW) : Nat := (g.len * g.mb + 31) / 32

/-- `gpack` (R206, R170). -/
def execGpack (h : Hdr) (f : FmtV) (s : State) : Out :=
  perThread false h s fun w l b =>
    let g := b.x.before.gauge b.x.core w (minorScope f.minor)
    let xs := (List.range g.len).map fun i => (unF f32 (b.x.v w l (f.a.toNat + i)).toNat).scale (-g.scale)
    let r := packBlock g.mb xs
    (b.putRun w l f.d.toNat (mantString g.mb r.2) 14 0 (stringRegs g)).putV w l (f.d.toNat + stringRegs g)
      (BitVec.ofNat 32 r.1) 14

/-- `gunpk` (R206, R168). -/
def execGunpk (h : Hdr) (f : FmtV) (s : State) : Out :=
  perThread false h s fun w l b =>
    let g := b.x.before.gauge b.x.core w (minorScope f.minor)
    let str := b.x.vrun w l f.a.toNat (stringRegs g)
    let e := (b.x.v w l (f.a.toNat + stringRegs g)).toNat % 256
    b.putV w l f.d.toNat (BitVec.ofNat 32
      (roundNe f32 ((blockVal g.mb e (bitsOf str (g.mb * f.aux.toNat) g.mb)).scale g.scale))) 6

end Sys2Proof.Machine
end

