-- ==== Sys2Proof/Machine/Matrix.lean ====
section
/-! DEFINITION. The matrix unit (R187 to R199): parameter blocks, the queue and its instructions, the operations, and
access to accumulators. -/

namespace Sys2Proof.Machine

/-! ### Parameter blocks (R187) -/

/-- Word i of a parameter block. -/
def pword (ws : List W64) (i : Nat) : Nat := (getR ws i).toNat

/-- zoff. -/
def pZ (ws : List W64) : Nat := bitsOf (pword ws 2) 0 21
/-- M. -/
def pM (ws : List W64) : Nat := bitsOf (pword ws 3) 0 9
/-- N. -/
def pN (ws : List W64) : Nat := bitsOf (pword ws 3) 16 9
/-- K. -/
def pK (ws : List W64) : Nat := bitsOf (pword ws 3) 32 13
/-- ga, gb, gc by number 0, 1, 2. -/
def pG (ws : List W64) (i : Nat) : Nat := bitsOf (pword ws 4) (4 * i) 3
/-- acc. -/
def pAcc (ws : List W64) : Bool := bitsOf (pword ws 4) 16 1 == 1
/-- rem of operand 0, 1 or 2. -/
def pRem (ws : List W64) (i : Nat) : Bool := bitsOf (pword ws 4) (17 + i) 1 == 1
/-- weir. -/
def pWeir (ws : List W64) : Nat := bitsOf (pword ws 4) 32 8
/-- wen. -/
def pWen (ws : List W64) : Bool := bitsOf (pword ws 4) 40 1 == 1
/-- kdone. -/
def pKdone (ws : List W64) : Nat := bitsOf (pword ws 5) 0 13

/-- The bytes of a panelled matrix through a gauge (R188). -/
def panelBytes (g : GaugeW) (rows cols : Nat) : Nat :=
  if g.fmt = 16 then rows / 16 * (cols / g.len) * (16 + 2 * g.len * g.mb) else rows * cols * (tyWidth g.fmt / 8)

/-- The paths of a product (R189). -/
inductive MPath where
  | float | integer | block
deriving DecidableEq, Repr

/-- The path and group size of a product's gauges; none where R189 accepts no such pair. -/
def productPath (a b : GaugeW) : Option (MPath × Nat) :=
  if a.fmt = 16 ∧ b.fmt = 16 then (if a.len = b.len then some (.block, a.len) else none)
  else if (a.fmt = 10 ∨ a.fmt = 9 ∨ a.fmt = 8) ∧ b.fmt = a.fmt then some (.float, 4)
  else if (a.fmt = 12 ∨ a.fmt = 13) ∧ (b.fmt = 12 ∨ b.fmt = 13) then some (.float, 8)
  else if (a.fmt = 0 ∨ a.fmt = 4) ∧ (b.fmt = 0 ∨ b.fmt = 4) then some (.integer, 8)
  else none

/-- An operand's place: core, block and offset of its first byte; none for a bad address (R187). -/
def Mod.operandAt (m : Mod) (c w : Nat) (ws : List W64) (i addr bytes : Nat) : Option (Nat × Nat × Nat) :=
  if addr % 64 ≠ 0 then none
  else if pRem ws i then
    match m.clusterAt c w addr bytes with
    | .ok t => some t
    | .error _ => none
  else if 2 ^ 21 ≤ addr ∨ m.scratchOf c w < addr + bytes then none
  else some (c, m.buid c w, addr)

/-- The accumulator allocation of a warp's launch (R193). -/
def Mod.accBytes (m : Mod) (c w : Nat) : Nat := ((m.recOf c w).accsize + 767) / 768 * 768

/-- The field checks of a parameter block that do not depend on the kind (R187). -/
def paramFields (ws : List W64) (acc weirs : Nat) : Bool :=
  bitsOf (pword ws 2) 21 43 == 0 && pZ ws % 8 == 0 && decide (pZ ws + 8 * pM ws * pN ws ≤ acc) &&
  decide (16 ≤ pM ws) && decide (pM ws ≤ 256) && pM ws % 16 == 0 && bitsOf (pword ws 3) 9 7 == 0 &&
  decide (16 ≤ pN ws) && decide (pN ws ≤ 256) && pN ws % 16 == 0 && bitsOf (pword ws 3) 25 7 == 0 &&
  bitsOf (pword ws 3) 45 19 == 0 && bitsOf (pword ws 4) 3 1 == 0 && bitsOf (pword ws 4) 7 1 == 0 &&
  bitsOf (pword ws 4) 11 5 == 0 && bitsOf (pword ws 4) 20 4 == 0 && bitsOf (pword ws 4) 41 23 == 0 &&
  (!pWen ws || decide (pWeir ws < weirs)) && bitsOf (pword ws 5) 13 50 == 0 && pword ws 7 == 0

/-- The checks of a product's block (R187, R189). -/
def Mod.productOk (m : Mod) (c w : Nat) (ws : List W64) : Bool :=
  let a := m.gauge c w (pG ws 0)
  let b := m.gauge c w (pG ws 1)
  match productPath a b with
  | none => false
  | some (p, g) =>
    decide (32 ≤ pK ws) && decide (pK ws ≤ 4096) && pK ws % 32 == 0 && (p != .block || pK ws % a.len == 0) &&
    pKdone ws % g == 0 && decide (pKdone ws < pK ws) && pword ws 6 == 0 && !pRem ws 2 &&
    (m.operandAt c w ws 0 (pword ws 0) (panelBytes a (pM ws) (pK ws))).isSome &&
    (m.operandAt c w ws 1 (pword ws 1) (panelBytes b (pN ws) (pK ws))).isSome

/-- The checks of a load's or store's block (R187 to R189). -/
def Mod.moveOk (m : Mod) (c w : Nat) (ws : List W64) : Bool :=
  let g := m.gauge c w (pG ws 2)
  g.fmt != 11 && pN ws % (if g.fmt = 16 then g.len else 32) == 0 && pword ws 0 == 0 && pword ws 1 == 0 &&
  pK ws == 0 && !pAcc ws && !pRem ws 0 && !pRem ws 1 && bitsOf (pword ws 5) 0 13 == 0 &&
  (m.operandAt c w ws 2 (pword ws 6) (panelBytes g (pM ws) (pN ws))).isSome

/-- Whether `mopf` accepts a block of a kind (R187 to R189). -/
def Mod.paramOk (m : Mod) (c w : Nat) (kind : MKind) (ws : List W64) : Bool :=
  paramFields ws (m.accBytes c w) (((m.blockOf c w).map fun b => b.weirs.length).getD 0) &&
  (match kind with
    | .product => m.productOk c w ws
    | .zero => false
    | _ => m.moveOk c w ws)

/-- The kind that a cmd of `mopf` names (R193). -/
def kindOf (cmd : Nat) : MKind := if cmd = 0 then .product else if cmd = 1 then .load else .store

/-- The pool bytes that an operand covers. -/
def Mod.spanOf (m : Mod) (t : Nat × Nat × Nat) (n : Nat) : List (Nat × Nat × Nat) :=
  match m.block? t.1 t.2.1 with
  | some b => [(t.1, b.at_ t.2.2, n)]
  | none => []

/-- The 64-bit words of a byte string. -/
def words64 : Nat → List Byte → List W64
  | 0, _ => []
  | n + 1, bs => BitVec.ofNat 64 (leNat (bs.take 8)) :: words64 n (bs.drop 8)

/-- Where the operands of a block of a kind lie (R187). -/
def Mod.placesOf (m : Mod) (c w : Nat) (kind : MKind) (ws : List W64) : List (Option (Nat × Nat × Nat)) :=
  match kind with
  | .product => [m.operandAt c w ws 0 (pword ws 0) (panelBytes (m.gauge c w (pG ws 0)) (pM ws) (pK ws)),
                 m.operandAt c w ws 1 (pword ws 1) (panelBytes (m.gauge c w (pG ws 1)) (pN ws) (pK ws)), none]
  | .zero => [none, none, none]
  | _ => [none, none, m.operandAt c w ws 2 (pword ws 6) (panelBytes (m.gauge c w (pG ws 2)) (pM ws) (pN ws))]

/-- The staging entry that a block of a kind at an offset makes (R193). -/
def Mod.stagedBlock (m : Mod) (c w : Nat) (kind : MKind) (off : Nat) (ws : List W64) : MStage :=
  let n := panelBytes (m.gauge c w (pG ws 2)) (pM ws) (pN ws)
  let spans := match m.operandAt c w ws 2 (pword ws 6) n with
    | some t => if kind == .store then m.spanOf t n else []
    | none => []
  { id := m.next, places := m.placesOf c w kind ws, off := off, kind := kind, words := ws, readyAt := m.clock + 10, taint := [],
    ztaint := [], spans := spans }

/-- `mopf`: the block is read in the access's own pass, checked and on its way to the staging entry; an access of an earlier bundle
to the block that is not performed yet holds the bundle (R39, R122, R193, R296). -/
def execMopf (h : Hdr) (f : FmtE) (s : State) : Out :=
  perWarp h s fun w ls b =>
    let off := (b.x.u w f.a).toNat
    match accessFault off 64 64 (b.m.scratchOf b.x.core w) with
    | some cause => b.faultAll (ls.map fun l => (w, l)) cause
    | none =>
      let kind := kindOf f.cmd.toNat
      let ws := words64 8 (leBytes 64 (b.readAhead w ls off 64))
      if b.mustWait w ls off 64 then { b with x := { b.x with hold := true } }
      else if b.m.paramOk b.x.core w kind ws then
        let id := b.m.next
        let b := b.on fun m => Mod.onWarp { m with next := m.next + 1 } b.x.core w fun x =>
          { x with mstage := some (m.stagedBlock b.x.core w kind off ws) }
        (if b.x.passes = 0 then b
          else b.later w b.x.passes (b.m.poolAt b.x.core w off) (.stage w ls id)).addPasses 1
      else b.faultAll (ls.map fun l => (w, l)) 0x0D

/-- MOPF_STAGED: a block that `mopf` read 10 c ago is staged (R193). -/
def execMopfStaged (c w : Nat) (s : State) : Out :=
  match (s.now.warp? c w).bind (·.mstage) with
  | none => .next s
  | some g => if g.readyAt = 0 ∨ s.now.clock < g.readyAt then .next s
    else .next { s with now := s.now.onWarp c w fun x => { x with mstage := some { g with readyAt := 0 } } }

/-- An operation enters the matrix queue with the next ticket (R192). -/
def Mod.enqueue (m : Mod) (c w : Nat) (kind : MKind) (g : MStage) : Mod :=
  let la := ((m.blockOf c w).map (·.launch)).getD 0
  let bu := m.buid c w
  m.onCore c fun k => { k with
    mTicket := k.mTicket + 1,
    mq := k.mq ++ [{ id := g.id, places := g.places, wild := false, ticket := k.mTicket, launch := la, block := bu, kind := kind, off := g.off, words := g.words,
                     kdone := if kind == .product then pKdone g.words else 0, readyAt := none, taint := g.taint,
                     ztaint := g.ztaint, spans := g.spans, waiters := [] }] }

/-- Entries of the matrix queue (R192). -/
def matrixQueue : Nat := 4

/-- `mma`, `mld`, `mst`: the staged operation of a kind is enqueued; a full queue, or a block not yet staged, holds the
bundle; no staged block, or one of another kind, is the matrix-state fault (R192, R193). -/
def enqueueStaged (kind : MKind) (h : Hdr) (f : FmtE) (s : State) : Out :=
  perWarp h s fun w ls b =>
    match (b.m.warp? b.x.core w).bind (·.mstage) with
    | none => b.faultAll (ls.map fun l => (w, l)) 0x0E
    | some g =>
      if g.readyAt ≠ 0 then { b with x := { b.x with hold := true } }
      else if g.kind ≠ kind then b.faultAll (ls.map fun l => (w, l)) 0x0E
      else if matrixQueue ≤ (b.m.core b.x.core).mq.length then { b with x := { b.x with hold := true } }
      else
        let t := (b.m.core b.x.core).mTicket
        (b.on fun m => (m.enqueue b.x.core w kind g).onWarp b.x.core w fun x => { x with mstage := none }).putS w
          f.d.toNat (t.setWidth 64) 2

/-- `mma` (R193). -/
def execMma (h : Hdr) (f : FmtE) (s : State) : Out := enqueueStaged .product h f s

/-- `mld` (R193). -/
def execMld (h : Hdr) (f : FmtE) (s : State) : Out := enqueueStaged .load h f s

/-- `mst` (R193). -/
def execMst (h : Hdr) (f : FmtE) (s : State) : Out := enqueueStaged .store h f s

/-- `mzero` (R193); its two words are the offset and the byte count. -/
def execMzero (h : Hdr) (f : FmtE) (s : State) : Out :=
  perWarp h s fun w ls b =>
    let a := b.x.u w f.a
    let n := b.x.u w f.b
    if a.toNat % 8 ≠ 0 ∨ n.toNat % 8 ≠ 0 ∨ n = 0 ∨ b.m.accBytes b.x.core w < a.toNat + n.toNat then
      b.faultAll (ls.map fun l => (w, l)) 0x0F
    else if matrixQueue ≤ (b.m.core b.x.core).mq.length then { b with x := { b.x with hold := true } }
    else
      let t := (b.m.core b.x.core).mTicket
      (b.on fun m => m.enqueue b.x.core w .zero
        { id := m.next, places := [none, none, none], off := 0, kind := .zero, words := [a, n], readyAt := 0, taint := [],
          ztaint := [], spans := [] }).putS w
        f.d.toNat (t.setWidth 64) 2

/-- The operations of a core that a save has set aside (R411). -/
def Mod.setAside (m : Mod) (c : Nat) : List MOp :=
  m.saved.flatMap fun v => v.cores.flatMap fun k => if k.core = c then k.mq else []

/-- The status that `mwait` reads for a ticket; none while the operation is outstanding, also one that a save has set aside
(R196, R411). -/
def Core.ticketStatus (k : Core) (aside : List MOp) (t : W32) : Option Nat :=
  let d := (k.mTicket - t).toNat
  if d = 0 ∨ 2 ^ 31 < d then some 3
  else if 65536 < d then some 0
  else if (k.mq ++ aside).any fun o => o.ticket == t then none
  else some (match k.mStatus.find? fun p => p.1 == t with | some p => p.2 | none => 0)

/-- Something changed in the saved contexts of a core. -/
def Mod.onSavedCore (m : Mod) (c : Nat) (f : SavedCore → SavedCore) : Mod :=
  if m.saved.isEmpty then m
  else { m with saved := m.saved.map fun v => { v with cores := v.cores.map fun k => if k.core = c then f k else k } }

/-- `mwait`: the destination is pending until the status lands; the landing of status 0 is an acquire (R193, R196, R197). -/
def execMwait (h : Hdr) (f : FmtE) (s : State) : Out :=
  perWarp h s fun w ls b =>
    let t := (b.x.u w f.a).extractLsb' 0 32
    let st := (b.m.core b.x.core).ticketStatus (b.m.setAside b.x.core) t
    let num := b.m.next
    let fl : Flight := { id := num, dest := .s w f.d.toNat, val := BitVec.ofNat 64 (st.getD 0),
                         land := st.map (fun _ => b.m.clock + 2), kind := .onModule, lanes := ls }
    let wait := fun (o : MOp) => if o.ticket == t && st.isNone then { o with waiters := o.waiters ++ [num] } else o
    let late := fun (d : MDone) => if d.ticket == t && st == some 0 then { d with waiters := d.waiters ++ [num] } else d
    b.on fun m => (Mod.onCore { m with next := num + 1 } b.x.core fun k =>
        { k with flights := k.flights ++ [fl], mq := k.mq.map wait, mdone := k.mdone.map late }).onSavedCore b.x.core fun k =>
      { k with mq := k.mq.map wait, mdone := k.mdone.map late }

/-- The landing of a status of 0 at the threads that waited for a ticket is an acquire of that completion (R197). -/
def Mod.landStatus (m : Mod) (c : Nat) (f : Flight) : Mod :=
  match f.kind, f.dest with
  | .onModule, .s w _ =>
    if f.val = 0 then (m.acquire c w f.lanes).learnDone c w f.lanes fun k d => k.num == c && d.waiters.contains f.id else m
  | _, _ => m

/-! ### Accumulators (R194, R199) -/

/-- The pool address of a byte of a warp's accumulator allocation. -/
def Mod.accAt (m : Mod) (c w off : Nat) : Nat := ((m.blockOf c w).map fun b => b.accRow * 768 + off).getD off

/-- The bytes of the accumulator allocation that the Z of a block of a kind covers: the first, and the one after the last. -/
def zRange (kind : MKind) (ws : List W64) : Nat × Nat :=
  if kind = .zero then (pword ws 0, pword ws 0 + pword ws 1) else (pZ ws, pZ ws + 8 * pM ws * pN ws)

/-- Whether an offset of the accumulator allocation lies in the Z of a block of a kind. -/
def zCovers (kind : MKind) (ws : List W64) (off : Nat) : Bool :=
  decide ((zRange kind ws).1 ≤ off) && decide (off < (zRange kind ws).2)

/-- The elements of an operation's Z, as offsets in the accumulator allocation. -/
def MOp.covers (o : MOp) (off : Nat) : Bool := zCovers o.kind o.words off

/-- Whether an accumulator element of a warp's block is in the Z of an operation that has completed, but whose completion a
thread has not acquired (R197, R198). (log 32, DEDUCED) -/
def Mod.zUnseen (m : Mod) (c w l off : Nat) : Bool :=
  let bu := m.buid c w
  (m.core c).mdone.any fun d => d.block == bu && decide (d.lo ≤ off) && decide (off < d.hi) && !m.afterDone d (c, w, l)

/-- Whether an accumulator element of a warp's block is, for a thread, in the Z of an outstanding operation (R198).
(log 32, DEDUCED) -/
def Mod.zBusy (m : Mod) (c w l off : Nat) : Bool :=
  let bu := m.buid c w
  (m.core c).mq.any (fun o => o.block == bu && o.covers off) ||
  ((m.core c).warps.any fun x => x.block == bu && match x.mstage with
    | some g => zCovers g.kind g.words off
    | none => false) || m.zUnseen c w l off

/-- `mrd`: an element in an outstanding operation's Z reads as an undefined value (R198, R199). -/
def execMrd (h : Hdr) (f : FmtM) (s : State) : Out :=
  let t := tyOfMinor f.minor
  perThread false h s fun w l b =>
    let ea := b.x.ea f w l
    if ea % 8 ≠ 0 then b.fault false w l 0x07 0
    else if b.m.accBytes b.x.core w < ea + 8 then b.fault false w l 0x0F 0
    else
      let raw := leNat ((b.m.core b.x.core).sram.readN (b.m.accAt b.x.core w ea) 8)
      let r := if b.m.zBusy b.x.core w l ea then b.m.draw else (BitVec.ofNat 64 raw, b.m)
      let z := r.1.toNat
      { b with m := r.2 }.putT w l f.d.toNat t
        (if t = 10 then roundNe f32 (unF f64 z) else if tyWidth t = 64 then z else saturate t (toS 64 z)) 10

/-- The eight bytes that `mwr` writes for a type (R199). -/
def mwrVal (t x : Nat) : Nat :=
  if t = 10 then convert 10 11 x else if tyWidth t = 64 then x else extend t 64 x

/-- An accumulator element written by a thread, with its kind (R194); one in an outstanding operation's Z is marked, and one in
the Z of an operation whose completion the thread has not acquired becomes an undefined value (R198). -/
def Mod.accWrite (m : Mod) (c w l off z : Nat) (int : Bool) : Mod :=
  let a := m.accAt c w off
  let bu := m.buid c w
  let r := if m.zUnseen c w l off then m.draw else (BitVec.ofNat 64 z, m)
  r.2.onCore c fun k => { k with
    sram := k.sram.writeN a (leBytes 8 r.1.toNat),
    int64s := if int then (if k.int64s.contains a then k.int64s else a :: k.int64s) else k.int64s.filter (· != a),
    mq := k.mq.map fun o => if o.block == bu && o.covers off then { o with ztaint := o.ztaint ++ [a] } else o,
    warps := k.warps.map fun x => if x.block == bu then
      { x with mstage := x.mstage.map fun g => if zCovers g.kind g.words off then { g with ztaint := g.ztaint ++ [a] } else g }
      else x }

/-- `mwr` (R199). -/
def execMwr (h : Hdr) (f : FmtM) (s : State) : Out :=
  let t := tyOfMinor f.minor
  perThread false h s fun w l b =>
    let ea := b.x.ea f w l
    if ea % 8 ≠ 0 then b.fault false w l 0x07 0
    else if b.m.accBytes b.x.core w < ea + 8 then b.fault false w l 0x0F 0
    else b.on fun m => m.accWrite b.x.core w l ea (mwrVal t (b.x.vw w l t f.d.toNat)) (t < 8)

/-! ### The operations (R194) -/

/-- Element (r, k) of a panelled matrix of so many columns through a scalar gauge: its byte offset (R188). -/
def panelOff (bytes cols r k : Nat) : Nat :=
  (r / 16 * (cols / 32) + k / 32) * 512 * bytes + (r % 16 * 32 + k % 32) * bytes

/-- The panel that holds row r and column k through a block gauge: its byte offset (R188). -/
def blockOff (g : GaugeW) (cols r k : Nat) : Nat := (r / 16 * (cols / g.len) + k / g.len) * (16 + 2 * g.len * g.mb)

/-- The bytes of an operand of an operation of a core, from the operand's first byte on: what the stores of another core's matrix
unit are writing is undefined; those of its own unit take effect in ticket order (R197, R198). -/
def Mod.operandMem (m : Mod) (c : Nat) (t : Nat × Nat × Nat) (n : Nat) : Nat × List Byte :=
  match m.block? t.1 t.2.1 with
  | some b => (b.at_ t.2.2, m.hideRuns ((m.cores.filter fun k => k.num != c).flatMap Core.storing) t.1 (b.at_ t.2.2)
      ((m.core t.1).sram.readN (b.at_ t.2.2) n))
  | none => (0, [])

/-- n bytes of an operand at an offset, as a number. -/
def opNat (bs : List Byte) (off n : Nat) : Nat := leNat ((bs.drop off).take n)

/-- An element's value through a gauge, with its byte ranges, for the reads of R194. -/
def elemOf (g : GaugeW) (cols : Nat) (bs : List Byte) (r k : Nat) : Num :=
  if g.fmt = 16 then
    let p := blockOff g cols r k
    let str := opNat bs (p + 16 + r % 16 * (g.len * g.mb / 8)) (g.len * g.mb / 8)
    (blockVal g.mb (opNat bs (p + r % 16) 1) (bitsOf str (g.mb * (k % g.len)) g.mb)).scale g.scale
  else gaugeRead g (opNat bs (panelOff (tyWidth g.fmt / 8) cols r k) (tyWidth g.fmt / 8))

/-- The byte ranges that an element's value rests on. -/
def elemBytesAt (g : GaugeW) (cols r k : Nat) : List (Nat × Nat) :=
  if g.fmt = 16 then
    let p := blockOff g cols r k
    [(p + r % 16, 1), (p + 16 + r % 16 * (g.len * g.mb / 8), g.len * g.mb / 8)]
  else [(panelOff (tyWidth g.fmt / 8) cols r k, tyWidth g.fmt / 8)]

/-- Whether the bytes of an element at a base of core c were written meanwhile (R198). -/
def touched (taint : List (Nat × Nat × Nat)) (c base : Nat) (rs : List (Nat × Nat)) : Bool :=
  taint.any fun t => t.1 == c && rs.any fun r => overlaps t.2.1 t.2.2 (base + r.1) r.2

/-- Whether any element of row r at columns lo to lo + n − 1 was written meanwhile. -/
def rowTouched (taint : List (Nat × Nat × Nat)) (c base : Nat) (g : GaugeW) (cols r lo : Nat) : Nat → Bool
  | 0 => false
  | n + 1 => touched taint c base (elemBytesAt g cols r (lo + n)) || rowTouched taint c base g cols r lo n

/-- One group step of the float path (R180), or of the block path (R181): the group's exact sum, rounded to
binary64. -/
def floatStep (a b : Nat → Num) (block : Bool) (k0 g acc : Nat) : Nat :=
  let ps := (List.range g).map fun i => (a (k0 + i)).mul (b (k0 + i))
  let t := if block then [Num.sum (ps.map fun p => match p with
      | .fin s m e => .fin (s && m != 0) m e
      | x => x)] else ps
  roundNe f64 (Num.sum (unF f64 acc :: t))

/-- The group steps from group number n₀ on (R180 to R182): integer sums wrap. -/
def productSteps (p : MPath) (a b : Nat → Num) (g : Nat) : Nat → Nat → Nat → Nat
  | 0, _, acc => acc
  | n + 1, k0, acc =>
    let acc := match p with
      | .integer => wrap 64 ((List.range g).foldl (fun t i => t +
          ((a (k0 + i)).mul (b (k0 + i))).units 0) (acc : Int))
      | .float => floatStep a b false k0 g acc
      | .block => floatStep a b true k0 g acc
    productSteps p a b g n (k0 + g) acc

/-- The accumulator's raw word at a pool address. -/
def Core.accWord (k : Core) (a : Nat) : Nat := leNat (k.sram.readN a 8)

/-- An accumulator word written by the matrix unit, with its kind. -/
def Core.setAcc (k : Core) (a z : Nat) (int : Bool) : Core :=
  { k with sram := k.sram.writeN a (leBytes 8 z),
           int64s := if int then (if k.int64s.contains a then k.int64s else a :: k.int64s)
             else k.int64s.filter (· != a) }

/-- The warp through which a block's launch is found: any warp of the block. -/
def Core.warpOfBlock (k : Core) (bu : Nat) : Nat :=
  ((k.warps.find? fun w => w.block == bu).map (·.uid)).getD 0

/-- The record of an operation's launch. -/
def Mod.opRec (m : Mod) (o : MOp) : LRec := ((m.launch? o.launch).map (·.rec_)).getD default

/-- Where operand i of an operation lies (R187); none once the block that its `mopf` found there has ended (R196). -/
def Mod.opPlace (m : Mod) (o : MOp) (i : Nat) : Option (Nat × Nat × Nat) :=
  (o.places.getD i none).filter fun t => (m.block? t.1 t.2.1).isSome

/-- A gauge of an operation's launch. -/
def Mod.opGauge (m : Mod) (o : MOp) (i : Nat) : GaugeW := gaugeOf ((m.opRec o).gauges.getD (pG o.words i) 0)

/-- An element of Z and the value it receives, an undefined one where an operand it derives from was written
meanwhile (R198). -/
def Mod.zElem (m : Mod) (c a z : Nat) (int bad : Bool) : Mod :=
  let r := if bad then m.draw else (BitVec.ofNat 64 z, m)
  r.2.onCore c fun k => k.setAcc a r.1.toNat int

/-- The index pairs (i, j) of an M × N tile. -/
def pairsMN (M N : Nat) : List (Nat × Nat) := (List.range M).flatMap fun i => (List.range N).map fun j => (i, j)

/-- A product runs its groups from kdone up to k1 (R180 to R182, R194). -/
def Mod.runProduct (m : Mod) (c : Nat) (o : MOp) (k1 : Nat) : Mod :=
  match m.block? c o.block, m.opPlace o 0, m.opPlace o 1,
      productPath (m.opGauge o 0) (m.opGauge o 1) with
  | some b, some pa, some pb, some (path, g) =>
    let ga := m.opGauge o 0
    let gb := m.opGauge o 1
    let M := pM o.words
    let N := pN o.words
    let K := pK o.words
    let A := m.operandMem c pa (panelBytes ga M K)
    let B := m.operandMem c pb (panelBytes gb N K)
    let rowBad := (List.range M).map fun i => rowTouched o.taint pa.1 A.1 ga K i o.kdone (k1 - o.kdone)
    let colBad := (List.range N).map fun j => rowTouched o.taint pb.1 B.1 gb K j o.kdone (k1 - o.kdone)
    let keep := pAcc o.words || decide (0 < o.kdone)
    (pairsMN M N).foldl (fun m p =>
      let a := b.accRow * 768 + pZ o.words + 8 * (p.1 * N + p.2)
      let z0 := if keep then (m.core c).accWord a else if path = .integer then 0 else 2 ^ 63
      let z := productSteps path (elemOf ga K A.2 p.1) (elemOf gb K B.2 p.2) g ((k1 - o.kdone) / g) o.kdone z0
      m.zElem c a z (path = .integer) (rowBad.getD p.1 false || colBad.getD p.2 false)) m
  | _, _, _, _ => m

/-- A load: Z receives C through its gauge (R194); a value above the int64 range, which an `.n64` gauge can give, saturates.
(log 97, DESIGN CHOICE) -/
def Mod.runLoad (m : Mod) (c : Nat) (o : MOp) : Mod :=
  match m.block? c o.block, m.opPlace o 2 with
  | some b, some pc =>
    let g := m.opGauge o 2
    let N := pN o.words
    let C := m.operandMem c pc (panelBytes g (pM o.words) N)
    let int := decide (g.fmt < 8)
    (pairsMN (pM o.words) N).foldl (fun m p =>
      let v := elemOf g N C.2 p.1 p.2
      m.zElem c (b.accRow * 768 + pZ o.words + 8 * (p.1 * N + p.2)) (if int then writeNum 3 v else roundNe f64 v) int
        (touched o.taint pc.1 C.1 (elemBytesAt g N p.1 p.2))) m
  | _, _ => m

/-- The exact value of an accumulator element by its kind (R194). -/
def Core.accNum (k : Core) (a : Nat) : Num :=
  if k.int64s.contains a then Num.ofInt (toS 64 (k.accWord a)) else unF f64 (k.accWord a)

/-- Bytes of C written by the matrix unit of a core; where C was written meanwhile, the element ends as either value (R198). For
every other user of these bytes it is a write like any other; the later operations of the same core see it in order (R197, R205,
R357). -/
def Mod.cWrite (m : Mod) (c : Nat) (o : MOp) (t : Nat) (base off : Nat) (bs : List Byte) : Mod :=
  if touched o.taint t base [(off, bs.length)] && !Config.operationWins m.free (base + off) then m
  else m.poolWriteBy (some c) t (base + off) bs

/-- A store: C receives Z through its gauge, each element or block rounded once (R184, R194). -/
def Mod.runStore (m : Mod) (c : Nat) (o : MOp) : Mod :=
  match m.block? c o.block, m.opPlace o 2 with
  | some b, some pc =>
    let g := m.opGauge o 2
    let N := pN o.words
    let base := ((m.block? pc.1 pc.2.1).map fun x => x.at_ pc.2.2).getD 0
    let z := fun i j => (m.core c).accNum (b.accRow * 768 + pZ o.words + 8 * (i * N + j))
    if g.fmt = 16 then
      (pairsMN (pM o.words) (N / g.len)).foldl (fun m p =>
        let r := packBlock g.mb ((List.range g.len).map fun x => (z p.1 (p.2 * g.len + x)).scale (-g.scale))
        let off := blockOff g N p.1 (p.2 * g.len)
        let n := g.len * g.mb / 8
        (m.cWrite c o pc.1 base (off + p.1 % 16) (leBytes 1 r.1)).cWrite c o pc.1 base (off + 16 + p.1 % 16 * n)
          (leBytes n (mantString g.mb r.2))) m
    else
      (pairsMN (pM o.words) N).foldl (fun m p =>
        let n := tyWidth g.fmt / 8
        m.cWrite c o pc.1 base (panelOff n N p.1 p.2) (leBytes n (gaugeWrite g (z p.1 p.2)))) m
  | _, _ => m

/-- `mzero`: the bytes become zero and the elements binary64 (R194). -/
def Mod.runZero (m : Mod) (c : Nat) (o : MOp) : Mod :=
  match m.block? c o.block with
  | some b =>
    let lo := b.accRow * 768 + pword o.words 0
    let hi := lo + pword o.words 1
    m.onCore c fun k => { k with sram := k.sram.clear lo hi,
                                 int64s := k.int64s.filter fun a => !(decide (lo ≤ a) && decide (a < hi)) }
  | none => m

/-- Elements of Z that `mwr` wrote meanwhile end as undefined values (R198). -/
def Mod.spoilZ (m : Mod) (c : Nat) (o : MOp) : Mod :=
  o.ztaint.foldl (fun m a => let r := m.draw
    r.2.onCore c fun k => { k with sram := k.sram.writeN a (leBytes 8 r.1.toNat) }) m

/-- The elements of Z become undefined values, each of the kind that a function gives for its address in the pool. -/
def Mod.spoilWith (m : Mod) (c : Nat) (o : MOp) (int : Nat → Bool) : Mod :=
  match m.block? c o.block with
  | some b => (pairsMN (pM o.words) (pN o.words)).foldl (fun m p =>
      let a := b.accRow * 768 + pZ o.words + 8 * (p.1 * pN o.words + p.2)
      m.zElem c a 0 (int a) true) m
  | none => m

/-- The elements of Z become undefined values, with the kind that they have: the parameter block was altered (R195). -/
def Mod.wildZ (m : Mod) (c : Nat) (o : MOp) : Mod := m.spoilWith c o (m.core c).int64s.contains

/-- Every element of Z becomes an undefined value, of the kind that the operation gives it or that a store leaves it: a remote
operand became unreachable. Nothing is left of a C whose block has ended (R194, R196). -/
def Mod.spoilAll (m : Mod) (c : Nat) (o : MOp) : Mod :=
  match o.kind with
  | .product => m.spoilWith c o fun _ => match productPath (m.opGauge o 0) (m.opGauge o 1) with
    | some (path, _) => path = .integer
    | none => false
  | .load => m.spoilWith c o fun _ => decide ((m.opGauge o 2).fmt < 8)
  | _ => m.wildZ c o

/-- Whether every operand of an operation can be reached (R196). -/
def Mod.reachable (m : Mod) (o : MOp) : Bool :=
  match o.kind with
  | .product => (m.opPlace o 0).isSome && (m.opPlace o 1).isSome
  | .zero => true
  | _ => (m.opPlace o 2).isSome

/-- What an operation does to Z and C (R194); one whose parameter block a save found altered makes Z undefined: the Z that a
product or a load gives, and the Z that a store takes (R195). -/
def Mod.opEffect (m : Mod) (c : Nat) (o : MOp) : Mod :=
  match o.kind with
  | .product => if o.wild then (m.runProduct c o (pK o.words)).wildZ c o else m.runProduct c o (pK o.words)
  | .load => if o.wild then (m.runLoad c o).wildZ c o else m.runLoad c o
  | .store => if o.wild then (m.wildZ c o).runStore c o else m.runStore c o
  | .zero => m.runZero c o

/-- The effect of a whole operation (R194) and its status (R196). -/
def Mod.runOp (m : Mod) (c : Nat) (o : MOp) : Nat × Mod :=
  if m.reachable o then (0, (m.opEffect c o).spoilZ c o) else (1, m.spoilAll c o)

/-- The least duration of an operation in c (R190); the rate of the block path, 16384 / ⌈mb/2⌉, is taken as it stands, whether it
is whole or not. -/
def Mod.opCycles (m : Mod) (o : MOp) : Nat :=
  let up := fun a b => (a + b - 1) / b
  match o.kind with
  | .product =>
    let f := (m.opGauge o 0).fmt
    let macs := pM o.words * pN o.words * pK o.words
    40 + (if f = 16 then up (macs * up (m.opGauge o 1).mb 2) 16384
      else up macs (if f = 10 then 512 else if f = 9 ∨ f = 8 then 2048 else 4096))
  | .zero => 40 + up (pword o.words 1) 768
  | _ => 40 + up (8 * pM o.words * pN o.words) 768

/-- The waits for the status of a product have made progress: it takes group steps, as no other operation does (R194, R394). -/
def Mod.opProgress (m : Mod) (c : Nat) (o : MOp) : Mod :=
  if o.kind != .product then m else
  let awaited := (m.core c).flights.filter fun f => o.waiters.contains f.id
  m.onCore c fun k => k.progress m.tick fun g => awaited.any g.awaits

/-- MATRIX_OP_START: the oldest entry begins to run (R192). -/
def execMatrixOpStart (c : Nat) (s : State) : Out :=
  match (s.now.core c).mq with
  | [] => .next s
  | o :: os => if o.readyAt.isSome || s.now.frozen (s.now.asidOf o.launch) then .next s
    else
      let t := s.now.clock + s.now.opCycles o
      .next { s with now := (s.now.onCore c fun k => { k with mq := { o with readyAt := some t } :: os }).opProgress c o }

/-- The statuses, other than 0, of a core's 65,536 most recent tickets, with one more (R196). -/
def Core.noteStatus (k : Core) (t : W32) (status : Nat) : List (W32 × Nat) :=
  (t, status) :: k.mStatus.filter fun p => decide ((k.mTicket - p.1).toNat ≤ 65536)

/-- The results that wait for the status of an operation have it, and land in this cycle, in a live core or in a saved context
(R196, R411). -/
def Mod.landWaiters (m : Mod) (c : Nat) (o : MOp) (status : Nat) : Mod :=
  let one := fun (f : Flight) => if o.waiters.contains f.id then
    { f with val := BitVec.ofNat 64 status, land := some m.clock } else f
  (m.onCore c fun k => { k with flights := k.flights.map one }).onSavedCore c fun k => { k with flights := k.flights.map one }

/-- What is kept of an operation that completes with a status (R197, R198). -/
def Mod.doneOf (m : Mod) (o : MOp) (status : Nat) : MDone :=
  let z := zRange o.kind o.words
  { id := m.next, block := o.block, ticket := o.ticket, lo := z.1, hi := z.2, spans := o.spans,
    weir := if o.kind != .zero && pWen o.words && status < 2 then some (pWeir o.words) else none, waiters := o.waiters,
    seenBy := [], known := none }

/-- Whether an earlier completed operation says no more than a later one: it covers no other bytes of Z or C. -/
def MDone.hiddenBy (x d : MDone) : Bool :=
  x.block == d.block && decide (d.lo ≤ x.lo) && decide (x.hi ≤ d.hi) && x.spans.all d.spans.contains

/-- A matrix operation leaves the queue with a status: the waiting results land, and the weir is credited (R194,
R196). -/
def Mod.opDone (m : Mod) (c : Nat) (o : MOp) (status : Nat) : Mod :=
  let m := Mod.onCore (m.landWaiters c o status) c fun k => { k with
    mq := k.mq.filter fun x => x.ticket != o.ticket,
    mdone := (k.mdone.filter fun x => !x.hiddenBy (m.doneOf o status) && (k.block? x.block).isSome) ++ [m.doneOf o status],
    mStatus := if status = 0 then k.mStatus else k.noteStatus o.ticket status }
  let m := { m with next := m.next + 1 }
  if o.kind != .zero && pWen o.words && status < 2 then m.weirCredit c o.block (pWeir o.words) 1 else m

/-- MATRIX_OP_COMPLETE: the running operation's writes are performed and it completes; a product whose
address space a save has stopped waits for its group boundary (R192, R194 to R197). -/
def execMatrixOpComplete (c : Nat) (s : State) : Out :=
  match (s.now.core c).mq with
  | [] => .next s
  | o :: _ => match o.readyAt with
    | none => .next s
    | some t => if s.now.clock < t ∨ (o.kind = .product ∧ s.now.frozen (s.now.asidOf o.launch) = true) then .next s
      else
        let r := s.now.runOp c o
        .next { s with now := r.2.opDone c o r.1 }

end Sys2Proof.Machine
end

