-- ==== Sys2Proof/Machine/Leat.lean ====
section
/-! DEFINITION. The leat engine (R278 to R284, R323 to R336, R439): the instructions, the steps, messages between
members, the early-arrival pool, and the end of a run. -/

namespace Sys2Proof.Machine

/-! ### Ranks and peers (R279, R324) -/

/-- The extent of a pattern along an axis. -/
def patN (lows highs : W64) (k : Nat) : Nat := axisOf highs k - axisOf lows k + 1

/-- The members of a pattern. -/
def patSize (lows highs : W64) : Nat := boxSize lows highs

/-- The linear rank of a coordinate in a pattern, axis 0 fastest. -/
def patRank (lows highs coord : W64) : Nat → Nat → Nat
  | 0, _ => 0
  | n + 1, k => (axisOf coord k - axisOf lows k) + patN lows highs k * patRank lows highs coord n (k + 1)

/-- The coordinate of a linear rank. -/
def patCoord (lows highs : W64) : Nat → Nat → Nat → List Nat
  | 0, _, _ => []
  | n + 1, k, r => (axisOf lows k + r % patN lows highs k) :: patCoord lows highs n (k + 1) (r / patN lows highs k)

/-- The own coordinate in a run's grid context. -/
def Mod.ownCoord (m : Mod) (g : Nat) : W64 := ((m.grid? g).map (·.coord)).getD 0

/-- The own linear rank. -/
def Mod.ltRank (m : Mod) (x : LtCtx) : Nat := patRank x.lows x.highs (m.ownCoord x.grid) 5 0

/-- The member that a peer expression names; none where the step ends with status 3 (R324). -/
def Mod.ltPeer (m : Mod) (x : LtCtx) (pm d : Nat) : Option W64 :=
  let own := m.ownCoord x.grid
  if pm < 5 then
    if ((m.grid? x.grid).map (·.n)).getD 0 ≤ pm then none
    else some (ofAxes ((List.range 5).map fun k =>
      if k = pm then axisOf x.lows k + (axisOf own k - axisOf x.lows k + d) % patN x.lows x.highs k
      else axisOf own k))
  else if pm = 5 then
    let r := m.ltRank x ^^^ d
    if patSize x.lows x.highs ≤ r then none else some (ofAxes (patCoord x.lows x.highs 5 0 r))
  else none

/-- Whether the route table maps a peer to code 29 or 30 (R332). -/
def Mod.peerGone (m : Mod) (x : LtCtx) (peer : W64) : Bool :=
  match (m.grid? x.grid).bind fun g => g.rule? false peer with
  | some u => u.link == 29 || u.link == 30
  | none => true

/-! ### Elements (R325, R328) -/

/-- The type code of a step's ty (R325). -/
def ltTy (ty : Nat) : Nat :=
  match ty with
  | 0 => 10
  | 1 => 9
  | 2 => 8
  | _ => 2

/-- The 32-bit elements of a buffer's bytes, widened. -/
def ltWide (ty : Nat) (bs : List Byte) : List Nat :=
  let t := ltTy ty
  let n := tyWidth t / 8
  (List.range (bs.length / n)).map fun i =>
    let x := leNat ((bs.drop (n * i)).take n)
    if n = 4 then x else convert t 10 x

/-- Two elements combined by ro. -/
def ltComb (ty ro l a : Nat) : Nat := if ro = 0 then a else fredCombine (ro - 1) (ltTy ty) l a

/-- The element that an absent peer supplies (R332). -/
def ltIdentity (ty ro l : Nat) : Nat := if ro = 0 then l else fredIdentity (ro - 1) (ltTy ty)

/-- A 32-bit count that saturates (R284). -/
def sat32 (n : Nat) : Nat := min n (2 ^ 32 - 1)

/-- A final write counted in the record (R284). -/
def LtCtx.tally (x : LtCtx) (v : Nat) : LtCtx :=
  let e := v / 2 ^ 23 % 256
  let f := v % 2 ^ 23
  if e = 255 then (if f = 0 then { x with infs := sat32 (x.infs + 1) } else { x with nans := sat32 (x.nans + 1) })
  else if e = 0 ∧ f = 0 then { x with zeros := sat32 (x.zeros + 1) }
  else
    let y := { x with emax := max x.emax e, emin := min x.emin e }
    if e = 0 then { y with subn := sat32 (y.subn + 1) }
    else { y with bins := y.bins.set (e / 8) (sat32 (y.bins.getD (e / 8) 0 + 1)) }

/-- Elements stored at a buffer of a run: rounded once and counted where final, raw where the type is as wide, left
alone otherwise (R328). -/
def Mod.ltStore (m : Mod) (x : LtCtx) (ty : Nat) (fin : Bool) (off : Nat) (rs : List Nat) : LtCtx × Mod :=
  let t := ltTy ty
  let n := tyWidth t / 8
  if !fin && n != 4 then (x, m)
  else
    let bs := rs.flatMap fun r => leBytes n (if fin && t != 2 then convert 10 t r else r)
    let x := if fin && t != 2 then rs.foldl (fun x r => x.tally r) x else x
    (x, match m.block? x.core x.block with
      | some b => m.swrite x.core b off bs
      | none => m)

/-- n bytes of a run's block. -/
def Mod.ltRead (m : Mod) (x : LtCtx) (off n : Nat) : List Byte :=
  match m.block? x.core x.block with
  | some b => m.sread x.core b off n
  | none => []

/-- The scratch size of a run's launch. -/
def Mod.ltScratch (m : Mod) (x : LtCtx) : Nat := ((m.launch? x.launch).map fun l => l.rec_.scratch).getD 0

/-! ### Contexts -/

/-- A context by die and handle. -/
def Mod.lt? (m : Mod) (die : Nat) (h : W32) : Option LtCtx := m.leat.ctxs.find? fun x => x.die == die && x.handle == h

/-- A context changed. -/
def Mod.putLt (m : Mod) (x : LtCtx) : Mod :=
  let l := alterFirst (fun y => y.die == x.die && y.handle == x.handle) (fun _ => x) m.leat.ctxs
  { m with leat := { m.leat with ctxs := l } }

/-- The counter of a die. -/
def Mod.ltCounter (m : Mod) (die : Nat) : W32 := m.leat.counters.getD die 0

/-- Whether a saved context holds a run: it has not ended (R411). -/
def Mod.savedRun (m : Mod) (die : Nat) (h : W32) : Bool := m.saved.any fun v => v.leat.any fun x => x.die == die && x.handle == h

/-- The status of a handle as 33 bits name it on a die (R282). (log 111, DEDUCED) -/
def Mod.ltStatus (m : Mod) (die : Nat) (h : W64) : Nat :=
  let n : W32 := h.extractLsb' 0 32
  let d := (m.ltCounter die - n).toNat
  if bitsOf h.toNat 32 2 ≠ die ∨ bitsOf h.toNat 34 30 ≠ 0 ∨ d = 0 ∨ 2 ^ 31 < d then 6
  else if 65536 < d then 1
  else if (m.lt? die n).isSome || m.savedRun die n then 0
  else match m.leat.done.find? fun p => p.1 == die && p.2.1 == n with
    | some p => p.2.2
    | none => 1

/-- The completion record of a run (R284). -/
def LtCtx.record (x : LtCtx) (status : Nat) : List Byte :=
  leBytes 4 status ++ leBytes 4 x.step ++ leBytes 8 x.sentB ++ leBytes 8 x.recvB ++ leBytes 4 x.zeros ++
    leBytes 4 x.subn ++ leBytes 4 x.infs ++ leBytes 4 x.nans ++ leBytes 1 x.emax ++ leBytes 1 x.emin ++
    leBytes 22 0 ++ x.bins.flatMap fun n => leBytes 4 n

/-- The threads of a warp that issued a run have acquired its end by its handle (R283, R333). -/
def Mod.coolHandle (m : Mod) (c w die : Nat) (h : W32) : Mod :=
  m.coolRuns fun r => r.core == c && r.warp == w && r.die == die && r.handle == h

/-- The waits on a run end, those of saved contexts too: they land 2 c later, and a status of 1 or 2 is an acquire (R282, R283,
R411). -/
def Mod.ltWake (m : Mod) (x : LtCtx) (status : Nat) : Mod :=
  let ends := fun (c : Nat) (g : GWait) => match g.wait with
    | .leat h d _ => if c / 256 = x.die ∧ h.extractLsb' 0 32 = x.handle then some ([(d, BitVec.ofNat 64 status)], status == 1 || status == 2)
        else none
    | _ => none
  let m := m.wakeSaved ends
  m.cores.foldl (fun m k => k.waits.foldl (fun m g => match g.wait with
    | .leat h d _ =>
      if k.num / 256 = x.die ∧ h.extractLsb' 0 32 = x.handle then
        let m := m.wakeWith k.num g (m.clock + 2) [(d, BitVec.ofNat 64 status)]
        if status = 1 ∨ status = 2 then (m.acquire k.num g.warp g.lanes).coolHandle k.num g.warp x.die x.handle else m
      else m
    | _ => m) m) m

/-- An engine's credit to a weir of a block, on its core, or of a saved context, whose increment is made once the context is
restored (R86, R87, R411). -/
def Mod.creditWeir (m : Mod) (asid c b i : Nat) : Mod :=
  match m.block? c b, m.savedAt asid c b with
  | none, some x =>
    if (x.weir i).t = 0 then m.launchError x.launch 0x0B
    else
      let late : LateArrival := { id := m.next, block := b, weir := i, n := 1, deps := [] }
      let mine := fun (k : SavedCore) => k.blocks.any fun y => y.uid == b
      Mod.onSavedCore { m with next := m.next + 1 } c fun k => if mine k then { k with late := k.late ++ [late] } else k
  | _, _ => m.weirCredit c b i 1

/-- The end of a run: its record, its weir, its context and its status (R283). -/
def Mod.ltEnd (m : Mod) (x : LtCtx) (status : Nat) : Mod :=
  let m := match m.spotOf x.core x.block with
    | some t => m.spotWrite t x.rec_ (x.record status)
    | none => m
  let m := match x.weir with
    | some w => m.creditWeir x.asid x.core x.block w
    | none => m
  let mine := fun (r : HotRun) => r.die == x.die && r.handle == x.handle
  let known := fun (p : Nat × W32 × Nat) => p.1 != x.die || decide ((m.ltCounter x.die - p.2.1).toNat ≤ 65536)
  let left := fun (l : List LtCtx) => l.filter fun y => !(y.die == x.die && y.handle == x.handle)
  let m := { m with
    saved := m.saved.map (fun (v : Saved) => { v with leat := left v.leat }),
    leat := { m.leat with
    ctxs := left m.leat.ctxs,
    done := (x.die, x.handle, status) :: m.leat.done.filter known,
    hot := m.leat.hot.map fun r => if mine r then { r with ended := true } else r } }
  m.ltWake x status

/-! ### Messages (R329, R330, R439) -/

/-- The places that a message takes in a store or pool: its pieces. -/
def piecesOf (total : Nat) : Nat := max 1 ((total + 4095) / 4096)

/-- The message number that a peer's next delivery bears, and the number taken next. -/
def numOf (l : List (W64 × Nat)) (peer : W64) : Nat := ((l.find? fun p => p.1 == peer).map (·.2)).getD 0

/-- A number advanced. -/
def bumpNum (l : List (W64 × Nat)) (peer : W64) : List (W64 × Nat) :=
  upsert (fun p => p.1 == peer) (peer, numOf l peer + 1) l

/-- The answer of a receiver about a message: function 1 accepted, 2 refused, 3 go (R330). (log 17, DESIGN CHOICE) -/
def leatAnswer (p : Packet) (fn : Nat) (own : W64) : Packet :=
  { answerOf p 7 false 0 [] own with opd0 := p.opd0, opd1 := BitVec.ofNat 64 fn }

/-- Whether a message belongs to the run that a packet names. -/
def LtMsg.sameRun (g : LtMsg) (p : Packet) : Bool :=
  g.asid == p.asid && g.ctx == p.ctx && g.lows == p.lows && g.highs == p.highs && g.key == p.opd0.extractLsb' 0 32

/-- Whether a packet carries a further piece of a message. (log 73, DEDUCED) -/
def LtMsg.wants (g : LtMsg) (p : Packet) : Bool :=
  g.sameRun p && g.rank == bitsOf p.opd0.toNat 32 12 && g.num == bitsOf p.opd0.toNat 44 20 &&
  g.pay.length == bitsOf p.opd1.toNat 0 32 && decide (g.pay.length < g.total)

/-- Whether a context runs what a packet names. -/
def LtCtx.isFor (x : LtCtx) (p : Packet) : Bool :=
  x.asid == p.asid && x.grid == p.ctx && x.lows == p.lows && x.highs == p.highs && x.key == p.opd0.extractLsb' 0 32

/-- The step word that a context is at; none past the scratch size (R327). -/
def Mod.ltWord (m : Mod) (x : LtCtx) : Option Nat :=
  if m.ltScratch x < x.prog + 8 * x.step + 8 then none else some (leNat (m.ltRead x (x.prog + 8 * x.step) 8))

/-- Whether a context's step waits for a message of a number from a peer (R329, R330). -/
def Mod.ltAwaits (m : Mod) (x : LtCtx) (peer : W64) (num : Nat) : Bool :=
  match m.ltWord x with
  | none => false
  | some w =>
    let op := bitsOf w 0 3
    (op == 2 || op == 3) && x.admitted && m.ltPeer x (bitsOf w 8 3) (bitsOf w 11 12) == some peer &&
    numOf x.takenNum peer % 2 ^ 20 == num && !x.store.any fun g => g.src == peer && g.num == num

/-- Whether a message is one of a later run that uses the key again: its number has been taken, or is held, already
(R281, R329). (log 73, DEDUCED) -/
def LtCtx.hasHad (x : LtCtx) (peer : W64) (num : Nat) : Bool :=
  decide (2 ^ 19 ≤ (num + 2 ^ 20 - numOf x.takenNum peer % 2 ^ 20) % 2 ^ 20) ||
    x.store.any fun g => g.src == peer && g.num == num

/-- A message's first piece placed: in the waiting step, in the run's receive store, in the pool of the run's launch, or, before
its `lt.run`, of a launch of its address space and grid context; none when it is refused (R330).
(log 72, DEDUCED) -/
def Mod.ltPlace (m : Mod) (p : Packet) (g : LtMsg) : Option Mod :=
  let n := piecesOf g.total
  let ctx := m.leat.ctxs.find? fun x => x.isFor p && !x.hasHad g.src g.num
  let used := fun (l : List LtMsg) => l.foldl (fun a y => a + piecesOf y.total) 0
  let step := match ctx with
    | some x => m.ltAwaits x g.src g.num
    | none => false
  match ctx, step with
  | some x, true => some (m.putLt { x with store := x.store ++ [{ g with inStep := true }] })
  | _, _ =>
    match ctx.filter fun x => x.admitted && decide (used (x.store.filter fun y => !y.inStep) + n ≤ 8) with
    | some x => some (m.putLt { x with store := x.store ++ [g] })
    | none =>
      let room := fun (l : Launch) => l.asid == g.asid && l.rec_.axes != 0 && l.rec_.grid == g.ctx && l.status == 4 &&
        (ctx.all fun x => x.launch == l.handle) &&
        decide (used ((m.leat.pool.filter fun y => y.1 == l.handle).map (·.2)) + n ≤ l.rec_.leatpool)
      match m.launches.find? room with
      | some l => some { m with leat := { m.leat with pool := m.leat.pool ++ [(l.handle, g)] } }
      | none => none

/-- A further piece joins its message, in the store of a run, also of a saved one, or in the pool (R330, R412). -/
def Mod.ltJoin (m : Mod) (p : Packet) : Option (LtMsg × Mod) :=
  let add := fun (g : LtMsg) => if g.wants p then { g with pay := g.pay ++ p.pay } else g
  match m.leat.ctxs.findSome? fun x => (x.store.find? fun g => g.wants p).map fun g => (x, g) with
  | some (x, g) => some (add g, m.putLt { x with store := x.store.map add })
  | none => match (m.saved.flatMap (·.leat)).findSome? fun x => x.store.find? fun g => g.wants p with
  | some g =>
    let one := fun (x : LtCtx) => { x with store := x.store.map add }
    some (add g, { m with saved := m.saved.map fun v => { v with leat := v.leat.map one } })
  | none =>
    let both := fun (z : Nat × LtMsg) => (z.1, add z.2)
    match m.leat.pool.find? fun y => y.2.wants p with
    | some y => some (add y.2, { m with leat := { m.leat with pool := m.leat.pool.map both } })
    | none => none

/-- The message that a first piece opens. -/
def msgOf (p : Packet) : LtMsg :=
  { asid := p.asid, ctx := p.ctx, lows := p.lows, highs := p.highs, key := p.opd0.extractLsb' 0 32, src := p.src,
    rank := bitsOf p.opd0.toNat 32 12, num := bitsOf p.opd0.toNat 44 20, total := bitsOf p.opd1.toNat 32 32,
    pay := p.pay, inStep := false }

/-- One piece of leat data reaches this module: the first piece of a message is placed or refused, a later one joins its
message or is discarded, and the last one's place is answered (R330); for an address space that the module does not hold the answer
is an error (R417). (log 66, DEDUCED; log 73, DEDUCED) -/
def Mod.leatArrive (m : Mod) (p : Packet) : Mod :=
  let own := m.ownCoord p.ctx
  let done := fun (g : LtMsg) (m : Mod) =>
    if g.total ≤ g.pay.length then m.sendAnswer (leatAnswer p 1 own) else m
  if (m.asid? p.asid).isNone then m.complete p own true 1
  else if bitsOf p.opd1.toNat 0 32 = 0 then
    let g := msgOf p
    match m.ltPlace p g with
    | some m => done g m
    | none =>
      let at_ := if m.leat.refused.isEmpty then m.tick else m.flitAt
      let m := { m.mark p.src with flits := m.flits ++ m.flitsTo [(p.ctx, p.src)], flitAt := at_,
                                   leat := { m.leat with refused := m.leat.refused ++ [{ p with pay := [] }] } }
      m.sendAnswer (leatAnswer p 2 own)
  else match m.ltJoin p with
    | some (g, m) => done g m
    | none => m

/-- When a place has become free, every refused sender gets a go notice, in refusal order (R330). -/
def Mod.ltGo (m : Mod) : Mod :=
  let l := m.leat.refused
  l.foldl (fun m p => m.sendAnswer (leatAnswer p 3 (m.ownCoord p.ctx)))
    { m with leat := { m.leat with refused := [] } }

/-- A place is free for a refused message since a run was admitted, a step began to wait for it, or a launch brought its
pool: the refused senders get their go notices (R330, R331). (log 72, DEDUCED) -/
def Mod.ltRoom (m : Mod) : Mod := if m.leat.refused.any fun p => (m.ltPlace p (msgOf p)).isSome then m.ltGo else m

/-- A delivery changed by its number on the wire; its context may be saved, or have ended (R411). -/
def Mod.onDelivery (m : Mod) (tag : Nat) (f : LtCtx → Delivery → Option Delivery × LtCtx) : Mod :=
  let has := fun (x : LtCtx) => (x.out.find? fun d => d.id % 2 ^ 32 == tag).map fun d => (x, d)
  let put := fun (x : LtCtx) (d : Delivery) =>
    let r := f x d
    { r.2 with out := match r.1 with
      | some e => x.out.map fun y => if y.id = d.id then e else y
      | none => x.out.filter fun y => y.id != d.id }
  match m.leat.ctxs.findSome? has with
  | some (x, d) => m.putLt (put x d)
  | none =>
    let one := fun (x : LtCtx) => match has x with | some q => put q.1 q.2 | none => x
    { m with saved := m.saved.map fun v => { v with leat := v.leat.map one } }

/-- An answer to leat data reaches its sender: accepted, refused (the delivery parks), go (it sends the whole message
again), or an error, which sets err and ends the delivery (R330, R332, R439). -/
def Mod.leatAnswered (m : Mod) (p : Packet) : Mod :=
  m.onDelivery p.tag fun x d =>
    if p.err then (none, { x with err := true })
    else match bitsOf p.opd1.toNat 0 5 with
      | 1 => (none, x)
      | 2 => (some { d with parked := true }, x)
      | 3 => (some { d with parked := false, sent := 0 }, x)
      | _ => (some d, x)

/-- The pieces that a delivery still has to send. -/
def Delivery.unsent (d : Delivery) : Bool := !d.parked && (decide (d.sent < d.pay.length))

/-- Whether a delivery may send: no earlier one of its context to the same peer has still to leave (R439). -/
def LtCtx.mayLeave (x : LtCtx) (d : Delivery) : Bool :=
  d.unsent && !x.out.any fun y => decide (y.id < d.id) && y.peer == d.peer && (y.parked || y.unsent)

/-- The next piece of a delivery (R329). (log 17, DESIGN CHOICE) -/
def Mod.ltPiece (m : Mod) (x : LtCtx) (d : Delivery) : Packet :=
  let pay := (d.pay.drop d.sent).take 4096
  { op := 8, hop := 0, lnd := false, err := false, cn := false, tree := false, ctx := x.grid, asid := x.asid,
    lows := x.lows, highs := x.highs, addr := d.peer, src := m.ownCoord x.grid, core := x.core, cnt := 0,
    len := pay.length, tag := d.id % 2 ^ 32,
    opd0 := BitVec.ofNat 64 (x.key.toNat + 2 ^ 32 * m.ltRank x + 2 ^ 44 * (d.num % 2 ^ 20)),
    opd1 := BitVec.ofNat 64 (d.sent + 2 ^ 32 * d.pay.length), pay := pay }

/-- Leat data travels to its peer, which stands in the address field: here, on a link, or nowhere; a context that the module
does not hold, or that is not active, is answered with an error (R244, R247, R329). -/
def Mod.leatRoute (m : Mod) (p : Packet) : Mod :=
  match m.grid? p.ctx with
  | none => m.complete p 0 true 1
  | some g =>
    if !g.active then m.complete p g.coord true 1
    else (m.expand g { p with lows := p.addr, highs := p.addr }).foldl (fun m b => match b with
      | .here _ => m.performHere p
      | .failed n fr ov => m.failPart p g.coord n fr ov
      | .link l q => m.sendOn l { q with lows := p.lows, highs := p.highs }) m

/-- LEAT_MESSAGE_ARRIVAL: a piece of leat data reaches this module's port from a link, or the next piece of this
module's own deliveries leaves and, for a peer that is the module itself, enters the inbound queue (R246, R329, R330). -/
def execLeatMessageArrival (p : Option Packet) (s : State) : Out :=
  let m := s.now
  match p with
  | some q => if packetOk q && q.op == 8 then .next { s with now := m.leatRoute q }
      else .next { s with now := m.protocolError }
  | none =>
    match m.leat.ctxs.findSome? fun x => if m.frozen x.asid then none
        else (x.out.find? fun d => x.mayLeave d && m.backwaterOpen d.peer d.peer).map fun d => (x, d) with
    | none => .next s
    | some (x, d) =>
      let q := m.ltPiece x d
      let l := x.out.map fun (y : Delivery) => if y.id = d.id then { y with sent := d.sent + q.pay.length } else y
      let m := m.putLt { x with out := l }
      .next { s with now := (m.noteInjection d.peer d.peer).leatRoute q }

/-- LEAT_GO_NOTICE: a receiver's answer to leat data reaches this module: from a link, or from its own port (R330,
R439). (log 17, DESIGN CHOICE) -/
def execLeatGoNotice (p : Option Packet) (s : State) : Out :=
  let m := s.now
  let mine := fun (q : Packet) => q.op == 7 && !q.tree && q.opd1 != 0
  match p with
  | some q =>
    if packetOk q && mine q then
      match m.grid? q.ctx with
      | none => .next s
      | some g =>
        let step := fun (m : Mod) (b : Branch) => match b with
          | .here r => m.leatAnswered r
          | .link l r => m.sendOn l r
          | .failed _ _ ov => if ov then m.overrun else m
        .next { s with now := (m.expand g q).foldl step m }
    else .next { s with now := m.protocolError }
  | none => match m.portQ.find? mine with
    | none => .next s
    | some q => .next { s with now := Mod.leatAnswered { m with portQ := m.portQ.erase q } q }

/-! ### Steps (R325 to R328, R332) -/

/-- What a step does: nothing yet, the next state of the context and module, or an end with a status. -/
inductive LtNext where
  | waits
  | goes (x : LtCtx) (m : Mod)
  | ends (m : Mod) (x : LtCtx) (status : Nat)

/-- Deliveries a context holds at most (R439). -/
def ltDeliveries : Nat := 4

/-- A payload handed to its context for a peer; to an absent one nothing is sent and err is set (R332, R439). -/
def Mod.ltDeliver (m : Mod) (x : LtCtx) (peer : W64) (vals : List Nat) : LtCtx × Mod :=
  if m.peerGone x peer then ({ x with err := true }, m)
  else
    let pay := vals.flatMap fun v => leBytes 4 v
    ({ x with out := x.out ++ [{ id := m.next, peer := peer, num := numOf x.sentNum peer, pay := pay, sent := 0,
                                 parked := false }],
              sentNum := bumpNum x.sentNum peer, sentB := x.sentB + pay.length }, { m with next := m.next + 1 })

/-- The message that `take` gives: none while it has not been accepted; one of another element count, which is discarded;
elements, or the identities of an absent peer (R329, R332). -/
inductive Taken where
  | waits
  | wrong (x : LtCtx) (m : Mod)
  | some (x : LtCtx) (m : Mod) (vals : List Nat)

/-- A message taken out of a context's store or the pool; its place is free again. -/
def Mod.ltTake (m : Mod) (x : LtCtx) (peer : W64) (ty ro : Nat) (ls : List Nat) : Taken :=
  if m.peerGone x peer then .some { x with err := true } m (ls.map fun l => ltIdentity ty ro l)
  else
    let n := numOf x.takenNum peer
    let full := fun (g : LtMsg) => g.src == peer && g.num == n % 2 ^ 20 && decide (g.total ≤ g.pay.length)
    let here := fun (g : LtMsg) => full g && g.asid == x.asid && g.ctx == x.grid && g.lows == x.lows &&
      g.highs == x.highs && g.key == x.key
    let r := match x.store.find? full with
      | some g => some (g, { x with store := x.store.erase g }, m)
      | none => (m.leat.pool.find? fun (y : Nat × LtMsg) => here y.2).map fun (y : Nat × LtMsg) =>
          (y.2, x, { m with leat := { m.leat with pool := m.leat.pool.erase y } })
    match r with
    | none => .waits
    | some (g, x, m) =>
      if g.pay.length ≠ 4 * ls.length then .wrong x (m.putLt x)
      else
        let x := { x with takenNum := bumpNum x.takenNum peer, recvB := x.recvB + g.pay.length }
        .some x (Mod.ltGo (m.putLt x)) ((List.range ls.length).map fun i => leNat ((g.pay.drop (4 * i)).take 4))

/-- The data steps (R325, R328). `w` is the step word. -/
def Mod.ltData (m : Mod) (x : LtCtx) (w : Nat) : LtNext :=
  let op := bitsOf w 0 3
  let fin := bitsOf w 3 1 == 1
  let ty := bitsOf w 4 2
  let ro := bitsOf w 6 2
  let pm := bitsOf w 8 3
  let len := 8 * bitsOf w 51 13
  let ch := bitsOf w 31 2
  let c := if ch = 0 then 0 else x.values.getD ch 0
  let off := 8 * bitsOf w 33 18 + c * len
  let scratch := m.ltScratch x
  let narrow := !fin && (ty == 1 || ty == 2)
  let bad : LtNext := .ends m x 3
  let next := fun (y : LtCtx) => { y with step := y.step + 1 }
  if len = 0 ∨ scratch < off + len then bad
  else
    let ls := ltWide ty (m.ltRead x off len)
    match op with
    | 1 =>
      if fin || ro != 0 || bitsOf w 23 8 != 0 then bad
      else match m.ltPeer x pm (bitsOf w 11 12) with
        | none => bad
        | some peer =>
          if ltDeliveries ≤ x.out.length ∧ !m.peerGone x peer then .waits
          else let r := m.ltDeliver x peer ls; .goes (next r.1) r.2
    | 2 =>
      if bitsOf w 23 8 != 0 then bad
      else match m.ltPeer x pm (bitsOf w 11 12) with
        | none => bad
        | some peer => match m.ltTake x peer ty ro ls with
          | .waits => .waits
          | .wrong x m => .ends m x 3
          | .some x m vals =>
            if narrow then .ends m x 3
            else
              let r := m.ltStore x ty fin off ((ls.zip vals).map fun p => ltComb ty ro p.1 p.2)
              .goes (next r.1) r.2
    | 3 =>
      match m.ltPeer x pm (bitsOf w 11 12), m.ltPeer x pm (bitsOf w 23 8) with
      | some peer, some to_ =>
        if ltDeliveries ≤ x.out.length ∧ !m.peerGone x to_ then .waits
        else match m.ltTake x peer ty ro ls with
          | .waits => .waits
          | .wrong x m => .ends m x 3
          | .some x m vals =>
            let rs := (ls.zip vals).map fun p => ltComb ty ro p.1 p.2
            let r := m.ltStore x ty fin off rs
            let d := r.2.ltDeliver r.1 to_ rs
            .goes (next d.1) d.2
      | _, _ => bad
    | _ =>
      let dst := 8 * bitsOf w 11 18 + c * len
      if narrow || pm != 0 || bitsOf w 29 2 != 0 || decide (scratch < dst + len) then bad
      else
        let ds := ltWide ty (m.ltRead x dst len)
        let r := m.ltStore x ty fin dst ((ds.zip ls).map fun p => ltComb ty ro p.1 p.2)
        .goes (next r.1) r.2

/-- The modulus of a loop counter (R326). -/
def Mod.ltModulus (x : LtCtx) (pm : Nat) : Nat := if pm < 5 then patN x.lows x.highs pm else patSize x.lows x.highs

/-- The loop steps (R326). -/
def Mod.ltLoop (m : Mod) (x : LtCtx) (w : Nat) : LtNext :=
  let c := bitsOf w 4 2
  let pm := bitsOf w 8 3
  let d := bitsOf w 11 12
  let n := Mod.ltModulus x pm
  let own := m.ownCoord x.grid
  if 6 ≤ pm then .ends m x 3
  else if bitsOf w 3 1 = 0 then
    if bitsOf w 51 13 = 0 ∨ bitsOf w 6 2 ≠ 0 ∨ bitsOf w 23 28 ≠ 0 then .ends m x 3
    else
      let r := if pm < 5 then axisOf own pm - axisOf x.lows pm else m.ltRank x
      .goes { x with values := x.values.set c ((r + d) % n), trips := x.trips.set c (bitsOf w 51 13),
                     step := x.step + 1 } m
  else
    let t := x.trips.getD c 0
    if t = 0 ∨ bitsOf w 6 2 ≠ 0 ∨ bitsOf w 23 10 ≠ 0 ∨ bitsOf w 51 13 ≠ 0 then .ends m x 3
    else .goes { x with values := x.values.set c ((x.values.getD c 0 + d) % n), trips := x.trips.set c (t - 1),
                        step := if 1 < t then bitsOf w 33 18 else x.step + 1 } m

/-- The `wait` step; its word has been examined after each write since the context is at the step (R326). -/
def Mod.ltWait (m : Mod) (x : LtCtx) (w : Nat) : LtNext :=
  let off := 8 * bitsOf w 33 18
  let go : LtNext := .goes { x with step := x.step + 1 } m
  if bitsOf w 4 29 ≠ 0 ∨ m.ltScratch x < off + 4 then .ends m x 3
  else if bitsOf w 3 1 = 0 then (if x.out.isEmpty then go else .waits)
  else if x.met ∨ bitsOf w 51 13 ≤ leNat (m.ltRead x off 4) then go else .waits

/-- One step of a context (R323, R326, R327). -/
def Mod.ltStep (m : Mod) (x : LtCtx) : LtNext :=
  if !x.admitted || !m.allPerformed x.deps || m.frozen x.asid then .waits
  else match m.ltWord x with
    | none => .ends m x 3
    | some w => match bitsOf w 0 3 with
      | 0 => if w ≠ 0 then .ends m x 3
          else if x.out.isEmpty then .ends m x (if x.err then 2 else 1) else .waits
      | 5 => m.ltWait x w
      | 6 => m.ltLoop x w
      | 7 => .ends m x 3
      | _ => m.ltData x w

/-- The first of some contexts whose step does something, and what it does. -/
def Mod.ltFirst (m : Mod) : List LtCtx → Option LtNext
  | [] => none
  | x :: l => match m.ltStep x with
    | .waits => m.ltFirst l
    | r => some r

/-- A context served goes behind the others of its die; its next step has seen no word yet (R323, R326). -/
def Mod.ltServed (m : Mod) (x : LtCtx) : Mod :=
  let l := m.leat.ctxs.filter fun y => !(y.die == x.die && y.handle == x.handle)
  { m with leat := { m.leat with ctxs := l ++ [{ x with met := false }] } }

/-- LEAT_STEP: the engine of a die serves the next context that can go on (R323, R328). -/
def execLeatStep (die : Nat) (s : State) : Out :=
  match s.now.ltFirst (s.now.leat.ctxs.filter fun x => x.die == die) with
  | none => .next s
  | some .waits => .next s
  | some (.goes x m) => .next { s with now := m.ltServed x }
  | some (.ends m x st) => .next { s with now := Mod.ltGo (m.ltEnd x st) }

/-! ### Admission by the Canal (R281) -/

/-- The payload of a collective's admission frame. -/
def admissionPay (x : LtCtx) : List Byte :=
  leBytes 8 x.lows.toNat ++ leBytes 8 x.highs.toNat ++ leBytes 4 x.key.toNat ++ leBytes 4 x.grid

/-- The collectives of the frames applied so far, in ascending admission position: the k-th frame of a sender with one
payload belongs to the k-th collective of that payload. -/
def collectives : List (Nat × Nat × List Byte) → List (Nat × List Byte) → List (Nat × Nat × List Byte) →
    List (Nat × List Byte)
  | [], out, _ => out
  | f :: fs, out, past =>
    let k := (past.filter fun q => q.2.1 == f.2.1 && q.2.2 == f.2.2).length
    let id := (k, f.2.2)
    collectives fs (if out.contains id then out else out ++ [id]) (past ++ [f])

/-- Whether a collective's pattern names this module (R281). -/
def Mod.named (m : Mod) (pay : List Byte) : Bool :=
  match m.grid? (field pay 20 1 % 8) with
  | some g => inPattern (BitVec.ofNat 64 (field pay 0 8)) (BitVec.ofNat 64 (field pay 8 8)) g.coord
  | none => false

/-- Collectives are admitted in ascending admission position, as far as this module has issued them (R281). -/
def Mod.admitFrom (m : Mod) : List (Nat × List Byte) → Mod
  | [] => m
  | c :: cs =>
    if !m.named c.2 || m.leat.admitted.contains c then m.admitFrom cs
    else match m.leat.ctxs.find? fun x => x.cn && !x.admitted && x.kth == c.1 && admissionPay x == c.2 with
      | some x => Mod.admitFrom { m.putLt { x with admitted := true } with
          leat := { (m.putLt { x with admitted := true }).leat with admitted := m.leat.admitted ++ [c] } } cs
      | none => m

/-- Every admission that the frames applied allow. -/
def Mod.admitCollectives (m : Mod) : Mod := m.admitFrom (collectives m.canal.kind4 [] [])

/-! ### What the steps of a run name (R333) -/

/-- The regions that a data step names, each with offset, length and element size: those it reads or writes, and those it
writes (R325, R328). -/
def stepRegions (x : LtCtx) (w : Nat) : List (Nat × Nat × Nat) × List (Nat × Nat × Nat) :=
  let op := bitsOf w 0 3
  let fin := bitsOf w 3 1 == 1
  let size := if bitsOf w 4 2 = 1 ∨ bitsOf w 4 2 = 2 then 2 else 4
  let len := 8 * bitsOf w 51 13
  let ch := bitsOf w 31 2
  let c := if ch = 0 then 0 else x.values.getD ch 0
  let buf := (8 * bitsOf w 33 18 + c * len, len, size)
  let dst := (8 * bitsOf w 11 18 + c * len, len, size)
  if op = 4 then ([buf, dst], [dst])
  else if op = 1 then ([buf], [])
  else if op = 2 ∨ op = 3 then ([buf], if fin || size == 4 then [buf] else [])
  else ([], [])

/-- Whether a data step is carried out and not stopped at (R325). -/
def Mod.dataOk (m : Mod) (x : LtCtx) (w : Nat) : Bool :=
  let op := bitsOf w 0 3
  let peer := (m.ltPeer x (bitsOf w 8 3) (bitsOf w 11 12)).isSome
  let narrow := bitsOf w 3 1 == 0 && (bitsOf w 4 2 == 1 || bitsOf w 4 2 == 2)
  bitsOf w 51 13 != 0 && ((stepRegions x w).1.all fun r => decide (r.1 + r.2.1 ≤ m.ltScratch x)) &&
  match op with
  | 1 => bitsOf w 3 1 == 0 && bitsOf w 6 2 == 0 && bitsOf w 23 8 == 0 && peer
  | 2 => bitsOf w 23 8 == 0 && peer && !narrow
  | 3 => peer && (m.ltPeer x (bitsOf w 8 3) (bitsOf w 23 8)).isSome
  | _ => !narrow && bitsOf w 8 3 == 0 && bitsOf w 29 2 == 0

/-- Where a step leads once what it waits for has come: the context at its next step, or none where the run ends (R326, R327). -/
def Mod.ltAfter (m : Mod) (x : LtCtx) (w : Nat) : Option LtCtx :=
  match bitsOf w 0 3 with
  | 0 => none
  | 5 => if bitsOf w 4 29 ≠ 0 ∨ m.ltScratch x < 8 * bitsOf w 33 18 + 4 then none else some { x with step := x.step + 1 }
  | 6 => match m.ltLoop x w with
    | .goes y _ => some y
    | _ => none
  | 7 => none
  | _ => if m.dataOk x w then some { x with step := x.step + 1 } else none

/-- Whether two contexts stand at one point of a program. -/
def LtCtx.sameAs (x y : LtCtx) : Bool := x.step == y.step && x.values == y.values && x.trips == y.trips

/-- What the steps of a program name: regions read or written, regions written, and the number of words reached. -/
structure LtNames where
  named : List (Nat × Nat × Nat)
  written : List (Nat × Nat × Nat)
  words : Nat

/-- More regions named. -/
def LtNames.add (a : LtNames) (r : List (Nat × Nat × Nat) × List (Nat × Nat × Nat)) (step : Nat) : LtNames :=
  let join := fun (l new : List (Nat × Nat × Nat)) => l ++ new.filter fun x => !l.contains x
  { named := join a.named r.1, written := join a.written r.2, words := max a.words (step + 1) }

/-- What the steps from a context's point on name, its program being some bytes from `prog` on: its control is followed step by step to
the end, or to a point at which it has been before (`mark`, renewed at every power of two). (log 91, DEDUCED) -/
def Mod.ltTrace (m : Mod) (bs : List Byte) : Nat → Nat → LtCtx → LtCtx → LtNames → LtNames
  | 0, _, _, _, a => a
  | n + 1, k, mark, x, a =>
    if bs.length < 8 * x.step + 8 then a
    else
      let w := leNat ((bs.drop (8 * x.step)).take 8)
      let a := if (1 ≤ bitsOf w 0 3 ∧ bitsOf w 0 3 ≤ 4) ∧ m.dataOk x w = false then a.add ([], []) x.step
        else a.add (stepRegions x w) x.step
      match m.ltAfter x w with
      | none => a
      | some y => if y.sameAs mark then a else m.ltTrace bs n (k + 1) (if k &&& (k + 1) = 0 then y else mark) y a

/-- The regions that a run with a program names: from its start. -/
def Mod.ltNames (m : Mod) (x : LtCtx) (bs : List Byte) : LtNames :=
  let y := { x with step := 0, values := [0, 0, 0, 0], trips := [0, 0, 0, 0] }
  m.ltTrace bs (2 ^ 40) 0 { y with step := 2 ^ 60 } y { named := [], written := [], words := 0 }

/-- Bytes of a core's pool as they will stand once the stores to them that its own threads have issued are performed: passes still to
come, and writes on their way. -/
def Mod.afterStores (m : Mod) (c a : Nat) (bs : List Byte) : List Byte :=
  let stores := ((m.core c).passes.filterMap fun p => match p.what with
      | .store b => some (p.addr, b)
      | _ => none) ++
    m.reqs.filterMap fun r => match r.place, r.what with
      | .cluster t b off, .store x => if t = c then (m.block? c b).map fun y => (y.at_ off, x) else none
      | _, _ => none
  stores.foldl (fun bs s => bs.zipIdx.map fun p =>
    if s.1 ≤ a + p.2 ∧ a + p.2 < s.1 + s.2.length then s.2.getD (a + p.2 - s.1) 0 else p.1) bs

/-- The regions of a run, as its program stands and as it will stand once the stores under way are performed, join those that it has
named (R327, R333). (log 91, DEDUCED) -/
def Mod.heatRun (m : Mod) (x : LtCtx) (h : HotRun) : HotRun :=
  let now := m.ltRead x x.prog (m.ltScratch x - x.prog)
  let at_ := ((m.block? x.core x.block).map fun b => b.at_ x.prog).getD 0
  let p := m.ltNames x now
  let q := m.ltNames x (m.afterStores x.core at_ now)
  let join := fun (l new : List (Nat × Nat × Nat)) => l ++ new.filter fun r => !l.contains r
  { h with named := join (join h.named p.named) q.named, written := join (join h.written p.written) q.written,
           program := now.take (8 * max p.words q.words) }

/-- The regions of a run at its issue (R333). (log 91, DEDUCED) -/
def Mod.hotRun (m : Mod) (x : LtCtx) (warp : Nat) : HotRun :=
  m.heatRun x { die := x.die, handle := x.handle, core := x.core, block := x.block, warp := warp, weir := x.weir, ended := false,
                named := [], written := [], program := [] }

/-- Outstanding runs whose step words were rewritten name what the new ones name (R327, R333). -/
def Mod.reheat (m : Mod) : Mod :=
  let one := fun (h : HotRun) => match m.lt? h.die h.handle with
    | some x => if m.ltRead x x.prog h.program.length = h.program then h else m.heatRun x h
    | none => h
  if m.leat.hot.isEmpty then m else { m with leat := { m.leat with hot := m.leat.hot.map one } }

/-- The regions of runs whose blocks are still there. -/
def Mod.liveHot (m : Mod) : List HotRun := m.leat.hot.filter fun h => (m.spotOf h.core h.block).isSome

/-! ### The instructions (R278 to R282) -/

/-- The checks of the run block (R279): a cause, or none. (log 110, DESIGN CHOICE) -/
def Mod.runBlockFault (m : Mod) (c w : Nat) (g : GridCtx) (ws : List W64) : Option Nat :=
  let w0 := (getR ws 0).toNat
  let w3 := (getR ws 3).toNat
  let w4 := (getR ws 4).toNat
  let scratch := m.scratchOf c w
  if !g.patternOk (getR ws 1) (getR ws 2) then some 0x13
  else if w0 % 8 ≠ 0 ∨ 2 ^ 21 ≤ w0 ∨ scratch < w0 + 8 ∨ inPattern (getR ws 1) (getR ws 2) g.coord = false ∨
      2 ^ 41 ≤ w3 ∨ (bitsOf w3 40 1 = 1 ∧ ((m.blockOf c w).map fun b => b.weirs.length).getD 0 ≤ bitsOf w3 32 8) ∨
      w4 % 64 ≠ 0 ∨ 2 ^ 21 ≤ w4 ∨ scratch < w4 + 192 ∨ getR ws 5 ≠ 0 ∨ getR ws 6 ≠ 0 ∨ getR ws 7 ≠ 0 ∨
      g.verMajor = 0 then some 0x16
  else if (m.leat.ctxs ++ m.saved.flatMap (·.leat)).any fun x => x.grid == g.num && x.lows == getR ws 1 && x.highs == getR ws 2 &&
      x.key == BitVec.ofNat 32 w3 then some 0x16
  else none

/-- `lt.run` and `lt.run.cn` (R279 to R281); an access of an earlier bundle to the run block that is not performed yet holds the
bundle (R296). -/
def leatRun (cn : Bool) (h : Hdr) (f : FmtE) (s : State) : Out :=
  perWarp h s fun w ls b =>
    let ps := ls.map fun l => (w, l)
    let c := b.x.core
    let off := (b.x.u w f.a).toNat
    if cn && !b.m.canal.member then b.faultAll ps 0x15
    else match accessFault off 64 64 (b.m.scratchOf c w), b.m.gridOf c w with
      | some cause, _ => b.faultAll ps cause
      | none, none => b.faultAll ps 0x13
      | none, some g =>
        let ws := words64 8 (leBytes 64 (b.readAhead w ls off 64))
        if b.mustWait w ls off 64 then { b with x := { b.x with hold := true } }
        else match b.m.runBlockFault c w g ws with
        | some cause => b.faultAll ps cause
        | none =>
          let die := c / 256
          if 32 ≤ (b.m.leat.ctxs.filter fun x => x.die == die).length ∨
              (cn = true ∧ canalQueue ≤ b.m.canal.q.length) then { b with x := { b.x with hold := true } }
          else
            let n := b.m.ltCounter die
            let w3 := getR ws 3
            let la := ((b.m.blockOf c w).map (·.launch)).getD 0
            let x : LtCtx := {
              die := die, handle := n, core := c, block := b.m.buid c w, launch := la, grid := g.num,
              asid := b.m.asidOf la, prog := (getR ws 0).toNat, lows := getR ws 1, highs := getR ws 2,
              key := w3.extractLsb' 0 32, weir := if bitAt w3 40 then some (bitsOf w3.toNat 32 8) else none,
              rec_ := (getR ws 4).toNat, cn := cn, kth := 0, admitted := !cn, step := 0, values := [0, 0, 0, 0],
              trips := [0, 0, 0, 0], store := [], out := [], sentNum := [], takenNum := [], sentB := 0, recvB := 0,
              zeros := 0, subn := 0, infs := 0, nans := 0, emax := 0, emin := 255, bins := List.replicate 32 0,
              err := false, met := false, deps := b.m.releaseSet c w ls }
            let mine := fun (p : Nat × Nat × List Byte) => p.2.1 == b.m.canal.index && p.2.2 == admissionPay x
            let queued := fun (q : OutFrame) => q.kind == 4 && q.pay == admissionPay x
            let k := (b.m.canal.kind4.filter mine).length + (b.m.canal.q.filter queued).length +
              (b.m.canal.held.filter fun q => q.kind == 4 && q.sender == b.m.canal.index &&
                q.pay == admissionPay x).length
            let x := { x with kth := if cn then k else 0 }
            let m := { b.m with leat := { b.m.leat with
              ctxs := b.m.leat.ctxs ++ [x], counters := b.m.leat.counters.set die (n + 1),
              hot := b.m.liveHot ++ [b.m.hotRun x w] } }
            let m := if cn then
                (m.postFrame { kind := 4, pay := admissionPay x, at_ := m.clock, core := c, held := false, deps := [],
                               asid := x.asid, launch := la }).admitCollectives
              else m
            ({ b with m := m } : Bx).putS w f.d.toNat (BitVec.ofNat 64 (n.toNat + 2 ^ 32 * die)) 2

/-- `lt.run` (R279, R280). -/
def execLtRun (h : Hdr) (f : FmtE) (s : State) : Out := leatRun false h f s

/-- `lt.run.cn` (R279 to R281). -/
def execLtRunCn (h : Hdr) (f : FmtE) (s : State) : Out := leatRun true h f s

/-- `lt.wt` (R282). -/
def execLtWt (h : Hdr) (f : FmtE) (s : State) : Out :=
  perWarp h s fun w ls b =>
    let c := b.x.core
    let hd := b.x.u w f.a
    let d := f.d.toNat
    let st := b.m.ltStatus (c / 256) hd
    b.on fun m =>
      if st ≠ 0 then
        let m := m.putHeld c w (b.x.lanes w) d (BitVec.ofNat 64 st) (some (m.clock + 10)) 0
        if st ≤ 2 then (m.acquire c w ls).coolHandle c w (c / 256) (hd.extractLsb' 0 32) else m
      else
        let dl := if f.cmd = 1 then some (m.deadline (b.x.u w f.b)) else none
        (m.putHeld c w (b.x.lanes w) d 0 none m.next).block c w ls (.leat hd d dl) b.x.pc

/-- `lt.st` (R282). -/
def execLtSt (h : Hdr) (f : FmtE) (s : State) : Out :=
  perWarp h s fun w _ b =>
    b.putS w f.d.toNat (BitVec.ofNat 64 (b.m.ltStatus (b.x.core / 256) (b.x.u w f.a))) 4

/-- LEAT_WAIT_TIMEOUT: the deadline of a leat wait has passed: bit 8 is set (R282). -/
def execLeatWaitTimeout (c id : Nat) (s : State) : Out :=
  let m := s.now
  match (m.core c).waits.find? fun g => g.id == id with
  | none => .next s
  | some g => match g.wait with
    | .leat hd d (some dl) =>
      if m.tick < dl then .next s
      else
        let v := BitVec.ofNat 64 (256 + m.ltStatus (c / 256) hd)
        .next { s with now := m.wakeWith c g m.clock [(d, v)] }
    | _ => .next s

/-! ### Packets that reach a port -/

/-- FABRIC_PACKET_ARRIVAL: a request packet reaches a port from a link, is expanded, and each part enters the inbound queue, is
forwarded or answered (R244); or, in no fixed order, the next packet of one of this module's own operations is injected, or a
request of the inbound queue is performed (R246). (log 1, DESIGN CHOICE; log 7, DESIGN CHOICE) -/
def execFabricPacketArrival (p : Option Packet) (s : State) : Out :=
  let m := s.now
  match p with
  | some q =>
    if !packetOk q || q.op == 3 || q.op == 5 || q.op == 7 then .next { s with now := m.protocolError }
    else if q.op = 8 then .next { s with now := m.leatRoute q }
    else .next { s with now := m.portRequest q }
  | none =>
    let ops := m.fabOps.filter fun o => m.injectable o
    let ins := firstOfSource m.inQ
    let i := Config.order m.free % (ops.length + ins.length)
    let m := { m with free := m.free + 1 }
    match ops[i]?, ins[i - ops.length]? with
    | some o, _ => .next { s with now := m.inject o }
    | none, some q => .next { s with now := m.serveInbound Mod.leatArrive q }
    | none, none => .next s

/-- The sources to which backwater flits go: those whose messages the leat pool has refused and not yet let go, as the pool does
when full, and, while the inbound queue holds more than 1 MiB, those of its packets (R257, R330). -/
def Mod.flitSources (m : Mod) : List (Nat × W64) :=
  let bytes := m.inQ.foldl (fun n i => n + packetBytes i.pkt) 0
  ((m.leat.refused.map fun p => (p.ctx, p.src)) ++
    (if 1024 * 1024 < bytes then m.inQ.map fun i => (i.pkt.ctx, i.pkt.src) else [])).eraseDups

/-- BACKWATER_REPEAT: every 4 µs a backwater flit goes to each source while its condition lasts (R257, R330). -/
def execBackwaterRepeat (s : State) : Out :=
  let l := s.now.flitSources
  if l.isEmpty || decide (s.now.tick < s.now.flitAt + 4000 * Config.ticksPerNs) then .next s
  else .next { s with now := { s.now with flits := s.now.flits ++ s.now.flitsTo l, flitAt := s.now.tick } }

end Sys2Proof.Machine
end

