-- ==== Sys2Proof/Machine/Links.lean ====
section
/-! DEFINITION. Unpolin links: training and version exchange (R252, R264, R265), stop and go (R251), replay and lane
failure (R253). -/

namespace Sys2Proof.Machine

/-- The leat step set of this module: version 1.0, and a bitmap whose bits are all reserved (R336). -/
def stepSet : Nat × Nat × BitVec 32 := (1, 0, 0)

/-- What this device offers on a link: Unpolin 2.1, lowest major 1, the four capabilities, and its step set (R264, R265,
R336). -/
def ownOffer : Offer :=
  { hiMajor := 2, hiMinor := 1, loMajor := 1, caps := 0xF, lanes := List.range 16, roundTripNs := 0, steps := stepSet }

/-- What this device offers to its Canal group: Canal 1.0 (R264). -/
def ownCanalOffer : Offer := { ownOffer with hiMajor := 1, hiMinor := 0, caps := 0 }

/-- What two sides agree: version and capabilities, of our offer and the peer's (R264). -/
def agreeVersion (u o : Offer) : Option (Nat × Nat × BitVec 32) :=
  let a := min u.hiMajor o.hiMajor
  if a < u.loMajor ∨ a < o.loMajor then none
  else some (a, if u.hiMajor = o.hiMajor then min u.hiMinor o.hiMinor else if u.hiMajor = a then u.hiMinor else o.hiMinor,
    u.caps &&& o.caps)

/-- Combining slots look again at their children, since a link has changed (R255). -/
def Mod.fredSettleAll (m : Mod) : Mod := m.grids.foldl (fun m g => m.fredSettle g) m

/-- A link put back. -/
def Mod.putLink (m : Mod) (k : Link) : Mod := { m with links := upsert (fun x => x.num == k.num) k m.links }

/-- The lanes a link trains on: the working ones in ascending order, an even number of them where odd lane counts are not
agreed (R252, R265). -/
def trainedLanes (caps : BitVec 32) (working : List Nat) : List Nat :=
  let l := (List.range 16).filter working.contains
  if l.length % 2 = 1 ∧ caps.getLsbD 0 = false then l.dropLast else l

/-- The version exchange of a link or of the Canal port fails: the host receives the version status (R264).
(log 52, DESIGN CHOICE) -/
def Mod.versionFails (m : Mod) (link : Nat) : Mod := m.plainEvent 10 0 0 2 (BitVec.ofNat 64 link)

/-- What a flit puts on a link's lanes: by beat, the byte on each lane it has trained on, zero past the flit's end (R252). -/
def flitBeats (lanes : List Nat) (flit : List Byte) : List (List (Nat × Byte)) :=
  let n := lanes.length
  (List.range ((64 + n - 1) / n)).map fun b => lanes.zipIdx.map fun l => (l.1, flit.getD (b * n + l.2) 0)

/-- A link that does not run. -/
def downLink (l : Nat) : Link :=
  { num := l, up := false, working := [], lanes := [], major := 0, minor := 0, caps := 0, steps := (0, 0, 0), stop := 0,
    txq := [], sent := [], again := [], replays := 0, asked := [] }

/-- The starts that wait for their end over a tree of which a link is part fail, and the modules on its other links learn it
(R240). -/
def Mod.failStarts (m : Mod) (link : Nat) : Mod :=
  m.launches.foldl (fun m x => match (if x.sync = 1 ∧ x.rec_.axes ≠ 0 then m.grid? x.rec_.grid else none) with
    | none => m
    | some g => if g.rules.any fun u => u.tree && u.link == link then m.fredMulticast g (g.startPacket x.asid) link true else m) m

/-- A link goes down: what it holds is answered with errors, combining slots wait for it no longer, and starts under way over it
fail (R240, R253, R255). -/
def Mod.takeDown (m : Mod) (k : Link) : Mod :=
  let m := m.dropHeld k.num
  (m.putLink { k with up := false, txq := [] }).fredSettleAll.failStarts k.num

/-- LINK_TRAINING: a link, or the Canal port as link 24, trains: this device offers Unpolin 2.1 and Canal 1.0, lowest
major 1, and names its step set; a link whose round trip exceeds 100 ns is not brought up (R251, R252, R264, R265, R336).
(log 52, DESIGN CHOICE) -/
def execLinkTraining (l : Nat) (o : Offer) (s : State) : Out :=
  let m := s.now
  if l = 24 then
    match agreeVersion ownCanalOffer o with
    | some v => .next { s with now := { m with canal := { m.canal with version := some (v.1, v.2.1) } } }
    | none => .next { s with now := Mod.versionFails { m with canal := { m.canal with version := none } } l }
  else if 24 < l then .next s
  else match agreeVersion ownOffer o with
    | none => .next { s with now := (m.takeDown (downLink l)).versionFails l }
    | some v =>
      let working := (List.range 16).filter o.lanes.contains
      let lanes := trainedLanes v.2.2 working
      let held := ((m.link? l).map (·.txq)).getD []
      if 100 < o.roundTripNs ∨ lanes.isEmpty = true then .next { s with now := m.takeDown (downLink l) }
      else .next { s with now := m.putLink { downLink l with
        up := true, working := working, lanes := lanes, major := v.1, minor := v.2.1, caps := v.2.2, steps := o.steps,
        txq := held } }

/-- VC_STOP_GO: the stop mask of a link's 16 virtual channels reaches the transmitter (R251).
(log 25, DESIGN CHOICE) -/
def execVcStopGo (l : Nat) (mask : BitVec 16) (s : State) : Out :=
  .next { s with now := { s.now with
    links := alterFirst (fun k => k.num == l) (fun k => { k with stop := mask }) s.now.links } }

/-- FLIT_CRC_REPLAY: a flit reaches a receiver with a check value. The peer's: one of the flits that this side's transmitter keeps;
where its CRC is another, what was sent from that flit on goes again in its order, and no packet is lost, doubled or reordered. This
side's: where the CRC of the flit's bytes is another, the peer is asked for what it sent from that flit on, and the flit brings no
packet (R253). -/
def execFlitCrcReplay (x : FlitCheck) (s : State) : Out :=
  match s.now.link? x.link, x.data with
  | none, _ => .next s
  | some k, some d =>
    if !k.up || crc32c d == x.crc then .next s
    else .next { s with now := s.now.putLink { k with asked := k.asked ++ [x.flit] } }
  | some k, none => match k.sent.drop x.flit with
    | [] => .next s
    | f :: fs =>
      if !k.up || crc32c f == x.crc then .next s
      else .next { s with now := s.now.putLink { k with replays := k.replays + 1, again := f :: fs } }

/-- LANE_FAILURE_RETRAIN: a lane fails, the link trains on the working lanes that remain, and the flits in flight go again;
without a lane it is down (R253, R255, R265). -/
def execLaneFailureRetrain (l lane : Nat) (s : State) : Out :=
  match s.now.link? l with
  | none => .next s
  | some k =>
    if !k.up || !k.working.contains lane then .next s
    else
      let working := k.working.filter fun x => x != lane
      let lanes := trainedLanes k.caps working
      let k : Link := { k with working := working, lanes := lanes, replays := k.replays + 1, again := k.sent }
      if lanes.isEmpty then .next { s with now := s.now.takeDown k }
      else .next { s with now := s.now.putLink k }

end Sys2Proof.Machine
end

