-- ==== Sys2Proof/Machine/Place.lean ====
section
/-! DEFINITION. Placing blocks and warps on a core: register frames, PC-table entries, warp and block slots, lane sets,
rows of the pool (R133 to R143, R387, R415), and views of the veneer pool (R353 to R355). -/

namespace Sys2Proof.Machine

/-- The bytes of a register frame before rounding (R142). -/
def frameBytes (r : LRec) : Nat := r.width * r.vregs * 4 + r.uregs * 8

/-- The rows of a register frame (R142). -/
def frameRows (r : LRec) : Nat := (frameBytes r + 767) / 768

/-- The rows of n bytes of scratchpad or accumulator storage (R143). -/
def rowsOf (n : Nat) : Nat := (n + 767) / 768

/-- The register units of a partition word (R140). -/
def ruOf (p : W32) : Nat := p.toNat % 256

/-- The launch record of a block. -/
def Mod.recOfBlock (m : Mod) (b : Block) : LRec := ((m.launch? b.launch).map (·.rec_)).getD default

/-- The ASID of a block. -/
def Mod.asidOfBlock (m : Mod) (b : Block) : Nat := ((m.launch? b.launch).map (·.asid)).getD 0

/-- A warp that holds a frame and a slot: it is resident, or it has left them less than the time of R393 ago. -/
def Warp.takesRoom (w : Warp) (clock : Nat) : Bool := !w.evicted || decide (clock < w.freeAt)

/-- Register rows in use on a core (R142). -/
def Mod.rowsUsed (m : Mod) (c : Nat) : Nat :=
  let k := m.core c
  (k.warps.filter fun w => w.takesRoom m.clock).foldl (fun n w => n + frameRows (m.recOf c w.uid)) 0

/-- The threads of a warp that have not ended: each holds an entry of the PC table (R82, R132). -/
def Warp.live (w : Warp) : List Thread := w.threads.filter fun t => !t.ended

/-- PC-table entries in use on a core, of 4096 (R82, R132, R135). -/
def Mod.pcUsed (m : Mod) (c : Nat) : Nat :=
  ((m.core c).warps.filter fun w => w.takesRoom m.clock).foldl (fun n w => n + w.live.length) 0

/-- The entries that are free on the fullest of some lanes, of 64 each (R132). -/
def Core.lanesRoom (k : Core) (clock : Nat) (lanes : List Nat) : Nat :=
  let taken := (k.warps.filter fun w => w.takesRoom clock).flatMap fun w => w.live.map (·.lane)
  lanes.foldl (fun n l => min n (64 - (taken.filter fun x => x == l).length)) 64

/-- The lanes of lane set k (R134). -/
def setLanes (width set : Nat) : List Nat := (List.range width).map fun i => set * width + i

/-- The warps of a width that the lanes of a core have entries for (R132). -/
def Core.lanesHold (k : Core) (clock width : Nat) : Nat :=
  (List.range (64 / width)).foldl (fun n s => n + k.lanesRoom clock (setLanes width s)) 0

/-- Whether a core may hold n more warps of a width W: 4096/W of that width, and 256 of any, whatever threads of theirs have ended
(R135, R142). (log 105, DEDUCED) -/
def Mod.slotRoom (m : Mod) (c n width : Nat) : Bool :=
  let ws := (m.core c).warps.filter fun w => w.takesRoom m.clock
  decide (ws.length + n ≤ 256) && decide (((ws.filter fun w => w.width == width).length + n) * width ≤ 4096)

/-- Whether n more warps of a record find register frames, PC-table entries, warp slots and places on the lanes of a core
whose partition word gives `ru` units (R132, R135, R142, R387). -/
def Mod.warpRoom (m : Mod) (c ru n : Nat) (r : LRec) : Bool :=
  decide (m.rowsUsed c + n * frameRows r ≤ 64 * ru) && decide (m.pcUsed c + n * r.width ≤ 4096) && m.slotRoom c n r.width &&
  decide (n ≤ (m.core c).lanesHold m.clock r.width)

/-- Whether an evicted or saved warp finds a frame, a slot and its own lanes' entries (R134, R393, R413). -/
def Mod.backRoom (m : Mod) (c ru : Nat) (r : LRec) (w : Warp) : Bool :=
  decide (m.rowsUsed c + frameRows r ≤ 64 * ru) && m.slotRoom c 1 w.width &&
  decide (1 ≤ (m.core c).lanesRoom m.clock (w.live.map (·.lane)))

/-- The accumulator units of a partition word (R140). -/
def auOf (p : W32) : Nat := p.toNat / 256 % 256

/-- The lowest warp slot that is free. (log 86, DESIGN CHOICE) -/
def Mod.warpSlot (m : Mod) (c : Nat) : Nat :=
  let used := ((m.core c).warps.filter fun w => w.takesRoom m.clock).map (·.slot)
  ((List.range 256).find? fun n => !used.contains n).getD 0

/-- Resident threads of a lane set of a core: neither threads that have ended nor those of evicted warps.
(log 85, DEDUCED) -/
def Core.laneLoad (k : Core) (width set : Nat) : Nat :=
  (k.warps.filter fun w => !w.evicted).foldl (fun n w =>
    n + (w.live.filter fun t => t.lane / width == set).length) 0

/-- The lane set for a new warp: of those whose lanes hold fewer than 64 threads each (R132), the one with the fewest
resident threads, the lowest among equals (R134). (log 85, DEDUCED) -/
def Core.laneSet (k : Core) (clock width : Nat) : Nat :=
  match (List.range (64 / width)).filter fun s => decide (0 < k.lanesRoom clock (setLanes width s)) with
  | [] => 0
  | x :: xs => xs.foldl (fun b s => if k.laneLoad width s < k.laneLoad width b then s else b) x

/-- The register rows of a new frame: the lowest that no frame on the core takes (R142, R387). (log 106, DEDUCED) -/
def Mod.frameFor (m : Mod) (c : Nat) (r : LRec) : List Nat :=
  let taken := ((m.core c).warps.filter fun w => w.takesRoom m.clock).flatMap (·.frame)
  ((List.range (64 * ruOf r.partition)).filter fun x => !taken.contains x).take (frameRows r)

/-- Rows of a core's pool that become a frame of an address space (R142, R415). -/
def Core.giveFrame (k : Core) (rows : List Nat) (asid : Nat) : Core :=
  { k with users := rows.map (fun r => (r, r + 1, asid)) ++ k.users.filter (fun u => !(u.2.1 == u.1 + 1 && rows.contains u.1)),
           framed := rows ++ k.framed.filter fun r => !rows.contains r }

/-- A thread as its warp starts (R133). (log 3, DESIGN CHOICE) -/
def newThread (lane : Nat) (pc : W64) (v : List W32) (clock seen : Nat) (task : Option Nat) : Thread :=
  { lane := lane, pc := pc, v := v, q := 0, stamp := clock, run := .ready, notBefore := clock, fence := none,
    handler := false, entered := true,
    tcause := 0, tepc := 0, torigin := 0, redo := false, parkPc := 0, sched := 0, recent := [], seen := seen,
    fwd := [], task := task, doved := false }

/-- A warp starts on a core: its number, its slot and its lane set are chosen, and `ths` gives each thread by its
relative lane: entry PC, first registers and task (R133, R134). -/
def Mod.startWarp (m : Mod) (c block width : Nat) (wid : W32) (seen : Nat)
    (ths : List (W64 × List W32 × Option Nat)) : Mod :=
  let slot := m.warpSlot c
  let set := (m.core c).laneSet m.clock width
  let blk := ((m.core c).blocks.find? fun b => b.uid == block)
  let rows := (blk.map fun b => m.frameFor c (m.recOfBlock b)).getD []
  let asid := (blk.map m.asidOfBlock).getD 0
  let threads := ths.zipIdx.map fun p =>
    newThread (set * width + p.2) p.1.1 p.1.2.1 m.clock seen p.1.2.2
  let w : Warp :=
    { uid := m.next, slot := slot, block := block, wid := wid, width := width, laneSet := set, s := [], jigs := [],
      jigBusy := [], mstage := none, slStage := [none, none, none, none], expect := none, threads := threads,
      evicted := false, freeAt := 0, condAt := none, area := none, frame := rows }
  Mod.onCore { m with next := m.next + 1 } c fun k =>
    { k.giveFrame rows asid with warps := k.warps ++ [w], ended := k.ended.filter fun x => x.slot != slot || k.sweeps.any fun s => s.warp == x.uid }

/-- Rows lo to hi − 1 of a core's pool are given to an address space: those whose last user was another one are cleared
to zero, accumulator elements to binary64 +0 (R194, R415); of those that last held one of its own register frames the manual
does not lay down the contents, and they are free values by draw. (log 106, DEDUCED) -/
def Core.giveRows (k : Core) (lo hi asid key : Nat) : Core :=
  let foreign := fun (r : Nat) => match k.users.find? fun u => decide (u.1 ≤ r) && decide (r < u.2.1) with
    | none => false
    | some u => u.2.2 != asid
  let sram := (List.range (hi - lo)).foldl (fun s i =>
    if foreign (lo + i) then Memory.clear s ((lo + i) * 768) ((lo + i + 1) * 768)
    else if k.framed.contains (lo + i) then
      s.writeN ((lo + i) * 768) ((List.range 768).map fun j => Config.freeByte key ((lo + i) * 768 + j))
    else s) k.sram
  let inRows := fun (r : Nat) => decide (lo ≤ r) && decide (r < hi)
  { k with sram := sram, framed := k.framed.filter fun r => !inRows r,
           int64s := k.int64s.filter fun a =>
             !(inRows (a / 768) && (foreign (a / 768) || k.framed.contains (a / 768))),
           users := (lo, hi, asid) :: k.users.filter fun u => !(decide (lo ≤ u.1) && decide (u.2.1 ≤ hi)) }

/-- The first run of n consecutive rows from lo to hi − 1 that no listed run takes (R387). -/
def firstFit (lo hi n : Nat) (used : List (Nat × Nat)) : Option Nat :=
  (List.range (hi + 1 - lo)).findSome? fun i =>
    let a := lo + i
    if a + n ≤ hi && used.all fun u => decide (u.1 + u.2 ≤ a) || decide (a + n ≤ u.1) || u.2 == 0 then some a else none

/-- The scratchpad rows in use on a core: first row and count. -/
def Mod.scratchRuns (m : Mod) (c : Nat) : List (Nat × Nat) :=
  (m.core c).blocks.map fun b => (b.row, rowsOf (m.recOfBlock b).scratch)

/-- The accumulator rows in use on a core: first row and count. -/
def Mod.accRuns (m : Mod) (c : Nat) : List (Nat × Nat) :=
  (m.core c).blocks.map fun b => (b.accRow, rowsOf (m.recOfBlock b).accsize)

/-! ### Veneer tiles and views -/

/-- Whether a launch declares tile t (R353, R380). -/
def tileDeclared (r : LRec) (t : Nat) : Bool := (r.tiles.getD t 0).getLsbD 32

/-- The offset of a tile (R380). -/
def tileOff (r : LRec) (t : Nat) : Nat := ((r.tiles.getD t 0).extractLsb' 0 21).toNat

/-- The operator of a tile (R380). -/
def tileOp (r : LRec) (t : Nat) : Nat := ((r.tiles.getD t 0).extractLsb' 24 8).toNat

/-- The identity of a veneer operator (R354). -/
def vnrIdentity (op : Nat) : W32 :=
  match op with
  | 0x0A => 0x80000000#32
  | 0x12 => 0x7FFFFFFF#32
  | 0x16 => 0xFFFFFFFF#32
  | 0x1A => 0x7F800000#32
  | 0x22 => 0x80000000#32
  | 0x2A => 0xFF800000#32
  | 0x56 => 0xFFFFFFFF#32
  | _ => 0

/-- The tiles of a mask, ascending. -/
def maskTiles (mask : BitVec 8) : List Nat := (List.range 8).filter fun t => mask.getLsbD t

/-- The pool address of a view of a block (R353). -/
def viewAt (r : LRec) (b : Block) (v : Nat) : Nat := b.at_ (r.vnrpool + v * viewBytes r)

/-- Views that a block's pool has free, ascending. -/
def freeViews (r : LRec) (b : Block) : List Nat := (List.range r.vnrviews).filter fun v => !b.viewsUsed.contains v

/-- A task in the join structure. -/
def Mod.kid? (m : Mod) (id : Nat) : Option Child := m.kids.find? fun k => k.id == id

/-- A task changed. -/
def Mod.onKid (m : Mod) (id : Nat) (f : Child → Child) : Mod :=
  { m with kids := alterFirst (fun k => k.id == id) f m.kids }

/-- Where a task's view of a tile lies: core and pool address. -/
def Mod.kidView (m : Mod) (k : Child) (t : Nat) : Option (Nat × Nat) :=
  match k.views.find? fun p => p.1 == t, m.block? k.viewCore k.viewBlock with
  | some p, some b => some (k.viewCore, viewAt (m.recOfBlock b) b p.2)
  | _, _ => none

/-- Where a thread's view of a tile lies: a task's view, or the tile itself for a thread that is not a task; none where a
task has no view of it (R355). -/
def Mod.threadView (m : Mod) (c w l t : Nat) : Option (Nat × Nat) :=
  match m.thread? c w l, m.blockOf c w with
  | some th, some b =>
    match th.task with
    | none => some (c, b.at_ (tileOff (m.recOfBlock b) t))
    | some id => (m.kid? id).bind fun k => m.kidView k t
  | _, _ => none

end Sys2Proof.Machine
end

