-- ==== Sys2Proof/Machine/Tasks.lean ====
section
/-! DEFINITION. Tasks (R346 to R364): spawning, the millrace and the cistern, waves, veneers, joins, stealing and the
cutting list. -/

namespace Sys2Proof.Machine

/-- A join counter of a block. -/
def Block.join (b : Block) (n : Nat) : Join := b.joins.getD n { count := 0, poison := 0 }

/-- A join counter changed. -/
def Block.onJoin (b : Block) (n : Nat) (f : Join → Join) : Block := { b with joins := b.joins.set n (f (b.join n)) }

/-- The waits on a join counter of a block have made progress (R394). -/
def Mod.joinProgress (m : Mod) (c blk n : Nat) : Mod := m.onCore c fun k => k.progress m.tick fun g =>
  (match k.warp? g.warp with | some w => w.block == blk | none => false) &&
  (match g.wait with | .join i _ => i == n | _ => false)

/-! ### Records (R347 to R351) -/

/-- The entries of the millrace (R350). -/
def millraceSize : Nat := 32

/-- The 64 bytes of a record in a cistern entry: the link is in the core's own form, a free value (R347). -/
def recordBytes (t : TaskRec) (draw : Nat) : List Byte :=
  t.pay.flatMap (fun x => leBytes 4 x.toNat) ++ leBytes 8 t.entry.toNat ++
    (List.range 24).map fun i => Config.freeByte draw i

/-- A record appended to a block's cistern. -/
def Mod.cisternPut (m : Mod) (c blk : Nat) (t : TaskRec) : Mod :=
  match m.block? c blk with
  | none => m
  | some b =>
    let at_ := cisternAt (m.recOfBlock b) b b.cistern.length
    (Mod.poolWrite { m with free := m.free + 1 } c at_ (recordBytes t m.free)).onBlock c blk fun x =>
      { x with cistern := x.cistern ++ [{ t with wild := false }] }

/-- The head of a block's cistern taken off; a record that a program has written over carries free values, and the view
that it folds into becomes undefined (R347). -/
def Mod.cisternTake (m : Mod) (c blk : Nat) : Option TaskRec × Mod :=
  match m.block? c blk with
  | none => (none, m)
  | some b => match b.cistern with
    | [] => (none, m)
    | t :: ts =>
      let r := m.recOfBlock b
      let m := m.onBlock c blk fun x => { x with cistern := ts, cistHead := (x.cistHead + 1) % r.cistlen }
      if !t.wild then (some t, m)
      else
        let pay := (List.range 8).map fun i => (Config.free64 (m.free + i)).setWidth 32
        let m := m.onKid t.id fun k => { k with wild := true }
        (some { t with pay := pay, entry := Config.free64 (m.free + 8) }, { m with free := m.free + 9 })

/-- Free places of a block for new records (R349). -/
def Core.localPlaces (k : Core) (r : LRec) (b : Block) : Nat :=
  (if b.cistern.isEmpty then millraceSize - k.millrace.length else 0) + (r.cistlen - b.cistern.length - b.reserved)

/-- A new record of a block takes its place: the millrace while it has a free entry and the block's cistern is empty,
the cistern otherwise (R349). -/
def Mod.placeRecord (m : Mod) (c blk : Nat) (t : TaskRec) : Mod :=
  match m.block? c blk with
  | none => m
  | some b =>
    if (m.core c).millrace.length < millraceSize && b.cistern.isEmpty then
      m.onCore c fun k => { k with millrace := k.millrace ++ [t] }
    else m.cisternPut c blk t

/-- A record goes to the entry that the thief of a steal request has reserved (R363). -/
def Mod.deliverSteal (m : Mod) (q : StealReq) (t : TaskRec) : Mod :=
  (m.onBlock q.core q.block fun x => { x with reserved := x.reserved - 1 }).cisternPut q.core q.block { t with block := q.block }

/-- The oldest steal request of a mailbox that was posted in an earlier cycle, with the mailbox without it (R349). -/
def takeRequest (clock : Nat) : List StealReq → Option (StealReq × List StealReq)
  | [] => none
  | q :: l => if q.at_ < clock then some (q, l)
    else match takeRequest clock l with
      | none => none
      | some r => some (r.1, q :: r.2)

/-- Who spawns: the task that a thread runs, or the thread (R359). -/
def Mod.parentOf (m : Mod) (c w l : Nat) : Parent :=
  match (m.thread? c w l).bind (·.task) with
  | some id => .task id
  | none => .thread w l

/-- One task spawned by a thread (R349): the join counter rises, and the record goes to a thief or takes its place. -/
def Mod.spawnOne (m : Mod) (c w l n : Nat) (pay : List W32) (entry : W64) (mask : BitVec 8) : Mod :=
  match m.blockOf c w with
  | none => m
  | some b =>
    let id := m.next
    let kid : Child :=
      { id := id, parent := m.parentOf c w l, core := c, block := b.uid, counter := n, mask := mask, views := [],
        viewCore := c, viewBlock := b.uid, ended := false, poisoned := false, marked := false, counted := false,
        wild := false, deps := [] }
    let t : TaskRec :=
      { id := id, block := b.uid, pay := pay, entry := entry, mask := mask, deps := [], wild := false }
    let m := Mod.onBlock { m with next := m.next + 1, kids := m.kids ++ [kid] } c b.uid fun x =>
      x.onJoin n fun j => { j with count := j.count + 1 }
    match takeRequest m.clock b.mailbox with
    | some r =>
      (m.onBlock c b.uid fun x => { x with mailbox := r.2 }).deliverSteal r.1 { t with deps := m.releaseSet c w [l] }
    | none => m.placeRecord c b.uid t

/-- Whether `spn` faults for the lanes that act (R349). -/
def spawnFaults (b : Bx) (w : Nat) (ls : List Nat) (n : Nat) (sb : W64) : Bool :=
  let m := b.m
  let c := b.x.core
  match m.blockOf c w with
  | none => true
  | some blk =>
    let r := m.recOfBlock blk
    let tiles := maskTiles (sb.extractLsb' 0 8)
    let asked := (blk.mailbox.filter fun q => decide (q.at_ < m.clock)).length
    decide (sb.toNat ≥ 256) || decide (4 < tiles.length) || tiles.any (fun t => !tileDeclared r t) ||
    ls.any (fun l => tiles.any fun t => (m.threadView c w l t).isNone) ||
    decide (2 ^ 32 - 1 < (blk.join n).count.toNat + ls.length) ||
    decide ((m.core c).localPlaces r blk < ls.length - asked)

/-- `spn` (R348, R349). -/
def execSpn (h : Hdr) (f : FmtE) (s : State) : Out :=
  perWarp h s fun w ls b =>
    let n := f.cmd.toNat
    let sb := b.x.u w f.b
    let p := f.imm16.toNat % 256
    let k := f.imm16.toNat / 256 % 16
    if spawnFaults b w ls n sb then b.faultAll (ls.map fun l => (w, l)) 0x17
    else
      let c := b.x.core
      b.on fun m =>
        let m := ls.foldl (fun m l => m.spawnOne c w l n
          ((List.range 8).map fun i => if i < k then b.x.v w l (p + i) else 0) (b.x.u w f.a) (sb.extractLsb' 0 8)) m
        m.joinProgress c (m.buid c w) n

/-- CISTERN_REFILL: the head of the cistern whose head record is the oldest moves into the millrace, in a cycle in which
no wave has formed (R351). -/
def execCisternRefill (c : Nat) (s : State) : Out :=
  let m := s.now
  let k := m.core c
  let heads := k.blocks.filterMap fun b => match b.cistern with | t :: _ => some (t.id, b.uid) | [] => none
  if k.taskAt ≤ m.clock && decide (k.millrace.length < millraceSize) then
    match heads with
    | [] => .next s
    | x :: xs =>
      let o := xs.foldl (fun a b => if b.1 < a.1 then b else a) x
      let r := m.cisternTake c o.2
      match r.1 with
      | none => .next s
      | some t => .next { s with now := r.2.onCore c fun k =>
          { k with millrace := k.millrace ++ [t], taskAt := m.clock + 1 } }
  else .next s

/-! ### Waves (R352, R355) -/

/-- The records of a core that could head a wave: the millrace and the cistern heads. -/
def Core.headRecords (k : Core) : List TaskRec :=
  k.millrace ++ k.blocks.filterMap fun b => b.cistern.head?

/-- The oldest of some records. -/
def oldestRec : List TaskRec → Option TaskRec
  | [] => none
  | t :: l => some (l.foldl (fun a b => if b.id < a.id then b else a) t)

/-- The records that a wave takes of some: a prefix of at most W, with views free for their tiles and their spawner's writes
visible (R310, R352). -/
def takeRecords (m : Mod) (width views : Nat) : List TaskRec → List TaskRec
  | [] => []
  | t :: l =>
    let n := (maskTiles t.mask).length
    if width != 0 && decide (n ≤ views) && m.allPerformed t.deps then t :: takeRecords m (width - 1) (views - n) l
    else []

/-- The records of one wave on a core and the block that runs it (R352). -/
def Mod.waveTake (m : Mod) (c : Nat) : Option (Block × List TaskRec) :=
  let k := m.core c
  match oldestRec k.headRecords with
  | none => none
  | some o => match m.block? c o.block with
    | none => none
    | some b => if m.frozen (m.asidOf b.launch) then none else
      let r := m.recOfBlock b
      let cand := (k.millrace.filter fun t => t.block == b.uid && t.entry == o.entry) ++
        b.cistern.takeWhile fun t => t.entry == o.entry
      match takeRecords m r.width (freeViews r b).length cand with
      | [] => none
      | ts => some (b, ts)

/-- Views for one task's tiles, each set to its tile's identity (R355). -/
def Mod.giveViews (m : Mod) (c blk id : Nat) (mask : BitVec 8) : Mod :=
  (maskTiles mask).foldl (fun m t => match m.block? c blk with
    | none => m
    | some b =>
      let r := m.recOfBlock b
      let v := (freeViews r b).headD 0
      let word := leBytes 4 (vnrIdentity (tileOp r t)).toNat
      let m := m.veneerWrite c (viewAt r b v) ((List.range r.vnrwords).flatMap fun _ => word)
      let m := m.onBlock c blk fun x => { x with viewsUsed := x.viewsUsed ++ [v] }
      m.onKid id fun k => { k with views := k.views ++ [(t, v)], viewCore := c, viewBlock := blk }) m

/-- A record leaves the millrace or the head of its block's cistern, as it then stands. -/
def Mod.takeOut (m : Mod) (c blk : Nat) (t : TaskRec) : TaskRec × Mod :=
  if (m.core c).millrace.any fun x => x.id == t.id then
    (t, m.onCore c fun k => { k with millrace := k.millrace.filter fun x => x.id != t.id })
  else
    let r := m.cisternTake c blk
    (r.1.getD t, r.2)

/-- Every record of a wave taken out, in order. -/
def Mod.takeOutAll (m : Mod) (c blk : Nat) : List TaskRec → List TaskRec × Mod
  | [] => ([], m)
  | t :: ts =>
    let r := m.takeOut c blk t
    let q := r.2.takeOutAll c blk ts
    (r.1 :: q.1, q.2)

/-- Whether a wave finds a warp slot, PC-table entries and a frame on its core (R352). -/
def Mod.waveRoom (m : Mod) (c : Nat) (r : LRec) : Bool := m.warpRoom c (ruOf r.partition) 1 r

/-- TASK_WAVE_FORM: the oldest record's block starts one warp for the longest prefix of its records of one entry, each
record a thread (R352, R355). -/
def execTaskWaveForm (c : Nat) (s : State) : Out :=
  let m := s.now
  match m.waveTake c with
  | none => .next s
  | some (b, ts) =>
    let r := m.recOfBlock b
    if (m.core c).taskAt ≤ m.clock && m.waveRoom c r then
      let q := m.takeOutAll c b.uid ts
      let m := q.1.foldl (fun m t => m.giveViews c b.uid t.id t.mask) q.2
      let wid : W32 := BitVec.ofNat 32 (2 ^ 31 + b.waves % 2 ^ 31)
      let m := m.startWarp c b.uid r.width wid m.next (q.1.map fun t => (t.entry, t.pay, some t.id))
      let m := m.onBlock c b.uid fun x => { x with waves := x.waves + 1 }
      .next { s with now := m.onCore c fun k => { k with taskAt := m.clock + 1 } }
    else .next s

/-! ### Veneers (R356, R357) -/

/-- The address of the element that a thread names in its view of a tile, or none where the veneer fault is raised
(R357); `op` is the operator that `vnr.upd` carries. -/
def Bx.vnrAt (b : Bx) (f : FmtV) (op : Option Nat) (w l : Nat) : Option Nat :=
  let t := f.aux.toNat
  match b.m.blockOf b.x.core w with
  | none => none
  | some blk =>
    let r := b.m.recOfBlock blk
    let i := (b.x.v w l f.a.toNat).toNat
    if tileDeclared r t && decide (i < r.vnrwords) && (match op with | some o => o == tileOp r t | none => true) then
      (b.m.threadView b.x.core w l t).map fun p => p.2 + 4 * i
    else none

/-- An access of each lane to its view, one pass a lane: `go` learns the address, by how much the result lands late, and the
pass (R357). -/
def vnrAccess (op : Option Nat) (h : Hdr) (f : FmtV) (s : State) (go : Nat → Nat → Nat → Nat → Nat → Bx → Bx) :
    Out :=
  scratchAccess (isBound f) true h s
    (fun b w l => if (b.vnrAt f op w l).isSome then none else some 0x18)
    (fun b w l => [((b.vnrAt f op w l).getD 0 - b.m.poolAt b.x.core w 0, 4)])
    fun w l extra pass b => let a := (b.vnrAt f op w l).getD 0; go w l a extra (pass (a / 8)) b

/-- `vnr.upd` (R356, R357). -/
def execVnrUpd (h : Hdr) (f : FmtV) (s : State) : Out :=
  let op := f.minor.toNat
  vnrAccess (some op) h f s fun w l a _ p b =>
    let x : W32 := BitVec.ofNat 32 (b.x.vb f w l 6)
    if p = 0 then b.on fun m => m.vnrUpdate b.x.core a op x else b.later w p a (.comb op x)

/-- `vnr.get` (R356, R357). -/
def execVnrGet (h : Hdr) (f : FmtV) (s : State) : Out :=
  vnrAccess none h f s fun w l a extra p b =>
    let b := b.putV w l f.d.toNat (BitVec.ofNat 32 (leNat (b.m.poolRead b.x.core a 4))) 10 extra
    if p = 0 then b else b.later w p a (.load 4 6 (.v w l f.d.toNat) 0 32)

/-! ### Ends, joins and folds (R358 to R361) -/

/-- `dove`: a task thread ends as under `exit`, its views dovetailed (R358). -/
def execDove (h : Hdr) (_f : FmtE) (s : State) : Out :=
  perThread true h s fun w l b =>
    match b.x.before.thread? b.x.core w l with
    | none => b
    | some t => match t.task with
      | none => b.fault true w l 0x19 0
      | some _ => b.on fun m =>
        (m.leave b.x.core w l).onThread b.x.core w l fun t =>
          { t with doved := true, run := .ending (m.clock + max b.x.stall 1) }

/-- The children of a parent in spawn order. -/
def Mod.kidsOf (m : Mod) (p : Parent) : List Child := m.kids.filter fun k => k.parent == p

/-- Whether the end condition of `jwait` on counter n holds for some threads of a warp (R361). -/
def Mod.joinMet (m : Mod) (c w : Nat) (ls : List Nat) (n : Nat) : Bool :=
  match m.blockOf c w with
  | none => true
  | some b => (b.join n).count == 0 && ls.all fun l =>
      (m.kidsOf (m.parentOf c w l)).all fun k => k.counter != n

/-- The result of `jwait` and the poison count cleared (R361). -/
def Mod.joinTake (m : Mod) (c blk n : Nat) : W64 × Mod :=
  let p := ((m.block? c blk).map fun b => (b.join n).poison).getD 0
  (p ++ (if p = 0 then 0#32 else 1#32), m.onBlock c blk fun b => b.onJoin n fun j => { j with poison := 0 })

/-- `jwait` (R361). -/
def execJwait (h : Hdr) (f : FmtE) (s : State) : Out :=
  perWarp h s fun w ls b =>
    let c := b.x.core
    let n := f.cmd.toNat
    let d := f.d.toNat
    b.on fun m =>
      if m.joinMet c w ls n then
        let r := m.joinTake c (m.buid c w) n
        (r.2.putHeld c w (b.x.lanes w) d r.1 (some (m.clock + 4)) 0).acquire c w ls
      else
        (m.putHeld c w (b.x.lanes w) d 0 none m.next).block c w ls (.join n d) b.x.pc

/-- Whether a child's subtree is done: it has ended, its children have folded, and what its end releases is performed
(R310, R359). -/
def Mod.kidDone (m : Mod) (k : Child) : Bool :=
  k.ended && (m.kidsOf (.task k.id)).isEmpty && m.allPerformed k.deps

/-- A task that has become complete lowers the counter it was spawned on, and its mark raises the poison count (R359). -/
def Mod.countKid (m : Mod) (k : Child) : Mod :=
  let bad := k.poisoned || k.marked
  let m := m.onBlock k.core k.block fun b => b.onJoin k.counter fun j =>
    { count := j.count - 1, poison := if bad then j.poison + 1 else j.poison }
  (m.onKid k.id fun x => { x with counted := true }).joinProgress k.core k.block k.counter

/-- Whether a child's parent and its join counter stand on their core, and in no saved context (R411). -/
def Mod.kidLive (m : Mod) (k : Child) : Bool := (m.block? k.core k.block).isSome

/-- Every task that has become complete is counted; one of a saved context once it is restored (R359, R411). -/
def Mod.countKids (m : Mod) : Mod :=
  m.kids.foldl (fun m k => if !k.counted && m.kidLive k && m.kidDone k then m.countKid k else m) m

/-- The core, warp and lane of a parent that still exists. -/
def Mod.parentThread (m : Mod) (c : Nat) (p : Parent) : Option (Nat × Nat × Nat) :=
  match p with
  | .thread w l => match m.thread? c w l with
    | some t => if t.ended then none else some (c, w, l)
    | none => none
  | .task id => m.cores.findSome? fun k => k.warps.findSome? fun w =>
      (w.threads.find? fun t => t.task == some id && !t.ended).map fun t => (k.num, w.uid, t.lane)

/-- Whether a parent lets a child fold: it has ended, or it waits in `jwait` on a counter that has this child or a later
one (R360). -/
def Mod.foldAllowed (m : Mod) (k : Child) : Bool :=
  let waiting := (m.kids.any fun x => k.parent == .task x.id && !x.ended)
  match m.parentThread k.core k.parent with
  | none => !waiting
  | some (c, w, l) => (m.core c).waits.any fun g => g.warp == w && g.lanes.contains l &&
      match g.wait with
      | .join n _ => (m.kidsOf k.parent).any fun x => x.counter == n && decide (k.id ≤ x.id)
      | _ => false

/-- A child's view combined into its parent's, word by word (R360); a parent's view that a written-over record folds
into takes free values (R347). -/
def Mod.foldTile (m : Mod) (k : Child) (r : LRec) (t : Nat) (pv : Nat × Nat) : Mod :=
  match m.kidView k t with
  | none => m
  | some cv => (List.range r.vnrwords).foldl (fun m i =>
      let p : W32 := BitVec.ofNat 32 (leNat (m.poolRead pv.1 (pv.2 + 4 * i) 4))
      let x : W32 := BitVec.ofNat 32 (leNat (m.poolRead cv.1 (cv.2 + 4 * i) 4))
      let v : W32 := if k.wild then (Config.free64 m.free).setWidth 32 else vnrComb (tileOp r t) p x
      Mod.veneerWrite { m with free := m.free + 1 } pv.1 (pv.2 + 4 * i) (leBytes 4 v.toNat)) m

/-- The parent's view of a tile: the tile itself for a thread that is not a task (R355, R360). -/
def Mod.parentView (m : Mod) (k : Child) (t : Nat) : Option (Nat × Nat) :=
  match k.parent with
  | .task id => (m.kid? id).bind fun p => m.kidView p t
  | .thread _ _ => (m.block? k.core k.block).map fun b => (k.core, b.at_ (tileOff (m.recOfBlock b) t))

/-- VENEER_FOLD: the first child of a parent in spawn order folds into the parent's views, its own views are freed, and
its mark passes on; in a saved context none folds (R359, R360, R411). -/
def execVeneerFold (id : Nat) (s : State) : Out :=
  let m := s.now
  match m.kid? id with
  | none => .next s
  | some k =>
    let first := match m.kidsOf k.parent with | x :: _ => x.id == id | [] => false
    if k.counted && first && m.kidLive k && m.foldAllowed k then
      let r := ((m.block? k.core k.block).map m.recOfBlock).getD default
      let m := if k.poisoned then m else (maskTiles k.mask).foldl (fun m t => match m.parentView k t with
        | some pv => m.foldTile k r t pv
        | none => m) m
      let views := k.views.map (·.2)
      let m := m.onBlock k.viewCore k.viewBlock fun b => { b with viewsUsed := b.viewsUsed.filter fun v => !views.contains v }
      let m := match k.parent with
        | .task p => if k.poisoned || k.marked then m.onKid p fun x => { x with marked := true } else m
        | .thread _ _ => m
      let m := { m with kids := m.kids.filter fun x => x.id != id }
      .next { s with now := (m.joinProgress k.core k.block k.counter).countKids }
    else .next s

/-- The `jwait` waits of a core whose condition holds end, in warp-slot order: the poison count is read and cleared, and
the result lands 2 c after the last fold (R361). -/
def Mod.wakeJoins (m : Mod) (c : Nat) : Mod :=
  let k := m.core c
  let gs := k.waits.filterMap fun g => match g.wait with
    | .join n d => (k.warp? g.warp).map fun w => (w.slot, g, n, d)
    | _ => none
  ((List.range 256).flatMap fun i => gs.filter fun p => p.1 == i).foldl (fun m p =>
    let g := p.2.1
    if m.joinMet c g.warp g.lanes p.2.2.1 then
      let r := m.joinTake c (m.buid c g.warp) p.2.2.1
      (r.2.wakeWith c g (m.clock + 2) [(p.2.2.2, r.1)]).acquire c g.warp g.lanes
    else m) m

/-! ### Stealing and the cutting list (R362 to R364) -/

/-- Requests that a mailbox holds (R362). -/
def mailboxSize : Nat := 8

/-- The victim block that s[a] of `stl.req` names, if it is a good victim (R362). -/
def Mod.victim (m : Mod) (c w : Nat) (a : W64) : Option (Nat × Block) :=
  let t := c / 128 * 128 + (a.extractLsb' 0 7).toNat
  match (m.core t).blockIn? (a.extractLsb' 8 4).toNat, m.blockOf c w with
  | some v, some own =>
    if a.getLsbD 7 || a.toNat ≥ 4096 || v.launch != own.launch || v.uid == own.uid then none else some (t, v)
  | _, _ => none

/-- `stl.req`: a cistern entry is reserved and the request posted; the group waits for the status, 24 c after issue
(R362). -/
def execStlReq (h : Hdr) (f : FmtE) (s : State) : Out :=
  perWarp h s fun w _ b => b.on fun m =>
    let c := b.x.core
    let done := fun (m : Mod) (st : W64) =>
      (m.putHeld c w (b.x.lanes w) f.d.toNat st (some (m.clock + 24)) 0).holdTill c w (b.x.lanes w) (m.clock + 24)
    match m.victim c w (b.x.u w f.a), m.blockOf c w with
    | some v, some own =>
      if mailboxSize ≤ v.2.mailbox.length || (m.recOfBlock own).cistlen ≤ own.cistern.length + own.reserved then
        done m 1
      else
        let m := m.onBlock c own.uid fun x => { x with reserved := x.reserved + 1 }
        done (m.onBlock v.1 v.2.uid fun x =>
          { x with mailbox := x.mailbox ++ [{ core := c, block := own.uid, at_ := m.clock }] }) 0
    | _, _ => done m 2

/-- `cut.next`: the count and the entry are read in the access's own pass; an access of an earlier bundle to them that is not
performed yet holds the bundle (R39, R122, R296, R364). -/
def execCutNext (h : Hdr) (f : FmtE) (s : State) : Out :=
  perWarp h s fun w ls b =>
    match b.m.blockOf b.x.core w with
    | none => b
    | some blk =>
      let r := b.m.recOfBlock blk
      let count := b.readAhead w ls r.cutoff 4
      let at_ := r.cutoff + 4 * (blk.cursor + 1)
      let fault := b.faultAll (ls.map fun l => (w, l)) 0x08
      if r.scratch < r.cutoff + 4 then fault
      else if b.mustWait w ls r.cutoff 4 || (decide (blk.cursor < count) && b.mustWait w ls at_ 4) then
        { b with x := { b.x with hold := true } }
      else if count ≤ blk.cursor then (b.putS w f.d.toNat (BitVec.ofNat 64 (2 ^ 63)) 10 b.x.passes).addPasses 1
      else if r.scratch < at_ + 4 then fault
      else
        let b := (b.putS w f.d.toNat (BitVec.ofNat 64 (b.readAhead w ls at_ 4)) 10 b.x.passes).readAgain w at_ 4 6
          (.s w f.d.toNat)
        (b.on fun m => m.onBlock b.x.core blk.uid fun x => { x with cursor := x.cursor + 1 }).addPasses 1

end Sys2Proof.Machine
end

