-- ==== Sys2Proof/Machine/Flumes.lean ====
section
/-! DEFINITION. Flumes (R365 to R369): configuration, pushes, pops, and the waits on them. -/

namespace Sys2Proof.Machine

/-- A flume of a block; an index beyond those declared has no flume (R365). -/
def Block.flume? (b : Block) (n : Nat) : Option Flume := b.flumes[n]?

/-- A flume changed. -/
def Block.onFlume (b : Block) (n : Nat) (f : Flume → Flume) : Block :=
  { b with flumes := b.flumes.mapIdx fun i x => if i = n then f x else x }

/-- The waits of a block's threads on a flume, in the order in which they began. -/
def Core.flumeWaits (k : Core) (blk n : Nat) (push : Bool) : List GWait :=
  k.waits.filter fun g =>
    (match k.warp? g.warp with | some w => w.block == blk | none => false) &&
    (match g.wait with
      | .flmPush i _ => push && i == n
      | .flmPop i _ => !push && i == n
      | _ => false)

/-- A push or a pop is progress for the waits on its flume (R394). -/
def Mod.flumeProgress (m : Mod) (c blk n : Nat) : Mod := m.onCore c fun k => k.progress m.tick fun g =>
  (match k.warp? g.warp with | some w => w.block == blk | none => false) &&
  (match g.wait with
    | .flmPush i _ => i == n
    | .flmPop i _ => i == n
    | _ => false)

/-- Entries that a flume holds, and those that waiting pushes whose place is free are about to write (R368). -/
def Mod.flumeFull (m : Mod) (c blk n : Nat) (x : Flume) : Bool :=
  decide (x.a ≤ x.count + (((m.core c).flumeWaits blk n true).filter fun g => g.met.isSome).length)

/-- The entry of a push written (R368). -/
def Mod.flumePut (m : Mod) (c blk n : Nat) (v : W32) : Mod :=
  match m.block? c blk with
  | none => m
  | some b => match b.flume? n with
    | none => m
    | some x =>
      let m := m.swrite c b (x.base + 4 * x.tail) (leBytes 4 v.toNat)
      let m := m.onBlock c blk fun b => b.onFlume n fun x => { x with tail := (x.tail + 1) % x.e, count := x.count + 1 }
      m.flumeProgress c blk n

/-- The entry at the head taken (R368); the waiting push that gets its place is performed 2 c later. -/
def Mod.flumeTake (m : Mod) (c blk n : Nat) : W64 × Mod :=
  match m.block? c blk with
  | none => (0, m)
  | some b => match b.flume? n with
    | none => (0, m)
    | some x =>
      let v : W64 := BitVec.ofNat 64 (leNat (m.sread c b (x.base + 4 * x.head) 4))
      let m := m.onBlock c blk fun b => b.onFlume n fun x => { x with head := (x.head + 1) % x.e, count := x.count - 1 }
      let m := m.flumeProgress c blk n
      let first := ((m.core c).flumeWaits blk n true).find? fun g => g.met.isNone
      (v, match first with
        | none => m
        | some g =>
          let mark := fun (y : GWait) => { y with met := some (BitVec.ofNat 64 (m.clock + 2)) }
          m.onCore c fun k => { k with waits := alterFirst (fun y => y.id == g.id) mark k.waits })

/-- The pop that has waited longest takes the entry a push has brought; its result lands 10 c after the push (R368,
R369). -/
def Mod.servePop (m : Mod) (c blk n : Nat) : Mod :=
  match (m.core c).flumeWaits blk n false with
  | [] => m
  | g :: _ => match g.wait with
    | .flmPop _ d =>
      let r := m.flumeTake c blk n
      (r.2.wakeWith c g (m.clock + 10) [(d, r.1)]).acquire c g.warp g.lanes
    | _ => m

/-- A push performed, with the pop that waits for it. -/
def Mod.flumePush (m : Mod) (c blk n : Nat) (v : W32) : Mod := (m.flumePut c blk n v).servePop c blk n

/-- The waiting pushes of a core whose place has been free for 2 c are performed, in the order they began to wait (R368,
R369). -/
def Mod.runFlumes (m : Mod) (c : Nat) : Mod :=
  (m.core c).waits.foldl (fun m g => match g.wait, g.met with
    | .flmPush n v, some t =>
      if t.toNat ≤ m.clock then ((m.flumePush c (m.buid c g.warp) n v).wake c g m.clock) else m
    | _, _ => m) m

/-- A flume instruction by some threads of a warp: an index that the block has not, or an unconfigured flume, is the
flume fault (R365). -/
def withFlume (h : Hdr) (f : FmtE) (s : State) (cfg : Bool) (go : Nat → List Nat → Block → Flume → Bx → Bx) : Out :=
  perWarp h s fun w ls b =>
    let fault := b.faultAll (ls.map fun l => (w, l)) 0x1A
    match b.m.blockOf b.x.core w with
    | none => fault
    | some blk => match blk.flume? (f.cmd.toNat % 32) with
      | none => fault
      | some x => if !cfg && x.e == 0 then fault else go w ls blk x b

/-- A descriptor taken apart, if its fields are legal for a scratch size (R367). -/
def flumeDesc (a : W64) (scratch : Nat) : Option Flume :=
  let x := a.toNat
  let base := bitsOf x 0 21
  let e := bitsOf x 32 9
  let al := bitsOf x 48 9
  if base % 4 ≠ 0 ∨ scratch < base + 4 * e ∨ bitsOf x 21 11 ≠ 0 ∨ e = 0 ∨ 256 < e ∨ bitsOf x 41 7 ≠ 0 ∨ al = 0 ∨ e < al ∨
      bitsOf x 57 7 ≠ 0 then none
  else some { base := base, e := e, a := al, head := 0, tail := 0, count := 0 }

/-- `flm.cfg` (R367). -/
def execFlmCfg (h : Hdr) (f : FmtE) (s : State) : Out :=
  withFlume h f s true fun w ls blk x b =>
    let n := f.cmd.toNat % 32
    let fault := b.faultAll (ls.map fun l => (w, l)) 0x1A
    let k := b.m.core b.x.core
    let waited := !(k.flumeWaits blk.uid n true).isEmpty || !(k.flumeWaits blk.uid n false).isEmpty
    match flumeDesc (b.x.u w f.a) (b.m.scratchOf b.x.core w) with
    | none => fault
    | some y =>
      if x.count != 0 || waited then fault
      else b.on fun m => m.onBlock b.x.core blk.uid fun z => z.onFlume n fun _ => y

/-- `flm.push` (R368). -/
def execFlmPush (h : Hdr) (f : FmtE) (s : State) : Out :=
  withFlume h f s false fun w ls blk x b =>
    let n := f.cmd.toNat % 32
    let c := b.x.core
    let v : W32 := (b.x.u w f.a).extractLsb' 0 32
    (b.on fun m =>
      if m.flumeFull c blk.uid n x then m.block c w ls (.flmPush n v) b.x.pc
      else m.flumePush c blk.uid n v).addPasses 1

/-- `flm.pop` (R368). -/
def execFlmPop (h : Hdr) (f : FmtE) (s : State) : Out :=
  withFlume h f s false fun w ls blk x b =>
    let n := f.cmd.toNat % 32
    let c := b.x.core
    let d := f.d.toNat
    (b.on fun m =>
      if x.count = 0 then
        (m.putHeld c w (b.x.lanes w) d 0 none m.next).block c w ls (.flmPop n d) b.x.pc
      else
        let r := m.flumeTake c blk.uid n
        (r.2.putHeld c w (b.x.lanes w) d r.1 (some (m.clock + 10 + b.x.passes)) 0).acquire c w ls).addPasses 1

/-- `flm.try` (R368). (log 36, DEDUCED) -/
def execFlmTry (h : Hdr) (f : FmtE) (s : State) : Out :=
  withFlume h f s false fun w ls blk x b =>
    let n := f.cmd.toNat % 32
    let c := b.x.core
    if x.count = 0 then (b.putS w f.d.toNat (BitVec.ofNat 64 (2 ^ 63)) 10 b.x.passes).addPasses 1
    else
      let r := b.m.flumeTake c blk.uid n
      (({ b with m := r.2.acquire c w ls } : Bx).putS w f.d.toNat r.1 10 b.x.passes).addPasses 1

end Sys2Proof.Machine
end

