-- ==== Sys2Proof/Machine/Record.lean ====
section
/-! DEFINITION. The launch record (R376 to R381): its bytes taken apart, and the checks at the post (R438). -/

namespace Sys2Proof.Machine

/-- A zero that stands for a default. -/
def orElse0 (n d : Nat) : Nat := if n = 0 then d else n

/-- The fields of a record's 512 bytes, with the defaults of R377 in place. -/
def recordOf (bs : List Byte) : LRec :=
  let f := fun lo n => field bs lo n
  let w64 := fun lo => BitVec.ofNat 64 (f lo 8)
  let w32 := fun lo => BitVec.ofNat 32 (f lo 4)
  let flags := f 4 4
  { check := bitsOf flags 0 1 == 1, debug := bitsOf flags 1 1 == 1, gridsync := bitsOf flags 2 1 == 1,
    pinned := bitsOf flags 3 1 == 1, weightBound := bitsOf flags 4 1 == 1, kernel := w64 0x8, handler := w64 0x10,
    partition := w32 0x18, width := 16 * 2 ^ min 2 (f 0x1C 1), priority := f 0x1D 1, grid := f 0x1E 1,
    axes := f 0x1F 1, vregs := f 0x20 2, uregs := f 0x22 2, blocks := f 0x24 2, warps := f 0x26 2,
    weirs := orElse0 (f 0x28 2) 16, flumes := f 0x2A 1, core := f 0x2C 2, leatpool := f 0x2E 2, scratch := f 0x30 4,
    accsize := f 0x34 4, preload := w64 0x38, preloadLen := f 0x40 4, saves := f 0x44 2,
    wdog := orElse0 (f 0x46 2) 50, cistoff := f 0x48 4, cistlen := f 0x4C 2, vnrwords := orElse0 (f 0x4E 2) 1,
    vnrpool := f 0x50 4, vnrviews := f 0x54 2, cutoff := f 0x58 4, evring := f 0x5C 2,
    gauges := (List.range 8).map fun i => w32 (0x60 + 4 * i), tiles := (List.range 8).map fun i => w64 (0x80 + 8 * i),
    levels := (List.range 8).map fun i => w32 (0xC0 + 4 * i), ext := (List.range 5).map fun i => f (0xE0 + 2 * i) 2,
    bind := w64 0xF0, batch := w32 0xF8, flumeDescs := (List.range 16).map fun i => w64 (0x100 + 8 * i),
    nsucc := f 0x188 1, succ := (List.range 8).map fun i => w64 (0x190 + 8 * i) }

/-- A level entry that R379 admits. -/
def levelOk (e : W32) : Bool :=
  let dom := (e.extractLsb' 0 3).toNat
  let sc := (e.extractLsb' 3 3).toNat
  if e.getLsbD 6 then decide (dom < 7) && decide (dom ≤ sc) && e.extractLsb' 7 25 == 0 else e == 0

/-- The minor bytes of R354's operators. -/
def vnrOps : List Nat := [0x02, 0x0A, 0x12, 0x16, 0x1A, 0x22, 0x26, 0x2A, 0x56, 0x66]

/-- A tile entry that R380 admits. -/
def tileOk (r : LRec) (t : W64) : Bool :=
  let off := (t.extractLsb' 0 21).toNat
  if t.getLsbD 32 then off % 4 == 0 && decide (off + 4 * r.vnrwords ≤ r.scratch) && t.extractLsb' 21 3 == 0 &&
    vnrOps.contains (t.extractLsb' 24 8).toNat && t.extractLsb' 33 31 == 0
  else t == 0

/-- The units of scratchpad of a partition word. -/
def scratchUnits (p : W32) : Nat := 32 - ruOf p - auOf p

/-- The checks of R377 to R380 on the description. -/
def LRec.fieldsOk (r : LRec) : Bool :=
  let ru := ruOf r.partition
  let au := auOf r.partition
  (r.handler == 0 || pcLegal r.handler) && pcLegal r.kernel &&
  decide (1 ≤ ru) && decide (ru ≤ 32) && decide (ru + au ≤ 32) && r.partition.extractLsb' 16 16 == 0 &&
  decide (r.priority < 8) && decide (1 ≤ r.vregs) && decide (r.vregs ≤ 256) && decide (1 ≤ r.uregs) &&
  decide (r.uregs ≤ 512) && decide (1 ≤ r.blocks) && decide (r.blocks ≤ 16384) && decide (1 ≤ r.warps) &&
  decide (r.warps ≤ 4096 / r.width) && decide (r.weirs ≤ 256) && decide (r.flumes ≤ 32) && decide (r.core < 1024) &&
  decide (r.leatpool ≤ 256) && decide (r.scratch ≤ scratchUnits r.partition * 49152) &&
  decide (r.accsize ≤ au * 49152) && decide (r.preloadLen ≤ r.scratch) && decide (r.saves ≤ 8) &&
  decide (r.wdog ≤ 60000) && r.cistoff % 64 == 0 && decide (r.cistlen ≤ 4096) &&
  (r.cistlen == 0 || decide (r.cistoff + 64 * r.cistlen ≤ r.scratch)) && decide (r.vnrwords ≤ 256) &&
  r.vnrpool % 8 == 0 && decide (r.vnrviews ≤ 4096) &&
  (r.vnrviews == 0 || decide (r.vnrpool + r.vnrviews * viewBytes r ≤ r.scratch)) && r.cutoff % 4 == 0 &&
  r.gauges.all gaugeLegal && r.tiles.all (tileOk r) && r.levels.all levelOk &&
  (List.range 16).all fun i =>
    let d := getR r.flumeDescs i
    d == 0 || (decide (i < r.flumes) && (flumeDesc d r.scratch).isSome)

/-- The reserved bytes of a record and its version (R377, R381). -/
def recordPlain (bs : List Byte) : Bool :=
  let z := fun lo n => field bs lo n == 0
  field bs 0 2 == 1 && z 2 2 && decide (field bs 4 4 < 32) && decide (field bs 0x1C 1 < 3) && z 0x2B 1 && z 0x56 2 &&
  z 0x5E 2 && z 0xEA 6 && z 0xFC 4 && z 0x189 7 && z 0x1E0 32

/-- Whether a record passes every check of R377 to R381 that names status 7. -/
def recordOk (bs : List Byte) : Bool :=
  let r := recordOf bs
  recordPlain bs && r.fieldsOk && decide (r.nsucc ≤ 8) &&
  r.succ.all fun a => a.toNat % 512 == 0

end Sys2Proof.Machine
end

