-- ==== Sys2Proof/Machine/Jig.lean ====
section
/-! DEFINITION. Jigs (R200 to R205): records, `jig.set`, `jop` and its sweep. -/

namespace Sys2Proof.Machine

/-- A jig record taken apart (R200). -/
structure JigRec where
  base : Nat
  ext : List Nat
  st : List Int
  ctr : List Nat
  type : Nat
  gauge : Nat
  gen : Bool
  bc : Nat
  nd : Nat
deriving DecidableEq, Repr

/-- Bits [lo + n − 1 : lo] of a record. -/
def jbits (r : BitVec 512) (lo n : Nat) : Nat := bitsOf r.toNat lo n

/-- The fields of a record (R200); `nd` is the number of dimensions. -/
def jigOf (r : BitVec 512) : JigRec :=
  { base := jbits r 0 21, ext := (List.range 4).map fun k => jbits r (64 + 16 * k) 16,
    st := (List.range 4).map fun k => toS 32 (jbits r (128 + 32 * k) 32),
    ctr := (List.range 4).map fun k => jbits r (256 + 16 * k) 16, type := jbits r 320 4, gauge := jbits r 324 3,
    gen := jbits r 327 1 == 1, bc := jbits r 328 4, nd := jbits r 332 2 + 1 }

/-- The checks of R200 on a record by itself. -/
def jigLegal (r : BitVec 512) : Bool :=
  let j := jigOf r
  jbits r 21 43 == 0 && jbits r 334 50 == 0 && jbits r 384 128 == 0 && decide (j.type < 14) &&
  (List.range 4).all fun k =>
    if k < j.nd then j.ext.getD k 0 != 0 && decide (j.ctr.getD k 0 < j.ext.getD k 0)
    else j.ext.getD k 0 == 0 && j.st.getD k 0 == 0 && j.ctr.getD k 0 == 0

/-- The four counters of a record replaced. -/
def setCounters (r : BitVec 512) (c : List Nat) : BitVec 512 :=
  let n := c.foldr (fun x a => x % 65536 + 65536 * a) 0
  r.extractLsb' 320 192 ++ BitVec.ofNat 64 n ++ r.extractLsb' 0 256

/-- A jig register of a warp; all are zero when the warp starts (R200). -/
def Warp.jig (w : Warp) (n : Nat) : BitVec 512 := getR w.jigs n

/-- Whether a jig register is still being set (R201). -/
def Warp.jigWaits (w : Warp) (n clock : Nat) : Bool := w.jigBusy.any fun p => p.1 == n && decide (clock < p.2)

/-- A jig register is busy until its `jig.set` completes (R201). -/
def Warp.setBusy (w : Warp) (n t : Nat) : Warp := { w with jigBusy := (n, t) :: w.jigBusy.filter fun p => p.1 != n }

/-- The checks of R71 with n = 64 on the offset of `jig.set` (R201); an access of an earlier bundle to the record that is not
performed yet holds the bundle (R296). -/
def jigAccess (h : Hdr) (f : FmtE) (s : State) (go : Nat → List Nat → Nat → Bx → Bx) : Out :=
  perWarp h s fun w ls b =>
    let off := (b.x.u w f.a).toNat
    match accessFault off 64 64 (b.m.scratchOf b.x.core w) with
    | some cause => b.faultAll (ls.map fun l => (w, l)) cause
    | none =>
      if b.mustWait w ls off 64 then { b with x := { b.x with hold := true } } else (go w ls off b).addPasses 1

/-- `jig.set`: a record is loaded in the access's own pass, checked under R200 (R39, R122, R201). -/
def execJigSet (h : Hdr) (f : FmtE) (s : State) : Out :=
  jigAccess h f s fun w ls off b =>
    let r := BitVec.ofNat 512 (b.readAhead w ls off 64)
    if jigLegal r then
      let b := b.on fun m => m.onWarp b.x.core w fun x =>
        { x with jigs := setR x.jigs f.cmd.toNat r }.setBusy f.cmd.toNat (m.clock + 10)
      if b.x.passes = 0 then b
      else b.later w b.x.passes (b.m.poolAt b.x.core w off) (.jig w ls f.cmd.toNat)
    else b.faultAll (ls.map fun l => (w, l)) 0x10

/-- `jig.set.sv`: the register, counters included, is written to the scratchpad (R201). -/
def execJigSetSv (h : Hdr) (f : FmtE) (s : State) : Out :=
  jigAccess h f s fun w _ off b =>
    let r := ((b.m.warp? b.x.core w).map fun x => x.jig f.cmd.toNat).getD 0
    (b.writePass w off 64 r.toNat).on fun m => m.onWarp b.x.core w fun x => x.setBusy f.cmd.toNat (m.clock + 10)

/-- `jig.set.clr`: the counters become zero (R201). -/
def execJigSetClr (h : Hdr) (f : FmtE) (s : State) : Out :=
  perWarp h s fun w _ b => b.on fun m => m.onWarp b.x.core w fun x =>
    { x with jigs := setR x.jigs f.cmd.toNat (setCounters (x.jig f.cmd.toNat) []) }.setBusy f.cmd.toNat (m.clock + 10)

/-- The linear index of counters, dimension 0 fastest. -/
def linIndex : List Nat → List Nat → Nat
  | c :: cs, e :: es => c + (if e = 0 then 1 else e) * linIndex cs es
  | _, _ => 0

/-- The counters of a linear index. -/
def unLin : Nat → List Nat → List Nat
  | _, [] => []
  | i, e :: es => i % (if e = 0 then 1 else e) :: unLin (i / (if e = 0 then 1 else e)) es

/-- The elements of a record's tile. -/
def JigRec.count (j : JigRec) : Nat := (j.ext.take j.nd).foldl (· * ·) 1

/-- The byte address of an element, formed in 64 bits (R200). -/
def JigRec.addr (j : JigRec) (idx : List Nat) : Int :=
  (List.range j.nd).foldl (fun a k =>
    if j.bc / 2 ^ k % 2 = 1 then a else a + (idx.getD k 0 : Int) * j.st.getD k 0) (j.base : Int)

/-- The bytes of an element. -/
def JigRec.bytes (j : JigRec) : Nat := tyWidth j.type / 8

/-- Whether a source's shape fits the destination's (R203). -/
def JigRec.fits (x y : JigRec) : Bool :=
  x.nd == y.nd && (List.range x.nd).all fun k => x.ext.getD k 0 == y.ext.getD k 0 || y.bc / 2 ^ k % 2 == 1

/-- Whether a record's gauge is one that a sweep accepts: the type's own scalar format (R200). -/
def JigRec.gaugeOk (j : JigRec) (g : GaugeW) : Bool := !j.gen || g.fmt == j.type

/-- The scale of a record's elements (R176). -/
def JigRec.scale (j : JigRec) (g : GaugeW) : Int := if j.gen then g.scale else 0

/-- An element's exact value (R203). -/
def JigRec.value (j : JigRec) (g : GaugeW) (raw : Nat) : Num := (readNum j.type raw).scale (j.scale g)

/-- The smaller or larger of two exact values, a NaN giving way to a number (R107, R203). -/
def numMinMax (mx : Bool) (a b : Num) : Num :=
  if a.isNan then b else if b.isNan then a
  else if mx then (if a.below b then b else a) else (if b.below a then b else a)

/-- The value of a sweep's operation (R203). -/
def jopVal (op : Nat) (y z : Num) (s : W32) : Num :=
  match op with
  | 0 => y
  | 1 => y.add z
  | 2 => y.add z.neg
  | 3 => y.mul z
  | 4 => numMinMax false y z
  | 5 => numMinMax true y z
  | 6 => (y.mul (unF f32 s.toNat)).add z
  | _ => y.mul (unF f32 s.toNat)

/-- Whether an operation uses source Z (R203). -/
def jopUsesZ (op : Nat) : Bool := op != 0 && op != 7

/-- A warp of a core, also one that has ended while a sweep of its group runs on (R82). -/
def Core.warpOrEnded? (k : Core) (w : Nat) : Option Warp :=
  (k.warp? w).orElse fun _ => k.ended.find? fun x => x.uid == w

/-- Such a warp changed. -/
def Core.onWarpOrEnded (k : Core) (w : Nat) (f : Warp → Warp) : Core :=
  { k with warps := alterFirst (fun x => x.uid == w) f k.warps, ended := alterFirst (fun x => x.uid == w) f k.ended }

/-- A gauge of a block's launch (R174). -/
def Mod.gaugeIn (m : Mod) (b : Block) (i : Nat) : GaugeW := gaugeOf ((m.recOfBlock b).gauges.getD i 0)

/-- Whether the records of a sweep pass the checks of R200 and R203. -/
def jopOk (op : Nat) (wp : Warp) (xi yi zi : Nat) (g : Nat → GaugeW) : Bool :=
  let x := jigOf (wp.jig xi)
  let y := jigOf (wp.jig yi)
  let z := jigOf (wp.jig zi)
  jigLegal (wp.jig xi) && jigLegal (wp.jig yi) && x.fits y && x.gaugeOk (g x.gauge) && y.gaugeOk (g y.gauge) &&
    (!jopUsesZ op || (jigLegal (wp.jig zi) && x.fits z && z.gaugeOk (g z.gauge)))

/-- The fewest cycles from the issue of a `jop` to the landing of its status: by the elements left (R204). -/
def jopCycles (x : JigRec) : Nat := 12 + 2 * ((x.count - linIndex x.ctr x.ext + 63) / 64)

/-- `jop`: the records are checked, and the group waits for its sweep (R203, R204). -/
def execJop (h : Hdr) (f : FmtE) (s : State) : Out :=
  perWarp h s fun w ls b =>
    match b.m.warp? b.x.core w with
    | none => b
    | some wp =>
      let op := f.minor.toNat
      let xi := f.cmd.toNat % 8
      let yi := f.cmd.toNat / 8 % 8
      let zi := f.cmd.toNat / 64 % 8
      if wp.jigWaits xi b.m.clock || wp.jigWaits yi b.m.clock || (jopUsesZ op && wp.jigWaits zi b.m.clock) then
        { b with x := { b.x with hold := true } }
      else
        if !jopOk op wp xi yi zi (b.m.gauge b.x.core w) then b.faultAll (ls.map fun l => (w, l)) 0x10
        else
          let id := b.m.next
          let lanes := b.x.lanes w
          let sw : Sweep := {
            id := id, block := wp.block, warp := w, lanes := lanes, op := op, x := xi, y := yi, z := zi,
            scalar := (b.x.u w f.a).extractLsb' 0 32, d := f.d.toNat, pc := b.x.pc, slot := b.x.cur,
            readyAt := b.m.clock + jopCycles (jigOf (wp.jig xi)), after := (b.m.core b.x.core).portFree,
            deps := b.m.selfWrites b.x.core, again := false, taint := [], a := f.a.toNat, part := none }
          let m := Mod.onCore { b.m with next := id + 1 } b.x.core fun k => { k with sweeps := k.sweeps ++ [sw] }
          let m := m.putHeld b.x.core w ls f.d.toNat 0 none id
          { b with m := lanes.foldl (fun m l => m.onThread b.x.core w l fun t => { t with run := .busy id }) m }

/-- The bytes of a source over a whole sweep, as byte ranges. -/
def sourceRanges (x y : JigRec) : List (Int × Nat) :=
  (List.range x.count).map fun i => (y.addr (unLin i x.ext), y.bytes)

/-- Whether a destination element overlaps a source that is no exact alias (R205). -/
def clashes (x y : JigRec) (a : Int) (ranges : List (Int × Nat)) : Bool :=
  !(x.base == y.base && x.st == y.st && x.bytes == y.bytes) &&
  ranges.any fun r => decide (a < r.1 + r.2) && decide (r.1 < a + x.bytes)

/-- What stops a sweep at an element: status 1 for a misaligned address, 2 for one outside the scratch size; 1 where both hold, and
of the records X before Y before Z (R204). (log 108, DESIGN CHOICE) -/
def elemStop (j : JigRec) (idx : List Nat) (scratch : Nat) : Option Nat :=
  let a := j.addr idx
  if a % j.bytes ≠ 0 then some 1 else if a < 0 ∨ (scratch : Int) < a + j.bytes then some 2 else none

/-- The results of up to n elements from a linear index on: address, value and whether the value is undefined; and what
stopped the sweep, if something did (R204). -/
def sweepChunk (m : Mod) (c : Nat) (b : Block) (sw : Sweep) (x y z : JigRec) (gx gy gz : GaugeW) (scratch : Nat) :
    Nat → Nat → List (Nat × Nat × Bool) × Nat × Option Nat
  | 0, i => ([], i, none)
  | n + 1, i =>
    if x.count ≤ i then ([], i, none)
    else
      let idx := unLin i x.ext
      let uz := jopUsesZ sw.op
      match (elemStop x idx scratch).orElse fun _ => (elemStop y idx scratch).orElse fun _ =>
          if uz then elemStop z idx scratch else none with
      | some e => ([], i, some e)
      | none =>
        let rd := fun (j : JigRec) => leNat (m.sread c b (j.addr idx).toNat j.bytes)
        let bad := fun (j : JigRec) => sw.taint.any fun t => overlaps t.1 t.2 (b.at_ (j.addr idx).toNat) j.bytes
        let v := jopVal sw.op (y.value gy (rd y)) (z.value gz (rd z)) sw.scalar
        let a := x.addr idx
        let und := bad y || (uz && bad z) || clashes x y a (sourceRanges x y) ||
          (uz && clashes x z a (sourceRanges x z))
        let r := sweepChunk m c b sw x y z gx gy gz scratch n (i + 1)
        ((a.toNat, writeNum x.type (v.scale (-(x.scale gx))), und) :: r.1, r.2)

/-- A sweep's own write: it marks matrix operands, and not the sweep itself. -/
def Mod.sweepWrite (m : Mod) (c : Nat) (b : Block) (id off : Nat) (bs : List Byte) : Mod :=
  let old := ((m.core c).sweeps.find? fun s => s.id == id).map (·.taint)
  (m.swrite c b off bs).onCore c fun k =>
    { k with sweeps := alterFirst (fun s => s.id == id) (fun s => { s with taint := old.getD [] }) k.sweeps }

/-- The destination elements that others wrote while the sweep ran, as linear indices below n (R205). -/
def spoiled (sw : Sweep) (b : Block) (x : JigRec) (n : Nat) : List Nat :=
  (List.range n).filter fun i =>
    let a := x.addr (unLin i x.ext)
    decide (0 ≤ a) && sw.taint.any fun t => overlaps t.1 t.2 (b.at_ a.toNat) x.bytes

/-- A destination element receives an undefined value. -/
def Mod.spoilElem (m : Mod) (c : Nat) (b : Block) (id : Nat) (x : JigRec) (i : Nat) : Mod :=
  let r := m.draw
  r.2.sweepWrite c b id (x.addr (unLin i x.ext)).toNat (leBytes x.bytes r.1.toNat)

/-- The end of a sweep: the status is on its way to its register, and the group is in gap until it lands (R204). -/
def Mod.sweepEnd (m : Mod) (c : Nat) (sw : Sweep) (status : Nat) : Mod :=
  let t := max sw.readyAt m.clock
  let m := m.onCore c fun k => { k with
    sweeps := k.sweeps.filter fun s => s.id != sw.id,
    flights := k.flights.map fun f => if f.id == sw.id && f.kind == .held then
      { f with val := BitVec.ofNat 64 status, land := some t } else f }
  sw.lanes.foldl (fun m l => m.onThread c sw.warp l fun th =>
    let th := { th with notBefore := max th.notBefore t }
    if th.run == .busy sw.id then { th with run := .gap th.notBefore } else th) m

/-- A sweep that a save has stopped: after the restore its group issues the `jop` again, for the elements left, with its checks,
its time and its scalar anew (R204, R411). The bundle's other instructions have had their effects.
(log 51, DEDUCED) -/
def Mod.jopAgain (m : Mod) (c : Nat) (sw : Sweep) (b : Block) (wp : Warp) : Mod :=
  let set := fun (k : Core) (f : Sweep → Sweep) => { k with sweeps := alterFirst (fun s => s.id == sw.id) f k.sweeps }
  let s := if (m.warp? c sw.warp).isSome then m.readS c sw.warp sw.lanes sw.a else getR wp.s sw.a
  if jopOk sw.op wp sw.x sw.y sw.z (m.gaugeIn b) then
    m.onCore c fun k => set k fun y => { y with
      again := false, scalar := s.extractLsb' 0 32, readyAt := m.clock + jopCycles (jigOf (wp.jig sw.x)), after := k.portFree, deps := m.selfWrites c }
  else
    let m := m.onCore c fun k => { k with
      sweeps := k.sweeps.filter fun s => s.id != sw.id, flights := k.flights.filter fun f => f.id != sw.id || f.kind != .held }
    sw.lanes.foldl (fun m l => match m.thread? c sw.warp l with
      | some t => if t.run == .busy sw.id then m.park c sw.warp l 0x10 sw.slot 0 sw.pc false else m
      | none => m) m

/-- The elements that a chunk writes, with the free values of those that are undefined. -/
def Mod.chunkElems (m : Mod) (n : Nat) : List (Nat × Nat × Bool) → List (Nat × List Byte) × Mod
  | [] => ([], m)
  | e :: es =>
    let v := if e.2.2 then m.draw else (BitVec.ofNat 64 e.2.1, m)
    let r := v.2.chunkElems n es
    ((e.1, leBytes n v.1.toNat) :: r.1, r.2)

/-- An element of a chunk written in part: which of its bytes, is a free value (R295). -/
def Mod.mixElem (m : Mod) (c : Nat) (b : Block) (id : Nat) (e : Nat × List Byte) : Mod :=
  let r := m.draw
  let old := m.sread c b e.1 e.2.length
  r.2.sweepWrite c b id e.1 ((e.2.zip old).zipIdx.map fun x => if r.1.getLsbD x.2 then x.1.1 else x.1.2)

/-- One chunk of a sweep begun (R204): it has read all its sources, and some bytes of its destination are written (R295).
(log 107, DESIGN CHOICE) -/
def Mod.sweepBegin (m : Mod) (c : Nat) (sw : Sweep) (b : Block) (wp : Warp) : Mod :=
  let x := jigOf (wp.jig sw.x)
  let y := jigOf (wp.jig sw.y)
  let z := jigOf (wp.jig sw.z)
  let g := fun (j : JigRec) => m.gaugeIn b j.gauge
  let r := sweepChunk m c b sw x y z (g x) (g y) (g z) (m.recOfBlock b).scratch 64 (linIndex x.ctr x.ext)
  let q := m.chunkElems x.bytes r.1
  let m := q.1.foldl (fun m e => m.mixElem c b sw.id e) q.2
  m.onCore c fun k =>
    { k with sweeps := alterFirst (fun s => s.id == sw.id) (fun s => { s with part := some (q.1, r.2) }) k.sweeps }

/-- A chunk begun lands: its elements are written, and X's counters name the next index (R204). -/
def Mod.sweepLand (m : Mod) (c : Nat) (sw : Sweep) (b : Block) (wp : Warp) (part : List (Nat × List Byte) × Nat × Option Nat) :
    Mod :=
  let x := jigOf (wp.jig sw.x)
  let m := part.1.foldl (fun m e => m.sweepWrite c b sw.id e.1 e.2) m
  let i := part.2.1
  let fin := decide (x.count ≤ i)
  let ctr := if fin then [] else unLin i x.ext
  let m := m.onCore c fun k => k.onWarpOrEnded sw.warp fun p =>
    { p with jigs := setR p.jigs sw.x (setCounters (p.jig sw.x) ctr) }
  if fin || part.2.2.isSome then
    let m := (spoiled sw b x i).foldl (fun m j => m.spoilElem c b sw.id x j) m
    m.sweepEnd c sw (part.2.2.getD 0)
  else m.onCore c fun k =>
    { k with sweeps := alterFirst (fun s => s.id == sw.id) (fun s => { s with part := none }) k.sweeps }

/-- A sweep that a save stops does so at a chunk boundary: a chunk begun lands (R204, R411). -/
def Mod.sweepStop (m : Mod) (c : Nat) (sw : Sweep) : Mod :=
  match sw.part, (m.core c).warpOrEnded? sw.warp, m.block? c sw.block with
  | some p, some wp, some b => m.sweepLand c sw b wp p
  | _, _, _ => m

/-- JIG_SWEEP_CHUNK: the oldest sweep of a warp begins its next chunk of up to 64 elements, once the writes that its `jop` has
to see are performed, or lands the chunk begun (R204, R205, R295, R308). -/
def execJigSweepChunk (c w : Nat) (s : State) : Out :=
  let m := s.now
  match (m.core c).sweeps.find? fun x => x.warp == w with
  | none => .next s
  | some sw => match (m.core c).warpOrEnded? w, m.block? c sw.block with
    | some wp, some b =>
      if m.frozen (m.asidOf b.launch) then .next s
      else if sw.again then
        if (m.core c).flights.any fun f => f.kind != .fixed && f.id != sw.id && f.dest == .s w sw.a then .next s
        else .next { s with now := m.jopAgain c sw b wp }
      else if decide (m.clock < sw.after) || !m.allPerformed sw.deps then .next s
      else match sw.part with
        | none => .next { s with now := m.sweepBegin c sw b wp }
        | some p => .next { s with now := m.sweepLand c sw b wp p }
    | _, _ => .next s

end Sys2Proof.Machine
end

