-- ==== Sys2Proof/Machine/Port.lean ====
section
/-! DEFINITION. The scratchpad port of a core: what each pass of an access does in its cycle (R39, R122, R144), the reads of
`mopf` and `jig.set` among them (R193, R201). -/

namespace Sys2Proof.Machine

/-- `mopf` reads its block in its own pass: what is staged is what stands there then. A block that has become an illegal one
since the issue is staged as the issue found it. -/
def Mod.restage (m : Mod) (c w : Nat) (ls : List Nat) (id off : Nat) : Mod :=
  match (m.warp? c w).bind (·.mstage) with
  | none => m
  | some g =>
    let ws := words64 8 (leBytes 64 (m.sreadOf c w ls off 64))
    if g.id = id ∧ m.paramOk c w g.kind ws = true then
      m.onWarp c w fun x => { x with mstage := some { m.stagedBlock c w g.kind off ws with
        id := g.id, readyAt := g.readyAt, taint := g.taint, ztaint := g.ztaint } }
    else m

/-- `jig.set` reads its record in its own pass; one that has become illegal since the issue stays as the issue found it. -/
def Mod.rejig (m : Mod) (c w : Nat) (ls : List Nat) (n off : Nat) : Mod :=
  let r := BitVec.ofNat 512 (m.sreadOf c w ls off 64)
  if jigLegal r then m.onWarp c w fun x => { x with jigs := setR x.jigs n r } else m

/-- The payload of a fabric operation is in the outbound buffer: what stands at an address of the core's pool (R223). -/
def Mod.takePayload (m : Mod) (c id a : Nat) : Mod :=
  let one := fun (o : FabOp) =>
    { o with pkt := { o.pkt with pay := m.readBy (o.lanes.map fun l => (c, o.warp, l)) c a o.pkt.pay.length } }
  { m with fabOps := alterFirst (fun o => o.id == id) one m.fabOps }

/-- The offset in a warp's block of an address of its core's pool. -/
def Mod.offsetOf (m : Mod) (c w a : Nat) : Nat := a - m.poolAt c w 0

/-- One pass of a core's scratchpad port. -/
def Mod.passTakes (m : Mod) (c : Nat) (p : PortPass) : Mod :=
  match p.what with
  | .stage w ls id => m.restage c w ls id (m.offsetOf c w p.addr)
  | .jig w ls n => m.rejig c w ls n (m.offsetOf c w p.addr)
  | .payload id => m.takePayload c id p.addr
  | _ => m.passDoes c p

/-- One pass of a core's scratchpad port; engines that took their operands after its access was issued do not count it as a later
write. A fence that waits for it has made progress (R394). -/
def Mod.runPass (m : Mod) (c : Nat) (p : PortPass) : Mod := ((m.fenceProgress c p.id).passTakes c p).untouch m p.id

/-- The passes of a core whose cycle has come, in order; in a cycle they come before every access of the second kind
(R144). -/
def Mod.runPasses (m : Mod) (c : Nat) : Mod :=
  let ps := (m.core c).passes
  let due := fun (p : PortPass) => decide (p.at_ ≤ m.clock)
  if ps.any due then
    let m := (ps.filter due).foldl (fun m p => m.runPass c p) m
    m.onCore c fun k => { k with passes := k.passes.filter fun p => !due p }
  else m

end Sys2Proof.Machine
end

