-- ==== Sys2Proof/Machine/Touch.lean ====
section
/-! DEFINITION. Which registers each instruction reads and writes, and with what latency (R34 to R38), which
instructions are warp-level (R31, R57 to R65), and which use the scratchpad port (R39, R122, R155). -/

namespace Sys2Proof.Machine

/-- A register that an instruction reads or writes: file 0 holds the vector registers, 1 the predicates, 2 the uniform
registers, 3 the trap registers. `lat` is the fixed latency of a result, 0 for one that is pending (R38). -/
structure Acc where
  file : Nat
  n : Nat
  wr : Bool
  lat : Nat
deriving DecidableEq, Repr

/-- A vector register read. -/
def rV (n : Nat) : List Acc := [{ file := 0, n := n, wr := false, lat := 0 }]

/-- k vector registers read. -/
def rVs (n k : Nat) : List Acc := (List.range k).flatMap fun i => rV (n + i)

/-- A vector operand of a type read: a pair for 64 bits (R100). -/
def rT (t n : Nat) : List Acc := rVs n (if tyWidth t = 64 then 2 else 1)

/-- k vector registers written. -/
def wVs (n k lat : Nat) : List Acc := (List.range k).map fun i => { file := 0, n := n + i, wr := true, lat := lat }

/-- A vector result of a type (R100). -/
def wT (t n lat : Nat) : List Acc := wVs n (if tyWidth t = 64 then 2 else 1) lat

/-- A uniform register read. -/
def rS (r : BitVec 9) : List Acc := [{ file := 2, n := r.toNat, wr := false, lat := 0 }]

/-- k uniform registers read. -/
def rSs (r : BitVec 9) (k : Nat) : List Acc :=
  (List.range k).map fun i => { file := 2, n := r.toNat + i, wr := false, lat := 0 }

/-- A uniform register written. -/
def wS (r : BitVec 9) (lat : Nat) : List Acc := [{ file := 2, n := r.toNat, wr := true, lat := lat }]

/-- A predicate read; q0 is constant (R6). -/
def rQ (n : Nat) : List Acc := if n = 0 then [] else [{ file := 1, n := n, wr := false, lat := 0 }]

/-- A predicate written; q0 is no destination (R21). -/
def wQ (n lat : Nat) : List Acc := if n = 0 then [] else [{ file := 1, n := n, wr := true, lat := lat }]

/-- A trap register: `$tcause` 0, the halves of `$tepc` 1 and 2 (R36, R95). -/
def tReg (n : Nat) (wr : Bool) : List Acc := [{ file := 3, n := n, wr := wr, lat := if wr then 4 else 0 }]

/-- Operand b of a uniform instruction (R22). -/
def ubAcc (f : FmtV) : List Acc := if f.bk = 2 then [] else rS f.b

/-- Operand b of a vector instruction at a type (R22, R100). -/
def vbAcc (f : FmtV) (t : Nat) : List Acc := if f.bk = 0 then rT t f.b.toNat else if f.bk = 1 then rS f.b else []

/-- The base of format M (R24). -/
def baseAcc (f : FmtM) : List Acc := if f.bk then rS f.base else rV f.base.toNat

/-- A two-source uniform operation. -/
def uni2 (f : FmtV) : List Acc := rS f.a ++ ubAcc f ++ wS f.d 2

/-- A two-source vector operation at the minor's type. -/
def vec2 (f : FmtV) : List Acc :=
  let t := tyOfMinor f.minor
  rT t f.a.toNat ++ vbAcc f t ++ wT t f.d.toNat 4

/-- A one-source vector operation at the minor's type. -/
def vec1 (f : FmtV) : List Acc := rT (tyOfMinor f.minor) f.a.toNat ++ wT (tyOfMinor f.minor) f.d.toNat 4

/-- A binary32 operation with two sources. -/
def flt2 (f : FmtV) (lat : Nat) : List Acc := rV f.a.toNat ++ vbAcc f 6 ++ wVs f.d.toNat 1 lat

/-- A binary32 operation with one source. -/
def flt1 (f : FmtV) (lat : Nat) : List Acc := rV f.a.toNat ++ wVs f.d.toNat 1 lat

/-- A binary64 operation in register pairs. -/
def dbl2 (f : FmtV) : List Acc := rT 11 f.a.toNat ++ vbAcc f 11 ++ wT 11 f.d.toNat 10

/-- A shuffle. -/
def shufAcc (f : FmtV) : List Acc := rV f.a.toNat ++ vbAcc f 6 ++ wVs f.d.toNat 1 6 ++ wQ f.qd.toNat 6

/-- A compare's results (R104). -/
def cmpAcc (f : FmtV) : List Acc := wQ f.qd.toNat 4 ++ (if f.aux = 1 then wVs f.d.toNat 1 4 else [])

/-- The data of an atomic that begins at register d: words read, and written when it returns a value. -/
def atomAcc (d op words : Nat) (ret : Bool) (lat : Nat) : List Acc :=
  rVs d (if op = 7 then 2 * words else words) ++ (if ret then wVs d words lat else [])

/-- The registers that a slot instruction reads and writes, less its guard; W is the launch's warp width and g its
gauges. (log 71, DEDUCED; log 92, DESIGN CHOICE) -/
def touches (width : Nat) (g : Nat → GaugeW) : Instr → List Acc
  | .sadd _ f => uni2 f
  | .ssub _ f => uni2 f
  | .smul _ f => uni2 f
  | .smulh _ f => uni2 f
  | .sdiv _ f => uni2 f
  | .srem _ f => uni2 f
  | .sand _ f => uni2 f
  | .sor _ f => uni2 f
  | .sxor _ f => uni2 f
  | .sshl _ f => uni2 f
  | .sshr _ f => uni2 f
  | .ssra _ f => uni2 f
  | .smin _ f => uni2 f
  | .smax _ f => uni2 f
  | .sli _ f => wS f.d 2
  | .slih _ f => rS f.d ++ wS f.d 2
  | .smov _ f => rS f.a ++ wS f.d 2
  | .scmp _ f => uni2 f ++ wQ f.qd.toNat 2
  | .ssel _ f => uni2 f ++ rS f.c
  | .sld _ f => rS f.base ++ wS f.d 10
  | .sst _ f => rS f.base ++ rS f.d
  | .nop _ _ => []
  | .bra _ _ => []
  | .brc _ f => rV f.a.toNat
  | .call _ f => wVs f.l.toNat 2 1
  | .ret _ f => rVs f.a.toNat 2
  | .jmpi _ f => rVs f.a.toNat 2
  | .wsync _ f => if f.aux = 1 then rS f.a else []
  | .exit _ _ => []
  | .yield _ _ => []
  | .elect _ f => wQ f.qd.toNat 4 ++ (if f.aux = 1 then wVs f.d.toNat 1 4 else [])
  | .trap _ _ => []
  | .tret _ _ => tReg 1 false ++ tReg 2 false
  | .mfsr _ f =>
    (if f.sr = 0x020 then tReg 0 false else if f.sr = 0x021 then tReg (1 + f.aux.toNat % 2) false else []) ++
      (if f.dk then wS f.d 2 else wVs f.d.toNat 1 4)
  | .mtsr _ f => rV f.a.toNat ++ tReg (if f.sr = 0x020 then 0 else 1 + f.aux.toNat % 2) true
  | .lnch _ f => rS f.a
  | .evnt _ f => rS f.a
  | .brk _ _ => []
  | .vadd _ f => vec2 f
  | .vsub _ f => vec2 f
  | .vmulLo _ f => vec2 f
  | .vmulHi _ f => vec2 f
  | .vmad _ f => vec2 f ++ rT (tyOfMinor f.minor) f.c.toNat
  | .vand _ f => vec2 f
  | .vor _ f => vec2 f
  | .vxor _ f => vec2 f
  | .vnot _ f => vec1 f
  | .vshl _ f => vec2 f
  | .vshr _ f => vec2 f
  | .vsra _ f => vec2 f
  | .vmin _ f => vec2 f
  | .vmax _ f => vec2 f
  | .vabs _ f => vec1 f
  | .vneg _ f => vec1 f
  | .vpopc _ f => vec1 f
  | .vclz _ f => vec1 f
  | .vbrev _ f => vec1 f
  | .vbfe _ f => vec1 f
  | .vbfi _ f => vec2 f
  | .vsel _ f => vec2 f ++ rQ (f.aux.toNat % 8)
  | .vmov _ f => vbAcc f (tyOfMinor f.minor) ++ wT (tyOfMinor f.minor) f.d.toNat 4
  | .vli _ f => wVs f.d.toNat 1 4
  | .vcmp _ f => rT (tyOfMinor f.minor) f.a.toNat ++ vbAcc f (tyOfMinor f.minor) ++ cmpAcc f
  | .vfadd _ f => flt2 f 6
  | .vfsub _ f => flt2 f 6
  | .vfmul _ f => flt2 f 6
  | .vffma _ f => flt2 f 6 ++ rV f.c.toNat
  | .vfmin _ f => flt2 f 4
  | .vfmax _ f => flt2 f 4
  | .vfabs _ f => flt1 f 4
  | .vfneg _ f => flt1 f 4
  | .vfcmp _ f => rV f.a.toNat ++ vbAcc f 6 ++ cmpAcc f
  | .vdadd _ f => dbl2 f
  | .vdmul _ f => dbl2 f
  | .vdffma _ f => dbl2 f ++ rT 11 f.c.toNat
  | .vcvt _ f => rT (hiOfMinor f.minor) f.a.toNat ++ wT (tyOfMinor f.minor) f.d.toNat 6
  | .vpack _ f => flt2 f 6 ++ (if tyOfMinor f.minor = 12 ∨ tyOfMinor f.minor = 13 then rV f.d.toNat else [])
  | .vunpk _ f => flt1 f 6
  | .vhfmaBf16x2 _ f => flt2 f 6 ++ rV f.c.toNat
  | .vhfmaF16x2 _ f => flt2 f 6 ++ rV f.c.toNat
  | .vrcp _ f => flt1 f 14
  | .vrsq _ f => flt1 f 14
  | .vsqrt _ f => flt1 f 14
  | .vdiv _ f => flt2 f 14
  | .vexp2 _ f => flt1 f 14
  | .vlog2 _ f => flt1 f 14
  | .vsin _ f => flt1 f 14
  | .vcos _ f => flt1 f 14
  | .vshflIdx _ f => shufAcc f
  | .vshflUp _ f => shufAcc f
  | .vshflDown _ f => shufAcc f
  | .vshflXor _ f => shufAcc f
  | .vbcast _ f => shufAcc f
  | .vred _ f =>
    rV f.a.toNat ++ wVs f.d.toNat (if hiOfMinor f.minor = 3 ∨ hiOfMinor f.minor = 4 then 2 else 1) 10
  | .vscan _ f => flt1 f 10
  | .vballot _ f => rQ (f.aux.toNat % 8) ++ wVs f.d.toNat (if width = 64 then 2 else 1) 10
  | .vany _ f => rQ (f.aux.toNat % 8) ++ wQ f.qd.toNat 10
  | .vall _ f => rQ (f.aux.toNat % 8) ++ wQ f.qd.toNat 10
  | .vld _ f => baseAcc f ++ wVs f.d.toNat (elemRegs f) 10
  | .vst _ f => baseAcc f ++ rVs f.d.toNat (elemRegs f)
  | .vstCw _ f => baseAcc f ++ rVs f.d.toNat (elemRegs f)
  | .vldt _ f => baseAcc f ++ wVs f.d.toNat (tyWidth (f.aux.toNat % 16) / 8) 12
  | .vldc _ f => baseAcc f ++ wVs f.d.toNat (elemRegs f) 0
  | .vatom _ f =>
    baseAcc f ++ atomAcc f.d.toNat (hiOfMinor f.minor) (tyWidth (tyOfMinor f.minor) / 32) (f.aux == 1) 10
  | .mma _ f => wS f.d 2
  | .mopf _ f => rS f.a
  | .mwait _ f => rS f.a ++ wS f.d 0
  | .mzero _ f => rS f.a ++ rS f.b ++ wS f.d 2
  | .mrd _ f => baseAcc f ++ wT (tyOfMinor f.minor) f.d.toNat 10
  | .mwr _ f => baseAcc f ++ rT (tyOfMinor f.minor) f.d.toNat
  | .mld _ f => wS f.d 2
  | .mst _ f => wS f.d 2
  | .jigSet _ f => rS f.a
  | .jigSetSv _ f => rS f.a
  | .jigSetClr _ _ => []
  | .jop _ f => (if f.minor = 6 ∨ f.minor = 7 then rS f.a else []) ++ wS f.d 0
  | .gcvtTo _ f => rV f.a.toNat ++ wT (g (minorScope f.minor)).fmt f.d.toNat 6
  | .gcvtFrom _ f => rT (g (minorScope f.minor)).fmt f.a.toNat ++ wVs f.d.toNat 1 6
  | .gpack _ f =>
    let x := g (minorScope f.minor)
    rVs f.a.toNat x.len ++ wVs f.d.toNat (stringRegs x + 1) 14
  | .gunpk _ f => rVs f.a.toNat (stringRegs (g (minorScope f.minor)) + 1) ++ wVs f.d.toNat 1 6
  | .slA _ f => rS f.a
  | .slB _ f => rS f.a
  | .slC _ f => rS f.a
  | .slD _ f => rS f.a
  | .slGo _ f => wS f.d 2
  | .slArm _ f => rS f.a ++ rS f.b ++ wS f.d 2
  | .slSt _ f => rS f.a ++ wS f.d 4
  | .slKill _ f => rS f.a
  | .fst _ f => rSs f.a 2 ++ rS f.b ++ rS f.c
  | .fld _ f => rSs f.a 2 ++ rS f.b ++ wS f.d 0
  | .fatom _ f =>
    rSs f.a 2 ++ rS f.b ++ rSs f.c (if minorFn f.minor = 7 then 2 else 1) ++
      (if f.cmd.toNat / 16 = 1 then wS f.d 0 else [])
  | .fred _ f => rSs f.a 3 ++ rS f.b ++ rS f.c
  | .fcopy _ f => rSs f.a 2 ++ rS f.b ++ rSs f.c 2
  | .fwait _ f =>
    (if f.cmd.toNat % 2 = 1 then rS f.a else []) ++ (if f.cmd.toNat / 2 = 1 then rS f.b else []) ++ wS f.d 0
  | .fcnt _ f => rSs f.a 2 ++ wS f.d 2
  | .fcrd _ f => wS f.d 10
  | .fcrdClr _ f => wS f.d 10
  | .cnlPost _ f => rS f.a ++ rS f.b
  | .cnlWt _ f =>
    rS f.a ++ rS f.b ++ (if f.cmd.toNat / 8 = 1 then rS f.c else []) ++ wS f.d 0 ++
      [{ file := 2, n := f.d.toNat + 1, wr := true, lat := 0 }]
  | .cnlRel _ f => rS f.a ++ rS f.b
  | .ltRun _ f => rS f.a ++ wS f.d 2
  | .ltRunCn _ f => rS f.a ++ wS f.d 2
  | .ltWt _ f => rS f.a ++ (if f.cmd = 1 then rS f.b else []) ++ wS f.d 0
  | .ltSt _ f => rS f.a ++ wS f.d 4
  | .weirSet _ f => if f.cmd = 1 then [] else rS f.a
  | .weirArv _ f => if 2 ≤ f.cmd.toNat then wS f.d 2 else []
  | .weirWt _ f => rS f.a
  | .weirAw _ _ => []
  | .weirTst _ f => wS f.d 2
  | .wfa _ f => baseAcc f ++ rV f.d.toNat
  | .atom _ f =>
    baseAcc f ++ atomAcc f.d.toNat (minorFn f.minor) (atomBytes f / 4) (f.aux.toNat / 64 % 2 == 1)
      (if minorScope f.minor = 2 then 10 else 0)
  | .fence _ _ => []
  | .ldAcq _ f => baseAcc f ++ wVs f.d.toNat (tyRegs (f.aux.toNat % 16)) (if minorScope f.minor = 2 then 10 else 0)
  | .stRel _ f => baseAcc f ++ rVs f.d.toNat (tyRegs (f.aux.toNat % 16))
  | .spn _ f => rS f.a ++ rS f.b ++ rVs (f.imm16.toNat % 256) (f.imm16.toNat / 256 % 16)
  | .jwait _ f => wS f.d 0
  | .dove _ _ => []
  | .vnrUpd _ f => rV f.a.toNat ++ vbAcc f 6
  | .vnrGet _ f => rV f.a.toNat ++ wVs f.d.toNat 1 10
  | .stlReq _ f => rS f.a ++ wS f.d 0
  | .cutNext _ f => wS f.d 10
  | .flmCfg _ f => rS f.a
  | .flmPush _ f => rS f.a
  | .flmPop _ f => wS f.d 0
  | .flmTry _ f => wS f.d 10
  | _ => []

/-- The number of vector destinations that a word's class may pair: the classes 010, 011 and 100 (R28). -/
def isVecClass (major : Nat) : Bool := decide (64 ≤ major) && decide (major < 160)

/-- Whether bit 34, bk = 01 of format V, or bit 53, bk of format M, makes a vector-kind word read a uniform register
(R57). (log 9, DEDUCED) -/
def readsUniform (w : Slot) : Bool :=
  let m := majorOf w
  if m = 0x57 then false
  else if 0x90 ≤ m && m ≤ 0x94 || m == 0xE5 || m == 0xE8 || m == 0xEA || m == 0xEB then (FmtM.of w).bk
  else if isVecClass m || m == 0xF3 || m == 0xF4 then (FmtV.of w).bk == 1
  else false

/-- Warp-bound instructions, which are warp-level (R31, R57 to R65). (log 9, DEDUCED) -/
def warpBound (w : Slot) : Bool :=
  let m := majorOf w
  decide (m < 32) || m == 0x26 || m == 0x29 || m == 0x34 || m == 0x35 ||
  ((m == 0x32 || m == 0x33) && (FmtS.of w).dk) ||
  (decide (0x80 ≤ m) && decide (m ≤ 0x89)) ||
  (decide (0xA0 ≤ m) && decide (m ≤ 0xA3)) || m == 0xA6 || m == 0xA7 || m == 0xB0 || m == 0xB1 ||
  (decide (0xC0 ≤ m) && decide (m ≤ 0xE4)) || (decide (0xF0 ≤ m) && decide (m ≤ 0xF2)) ||
  (decide (0xF5 ≤ m) && decide (m ≤ 0xFB)) || readsUniform w

/-- Instructions that take passes of the scratchpad port (R39, R122). -/
def usesPort (w : Slot) : Bool :=
  let m := majorOf w
  m == 0x14 || m == 0x15 || m == 0x90 || (m == 0x91 && (w.extractLsb' 38 1) == 0) || m == 0x92 || m == 0x94 ||
  m == 0xA1 || (m == 0xB0 && minorOf w != 2) || m == 0xCF || m == 0xE5 ||
  ((m == 0xE8 || m == 0xEA || m == 0xEB) && minorScope (minorOf w) == 2) || m == 0xF3 || m == 0xF4 || m == 0xF6 ||
  (decide (0xF9 ≤ m) && decide (m ≤ 0xFB))

/-- The pairing class of a vector-kind word: special function 1, cross-lane 2, scratchpad access 3 (R29).
(log 71, DEDUCED) -/
def pairClass (w : Slot) : Nat :=
  let m := majorOf w
  if 0x71 ≤ m ∧ m ≤ 0x78 then 1 else if 0x80 ≤ m ∧ m ≤ 0x89 then 2 else if 0x90 ≤ m ∧ m ≤ 0x94 then 3 else 0

/-- Whether a gauge is one that `gcvt` accepts, with the register that holds its element: even for 64 bits (R100, R206). -/
def gcvtLegal (g : GaugeW) (n : Nat) : Bool :=
  decide (g.fmt < 14) && g.fmt != 11 && (tyWidth g.fmt != 64 || n % 2 == 0)

/-- What a launch decides about a well-formed instruction: `vballot` at W = 64 needs an even d (R119), and a gauge has a
format that the function accepts (R206). -/
def launchLegal (width : Nat) (g : Nat → GaugeW) : Instr → Bool
  | .vballot _ f => width != 64 || f.d.toNat % 2 == 0
  | .gcvtTo _ f => gcvtLegal (g (minorScope f.minor)) f.d.toNat
  | .gcvtFrom _ f => gcvtLegal (g (minorScope f.minor)) f.a.toNat
  | .gpack _ f =>
    let x := g (minorScope f.minor)
    let n := stringRegs x + 1
    x.fmt == 16 && (decide (f.d.toNat + n ≤ f.a.toNat) || decide (f.a.toNat + x.len ≤ f.d.toNat))
  | .gunpk _ f => (g (minorScope f.minor)).fmt == 16 && decide (f.aux.toNat < (g (minorScope f.minor)).len)
  | _ => true

end Sys2Proof.Machine
end

