-- ==== Sys2Proof/Machine/Issue.lean ====
section
/-! DEFINITION. Issue (R12 to R40, R145 to R157): which threads are ready, the groups they form, the group table and the
selector, the checks of a bundle, the bundle's start and its end, and the fetching of lines. -/

namespace Sys2Proof.Machine

/-! ### Lines and bundles -/

/-- The address of the line that holds a PC. -/
def lineVa (pc : W64) : W64 := pc.extractLsb' 6 58 ++ 0#6

/-- The slot that a PC names. -/
def slotOf (pc : W64) : Nat := (pc.extractLsb' 0 3).toNat

/-- A line of a core's instruction store that is present (R17). -/
def Core.line? (k : Core) (asid : Nat) (va : W64) : Option ILine :=
  if k.lineReqs.contains (asid, va) then none else k.ilines.find? fun x => x.asid == asid && x.va == va

/-- A bundle read from a line: its slots, what their major codes name (R28 to R30 look at the bundle before its
instructions are found illegal, R32), its well-formed instructions, the first slot that holds none, the PC by
fall-through, its
stall count, whether it is warp-bound (R148) and whether it uses the scratchpad port (R155). -/
structure Bundle where
  slots : List BSlot
  named : List (Nat × Slot × Instr)
  instrs : List (Nat × Slot × Instr)
  badSlot : Option Nat
  nextPc : W64
  stall : Nat
  bound : Bool
  port : Bool
deriving DecidableEq, Repr

/-- The PC of the bundle that follows the slot `last` of a line by fall-through (R16). After the last line of the address space
it is a PC with bit 56 set, which no line has. (log 82, DESIGN CHOICE) -/
def fallThrough (pc : W64) (last : Nat) : W64 :=
  if last < 4 then lineVa pc + BitVec.ofNat 64 (last + 1) else lineVa pc + 64

/-- The bundle at a slot of a line (R16, R18). -/
def bundleOf (l : BitVec 512) (pc : W64) : Bundle :=
  let ws := bundleSlots l (slotOf pc)
  { slots := ws.map fun p => { num := p.1, word := p.2 },
    named := ws.filterMap fun p => (assemble p.2).map fun i => (p.1, p.2, i),
    instrs := ws.filterMap fun p => match decodeSlot p.2 with | .ok i => some (p.1, p.2, i) | .error _ => none,
    badSlot := (ws.find? fun p => match decodeSlot p.2 with | .ok _ => false | .error _ => true).map (·.1),
    nextPc := fallThrough pc (ws.foldl (fun n p => max n p.1) 0),
    stall := ws.foldl (fun n p => max n (Hdr.of p.2).stall.toNat) 0,
    bound := ws.any fun p => warpBound p.2,
    port := ws.any fun p => usesPort p.2 }

/-- The registers that one instruction of a bundle reads and writes, its guard among them (R30). -/
def slotAccs (width : Nat) (g : Nat → GaugeW) (p : Nat × Slot × Instr) : List Acc :=
  rQ (Hdr.of p.2.1).guard.toNat ++ touches width g p.2.2

/-- The registers of a bundle. -/
def Bundle.accs (b : Bundle) (width : Nat) (g : Nat → GaugeW) : List Acc := b.instrs.flatMap (slotAccs width g)

/-- The kind of a word by its class (R28): uniform 0, vector 1, engine 2, control 3, `nop` 4. -/
def kindOfWord (w : Slot) : Nat :=
  let m := majorOf w
  if m = 0x20 then 4 else if m < 32 then 0 else if m < 64 then 3 else if m < 160 then 1 else 2

/-- The composition rules of R28. -/
def mixFaults (ws : List Slot) : Bool :=
  let ks := ws.map kindOfWord
  let n := fun (k : Nat) => (ks.filter fun x => x == k).length
  let real := ks.filter fun x => x != 4
  decide (1 < n 0) || decide (2 < n 1) || decide (1 < n 2) || decide (1 < n 3) || (real.dropLast).contains 3

/-- The vector registers that two instructions read, each once (R29). -/
def vecReads (as : List Acc) : List Nat := ((as.filter fun a => a.file == 0 && !a.wr).map (·.n)).eraseDups

/-- The registers that an instruction writes. -/
def writesOf (as : List Acc) : List (Nat × Nat) := (as.filter (·.wr)).map fun a => (a.file, a.n)

/-- The pair rules of R29, and R206's on `gpack` and `gunpk`. -/
def pairFaults (width : Nat) (g : Nat → GaugeW) (is : List (Nat × Slot × Instr)) : Bool :=
  let vs := is.filter fun p => kindOfWord p.2.1 == 1
  let packs := is.any fun p => majorOf p.2.1 == 0xB3 || majorOf p.2.1 == 0xB4
  (packs && !vs.isEmpty) ||
  match vs with
  | [x, y] =>
    let rs := vecReads (slotAccs width g x ++ slotAccs width g y)
    decide (4 < rs.length) || decide ((rs.map fun n => n % 4).eraseDups.length < rs.length) ||
      (pairClass x.2.1 != 0 && pairClass x.2.1 == pairClass y.2.1)
  | _ => false

/-- Whether two instructions of a bundle write one register (R29, R30). -/
def writesTwice (width : Nat) (g : Nat → GaugeW) : List (Nat × Slot × Instr) → Bool
  | [] => false
  | p :: ps =>
    let ws := writesOf (slotAccs width g p)
    ps.any (fun q => (writesOf (slotAccs width g q)).any ws.contains) || writesTwice width g ps

/-- The bundle fault of R28 to R30. (log 71, DEDUCED) -/
def Bundle.faults (b : Bundle) (width : Nat) (g : Nat → GaugeW) : Bool :=
  mixFaults (b.slots.map (·.word)) || pairFaults width g b.named || writesTwice width g b.named

/-- The first slot of a bundle that raises the illegal-instruction trap at issue (R21, R56, R119, R206). -/
def Bundle.illegal (b : Bundle) (r : LRec) (g : Nat → GaugeW) : Option Nat :=
  let bad := b.instrs.find? fun p =>
    !launchLegal r.width g p.2.2 || (touches r.width g p.2.2).any fun a =>
      (a.file == 0 && decide (r.vregs ≤ a.n)) || (a.file == 2 && decide (r.uregs ≤ a.n))
  match b.badSlot, bad with
  | some i, some p => some (min i p.1)
  | some i, none => some i
  | none, some p => some p.1
  | none, none => none

/-- The first slot that makes a bundle undersized for a thread (R35, R36). Every instruction of the bundle counts, its guard true
or not; of an earlier bundle those results count that the thread issued. (log 83, DESIGN CHOICE) -/
def Bundle.undersized (b : Bundle) (width : Nat) (g : Nat → GaugeW) (t : Thread) : Option Nat :=
  (b.instrs.find? fun p => (slotAccs width g p).any fun a => t.recent.any fun r =>
    r.file == a.file && r.n == a.n &&
    (if a.wr then a.lat != 0 && decide (t.sched + a.lat ≤ r.at_ + r.lat) else decide (t.sched < r.at_ + r.lat))).map (·.1)

/-! ### Ready threads -/

/-- A thread's tag: launch slot, handler flag, redo flag and PC (R147). -/
abbrev Tag := Nat × Bool × Bool × W64

/-- A ready thread: its warp, lane, warp slot, the cycle since which it is ready, and its tag. -/
structure Ready where
  warp : Nat
  lane : Nat
  slot : Nat
  since : Nat
  tag : Tag
deriving DecidableEq, Repr

/-- Whether one ready thread is older than another (R153). -/
def Ready.older (a b : Ready) : Bool :=
  decide (a.since < b.since) ||
  (a.since == b.since && (decide (a.slot < b.slot) || (a.slot == b.slot && decide (a.lane < b.lane))))

/-- The oldest of some ready threads. -/
def oldestOf : List Ready → Option Ready
  | [] => none
  | r :: rs => some (rs.foldl (fun a b => if b.older a then b else a) r)

/-- The launch slot of a launch on a core (R138). -/
def Core.launchSlot (k : Core) (h : Nat) : Nat := ((k.lslots.find? fun p => p.2 == h).map (·.1)).getD 0

/-- The tag of a thread (R147). -/
def Thread.tag (t : Thread) (ls : Nat) : Tag := (ls, t.handler, t.redo && !t.handler, t.pc)

/-- Whether a block's threads may issue: it has started, and no save has stopped its address space (R240, R410). -/
def Mod.mayIssue (m : Mod) (b : Block) : Bool := b.started && !b.held && !m.frozen (m.asidOf b.launch)

/-- The ready threads of a core. -/
def Mod.readyThreads (m : Mod) (c : Nat) : List Ready :=
  let k := m.core c
  k.warps.flatMap fun w => if w.evicted then [] else
    match k.block? w.block with
    | none => []
    | some b => if !m.mayIssue b then [] else
      w.threads.filterMap fun t => (t.readySince m.clock).map fun s =>
        { warp := w.uid, lane := t.lane, slot := w.slot, since := s, tag := t.tag (k.launchSlot b.launch) }

/-- Whether a register access meets a destination of a thread. -/
def Acc.hits (a : Acc) (w l : Nat) (d : Dest) : Bool :=
  match d with
  | .v w' l' n => a.file == 0 && w' == w && l' == l && a.n == n
  | .q w' l' n => a.file == 1 && w' == w && l' == l && a.n == n
  | .s w' n => a.file == 2 && w' == w && a.n == n
  | .tcause w' l' => a.file == 3 && w' == w && l' == l && a.n == 0
  | .tepcLo w' l' => a.file == 3 && w' == w && l' == l && a.n == 1
  | .tepcHi w' l' => a.file == 3 && w' == w && l' == l && a.n == 2

/-- The pending deferred results that a thread's bundle touches (R38); a fabric result in a uniform register is pending
for the threads that issued it. -/
def Core.deferredHits (k : Core) (w l : Nat) (as : List Acc) : List Flight :=
  k.flights.filter fun f =>
    (f.kind == .onModule || (f.kind == .fabric && f.lanes.contains l)) && as.any fun a => a.hits w l f.dest

/-- The cycle until which a thread's bundle is held for a pending result of R38's last paragraph, or for the excess
passes of an access (R39); none when it is not. -/
def Core.heldUntil (k : Core) (clock w : Nat) (t : Thread) (as : List Acc) : Option Nat :=
  let young := fun (a : Acc) => t.recent.any fun r => r.file == a.file && r.n == a.n && decide (t.sched < r.at_ + r.lat)
  let times := k.flights.filterMap fun f =>
    let late := !f.due clock
    if f.kind == .held && late && as.any (fun a => a.hits w t.lane f.dest) then some (f.land.getD (clock + 1))
    else if f.kind == .fixed && late && f.lanes.contains t.lane &&
        as.any (fun a => !a.wr && a.hits w t.lane f.dest && !young a) then some (f.land.getD (clock + 1))
    else none
  match times with
  | [] => none
  | x :: xs => some (xs.foldl max x)

/-- A line that a ready thread needs is asked for, and the thread waits for it (R17). -/
def Mod.askLine (m : Mod) (c asid w l : Nat) (va : W64) : Mod :=
  let m := m.onThread c w l fun t => { t with run := .lineWait }
  m.onCore c fun k => if k.lineReqs.contains (asid, va) then k else { k with lineReqs := k.lineReqs ++ [(asid, va)] }

/-- Whether a wait is a fence's (R146). -/
def GWait.isFence (g : GWait) : Bool :=
  match g.wait with
  | .fence _ => true
  | _ => false

/-- A thread whose fence is past its first 2 c goes on as soon as R33 lets it, or is at the fence wait (R145, R273). -/
def Mod.prepFence (m : Mod) (c w l : Nat) : Mod :=
  match (m.thread? c w l).bind (·.fence) with
  | none => m
  | some (sc, at_, pc) =>
    if m.clock < at_ || (m.core c).waits.any fun g => g.warp == w && g.lanes.contains l && g.isFence then m
    else if m.fenceOver c w l sc then m.endFence c w l
    else m.block c w [l] (.fence sc) pc

/-- The threads of a core's resident warps that have a fence to complete. -/
def Core.fenced (k : Core) : List (Nat × Nat) :=
  k.warps.flatMap fun w => if w.evicted then [] else (w.threads.filter fun t => t.fence.isSome).map fun t => (w.uid, t.lane)

/-- The fences of a core whose first 2 c are over (R273). -/
def Mod.prepFences (m : Mod) (c : Nat) : Mod := (m.core c).fenced.foldl (fun m p => m.prepFence c p.1 p.2) m

/-- What a ready thread waits for, if its next bundle cannot issue: its line, a deferred result, or a pending one
(R17, R38, R39). -/
def Mod.prepThread (m : Mod) (c w l : Nat) : Mod :=
  match m.launchOf c w, m.thread? c w l with
  | some la, some t =>
    if (t.readySince m.clock).isNone || !pcLegal t.pc then m
    else match (m.core c).line? la.asid (lineVa t.pc) with
      | none => m.askLine c la.asid w l (lineVa t.pc)
      | some x =>
        if x.bad.isSome || x.tries ≠ 0 || !lineKindOk x.data || !lineStart x.data (slotOf t.pc) then m
        else
          let as := (bundleOf x.data t.pc).accs la.rec_.width (m.gauge c w)
          match (m.core c).deferredHits w l as with
          | [] => match (m.core c).heldUntil m.clock w t as with
            | none => m
            | some u => m.onThread c w l fun t => { t with run := .gap u }
          | fs => m.block c w [l] (.deferred (fs.map (·.dest)) (fs.any fun f => f.kind == .fabric)) t.pc
  | _, _ => m

/-! ### The group table and the selector (R147 to R155) -/

/-- The entry of the group table for a tag (R147). -/
def tagHash (t : Tag) : Nat :=
  let l := linearPc t.2.2.2
  let h := (List.range 7).foldl (fun h i => h ^^^ (l / 256 ^ i % 256)) t.1
  (h ^^^ (if t.2.1 then 0x80 else 0) ^^^ (if t.2.2.1 then 0x40 else 0)) % 256

/-- The group table with entries that no ready thread's tag holds released, and each free entry taken by the waiting tag
with the oldest ready thread (R147). -/
def refreshTable (tb : List (Nat × Tag)) (rs : List Ready) : List (Nat × Tag) :=
  let kept := tb.filter fun e => rs.any fun r => r.tag == e.2
  rs.foldl (fun tb r =>
    if tb.any fun e => e.1 == tagHash r.tag then tb
    else match oldestOf (rs.filter fun x => tagHash x.tag == tagHash r.tag) with
      | none => tb
      | some o => tb ++ [(tagHash r.tag, o.tag)]) kept

/-- The handover of an entry from which a group has issued (R147). -/
def handOver (tb : List (Nat × Tag)) (rs group : List Ready) (tag : Tag) : List (Nat × Tag) :=
  let h := tagHash tag
  let left := rs.filter fun r => r.tag == tag && !group.contains r
  match oldestOf (rs.filter fun r => tagHash r.tag == h && r.tag != tag) with
  | none => tb
  | some o => if left.all fun r => o.older r then (tb.filter fun e => e.1 != h) ++ [(h, o.tag)] else tb

/-- A group that could issue, with the facts that the selector needs. -/
structure Cand where
  tag : Tag
  group : List Ready
  age : Ready
  port : Bool
  cls : Nat
deriving DecidableEq, Repr

/-- The bundle at a tag's PC in a launch's address space, when its line is present and sound. -/
def Mod.bundleAt (m : Mod) (c asid : Nat) (pc : W64) : Option Bundle :=
  if !pcLegal pc then none
  else match (m.core c).line? asid (lineVa pc) with
    | none => none
    | some x => if x.bad.isSome || x.tries ≠ 0 || !lineKindOk x.data || !lineStart x.data (slotOf pc) then none
      else some (bundleOf x.data pc)

/-- The oldest ready thread on each lane (R149). -/
def onePerLane (rs : List Ready) : List Ready :=
  (List.range 64).filterMap fun l => oldestOf (rs.filter fun r => r.lane == l)

/-- The group that a tag forms (R149, R150). -/
def Mod.candOf (m : Mod) (c : Nat) (rs : List Ready) (tag : Tag) : Option Cand :=
  let mine := rs.filter fun r => r.tag == tag
  match oldestOf mine with
  | none => none
  | some o =>
    let asid := ((m.launchOf c o.warp).map (·.asid)).getD 0
    let b := m.bundleAt c asid tag.2.2.2
    let group := if (b.map (·.bound)).getD false then onePerLane (mine.filter fun r => r.warp == o.warp)
      else onePerLane mine
    let old := group.any fun r => decide (r.since + 1024 ≤ m.clock)
    (oldestOf group).map fun a =>
      { tag := tag, group := group, age := a, port := (b.map (·.port)).getD false,
        cls := if old then 7 else (m.recOf c o.warp).priority }

/-- The oldest of some groups. -/
def oldestCand : List Cand → Option Cand
  | [] => none
  | x :: xs => some (xs.foldl (fun a b => if b.age.older a.age then b else a) x)

/-- The oldest group of the highest class. -/
def bestCand (cs : List Cand) : Option Cand :=
  let top := cs.foldl (fun n x => max n x.cls) 0
  oldestCand (cs.filter fun x => x.cls == top)

/-- The group that R154 chooses among some, in a handler slot or not. -/
def choose (slot : Bool) (cs : List Cand) : Option Cand :=
  match (if slot then oldestCand (cs.filter fun x => x.tag.2.1) else none) with
  | some x => some x
  | none => bestCand (cs.filter fun x => !x.tag.2.1)

/-- The reservations of the port that stand, for an ordinary tag and for a handler tag, and what a cycle adds (R155): the
oldest ready handler group of a handler slot that waits for a busy port, and else the ordinary group that R154 would choose;
a reservation stands until its group has issued or is no more. (log 84, DEDUCED) -/
def reservations (slot busy : Bool) (rO rH : Option Tag) (cs : List Cand) : Option Tag × Option Tag :=
  let stands := fun (r : Option Tag) => match r with
    | some t => if cs.any fun x => x.tag == t then some t else none
    | none => none
  let waits := fun (x : Option Cand) => match x with
    | some y => if y.port && busy then some y.tag else none
    | none => none
  let top := if slot then oldestCand (cs.filter fun x => x.tag.2.1) else none
  let rO := stands rO
  let rH := stands rH
  (rO.orElse fun _ => if top.isSome then none else waits (bestCand (cs.filter fun x => !x.tag.2.1)),
   rH.orElse fun _ => waits top)

/-- Whether a group may start in a cycle: one that uses the port needs it free and not reserved for another; an ordinary
reservation does not hold back a handler group (R154, R155, R157). -/
def Cand.mayStart (x : Cand) (busy : Bool) (rO rH : Option Tag) : Bool :=
  let own := fun (r : Option Tag) => match r with | some t => t == x.tag | none => true
  !x.port || (!busy && own rH && (x.tag.2.1 || own rO))

/-- The port's reservations and the group that issues (R154, R155). -/
def selectGroup (clock portFree : Nat) (rO rH : Option Tag) (cs : List Cand) : Option Tag × Option Tag × Option Cand :=
  let slot := clock % 8 == 0
  let busy := decide (clock < portFree)
  let r := reservations slot busy rO rH cs
  let pick := choose slot (cs.filter fun x => x.mayStart busy r.1 r.2)
  let left := fun (t : Option Tag) => match t, pick with
    | some a, some x => if a == x.tag then none else some a
    | _, _ => t
  (left r.1, left r.2, pick)

/-! ### The start of a bundle (R13 to R17, R28 to R36) -/

/-- Threads of a group park on one cause; the cycle counts as their issue (R156). Threads that hold the record of R31 for the
bundle keep it where `redo` says so: they have not issued it (R147, R398). -/
def Mod.parkAll (m : Mod) (c : Nat) (rs : List Ready) (cause slot : Nat) (detail : W32) (pc : W64) (redo : Bool) : Mod :=
  rs.foldl (fun m r => (m.onThread c r.warp r.lane fun t => { t with notBefore := max t.notBefore (m.clock + 1) }).park c
    r.warp r.lane cause slot detail pc redo) m

/-- A line that could not be read soundly leaves the instruction store. -/
def Mod.dropLine (m : Mod) (c asid : Nat) (va : W64) : Mod :=
  m.onCore c fun k => { k with ilines := k.ilines.filter fun x => !(x.asid == asid && x.va == va) }

/-- The threads of a group start a bundle: their PC moves on by fall-through, they are in gap for the stall count (R33),
and the bundle's slots are ready to run. -/
def startBundle (m : Mod) (c : Nat) (rs : List Ready) (tag : Tag) (b : Bundle) : State :=
  let m := rs.foldl (fun m r => m.onThread c r.warp r.lane fun t =>
    { t with pc := b.nextPc, entered := false, run := .gap (m.clock + max b.stall 1),
             notBefore := m.clock + max b.stall 1 }) m
  let x : Issue :=
    { before := m, core := c, pc := tag.2.2.2, nextPc := b.nextPc, stall := b.stall, slots := b.slots,
      todo := b.slots, cur := 0, group := rs.map (fun r => (r.warp, r.lane)), dead := [], redo := tag.2.2.1,
      faults := [], hold := false, passes := 0 }
  { now := m, issue := some x }

/-- Whether an instruction is illegal for a thread that executes it: a handler's instruction or register outside the handler,
`wsync` in it, a level that the launch does not declare (R52, R94, R95, R401). -/
def Mod.illegalFor (m : Mod) (c w l : Nat) (i : Instr) : Bool :=
  let handler := match m.thread? c w l with | some t => t.handler | none => false
  match i with
  | .tret _ _ => !handler
  | .mtsr _ _ => !handler
  | .mfsr _ f => (m.special c w l f.sr.toNat).isNone
  | .wsync _ _ => handler
  | _ => false

/-- The first slot of a bundle whose instruction a thread executes and may not: that fault comes before the undersized-stall
trap (R32). (log 95, DESIGN CHOICE) -/
def Bundle.illegalFor (b : Bundle) (m : Mod) (c : Nat) (q : Ready) (redo : Bool) : Option Nat :=
  (b.instrs.find? fun p =>
    let h := Hdr.of p.2.1
    xor (m.readQ c q.warp q.lane h.guard.toNat) h.gneg && !(redo && warpBound p.2.1) && m.illegalFor c q.warp q.lane p.2.2).map (·.1)

/-- The slot for which a thread reports an illegal instruction, when one stands that is illegal for every thread: the lower of that
one and of the first that it may not execute itself (R32). -/
def illegalSlot (k : Nat) (own : Option Nat) : Nat := (own.map (min k)).getD k

/-- The bundle of a group is checked in the order of R32, and starts for the threads that raise no fault.
(log 34, DEDUCED; log 96, DESIGN CHOICE) -/
def checkBundle (m : Mod) (c : Nat) (rs : List Ready) (tag : Tag) (x : ILine) : State :=
  let pc := tag.2.2.2
  let redo := tag.2.2.1
  let i := slotOf pc
  let entered := fun (r : Ready) => match m.thread? c r.warp r.lane with | some t => t.entered | none => false
  let lost := if lineTarget x.data i then [] else rs.filter entered
  let m := m.parkAll c lost 0x04 i 0 pc false
  let rs := rs.filter fun r => !lost.contains r
  match rs with
  | [] => { now := m, issue := none }
  | r0 :: _ =>
    if !lineStart x.data 0 then { now := m.parkAll c rs 0x05 7 0 pc redo, issue := none }
    else if !lineStart x.data i then { now := m.parkAll c rs 0x05 i 0 pc false, issue := none }
    else
      let b := bundleOf x.data pc
      let r := m.recOf c r0.warp
      let g := m.gauge c r0.warp
      if b.faults r.width g then { now := m.parkAll c rs 0x05 i 0 pc redo, issue := none }
      else match b.illegal r g with
        | some k => { now := rs.foldl (fun n q => n.parkAll c [q] 0x02 (illegalSlot k (b.illegalFor m c q redo)) 0 pc redo) m,
                      issue := none }
        | none =>
          let short := fun (q : Ready) =>
            if r.check && (b.illegalFor m c q redo).isNone then
              (m.thread? c q.warp q.lane).bind fun t => b.undersized r.width g t
            else none
          let n := rs.foldl (fun n q => match short q with
            | some k => n.parkAll c [q] 0x06 k 0 pc redo
            | none => n) m
          match rs.filter fun q => (short q).isNone with
          | [] => { now := n, issue := none }
          | go => startBundle n c go tag b

/-- A chosen group issues, or parks on what its line holds (R14, R15, R156, R419).
(log 34, DEDUCED; log 96, DESIGN CHOICE) -/
def issueGroup (m : Mod) (c : Nat) (x : Cand) : State :=
  let pc := x.tag.2.2.2
  let redo := x.tag.2.2.1
  if !pcLegal pc then { now := m.parkAll c x.group 0x04 (slotOf pc) 0 pc false, issue := none }
  else
    let asid := ((m.launchOf c x.age.warp).map (·.asid)).getD 0
    match (m.core c).line? asid (lineVa pc) with
    | none => { now := m, issue := none }
    | some l => match l.bad with
      | some d => { now := (m.parkAll c x.group 0x0A (slotOf pc) d pc redo).dropLine c asid l.va, issue := none }
      | none =>
        if l.tries ≠ 0 then { now := (m.parkAll c x.group 0x03 7 0 pc redo).dropLine c asid l.va, issue := none }
        else if !lineKindOk l.data then { now := m.parkAll c x.group 0x02 7 0 pc redo, issue := none }
        else checkBundle m c x.group x.tag l

/-- ISSUE_CYCLE: each cycle a core's port takes its pass, and the core issues at most one group's bundle (R33, R39, R154). -/
def execIssueCycle (c : Nat) (s : State) : Out :=
  let m := s.now
  if s.issue.isSome || (m.core c).issuedAt = m.clock then .next s
  else
    let m := ((m.runPasses c).prepFences c).onCore c fun k => { k with issuedAt := m.clock }
    let m := (m.readyThreads c).foldl (fun m r => m.prepThread c r.warp r.lane) m
    let rs := m.readyThreads c
    let tb := refreshTable (m.core c).groupTable rs
    let cs := tb.filterMap fun e => m.candOf c rs e.2
    let p := selectGroup m.clock (m.core c).portFree (m.core c).reserve (m.core c).reserveH cs
    let m := m.onCore c fun k => { k with groupTable := tb, reserve := p.1, reserveH := p.2.1 }
    match p.2.2 with
    | none => .next { now := m, issue := none }
    | some x =>
      let m := m.onCore c fun k => { k with groupTable := handOver tb rs x.group x.tag }
      .next (issueGroup m c x)

/-! ### The end of a bundle (R31, R32, R35) -/

/-- What a bundle that does not stand leaves behind: the walks that it asked for, the caches, and the draws of free
values. -/
def Mod.keep (before now : Mod) : Mod := { before with walks := now.walks, tlb := now.tlb, free := now.free }

/-- The order of two faults of one thread: an illegal instruction first, then the lowest slot (R32). -/
def FaultRec.first (a b : FaultRec) : Bool :=
  if a.cause == 2 && b.cause != 2 then true else if b.cause == 2 && a.cause != 2 then false else decide (a.slot ≤ b.slot)

/-- The first of some faults. -/
def firstFault : List FaultRec → Option FaultRec
  | [] => none
  | f :: fs => some (fs.foldl (fun a b => if a.first b then a else b) f)

/-- The fault that a thread of the group reports: its own first one, or the first of the warp-level ones (R31, R32). -/
def Issue.faultOf (x : Issue) (p : Nat × Nat) : Option FaultRec :=
  match firstFault (x.faults.filter fun f => f.warp == p.1 && f.lane == p.2) with
  | some f => some f
  | none => firstFault (x.faults.filter (·.whole))

/-- A bundle is held: nothing of it stands, and its threads come back to it in the next cycle, in gap until then and ready with the stamp
of that cycle (R145, R153). (log 2, DEDUCED; log 35, DEDUCED) -/
def holdBundle (x : Issue) (m : Mod) : State :=
  let m := x.before.keep m
  { now := x.group.foldl (fun m p => m.onThread x.core p.1 p.2 fun t =>
      { t with pc := x.pc, run := .gap (m.clock + 1), notBefore := m.clock + 1 }) m, issue := none }

/-- A warp-level instruction faulted, or a word is no instruction: nothing stands and every thread parks (R31).
(log 2, DEDUCED) -/
def parkBundle (x : Issue) (m : Mod) : State :=
  { now := x.group.foldl (fun m p => match x.faultOf p with
      | some f => m.park x.core p.1 p.2 f.cause f.slot f.detail x.pc false
      | none => m) (x.before.keep m), issue := none }

/-- A bundle stands: its threads' scheduled positions move on, and the threads that a per-thread instruction's fault
kept back park with the record of R31. (log 2, DEDUCED) -/
def commitBundle (x : Issue) (m : Mod) : State :=
  let d := max x.stall 1
  let inHandler := fun (p : Nat × Nat) => match x.before.thread? x.core p.1 p.2 with
    | some t => t.handler
    | none => false
  let m := x.group.foldl (fun m p => m.onThread x.core p.1 p.2 fun t =>
    { t with sched := t.sched + d, redo := t.redo && inHandler p,
             recent := t.recent.filter fun r => decide (t.sched + d < r.at_ + r.lat) }) m
  { now := x.dead.foldl (fun m p => match x.faultOf p with
      | some f => m.park x.core p.1 p.2 f.cause f.slot f.detail x.pc true
      | none => m) m, issue := none }

/-- The threads whose own faults are new: the bundle runs again without their per-thread effects (R31). -/
def Issue.newDead (x : Issue) : List (Nat × Nat) :=
  (x.group.filter fun p => x.faults.any fun f => f.warp == p.1 && f.lane == p.2).filter fun p => !x.dead.contains p

/-- A bundle whose slots have all run ends: it is held, it parks its group, it runs again without the threads that
faulted, or it stands (R31, R32). (log 2, DEDUCED) -/
def finishIssue (s : State) : State :=
  match s.issue with
  | none => s
  | some x =>
    if !x.todo.isEmpty then s
    else if x.faults.any fun f => f.whole then parkBundle x s.now
    else if x.hold then holdBundle x s.now
    else match x.newDead with
      | [] => commitBundle x s.now
      | ps => { now := x.before.keep s.now,
                issue := some { x with todo := x.slots, dead := x.dead ++ ps, passes := 0 } }

/-! ### Lines arrive (R14, R17, R419) -/

/-- The threads that waited for a line are ready (R17). -/
def Mod.lineReady (m : Mod) (c asid : Nat) (va : W64) : Mod :=
  let mine := fun (w : Warp) => match m.blockOf c w.uid with | some b => m.asidOf b.launch == asid | none => false
  m.onCore c fun k => { k with warps := k.warps.map fun w => if !mine w then w else
    { w with threads := w.threads.map fun t =>
        if t.run == .lineWait && lineVa t.pc == va then { t with run := .ready, stamp := m.clock } else t } }

/-- LINE_FETCH_COMPLETE: the line asked for first arrives, with the bits that the way has flipped; bad parity has it
fetched once more (R14); a translation that fails is remembered for the bundle (R419). -/
def execLineFetchComplete (c : Nat) (flip : BitVec 512) (s : State) : Out :=
  let m := s.now
  match (m.core c).lineReqs with
  | [] => .next s
  | (asid, va) :: rest =>
    let r := m.xlate (.ifetch c) asid va.toNat false
    let m := r.2
    let old := (m.core c).ilines.find? fun x => x.asid == asid && x.va == va
    let put := fun (m : Mod) (x : ILine) => (m.dropLine c asid va).onCore c fun k => { k with ilines := k.ilines ++ [x] }
    let done := fun (m : Mod) => (m.onCore c fun k => { k with lineReqs := rest }).lineReady c asid va
    match r.1 with
    | .error e =>
      .next { s with now := done (put m
        { asid := asid, va := va, data := 0, bad := some (8 ||| (if e then 1 else 0)), tries := 0 }) }
    | .ok pa =>
      let data := BitVec.ofNat 512 (leNat (m.dram.readN pa 64)) ^^^ flip
      let again := match old with | some x => x.tries == 1 | none => false
      let line : ILine := { asid := asid, va := va, data := data, bad := none, tries := 0 }
      if lineParityOk data then
        let m := if again then m.onCore c fun k => { k with corrected := k.corrected + 1 } else m
        .next { s with now := done (put m line) }
      else if again then .next { s with now := done (put m { line with tries := 2 }) }
      else .next { s with now := put m { line with tries := 1 } }

end Sys2Proof.Machine
end

