-- ==== Sys2Proof/Machine/Threads.lean ====
section
/-! DEFINITION. Results that land (R34 to R40), entry at the handler (R399), the ends of threads, warps and blocks (R40,
R82, R358), and the waits whose conditions come to hold. -/

namespace Sys2Proof.Machine

/-- FIXED_RESULT_LANDING: the fixed-latency results of a core whose cycle has come land (R34, R39). -/
def execFixedResultLanding (c : Nat) (s : State) : Out :=
  .next { s with now := s.now.landWhere c fun f => f.kind == .fixed && f.due s.now.clock }

/-- DEFERRED_RESULT_LANDING: the pending results of one operation land (R38); a status of 0 is an acquire (R197). -/
def execDeferredResultLanding (c id : Nat) (s : State) : Out :=
  let p := fun (f : Flight) => f.id == id && f.kind != .fixed && f.due s.now.clock
  .next { s with now := ((s.now.core c).flights.filter p).foldl (fun m f => m.landStatus c f) (s.now.landWhere c p) }

/-- HANDLER_ENTRY: a parked thread whose fixed-latency results have landed enters its handler (R399). -/
def execHandlerEntry (c w l : Nat) (s : State) : Out :=
  match s.now.thread? c w l with
  | none => .next s
  | some t => match t.run with
    | .parked u => if u ≤ s.now.clock then .next { s with now := s.now.enterHandler c w l } else .next s
    | _ => .next s

/-- A task whose thread has ended: it is poisoned unless it dovetailed, and what a stolen task has written is released
into its parent's join counter (R310, R358). -/
def Mod.endTask (m : Mod) (c w : Nat) (t : Thread) : Mod :=
  match t.task with
  | none => m
  | some id =>
    let rel := m.releaseSet c w [t.lane]
    (m.onKid id fun k => { k with
      ended := true, poisoned := k.poisoned || !t.doved,
      deps := if k.viewCore == k.core then [] else rel }).countKids

/-- A warp whose threads have all ended is no more: its slot, its frame and its pending results go with it (R82). Its registers
stand as the results that landed have left them (R40). -/
def Mod.endWarp (m : Mod) (c w : Nat) : Mod :=
  match m.warp? c w with
  | none => m
  | some x => if x.threads.all Thread.ended then
      m.onCore c fun k =>
        { k with
          warps := k.warps.filter fun y => y.uid != w
          ended := (k.ended.filter fun y => y.slot != x.slot || k.sweeps.any fun s => s.warp == y.uid) ++ [x] }
    else m

/-- THREAD_END: a thread ends; its results that have not landed are discarded (R40, R82). -/
def execThreadEnd (c w l : Nat) (s : State) : Out :=
  match s.now.thread? c w l with
  | none => .next s
  | some t => match t.run with
    | .ending u => if u ≤ s.now.clock then
        .next { s with now := ((s.now.endTask c w t).finish c w l).endWarp c w } else .next s
    | _ => .next s

/-! ### The end of a block (R82) -/

/-- Whether a block's threads and tasks have all ended. -/
def Mod.blockIdle (m : Mod) (c : Nat) (b : Block) : Bool :=
  let k := m.core c
  b.started && !b.held && !(k.warps.any fun w => w.block == b.uid) && !(k.millrace.any fun t => t.block == b.uid) &&
  b.cistern.isEmpty && !m.kids.any fun x => (x.core == c && x.block == b.uid) || (x.viewCore == c && x.viewBlock == b.uid)

/-- Whether every engine command that a block issued has completed or been cancelled. -/
def Mod.enginesIdle (m : Mod) (c : Nat) (b : Block) : Bool :=
  let k := m.core c
  !(k.mq.any fun o => o.block == b.uid) && !(k.sweeps.any fun x => x.block == b.uid) &&
  !(k.passes.any fun p => p.block == b.uid) &&
  !(k.slq.any fun r => r.block == b.uid) &&
  !(m.leat.ctxs.any fun x => x.core == c && x.block == b.uid) &&
  !(m.fabOps.any fun o => o.core == c && o.block == b.uid)

/-- Steal requests of a thief's block or to a victim's block are discarded, and their reservations freed (R363). -/
def Mod.dropSteals (m : Mod) (c : Nat) (b : Block) : Mod :=
  let m := b.mailbox.foldl (fun m q => m.onBlock q.core q.block fun x => { x with reserved := x.reserved - 1 }) m
  let clean := fun (x : Block) => { x with mailbox := x.mailbox.filter fun q => !(q.core == c && q.block == b.uid) }
  { m with cores := m.cores.map fun k => { k with blocks := k.blocks.map clean } }

/-- A block is removed from its core; its launch slot goes with the launch's last block, and the partition word with the
core's last block (R138, R141). -/
def Mod.removeBlock (m : Mod) (c : Nat) (b : Block) : Mod :=
  (m.dropSteals c b).onCore c fun k =>
    let blocks := k.blocks.filter fun x => x.uid != b.uid
    { k with
      blocks := blocks,
      lslots := k.lslots.filter (fun p => p.2 != b.launch || blocks.any fun x => x.launch == b.launch),
      partition := if blocks.isEmpty then none else k.partition,
      arms := k.arms.filter fun a => a.req.block != b.uid,
      late := k.late.filter fun a => a.block != b.uid }

/-- BLOCK_END: a block without threads and tasks, whose armed requests are removed as by `sl.kill`, ends once its engine commands
are over as well (R82). -/
def execBlockEnd (c slot : Nat) (s : State) : Out :=
  match (s.now.core c).blockIn? slot with
  | none => .next s
  | some b =>
    if !s.now.blockIdle c b then .next s
    else
      let m := s.now.onCore c fun k =>
        (k.arms.filter fun a => a.req.block == b.uid).foldl (fun k a => k.slEnd a.req.handle 5 0) k
      if m.enginesIdle c b then
        .next { s with now := (m.removeBlock c b).onLaunch b.launch fun l => { l with ended := l.ended + 1 } }
      else .next { s with now := m }

/-! ### Waits that end -/

/-- A warp whose expectation is complete: its arrived threads are offered as one group, which may issue 2 c later, once the
warp's fixed-latency results have landed and R33 lets each of them (R77, R79). -/
def Mod.wakeWsync (m : Mod) (c : Nat) (w : Warp) : Mod :=
  match w.expect with
  | none => m
  | some e =>
    if e.e &&& ~~~e.arrived ≠ 0 then m
    else
      let gs := (m.core c).waits.filter fun g => g.warp == w.uid && g.wait == .wsync
      let free := (gs.flatMap (·.lanes)).foldl (fun u l => match w.thread? l with
        | some t => max u t.notBefore
        | none => u) (max (m.clock + 2) ((m.core c).warpLanding w.uid 0))
      gs.foldl (fun m g => m.wake c g free) (m.onWarp c w.uid fun x => { x with expect := none })

/-- Whether a deferred destination of a thread is still pending (R38). -/
def Core.stillPending (k : Core) (l : List Nat) (d : Dest) : Bool :=
  k.flights.any fun f => f.dest == d && (f.kind == .onModule || (f.kind == .fabric && f.lanes.any l.contains))

/-- The weir that a block has at an index. -/
def Mod.weirAt (m : Mod) (c blk i : Nat) : Weir :=
  match m.block? c blk with
  | some b => b.weir i
  | none => { t := 0, c := 0, p := 0 }

/-- One wait of a core ends if its condition holds (R79, R89, R93, R146, R230, R273). (log 24, DEDUCED) -/
def Mod.wakeOne (m : Mod) (c : Nat) (g : GWait) : Mod :=
  let blk := m.buid c g.warp
  match g.wait with
  | .weir i tok =>
    if (m.weirAt c blk i).p = tok then m
    else (m.wake c g (max (m.clock + 2) ((m.core c).warpLanding g.warp 0))).weirAcquire c g.warp g.lanes i
  | .weirArrive i tok id =>
    if (m.core c).late.any fun a => a.id == id then m
    else if (m.weirAt c blk i).p = tok then
      m.onCore c fun k => { k with waits := k.waits.map fun x => if x.id = g.id then { x with wait := .weir i tok } else x }
    else (m.wake c g (max (m.clock + 2) ((m.core c).warpLanding g.warp 0))).weirAcquire c g.warp g.lanes i
  | .wfa _ _ => match g.met with
    | some _ => (m.wake c g m.clock).acquire c g.warp g.lanes
    | none => m
  | .deferred ds _ => if ds.any ((m.core c).stillPending g.lanes) then m else m.wake c g m.clock
  | .count _ _ d _ => match g.met with
    | some v => (m.wakeWith c g (m.clock + 2) [(d, v)]).acquire c g.warp g.lanes
    | none => m
  | .fence sc =>
    if g.lanes.all fun l => m.fenceOver c g.warp l sc then
      (g.lanes.foldl (fun m l => m.endFence c g.warp l) m).wake c g m.clock
    else m
  | _ => m

/-- Every wait of a core whose condition holds ends, but for join waits, whose groups wake together at the end of the cycle (R361);
evicted warps are looked after by their restore (R393, R407). -/
def Mod.wakeCore (m : Mod) (c : Nat) : Mod :=
  let m := (m.core c).warps.foldl (fun m w => m.wakeWsync c w) m
  let m := m.runFlumes c
  (m.core c).waits.foldl (fun m g => m.wakeOne c g) m

end Sys2Proof.Machine
end

