-- ==== Sys2Proof/Machine/Weights.lean ====
section
/-! DEFINITION. The life of the weights (R337 to R345): bindings, shards and their sluice requests, readiness, the
release of copies; and the settling pond (R421, R422). -/

namespace Sys2Proof.Machine

/-! ### Mapped pages and the pond (R420 to R422) -/

/-- The leaves of a table of a level that map some of the addresses lo to hi − 1: virtual address, page size, physical
base and the address of the entry (R420). -/
def leavesFrom (mem : Memory) (lo hi : Nat) : Nat → Nat → Nat → List (Nat × Nat × Nat × Nat)
  | 0, table, va => (List.range 512).filterMap fun i =>
      let a := va + 4096 * i
      if a + 4096 ≤ lo ∨ hi ≤ a then none
      else match pteOf 0 (leNat (mem.readN (table + 8 * i) 8)) with
        | .leaf pa _ _ => some (a, 4096, pa, table + 8 * i)
        | _ => none
  | n + 1, table, va => (List.range (if n = 3 then 256 else 512)).flatMap fun i =>
      let a := va + levelSize (n + 1) * i
      if a + levelSize (n + 1) ≤ lo ∨ hi ≤ a then []
      else match pteOf (n + 1) (leNat (mem.readN (table + 8 * i) 8)) with
        | .leaf pa _ _ => [(a, levelSize (n + 1), pa, table + 8 * i)]
        | .table t => leavesFrom mem lo hi n t a
        | .bad => []

/-- The leaves of an address space over a range. -/
def Mod.leaves (m : Mod) (asid lo hi : Nat) : List (Nat × Nat × Nat × Nat) :=
  match m.asid? asid with
  | none => []
  | some a => leavesFrom m.dram lo hi 4 a.root 0

/-- An `inval` (R421): f is the generation, which rises by one, and every cached entry of the range is dropped, with the
lines of the instruction stores and the failed walks that lie in it. f and the module. (log 22, DEDUCED) -/
def Mod.inval (m : Mod) (asid lo hi : Nat) : Nat × Mod :=
  let out := fun (a n : Nat) => decide (a + n ≤ lo) || decide (hi ≤ a)
  let core := fun (k : Core) => { k with ilines := k.ilines.filter fun x => x.asid != asid || out x.va.toNat 64 }
  (m.gen, { m with
    gen := m.gen + 1,
    tlb := m.tlb.filter fun e => e.asid != asid || out e.va e.size,
    walks := m.walks.filter fun k => k.asid != asid || !k.failed || out k.va 4096,
    cores := m.cores.map core })

/-- The generations of the requests in flight: accesses on their way to device memory, sluice chunks, stores and copies that are
partly written, and walks. What a leat step, a preload or another fabric access does is done in one step, and is in flight between
no two. (R421) (log 104, DEDUCED) -/
def Mod.inFlight (m : Mod) : List Nat :=
  (m.reqs.filterMap fun r => match r.place with
    | .device _ => some r.gen
    | .cluster _ _ _ => none) ++
  (m.cores.flatMap fun k => k.slq.flatMap fun r => r.begun.map (·.gen)) ++
  (m.inQ.filterMap fun i => i.held.map (·.1)) ++
  (m.walks.filter fun k => !k.failed).map (·.gen)

/-- The quiescence counter Q: the smallest generation of a request in flight, or G (R421). (log 104, DEDUCED) -/
def Mod.quiescence (m : Mod) : Nat := m.inFlight.foldl min m.gen

/-! ### Bindings (R337 to R339) -/

/-- A binding of an address space by its number. -/
def Mod.binding? (m : Mod) (asid b : Nat) : Option Binding :=
  (m.asid? asid).bind fun a => a.bindings.find? fun x => x.num == b

/-- The virtual base of a copy: false is A, true is B. -/
def Binding.base (b : Binding) (copy : Bool) : Nat := (if copy then b.bbase else b.abase).toNat

/-- The shared copy's identifier, 0 for a private copy. -/
def Binding.shared (b : Binding) (copy : Bool) : Nat := if copy then b.bshr else b.ashr

/-- The selectors of an address space: bit b is sel of binding b. -/
def Asid.selectors (a : Asid) : W64 :=
  a.bindings.foldl (fun w b => if b.sel then w ||| (1#64 <<< b.num) else w) 0

/-- The tag under which a weight-bound launch posts its batch: that of the lowest binding that it names.
(log 39, DEDUCED) -/
def Mod.batchTag (m : Mod) (l : Launch) : Option Nat :=
  (List.range 64).findSome? fun b => if l.rec_.bind.getLsbD b then (m.binding? l.asid b).map (·.tag) else none

/-- The position of a batch, and the selectors of each address space just after it (R340). -/
def Mod.batchAt (m : Mod) (tag : Nat) (batch : W32) : Option (Nat × List (Nat × W64)) :=
  (m.canal.batches.find? fun p => p.1 == tag && p.2.1 == batch.toNat).map fun p => (p.2.2.1, p.2.2.2)

/-- The selectors that a launch has captured (R339, R340): those of its admission, or of a batch's position, which a launch that
is still to be queued holds from the time that the position is known. -/
def Mod.capturedSel (m : Mod) (l : Launch) : Option W64 :=
  if l.status = 4 ∨ (l.status = 3 ∧ l.rec_.weightBound = true) then some l.bind
  else if l.rec_.weightBound ∧ (l.status = 1 ∨ l.status = 2) then
    ((m.batchTag l).bind fun tag => m.batchAt tag l.rec_.batch).map fun p => ((p.2.find? fun x => x.1 == l.asid).map (·.2)).getD 0
  else none

/-- Whether a launch of the module has captured a copy (R339). -/
def Mod.captured (m : Mod) (asid b : Nat) (copy : Bool) : Bool :=
  m.launches.any fun l => l.asid == asid && l.rec_.bind.getLsbD b && match m.capturedSel l with
    | some sel => sel.getLsbD b == copy
    | none => false

/-- Whether a binding's copy is selected by it or captured by a launch of its address space (R345). -/
def Mod.copyHeld (m : Mod) (asid : Nat) (b : Binding) (copy : Bool) : Bool :=
  b.sel == copy || m.captured asid b.num copy

/-- The copies of every address space: address space, binding, copy. -/
def Mod.copies (m : Mod) : List (Nat × Binding × Bool) :=
  m.asids.flatMap fun a => a.bindings.flatMap fun b => [(a.num, b, false), (a.num, b, true)]

/-- Everything that names a copy: a private one its binding alone, a shared one every binding of every address space that names its
identifier (R338). -/
def Mod.namesOf (m : Mod) (asid : Nat) (b : Binding) (copy : Bool) : List (Nat × Binding × Bool) :=
  if b.shared copy = 0 then [(asid, b, copy)] else m.copies.filter fun x => x.2.1.shared x.2.2 == b.shared copy

/-- Whether a copy is selected or captured, a shared one by any binding that names it (R341, R345). -/
def Mod.copyInUse (m : Mod) (asid : Nat) (b : Binding) (copy : Bool) : Bool :=
  m.copyHeld asid b copy || (m.namesOf asid b copy).any fun x => m.copyHeld x.1 x.2.1 x.2.2

/-- A copy's pages unmapped from one address space (R345): the entries that map them are made invalid and the caches drop them.
The pages and the module. (log 43, DEDUCED) -/
def Mod.unmapCopy (m : Mod) (asid : Nat) (b : Binding) (copy : Bool) : List (Nat × Nat) × Mod :=
  let lo := b.base copy
  let hi := lo + b.size
  let ls := m.leaves asid lo hi
  let dram := ls.foldl (fun d l => d.write l.2.2.2 (d.read l.2.2.2 &&& 0xFE)) m.dram
  (ls.map fun l => (l.2.2.1, l.2.1), (Mod.inval { m with dram := dram } asid lo hi).2)

/-- Shards of released copies whose pages have left the pond read 0 (R345). -/
def Shard.leave (gone : Nat → Bool) (x : Shard) : Shard :=
  if x.freed.any gone then { x with word := 0, deadline := 0, chunks := [], freed := none } else x

/-- A copy that is neither selected nor captured any more is released: unmapped from every address space that names it, its pages
enter the pond at the generation of the last unmapping, and its shards read 0 when they leave it; a copy without pages leaves none
(R345). (log 43, DEDUCED) -/
def Mod.releaseCopy (m : Mod) (asid : Nat) (b : Binding) (copy : Bool) : Mod :=
  if m.copyInUse asid b copy then m
  else
    let named := m.namesOf asid b copy
    let r := named.foldl (fun (r : List (Nat × Nat) × Mod) x =>
      let q := r.2.unmapCopy x.1 x.2.1 x.2.2
      (r.1 ++ q.1, q.2)) ([], m)
    let gen := r.2.gen - 1
    let owner := (named.getLast?.map (·.1)).getD asid
    let pages := r.1.eraseDups.map fun p => ({ pa := p.1, size := p.2, gen := gen, asid := owner } : PondPage)
    let mine := fun (x : Shard) => named.any fun y => x.asid == y.1 && x.binding == y.2.1.num && x.copy == y.2.2
    let note := fun (x : Shard) => if mine x then { x with freed := some gen } else x
    let shards := r.2.shards.map note
    { r.2 with pond := r.2.pond ++ pages,
               shards := if pages.isEmpty then shards.map (Shard.leave fun g => g == gen) else shards }

/-- POND_RELEASE: the pages of the oldest generation leave the pond once Q has passed it, the shards of released copies among
them read 0, and the host is told (R345, R422). (log 43, DEDUCED) -/
def execPondRelease (s : State) : Out :=
  match s.now.pond with
  | [] => .next s
  | p :: ps =>
    let f := ps.foldl (fun f x => min f x.gen) p.gen
    if s.now.quiescence ≤ f then .next s
    else
      let m := { s.now with pond := s.now.pond.filter (fun x => x.gen != f), shards := s.now.shards.map (Shard.leave fun g => g == f) }
      let asid := ((s.now.pond.find? fun x => x.gen == f).map (·.asid)).getD 0
      .next { s with now := m.plainEvent 13 asid 0 0 (BitVec.ofNat 64 f) }

/-- The copies that a launch had captured with some selectors are released where nothing holds them any more (R345). -/
def Mod.releaseCaptured (m : Mod) (l : Launch) (sel : Option W64) : Mod :=
  match m.asid? l.asid, sel with
  | some a, some sel => a.bindings.foldl (fun m b =>
      if l.rec_.bind.getLsbD b.num then m.releaseCopy l.asid b (sel.getLsbD b.num) else m) m
  | _, _ => m

/-! ### Shards (R341, R342) -/

/-- The shard's request stops with a ready word. -/
def Mod.endShard (m : Mod) (num : Nat) (word : W32) : Mod :=
  { m with shards := m.shards.map fun x =>
      if x.num = num then { x with word := word, chunks := [], kept := [], deadline := 0 } else x }

/-- A chunk of a shard's sluice request lands in the copy; the last one compares the checksums (R214, R341, R342). The
loader writes a shared copy although it is mapped read-only (R338). (log 44, DEDUCED) -/
def Mod.shardChunk (m : Mod) (x : Shard) (b : Binding) (i : Nat) : Mod :=
  let n := min 256 (x.len - 256 * i)
  let r := m.devRead (.sluice 0) x.asid (x.staging + 256 * i) n
  match r.1 with
  | .error _ => r.2.endShard x.num 0xFFFFFFFD
  | .ok bs =>
    let q := r.2.xlateRun (.sluice 0) x.asid (b.shared x.copy == 0) (pagePieces (b.base x.copy + x.off + 256 * i) n)
    match q.1 with
    | .error _ => q.2.endShard x.num 0xFFFFFFFD
    | .ok l =>
      let m := q.2.dramSpread l bs
      let y : Shard := { x with chunks := x.chunks.erase i, kept := (i, bs) :: x.kept }
      if !y.chunks.isEmpty then { m with shards := m.shards.map fun z => if z.num = x.num then y else z }
      else
        let t := m.devRead (.sluice 0) x.asid (x.staging + x.len) 8
        let all := (List.range y.kept.length).flatMap fun i => ((y.kept.find? fun p => p.1 == i).map (·.2)).getD []
        match t.1 with
        | .error _ => t.2.endShard x.num 0xFFFFFFFD
        | .ok sum => t.2.endShard x.num (if leNat sum = (crc64 all).toNat then 1 else 0xFFFFFFFE)

/-- SLUICE_CHUNK_LANDED: a chunk of a running request of a core lands (R214), or, with core 1024, one of a shard's
request (R341). -/
def execSluiceChunkLanded (c handle i : Nat) (s : State) : Out :=
  if c < 1024 then chunkLanded c handle i s
  else match s.now.shards.find? fun x => x.num == handle && x.chunks.contains i with
    | none => .next s
    | some x => match s.now.binding? x.asid x.binding with
      | none => .next { s with now := s.now.endShard x.num 0xFFFFFFFD }
      | some b => .next { s with now := s.now.shardChunk x b i }

/-- SHARD_DEADLINE_EXPIRY: a shard that has not readied by its deadline (R342). -/
def execShardDeadlineExpiry (num : Nat) (s : State) : Out :=
  match s.now.shards.find? fun x => x.num == num with
  | none => .next s
  | some x => if x.word = 0 ∧ x.deadline ≠ 0 ∧ x.deadline ≤ s.now.tick then
      .next { s with now := s.now.endShard num 0xFFFFFFFC } else .next s

/-! ### Readiness (R343) -/

/-- The value that a prepared switch calls for: none while a shard of the copies that it will select is loading, g once
all read 1, g + 2^63 once one holds an error (R343). (log 45, DEDUCED) -/
def Mod.readiness (m : Mod) (p : Prep) : Option W64 :=
  let mine := m.shards.filter fun x => x.asid == p.asid && p.mask.getLsbD x.binding &&
    match m.binding? p.asid x.binding with
    | some b => b.sel != x.copy
    | none => false
  if mine.any fun x => decide (0xFFFFFFFC ≤ x.word.toNat) then some (p.g.setWidth 64 ||| (1#64 <<< (63 : Nat)))
  else if mine.all fun x => x.word == 1 then some (p.g.setWidth 64)
  else none

/-- READINESS_POST: each prepared switch whose value has changed posts its Canal word, 0 when a shard is loaded again, as
far as the frame queue has room (R343). (log 40, DESIGN CHOICE) -/
def Mod.postReadiness (m : Mod) : Mod :=
  if !m.canal.member then m
  else m.preps.foldl (fun m p =>
    let v := m.readiness p
    if v = p.posted ∨ canalQueue ≤ m.canal.q.length then m
    else
      let m := { m with preps := m.preps.map fun x => if x = p then { x with posted := v } else x }
      m.postFrame { kind := 0, pay := canalEntry p.word false (v.getD 0), at_ := m.clock, core := 1024, held := false,
                    deps := [], asid := p.asid, launch := 0 }) m

end Sys2Proof.Machine
end

