-- ==== Sys2Proof/Machine/Launch.lean ====
section
/-! DEFINITION. The launch unit (R376 to R388, R438): posts, queues, admission, placement, the synchronised start, and
retirement. -/

namespace Sys2Proof.Machine

/-! ### The task control block (R381, R382) -/

/-- A word written to a record in place; a write whose translation fails is lost (R376). -/
def Mod.tcbWrite (m : Mod) (asid : Nat) (addr : W64) (off n val : Nat) : Mod :=
  (m.devWrite .launch asid (addr.toNat + off) (leBytes n val)).2

/-- A launch takes a status, which is written to its record (R382). -/
def Mod.setStatus (m : Mod) (h st : Nat) : Mod :=
  match m.launch? h with
  | none => m
  | some l => (m.tcbWrite l.asid l.addr 0x180 4 st).onLaunch h fun l => { l with status := st }

/-- The errc and dropped words of a launch follow its state (R98, R381). -/
def Mod.tellTcb (m : Mod) (h : Nat) : Mod :=
  match m.launch? h with
  | none => m
  | some l =>
    if l.told = (l.errc, l.dropped) then m
    else
      let m := if l.told.1 = l.errc then m else m.tcbWrite l.asid l.addr 0x1D4 4 l.errc.toNat
      let m := if l.told.2 = l.dropped then m else m.tcbWrite l.asid l.addr 0x1D0 4 l.dropped.toNat
      m.onLaunch h fun l => { l with told := (l.errc, l.dropped) }

/-- A launch that the module no longer holds. (log 42, DESIGN CHOICE) -/
def Mod.dropLaunch (m : Mod) (h : Nat) : Mod :=
  { m with launches := m.launches.filter fun l => l.handle != h, queue := m.queue.filter fun x => x != h }

/-- A launch rejected with a status; the copies that it had captured may be released (R345, R382). -/
def Mod.reject (m : Mod) (h st : Nat) : Mod :=
  let n := (m.setStatus h st).dropLaunch h
  match m.launch? h with
  | some l => n.releaseCaptured l (m.capturedSel l)
  | none => n

/-! ### Stopping blocks (R386, R417) -/

/-- Matrix operations are cancelled: their status is 2, and it lands where it is waited for (R196). -/
def Core.cancelOps (k : Core) (ops : List MOp) (clock : Nat) : Core :=
  let waits := fun (f : Flight) => ops.any fun o => o.waiters.contains f.id
  { k with
    mStatus := ops.foldl (fun l o => ({ k with mStatus := l } : Core).noteStatus o.ticket 2) k.mStatus,
    flights := k.flights.map fun f => if waits f then { f with val := 2, land := some clock } else f }

/-- A core whose blocks of some numbers are stopped: their threads and pending results are gone, their matrix operations
take status 2 and their sluice requests status 5 (R417). -/
def Core.stopBlocks (k : Core) (dead : List Nat) (clock : Nat) : Core :=
  let gone := (k.warps.filter fun w => dead.contains w.block).map (·.uid)
  let ops := k.mq.filter fun o => dead.contains o.block
  let k := k.cancelOps ops clock
  let k := (k.slq ++ k.arms.map (·.req)).foldl (fun k r => if dead.contains r.block then k.slEnd r.handle 5 r.landed else k) k
  { k with
    warps := k.warps.filter fun w => !dead.contains w.block,
    flights := k.flights.filter fun f => !gone.contains f.dest.warp,
    waits := k.waits.filter fun g => !gone.contains g.warp,
    mq := k.mq.filter fun o => !dead.contains o.block,
    late := k.late.filter fun a => !dead.contains a.block,
    passes := k.passes.filter fun p => !dead.contains p.block,
    sweeps := k.sweeps.filter fun s => !dead.contains s.block,
    millrace := k.millrace.filter fun t => !dead.contains t.block }

/-- The blocks of some launches are stopped on every core and their room is freed; task threads are poisoned without
folds, leat runs end with status 4 (R283), and issued fabric operations finish without anyone to credit (R386, R417). -/
def Mod.stopLaunches (m : Mod) (hs : List Nat) : Mod :=
  let mine := fun (b : Block) => hs.contains b.launch
  let dead := m.cores.flatMap fun k => (k.blocks.filter mine).map (·.uid)
  let m := (m.leat.ctxs.filter fun x => hs.contains x.launch).foldl (fun m x => m.ltEnd x 4) m
  let m := { m with
    kids := m.kids.filter fun k => !dead.contains k.block && !dead.contains k.viewBlock,
    cores := m.cores.map fun (k : Core) => k.stopBlocks dead m.clock,
    leat := { m.leat with pool := m.leat.pool.filter fun p => !hs.contains p.1 } }
  m.cores.foldl (fun (m : Mod) (k : Core) => (k.blocks.filter mine).foldl (fun m b => m.removeBlock k.num b) m) m

/-! ### From post to queue (R383, R384, R340) -/

/-- Whether a position is older than the history of a tag's last 64 switch frames (R340). (log 47, DEDUCED) -/
def Mod.outOfHistory (m : Mod) (tag pos : Nat) : Bool :=
  let l := (m.canal.switches.filter fun p => p.1 == tag).map (·.2)
  decide (64 ≤ l.length) && l.all fun s => decide (pos < s)

/-- A launch enters the queue of its priority (R384). -/
def Mod.enqueueLaunch (m : Mod) (h : Nat) : Mod :=
  let m := m.setStatus h 3
  { m.onLaunch h fun l => { l with queuedAt := m.tick } with queue := m.queue ++ [h] }

/-- A launch whose predecessor count is 0 enters its queue, or first posts its batch frame (R384). -/
def Mod.readyLaunch (m : Mod) (h : Nat) : Mod :=
  match m.launch? h with
  | none => m
  | some l =>
    if !l.rec_.weightBound then m.enqueueLaunch h
    else match m.batchTag l with
      | none => m.reject h 10
      | some tag =>
        let old := match m.batchAt tag l.rec_.batch with
          | some p => m.outOfHistory tag p.1
          | none => false
        if !m.canal.member || old then m.reject h 10 else m.setStatus h 2

/-- The payload of a kind-3 frame (R340). -/
def batchPay (tag : Nat) (batch : W32) : List Byte :=
  leBytes 2 tag ++ leBytes 2 0 ++ leBytes 4 batch.toNat ++ leBytes 8 0

/-- The batch frames of weight-bound launches that have not posted theirs, as far as the frame queue has room (R340).
(log 40, DESIGN CHOICE) -/
def Mod.postBatches (m : Mod) : Mod :=
  m.launches.foldl (fun m l =>
    if l.status ≠ 2 ∨ l.framed = true ∨ canalQueue ≤ m.canal.q.length then m
    else match m.batchTag l with
      | none => m
      | some tag => (m.onLaunch l.handle fun x => { x with framed := true }).postFrame
          { kind := 3, pay := batchPay tag l.rec_.batch, at_ := m.clock, core := 1024, held := false, deps := [],
            asid := l.asid, launch := l.handle }) m

/-- A record that the module cannot translate: the host is told (R376). -/
def Mod.postFails (m : Mod) (asid : Nat) (addr : W64) : Nat × Nat × Mod := (1, 0, m.plainEvent 2 asid 0 8 addr)

/-- A record posted (R376, R381 to R383, R438): the reply status, the handle, and the module. (log 38, DEDUCED) -/
def Mod.postRecord (m : Mod) (asid : Nat) (addr : W64) : Nat × Nat × Mod :=
  let r := m.devRead .launch asid addr.toNat 512
  match r.1 with
  | .error _ => r.2.postFails asid addr
  | .ok bs =>
    let w := r.2.xlate .launch asid (addr.toNat + 0x180) true
    match w.1 with
    | .error _ => w.2.postFails asid addr
    | .ok _ =>
      let m := w.2
      let st := field bs 0x180 4
      let rec_ := recordOf bs
      if 1 ≤ st ∧ st ≤ 4 then (1, 0, m.protocolError)
      else if !recordOk bs then (0, 0, m.tcbWrite asid addr 0x180 4 7)
      else if rec_.weightBound && rec_.bind == 0 then (0, 0, m.tcbWrite asid addr 0x180 4 10)
      else
        let h := m.handles
        let l : Launch := {
          handle := h, asid := asid, addr := addr, rec_ := rec_, status := 0, bind := 0, queuedAt := 0, placed := 0,
          ended := 0, go := false, inError := false, errc := 0, dropped := 0, framed := false, order := 0,
          told := (0, 0) }
        let m := Mod.tcbWrite { m with handles := h + 1, launches := m.launches ++ [l] } asid addr 0x1D8 8 h
        (0, h, if field bs 0x184 4 = 0 then m.readyLaunch h else m.setStatus h 1)

/-- LAUNCH_POST: the launch unit takes the oldest post whose release is performed (R97, R383). -/
def execLaunchPost (s : State) : Out :=
  match s.now.posts.find? fun p => s.now.allPerformed p.deps with
  | none => .next s
  | some p => .next { s with now := (Mod.postRecord { s.now with posts := s.now.posts.erase p } p.asid p.addr).2.2 }

/-! ### Admission (R239, R331, R385, R386) -/

/-- The bytes of one save area: the launch's frame size and 2 KiB (R386). -/
def areaBytes (r : LRec) : Nat := frameBytes r + 2048

/-- The bytes of a launch's warp save areas (R386). -/
def saveBytes (r : LRec) : Nat := r.saves * r.blocks * areaBytes r

/-- The launches that hold reservations. -/
def Mod.admittedLaunches (m : Mod) : List Launch := m.launches.filter fun l => l.status == 4

/-- Whether a launch's reservations can be made: pool slots, save areas, and no save of its address space under way
(R331, R386, R408). -/
def Mod.canBegin (m : Mod) (l : Launch) : Bool :=
  let held := fun (f : LRec → Nat) => m.admittedLaunches.foldl (fun n x => n + f x.rec_) 0
  let quiet := match m.asid? l.asid with | some a => a.save == .none | none => true
  quiet && decide (held (·.leatpool) + l.rec_.leatpool ≤ 1024) &&
  (l.rec_.saves == 0 || match m.savePool with | some n => decide (held saveBytes + saveBytes l.rec_ ≤ n) | none => false)

/-- Whether a launch's save areas exceed the whole configured pool (R386). -/
def Mod.neverBegins (m : Mod) (l : Launch) : Bool :=
  l.rec_.saves != 0 && match m.savePool with | some n => decide (n < saveBytes l.rec_) | none => false

/-- The queue head that is served next: from priority 7 down, the first that can begin; one that has waited 100 µs holds
back every lower priority (R385). -/
def Mod.nextHead (m : Mod) : List Nat → Option Launch
  | [] => none
  | p :: ps =>
    match m.queue.findSome? fun h => (m.launch? h).filter fun l => l.rec_.priority == p with
    | none => m.nextHead ps
    | some l =>
      if m.canBegin l then some l
      else if l.queuedAt + 100000 * Config.ticksPerNs ≤ m.tick then none
      else m.nextHead ps

/-- The queue head that the launch unit takes: one that can never begin is rejected on reaching its head, whatever holds back
admissions (R386); else the one that is served next. -/
def Mod.head (m : Mod) : Option Launch :=
  let tops := [7, 6, 5, 4, 3, 2, 1, 0].filterMap fun p => m.queue.findSome? fun h => (m.launch? h).filter fun l => l.rec_.priority == p
  match tops.find? m.neverBegins with
  | some l => some l
  | none => m.nextHead [7, 6, 5, 4, 3, 2, 1, 0]

/-- The grid check of R239. -/
def Mod.gridOk (m : Mod) (l : Launch) : Bool :=
  let r := l.rec_
  r.axes == 0 || match m.grid? r.grid with
    | none => false
    | some g => g.active && g.asids.getLsbD l.asid && r.axes == g.n &&
      (List.range 5).all fun k => if k < g.n then r.ext.getD k 0 == g.ext.getD k 0 else r.ext.getD k 0 == 0

/-- Whether every block fits an empty core that may be used (R387, R435). (log 41, DEDUCED) -/
def Mod.fitsEmpty (m : Mod) (r : LRec) : Bool :=
  let ru := ruOf r.partition
  let au := auOf r.partition
  decide (r.warps * frameRows r ≤ 64 * ru) && decide (r.warps * r.width ≤ 4096) &&
  decide (rowsOf r.scratch ≤ 2048 - 64 * (ru + au)) && decide (rowsOf r.accsize ≤ 64 * au) &&
  (if r.pinned then (List.range (min r.blocks 1024)).all fun b => !m.board.disabled.contains ((r.core + b) % 1024)
   else decide (m.board.disabled.eraseDups.length < 1024))

/-- Whether every binding that a launch names is present (R386). -/
def Mod.bindingsPresent (m : Mod) (l : Launch) : Bool :=
  (List.range 64).all fun b => !l.rec_.bind.getLsbD b || (m.binding? l.asid b).isSome

/-- LAUNCH_ADMISSION: the head that can begin reserves, captures its selectors and whether its event ring is open, and is
checked (R377, R386, R438). -/
def execLaunchAdmission (s : State) : Out :=
  let m := s.now
  match m.head with
  | none => .next s
  | some l =>
    let h := l.handle
    if m.neverBegins l then .next { s with now := m.reject h 11 }
    else if !m.bindingsPresent l then .next { s with now := m.reject h 10 }
    else if !m.gridOk l then .next { s with now := m.reject h 9 }
    else if !m.fitsEmpty l.rec_ then .next { s with now := m.reject h 11 }
    else
      let sel := ((m.asid? l.asid).map Asid.selectors).getD 0 &&& l.rec_.bind
      let ring := m.rings.any fun y => y.num == l.rec_.evring
      let m := Mod.setStatus { m with queue := m.queue.filter fun x => x != h, next := m.next + 1 } h 4
      let f := fun (x : Launch) => { x with bind := if x.rec_.weightBound then x.bind else sel, order := s.now.next, evOpen := ring }
      .next { s with now := m.onLaunch h f }

/-! ### Placement (R137 to R143, R387) -/

/-- Threads of every block placed on a core (R387). -/
def Core.threadCount (k : Core) : Nat :=
  k.warps.foldl (fun n w => n + (w.threads.filter fun t => !t.ended).length) 0

/-- The lowest number below n that a list leaves free. -/
def lowestFree (n : Nat) (used : List Nat) : Option Nat := (List.range n).find? fun i => !used.contains i

/-- Whether the resources other than frames and PC-table entries that a block needs are free on a core (R387). -/
def Mod.fitsBut (m : Mod) (c : Nat) (l : Launch) : Bool :=
  let k := m.core c
  let r := l.rec_
  let ru := ruOf r.partition
  let au := auOf r.partition
  let others := fun (f : LRec → Nat) => k.blocks.foldl (fun n b => n + f (m.recOfBlock b)) 0
  !m.board.disabled.contains c && (k.blocks.isEmpty || k.partition == some r.partition) &&
  (k.lslots.any (fun p => p.2 == l.handle) || decide (k.lslots.length < 16)) && decide (k.blocks.length < 16) &&
  (firstFit (64 * (ru + au)) 2048 (rowsOf r.scratch) (m.scratchRuns c)).isSome &&
  (firstFit (64 * ru) (64 * (ru + au)) (rowsOf r.accsize) (m.accRuns c)).isSome &&
  decide (others (·.weirs) + r.weirs ≤ 256) && decide (others (·.flumes) + r.flumes ≤ 32)

/-- Whether a block of a launch fits a core (R387). -/
def Mod.fits (m : Mod) (c : Nat) (l : Launch) : Bool :=
  m.fitsBut c l && m.warpRoom c (ruOf l.rec_.partition) l.rec_.warps l.rec_

/-- The core for a launch's next block: the pinned one, or the fitting core with the fewest resident threads (R387). -/
def Mod.coreFor (m : Mod) (l : Launch) : Option Nat :=
  if l.rec_.pinned then
    let c := (l.rec_.core + l.placed) % 1024
    if m.fits c l then some c else none
  else (List.range 1024).foldl (fun b c => match b with
    | none => if m.fits c l then some c else none
    | some d => if (m.core c).threadCount < (m.core d).threadCount && m.fits c l then some c else b) none

/-- Whether placement of a launch is stopped by a save of its address space (R409). -/
def Mod.placeable (m : Mod) (l : Launch) : Bool :=
  l.status == 4 && decide (l.placed < l.rec_.blocks) &&
  (match m.asid? l.asid with | some a => a.save == .none | none => true)

/-- The admitted launch whose block is placed next: the highest priority, then the order of admission (R386). -/
def Mod.placing (m : Mod) : Option Launch :=
  (m.launches.filter m.placeable).foldl (fun a l => match a with
    | none => some l
    | some x => if x.rec_.priority < l.rec_.priority ∨ (x.rec_.priority = l.rec_.priority ∧ l.order < x.order) then some l
        else some x) none

/-- A block started on a core: slots, rows, state at its start values, and its warps (R84, R133, R137, R346, R365,
R386, R387). -/
def Mod.startBlock (m : Mod) (c : Nat) (l : Launch) : Mod :=
  let k := m.core c
  let r := l.rec_
  let ru := ruOf r.partition
  let au := auOf r.partition
  let row := (firstFit (64 * (ru + au)) 2048 (rowsOf r.scratch) (m.scratchRuns c)).getD 0
  let acc := (firstFit (64 * ru) (64 * (ru + au)) (rowsOf r.accsize) (m.accRuns c)).getD 0
  let uid := m.next
  let b : Block := {
    uid := uid, slot := (lowestFree 16 (k.blocks.map (·.slot))).getD 0, launch := l.handle, index := l.placed,
    row := row, accRow := acc, weirs := List.replicate r.weirs { t := 0, c := 0, p := 0 },
    flumes := (List.range r.flumes).map fun i => (flumeDesc (getR r.flumeDescs i) r.scratch).getD
      { base := 0, e := 0, a := 0, head := 0, tail := 0, count := 0 },
    joins := List.replicate 64 { count := 0, poison := 0 }, cistern := [], cistHead := 0, reserved := 0, cursor := 0,
    mailbox := [], viewsUsed := [], waves := 0, started := true, held := r.gridsync }
  let lslots := if k.lslots.any fun p => p.2 == l.handle then k.lslots
    else k.lslots ++ [((lowestFree 16 (k.lslots.map (·.1))).getD 0, l.handle)]
  let give := fun (k : Core) => (k.giveRows row (row + rowsOf r.scratch) l.asid m.free).giveRows acc (acc + rowsOf r.accsize) l.asid m.free
  let m := Mod.onCore { m with next := uid + 1, free := m.free + 1 } c fun k =>
    { give k with blocks := k.blocks ++ [b], lslots := lslots, partition := some r.partition }
  (List.range r.warps).foldl (fun m i =>
    m.startWarp c uid r.width (BitVec.ofNat 32 i) 0 (List.replicate r.width (r.kernel, [], none))) m

/-- BLOCK_PLACEMENT: the next block of the launch being placed goes to its core with its preload image; a preload that
fails to translate ends the launch with status 8 (R386, R387). -/
def execBlockPlacement (s : State) : Out :=
  let m := s.now
  match m.placing with
  | none => .next s
  | some l => match m.coreFor l with
    | none => .next s
    | some c =>
      let r := if l.rec_.preloadLen = 0 then (.ok [], m)
        else m.devRead .launch l.asid l.rec_.preload.toNat l.rec_.preloadLen
      match r.1 with
      | .error _ => .next { s with now := (r.2.stopLaunches [l.handle]).reject l.handle 8 }
      | .ok bs =>
        let uid := r.2.next
        let m := r.2.startBlock c l
        let m := match m.block? c uid with
          | some b => if bs.isEmpty then m else m.swrite c b 0 bs
          | none => m
        .next { s with now := m.onLaunch l.handle fun x => { x with placed := x.placed + 1 } }

/-! ### The synchronised start (R239, R240) -/

/-- The blocks of a launch may issue. -/
def Mod.release (m : Mod) (h : Nat) : Mod :=
  let go := fun (b : Block) => if b.launch = h then { b with held := false } else b
  let now := fun (k : Core) (w : Warp) => if (k.blocks.any fun b => b.uid == w.block && b.launch == h) then
    { w with threads := w.threads.map fun t => if t.run == .ready then { t with stamp := m.clock } else t } else w
  let core := fun (k : Core) => { k with blocks := k.blocks.map go, warps := k.warps.map (now k) }
  Mod.onLaunch { m with cores := m.cores.map core } h fun l => { l with go := true }

/-- Whether a launch stands at its synchronised start with all of its blocks placed here. -/
def Launch.syncing (l : Launch) : Bool := l.status == 4 && l.rec_.gridsync && !l.go && l.placed == l.rec_.blocks

/-- GRIDSYNC_START: a launch whose blocks are all placed contributes its count to the start over the tree; when the completions
have come back, its held blocks begin, or the launch fails with the grid status before any bundle where a module's link to
the tree has failed; without a grid it begins at once. `ok` says which of the two the step brings about: the start, or its
failure (R239, R240). (log 88, DESIGN CHOICE) -/
def execGridsyncStart (h : Nat) (ok : Bool) (s : State) : Out :=
  match s.now.launch? h with
  | none => .next s
  | some l =>
    if !l.syncing then .next s
    else match (if l.rec_.axes = 0 then none else s.now.grid? l.rec_.grid) with
      | none => if ok then .next { s with now := s.now.release h } else .next s
      | some g => match ok, l.sync with
        | true, 0 => .next { s with now :=
            (s.now.onLaunch h fun l => { l with sync := 1 }).fredArrive g (g.startPacket l.asid) true }
        | true, 2 => .next { s with now := s.now.release h }
        | false, 3 => .next { s with now := (s.now.stopLaunches [h]).reject h 9 }
        | _, _ => .next s

/-! ### Retirement (R312, R383, R388) -/

/-- Whether every block of a launch has ended and every write of it is performed (R312). -/
def Mod.retirable (m : Mod) (l : Launch) : Bool :=
  l.status == 4 && l.placed == l.rec_.blocks && l.ended == l.rec_.blocks &&
  !(m.reqs.any fun r => r.launch == l.handle) && !m.fabOps.any fun o => o.launch == l.handle

/-- PRED_DECREMENT: one successor of a retiring launch (R381, R383, R388). -/
def Mod.successor (m : Mod) (h asid : Nat) (addr : W64) : Mod :=
  let r := m.devRead .launch asid (addr.toNat + 0x184) 4
  let w := r.2.xlate .launch asid (addr.toNat + 0x184) true
  match r.1, w.1 with
  | .ok bs, .ok _ =>
    let pred := leNat bs
    if pred = 0 then w.2.plainEvent 12 asid 0 0 addr
    else
      let m := w.2.tcbWrite asid addr 0x184 4 (pred - 1)
      match m.launches.find? fun l => l.asid == asid && l.addr == addr && l.status == 1 with
      | some l => if pred = 1 then m.readyLaunch l.handle else m
      | none => m
  | _, _ => w.2.launchError h 8

/-- LAUNCH_RETIRE: the successors, the status, the freeing and the completion event (R388). (log 42, DESIGN CHOICE) -/
def execLaunchRetire (h : Nat) (s : State) : Out :=
  match s.now.launch? h with
  | none => .next s
  | some l =>
    if !s.now.retirable l then .next s
    else
      let m := (l.rec_.succ.take l.rec_.nsucc).foldl (fun m a => m.successor h l.asid a) s.now
      let l := (m.launch? h).getD l
      let st := if l.inError then 6 else 5
      let m := ((m.tellTcb h).setStatus h st).dropLaunch h
      let m := { m with leat := { m.leat with pool := m.leat.pool.filter fun p => p.1 != h } }
      let e : Event := { type := 2, asid := l.asid, flags := 0, seq := 0, handle := h, core := 0xFFFF, warp := 0, lane := 0,
                         code := st, pc := 0, payload := 0, time := 0, ring := l.rec_.evring, deps := [] }
      .next { s with now := (m.event e).releaseCaptured l (s.now.capturedSel l) }

end Sys2Proof.Machine
end

