-- ==== Sys2Proof/Machine/CanalPort.lean ====
section
/-! DEFINITION. The Canal port (R258 to R264, R276, R277, R281, R340, R344): frames received and applied in sequence
order, the barge, loss of the group, and its forming. -/

namespace Sys2Proof.Machine

/-! ### Applying a frame (R260, R261) -/

/-- One entry of a kind-0 or kind-1 frame applied to the sender's words; one with a reserved bit is skipped (R260). -/
def Canal.applyEntry (k : Canal) (sender : Nat) (e : List Byte) : Canal :=
  let w := field e 0 8
  let key := sender * 256 + w % 256
  let v := BitVec.ofNat 64 (field e 8 8)
  if 2 ≤ w / 256 then k
  else
    let old := k.word sender (w % 256)
    let new := if w / 256 = 1 then old + v else v
    { k with words := upsert (fun p => p.1 == key) (key, new) k.words }

/-- The entries of a payload, in order (R260). -/
def Canal.applyEntries (k : Canal) (sender : Nat) (pay : List Byte) : Canal :=
  (List.range (pay.length / 16)).foldl (fun k i => k.applyEntry sender ((pay.drop (16 * i)).take 16)) k

/-- The module whose Canal port has changed. -/
def Mod.onCanal (m : Mod) (f : Canal → Canal) : Mod := { m with canal := f m.canal }

/-- Every binding of a tag in a mask takes its new selector (R344). -/
def Mod.switchTo (m : Mod) (tag : Nat) (mask sel : W64) : Mod :=
  let hit := fun (b : Binding) => b.tag == tag && mask.getLsbD b.num
  let flip := fun (b : Binding) => if hit b then { b with sel := sel.getLsbD b.num } else b
  let left := m.asids.flatMap fun a => (a.bindings.filter fun b => hit b && b.sel != sel.getLsbD b.num).map fun b =>
    (a.num, flip b, b.sel)
  let m := { m with asids := m.asids.map fun a => { a with bindings := a.bindings.map flip } }
  left.foldl (fun m x => m.releaseCopy x.1 x.2.1 x.2.2) m

/-- SWITCH_APPLY (R344): the readiness words are read at this point of the sequence; the host is told the outcome and the
bindings named that are absent here. (log 46, DEDUCED) -/
def Mod.applySwitch (m : Mod) (f : Frame) : Mod :=
  let k := m.canal
  let tag := field f.pay 0 2
  let w := field f.pay 2 1
  let g := field f.pay 4 4
  let members := field f.pay 8 8
  let mask := BitVec.ofNat 64 (field f.pay 16 8)
  let sel := BitVec.ofNat 64 (field f.pay 24 8)
  if f.pay.length ≠ 32 ∨ field f.pay 3 1 ≠ 0 ∨ g = 0 ∨ 2 ^ k.n ≤ members then m
  else
    let ok := (List.range k.n).all fun i => members / 2 ^ i % 2 == 0 || k.word i w == BitVec.ofNat 64 g
    let mine := members / 2 ^ k.index % 2 == 1
    let has := fun (b : Nat) => m.asids.any fun a => a.bindings.any fun x => x.num == b && x.tag == tag
    let absent := (List.range 64).foldl (fun (v : W64) b => if mask.getLsbD b && !has b then v ||| (1#64 <<< b) else v) 0
    let asid := ((m.asids.find? fun a => a.bindings.any fun x => x.tag == tag).map (·.num)).getD 0
    let l := (k.switches.filter fun p => p.1 == tag).take 63
    let m := m.onCanal fun k => { k with switches := (tag, f.seq) :: l ++ k.switches.filter fun p => p.1 != tag }
    let m := if ok && mine then
        let m := m.switchTo tag mask sel
        { m with preps := m.preps.filter fun p => !(p.word == w && p.g.toNat == g) }
      else m
    m.plainEvent 11 asid 0 (if ok then 0 else 1) absent

/-- BATCH_ADMISSION (R340): the first frame of a batch fixes its position and the selectors there; a frame of this module
lets its launch into its queue, or rejects it when the position is older than the history. -/
def Mod.applyBatch (m : Mod) (f : Frame) : Mod :=
  let tag := field f.pay 0 2
  let batch := BitVec.ofNat 32 (field f.pay 4 4)
  if f.pay.length ≠ 16 ∨ field f.pay 2 2 ≠ 0 ∨ field f.pay 8 8 ≠ 0 then m.protocolError
  else
    let m := match m.batchAt tag batch with
      | some _ => m
      | none =>
        let now := m.asids.map fun a => (a.num, a.selectors)
        m.onCanal fun k => { k with batches := (tag, batch.toNat, f.seq, now) :: k.batches.take 4095 }
    if f.sender ≠ m.canal.index then m
    else match m.launches.find? fun l => l.status == 2 && l.framed && l.rec_.batch == batch && m.batchTag l == some tag,
        m.batchAt tag batch with
      | some l, some p =>
        if m.outOfHistory tag p.1 then m.reject l.handle 10
        else
          let sel := ((p.2.find? fun x => x.1 == l.asid).map (·.2)).getD 0 &&& l.rec_.bind
          (m.onLaunch l.handle fun x => { x with bind := sel }).enqueueLaunch l.handle
      | _, _ => m

/-- COLLECTIVE_ADMISSION (R281): the frame joins those applied, and the collectives that it lets in are admitted. -/
def Mod.applyCollective (m : Mod) (f : Frame) : Mod :=
  if f.pay.length ≠ 24 ∨ 8 ≤ field f.pay 20 1 ∨ field f.pay 21 3 ≠ 0 then m.protocolError
  else (m.onCanal fun k => { k with kind4 := k.kind4 ++ [(f.seq, f.sender, f.pay)] }).admitCollectives

/-- A frame applied; a malformed one is discarded and takes its sequence number all the same (R259, R260). -/
def Mod.applyFrame (m : Mod) (f : Frame) : Mod :=
  if f.resv ≠ 0 ∨ m.canal.n ≤ f.sender ∨ 240 < f.len then m
  else
    let f := { f with pay := f.pay.take f.len }
    match f.kind with
    | 0 => if f.pay.length % 16 ≠ 0 then m else m.onCanal fun k => k.applyEntries f.sender f.pay
    | 1 => if f.pay.length % 16 ≠ 0 then m else m.onCanal fun k => k.applyEntries f.sender f.pay
    | 2 => m.applySwitch f
    | 3 => m.applyBatch f
    | 4 => m.applyCollective f
    | 5 => m
    | _ => m.protocolError

/-- What ends a Canal wait once its word meets its condition: the word, status 0, and an acquire (R277). -/
def Mod.canalMet (m : Mod) (g : GWait) : Option (List (Nat × W64) × Bool) :=
  match g.wait with
  | .canal member word cond cmp d _ =>
    let v := m.canal.word member word
    if canalCond cond v cmp then some ([(d, v), (d + 1, 0)], true) else none
  | _ => none

/-- What ends a Canal wait at the loss of the group: the last word applied and status 2 (R277). -/
def Mod.canalLost (m : Mod) (g : GWait) : Option (List (Nat × W64) × Bool) :=
  match g.wait with
  | .canal member word _ _ d _ => some ([(d, m.canal.word member word), (d + 1, 2)], false)
  | _ => none

/-- The Canal waits examine their words after a frame, those of saved contexts too: those that are met land 2 c later and acquire
(R277, R412). -/
def Mod.wakeCanal (m : Mod) : Mod :=
  let m := m.wakeSaved fun _ g => m.canalMet g
  m.cores.foldl (fun m k => k.waits.foldl (fun m g => match g.wait with
    | .canal member word cond cmp d _ =>
      let v := m.canal.word member word
      if canalCond cond v cmp then (m.wakeWith k.num g (m.clock + 2) [(d, v), (d + 1, 0)]).acquire k.num g.warp g.lanes
      else m
    | _ => m) m) m

/-- Held frames applied one at a time in ascending sequence number, as far as none is missing (R261). -/
def Mod.applyHeld : Nat → Mod → Mod
  | 0, m => m
  | n + 1, m => match m.canal.held.find? fun f => f.seq == m.canal.next with
    | none => m
    | some f =>
      let m := m.onCanal fun k => { k with held := k.held.filter fun x => x.seq != f.seq, next := k.next + 1 }
      Mod.applyHeld n (m.applyFrame f).wakeCanal

/-- The 16-byte header of a frame, with a check value (R259). -/
def frameHeader (f : Frame) (crc : BitVec 32) : List Byte :=
  leBytes 2 f.group ++ leBytes 1 (f.sender % 64 + 64 * f.resv) ++ leBytes 1 f.kind ++ leBytes 6 f.seq ++ leBytes 2 f.len ++
    leBytes 4 crc.toNat

/-- The check value of a frame: over its header, with that field zero, and its payload (R259). -/
def frameCrc (f : Frame) : BitVec 32 := crc32c (frameHeader f 0 ++ f.pay.take f.len)

/-- A frame received: one of another group is discarded, one with a bad checksum stays missing, and others wait for
their turn (R259, R261). -/
def Mod.receiveFrame (m : Mod) (f : Frame) : Mod :=
  let k := m.canal
  if !k.member || k.group != some f.group || frameCrc f != f.crc || decide (f.seq < k.next) ||
      k.held.any (fun x => x.seq == f.seq) then m
  else Mod.applyHeld (k.held.length + 1) (m.onCanal fun k => { k with held := k.held ++ [f] })

/-- CANAL_FRAME_APPLY: a frame comes off the splitter (R261). (log 7, DESIGN CHOICE) -/
def execCanalFrameApply (f : Frame) (s : State) : Out := .next { s with now := s.now.receiveFrame f }

/-! ### The barge (R258, R261) -/

/-- Whether a sequence number below the barge's is missing here. -/
def Canal.missing (k : Canal) (seq : Nat) : Bool := decide (k.next ≤ seq) && !k.held.any fun f => f.seq == seq

/-- The retransmit field's bits for which a test of sequence numbers holds: bit j stands for s − 1 − j. -/
def retransBits (s : Nat) (p : Nat → Bool) : W64 :=
  (List.range (min s 64)).foldl (fun (v : W64) j => if p (s - 1 - j) then v ||| (1#64 <<< j) else v) 0

/-- The barge held: requested frames of this module go again, its own missing frames are asked for, its next frame is
stamped and sent, and the barge is passed on (R258, R261, R274). -/
def Mod.holdBarge (m : Mod) (b : Barge) : Mod :=
  let k := m.canal
  let asked := fun (f : Frame) => decide (f.seq < b.seq) && decide (b.seq - 1 - f.seq < 64) && b.retrans.getLsbD (b.seq - 1 - f.seq)
  let again := k.sent.filter asked
  let still := retransBits b.seq fun q => (b.retrans.getLsbD (b.seq - 1 - q) && !again.any fun f => f.seq == q) || k.missing q
  let m := m.onCanal fun k => { k with out := k.out ++ again, bargeAt := m.tick }
  match k.q with
  | f :: q =>
    if f.held then m.onCanal fun k => { k with barge := some { b with retrans := still } }
    else
      let fr : Frame := { group := b.group, sender := k.index, resv := 0, kind := f.kind, seq := b.seq, len := f.pay.length,
                          crc := 0, pay := f.pay }
      let fr := { fr with crc := frameCrc fr }
      let m := m.onCanal fun k => { k with
        q := q, out := k.out ++ [fr], sent := (k.sent ++ [fr]).drop (k.sent.length - 63),
        barge := some { b with seq := b.seq + 1, retrans := still <<< (1 : Nat) } }
      m.receiveFrame fr
  | [] => m.onCanal fun k => { k with barge := some { b with retrans := still } }

/-- BARGE_ARRIVAL (R258). (log 21, DESIGN CHOICE) -/
def execBargeArrival (b : Barge) (s : State) : Out :=
  if s.now.canal.member && s.now.canal.group == some b.group then .next { s with now := s.now.holdBarge b } else .next s

/-- Whether the barge has stayed away for 20 µs, and this member has the lowest index of those in the group (R261).
(log 47, DEDUCED) -/
def Mod.bargeLost (m : Mod) : Bool :=
  m.canal.member && decide (m.canal.bargeAt + 20000 * Config.ticksPerNs ≤ m.tick) &&
  (m.canal.index == 0 || Config.lowerLeft m.canal.index m.tick)

/-- BARGE_REGENERATE: the member with the lowest index makes the barge anew, one above the highest number that it has
applied (R261). (log 47, DEDUCED) -/
def execBargeRegenerate (s : State) : Out :=
  match s.now.canal.group with
  | some g => if s.now.bargeLost then
      .next { s with now := s.now.holdBarge { group := g, seq := s.now.canal.next, retrans := 0 } } else .next s
  | none => .next s

/-! ### Loss and forming of the group (R261, R262) -/

/-- What ends with the group (R261, R262, R277, R282, R340): Canal waits with status 2, runs that await admission with status
5, both also of saved contexts, queued frames but for releases not yet eligible, which stay held, the launches that wait for a batch
frame, queued, sent or not yet posted, and the switches that are prepared (log 47, DEDUCED). The frames discarded. -/
def Mod.loseCanal (m : Mod) : Nat × Mod :=
  let gone := m.canal.q.filter fun f => !f.held
  let m := m.wakeSaved fun _ g => m.canalLost g
  let m := m.cores.foldl (fun (m : Mod) (k : Core) => k.waits.foldl (fun m g => match g.wait with
    | .canal member word _ _ d _ =>
      m.wakeWith k.num g (m.clock + 2) [(d, m.canal.word member word), (d + 1, 2)]
    | _ => m) m) m
  let m := ((m.leat.ctxs ++ m.saved.flatMap (·.leat)).filter fun x => x.cn && !x.admitted).foldl (fun m x => m.ltEnd x 5) m
  let m := if m.canal.group.isSome then { m with preps := [] } else m
  let m := m.onCanal fun k => { k with q := [], orphans := k.orphans ++ k.q.filter (·.held) }
  (gone.length, (m.launches.filter fun l => l.status == 2).foldl (fun m l => m.reject l.handle 10) m)

/-- Whether a frame can no longer be recovered within 64 sequence numbers (R261). (log 47, DEDUCED) -/
def Canal.lost (k : Canal) : Bool :=
  let s := k.held.foldl (fun s f => max s (f.seq + 1)) ((k.barge.map (·.seq)).getD 0)
  k.member && decide (k.next + 64 < s)

/-- CANAL_MEMBER_LEAVE: the module leaves the group and drops its replica; the host learns how many frames were
discarded (R261, R262). -/
def execCanalMemberLeave (s : State) : Out :=
  if !s.now.canal.lost then .next s
  else
    let r := s.now.loseCanal
    let m := r.2.onCanal fun k => { k with left := true, words := [], held := [], barge := none }
    .next { s with now := m.plainEvent 9 0 0 0 (BitVec.ofNat 64 r.1) }

/-- CANAL_GROUP_FORM: every member has agreed a version; no sequence number is applied, and member 0 makes the first
barge (R262). -/
def execCanalGroupForm (s : State) : Out :=
  match s.now.canal.group with
  | none => .next s
  | some g =>
    if s.now.canal.formed || s.now.canal.version.isNone then .next s
    else
      let m := s.now.onCanal fun k => { k with formed := true, left := false, next := 0, bargeAt := s.now.tick }
      let m := { m with leat := { m.leat with admitted := [] } }
      .next { s with now := if m.canal.index = 0 then m.holdBarge { group := g, seq := 0, retrans := 0 } else m }

/-- CANAL_RELEASE_ELIGIBLE: the writes that the k-th queued frame releases are performed, and it may be sent; of a frame that was
held when the module left its group, or was configured again, it is discarded, and the host is told (R262, R263, R276). -/
def execCanalReleaseEligible (i : Nat) (s : State) : Out :=
  let k := s.now.canal
  match k.q[i]?, k.orphans[i - k.q.length]? with
  | some f, _ =>
    if !f.held || !s.now.allPerformed f.deps then .next s
    else .next { s with now := s.now.onCanal fun k => { k with q := k.q.set i { f with held := false } } }
  | none, some f =>
    if !s.now.allPerformed f.deps then .next s
    else
      let m := s.now.onCanal fun k => { k with orphans := k.orphans.eraseIdx (i - k.q.length) }
      .next { s with now := m.plainEvent 9 f.asid 0 0 1 }
  | none, none => .next s

end Sys2Proof.Machine
end

