-- ==== Sys2Proof/Machine/Evict.lean ====
section
/-! DEFINITION. Eviction and restoring of warps at blocking points (R390 to R393, R407), and the watchdog (R394,
R395). -/

namespace Sys2Proof.Machine

/-- Whether a wait's wake source is not on the module (R146). -/
def Mod.external (m : Mod) (c : Nat) (g : GWait) : Bool :=
  match g.wait with
  | .deferred _ fab => fab
  | .count _ _ _ _ => true
  | .canal _ _ _ _ _ _ => true
  | .leat _ _ _ => true
  | .fence sc => g.lanes.any fun l =>
      (m.fabOps.any fun o => (m.fenceDeps c g.warp l sc).contains o.id) ||
      ((m.core c).pendingOf g.warp l).any fun f => f.kind == .fabric
  | _ => false

/-- Whether a wait is a join wait. -/
def GWait.isJoin (g : GWait) : Bool :=
  match g.wait with
  | .join _ _ => true
  | _ => false

/-- Whether a wait is a fabric wait (R146). -/
def GWait.isFabric (g : GWait) : Bool :=
  match g.wait with
  | .deferred _ fab => fab
  | .count _ _ _ _ => true
  | _ => false

/-- The waits of a warp. -/
def Core.waitsOf (k : Core) (w : Nat) : List GWait := k.waits.filter fun g => g.warp == w

/-- Whether every thread of a warp is blocked or has ended, and some thread is blocked (R390). -/
def Warp.allBlocked (w : Warp) : Bool :=
  let blocked := fun (t : Thread) => match t.run with | .blocked _ => true | _ => false
  (w.threads.all fun t => t.ended || (blocked t && !t.handler)) && w.threads.any blocked

/-- Whether a warp is evictable (R390). -/
def Mod.evictable (m : Mod) (c : Nat) (w : Warp) : Bool :=
  let k := m.core c
  !w.evicted && w.allBlocked &&
  decide ((k.warps.filter fun x => x.evicted && x.block == w.block).length < (m.recOf c w.uid).saves) &&
  !m.frozen ((m.launchOf c w.uid).map (·.asid) |>.getD 0)

/-- The rank of a wait in the order of R392. -/
def Mod.evictRank (m : Mod) (c : Nat) (g : GWait) : Nat :=
  let marked := m.fabOps.any fun o => o.core == c && o.warp == g.warp && !(m.marksOf (packetPeers o.pkt).1 (packetPeers o.pkt).2).isEmpty
  if g.isFabric && marked then 1 else if m.external c g then 2 else if g.isJoin then 3 else 4

/-- The key by which the core chooses among evictable warps: rank, since when it has been blocked, slot (R392).
(log 48, DEDUCED) -/
def Mod.evictKey (m : Mod) (c : Nat) (w : Warp) : Nat × Nat × Nat :=
  let gs := (m.core c).waitsOf w.uid
  (gs.foldl (fun r g => min r (m.evictRank c g)) 4, gs.foldl (fun t g => max t g.since) 0, w.slot)

/-- Whether one key comes before another. -/
def keyBefore (a b : Nat × Nat × Nat) : Bool :=
  decide (a.1 < b.1) || (a.1 == b.1 && (decide (a.2.1 < b.2.1) || (a.2.1 == b.2.1 && decide (a.2.2 < b.2.2))))

/-- The warp chosen among some (R392). -/
def Mod.evictChoice (m : Mod) (c : Nat) (ws : List Warp) : Option Warp :=
  ws.foldl (fun b w => match b with
    | none => some w
    | some x => if keyBefore (m.evictKey c w) (m.evictKey c x) then some w else b) none

/-- A core once the frames now being saved are free (R393). -/
def Mod.soon (m : Mod) (c : Nat) : Mod :=
  m.onCore c fun k => { k with warps := k.warps.map fun w => { w with freeAt := 0 } }

/-- Whether n warps of a record will find room once the frames now being saved are free (R391, R393).
(log 48, DEDUCED) -/
def Mod.roomSoon (m : Mod) (c ru n : Nat) (r : LRec) : Bool := (m.soon c).warpRoom c ru n r

/-- The priority of a warp's launch. -/
def Mod.prioOf (m : Mod) (c w : Nat) : Nat := (m.recOf c w).priority

/-- Whether the next block of a launch may be placed on a core (R387). -/
def Mod.placesHere (_m : Mod) (c : Nat) (l : Launch) : Bool := !l.rec_.pinned || (l.rec_.core + l.placed) % 1024 == c

/-- Whether a waiting block needs a frame and entries of a core (R391, R393). -/
def Mod.blockWants (m : Mod) (c : Nat) : Bool :=
  match m.placing with
  | some l => m.placesHere c l && m.fitsBut c l
  | none => false

/-- The warp that a core evicts now, if one of the cases of R391 holds. -/
def Mod.toEvict (m : Mod) (c : Nat) : Option Warp :=
  let k := m.core c
  let ws := k.warps.filter (m.evictable c)
  let ru := ruOf (k.partition.getD 0)
  let case1 := match m.waveTake c with
    | some (b, _) => if m.roomSoon c ru 1 (m.recOfBlock b) then none
        else m.evictChoice c (ws.filter fun w => (k.waitsOf w.uid).all GWait.isJoin)
    | none => none
  let case2 := (k.warps.filter fun w => w.evicted && w.condAt.isSome).findSome? fun x =>
    if (m.soon c).rowsUsed c + frameRows (m.recOf c x.uid) ≤ 64 * ru then none
    else m.evictChoice c (ws.filter fun w => decide (m.prioOf c w.uid ≤ m.prioOf c x.uid))
  let case3 := match m.placing with
    | some l =>
      if m.placesHere c l && (m.coreFor l).isNone && m.fitsBut c l && !m.roomSoon c (ruOf l.rec_.partition) l.rec_.warps l.rec_ then
        m.evictChoice c (ws.filter fun w => decide (m.prioOf c w.uid < l.rec_.priority))
      else none
    | none => none
  case1.orElse fun _ => case2.orElse fun _ => case3

/-- The lowest n bytes of a pool, from a place on, that no run of a list takes: at most `k` runs. -/
def freeRuns (taken : List (Nat × Nat)) (pool : Nat) : Nat → Nat → Nat → List (Nat × Nat)
  | 0, _, _ => []
  | k + 1, a, n =>
    if n = 0 ∨ pool ≤ a then []
    else match taken.find? fun t => decide (t.1 ≤ a) && decide (a < t.1 + t.2) with
      | some t => freeRuns taken pool k (t.1 + t.2) n
      | none =>
        let stop := ((taken.map (·.1)).filter fun x => decide (a < x)).foldl min pool
        let l := min n (stop - a)
        (a, l) :: freeRuns taken pool k (a + l) (n - l)

/-- The runs of the save pool that make an area of n bytes: the lowest bytes that no evicted warp's area takes. The reservation of
R386 has made sure that there are as many. (log 87, DESIGN CHOICE) -/
def Mod.areaFor (m : Mod) (n : Nat) : List (Nat × Nat) :=
  let taken := ((m.cores.flatMap fun k => k.warps.filterMap (·.area)) ++
    m.saved.flatMap fun v => v.cores.flatMap fun k => k.warps.filterMap (·.area)).flatten
  freeRuns taken (m.savePool.getD 0) (2 * taken.length + 1) 0 n

/-- A warp leaves its core for its save area: the area takes the bytes that the core writes in its own form (R393).
(log 87, DESIGN CHOICE) -/
def Mod.evict (m : Mod) (c : Nat) (w : Warp) : Mod :=
  let r := m.recOf c w.uid
  let n := areaBytes r
  let runs := m.areaFor n
  let until_ := m.clock + 40 + (frameBytes r + 255) / 256
  let put := fun (d : Memory) (x : Nat × Nat) =>
    d.writeN (m.saveBase + x.1) ((List.range x.2).map fun i => Config.freeByte m.free (x.1 + i))
  Mod.onWarp { m with free := m.free + 1, dram := runs.foldl put m.dram } c w.uid fun x =>
    { x with evicted := true, freeAt := until_, condAt := none, area := some runs }

/-- WARP_EVICT: a core saves the warp that R391 and R392 choose; its frame and slot are free 40 + ⌈F/256⌉ c later
(R393). -/
def execWarpEvict (c : Nat) (s : State) : Out :=
  match s.now.toEvict c with
  | none => .next s
  | some w => .next { s with now := s.now.evict c w }

/-- The condition of an evicted warp has come to hold: one of its threads is free to go on (R393, R407). -/
def Mod.noteConditions (m : Mod) (c : Nat) : Mod :=
  let free := fun (t : Thread) => match t.run with | .gap _ => true | .ready => true | _ => false
  m.onCore c fun k => { k with warps := k.warps.map fun w =>
    if w.evicted && w.condAt.isNone && w.threads.any free then { w with condAt := some m.clock } else w }

/-- Whether an evicted warp may come back now (R393). -/
def Mod.restorable (m : Mod) (c : Nat) (w : Warp) : Bool :=
  let k := m.core c
  let rivals := k.warps.filter fun x => x.evicted && x.uid != w.uid && x.condAt.isSome
  w.evicted && m.backRoom c (ruOf (k.partition.getD 0)) (m.recOf c w.uid) w &&
  (match w.condAt with
    | some t => rivals.all fun x => match x.condAt with | some u => decide (t ≤ u) | none => true
    | none => rivals.isEmpty && (m.waveTake c).isNone && !m.blockWants c)

/-- A thread of a warp that is restored: one that its wait has freed enters the ready state no earlier than now (R145,
R153). -/
def Thread.back (t : Thread) (clock : Nat) : Thread :=
  match t.run with
  | .ready => { t with stamp := clock }
  | .gap u => { t with run := .gap (max u clock) }
  | _ => t

/-- WARP_RESTORE: an evicted warp takes a slot and a frame again, on its own lane set (R134, R393). -/
def execWarpRestore (c w : Nat) (s : State) : Out :=
  match s.now.warp? c w with
  | none => .next s
  | some x =>
    if !s.now.restorable c x || decide (s.now.clock < x.freeAt) then .next s
    else
      let slot := s.now.warpSlot c
      let rows := s.now.frameFor c (s.now.recOf c w)
      let m := s.now.onCore c fun k => k.giveFrame rows ((s.now.launchOf c w).map (·.asid) |>.getD 0)
      .next { s with now := m.onWarp c w fun x =>
        { x with evicted := false, slot := slot, freeAt := 0, condAt := none, area := none, frame := rows
                 threads := x.threads.map fun t => t.back s.now.clock } }

/-! ### The watchdog (R394, R395) -/

/-- The number by which a watchdog event names a blocking point: its row in R146's table. (log 49, DEDUCED) -/
def GWait.point (g : GWait) : Nat :=
  match g.wait with
  | .wsync => 1
  | .weir _ _ => 2
  | .weirArrive _ _ _ => 2
  | .wfa _ _ => 3
  | .deferred _ fab => if fab then 5 else 4
  | .flmPush _ _ => 6
  | .flmPop _ _ => 6
  | .join _ _ => 7
  | .count _ _ _ _ => 8
  | .canal _ _ _ _ _ _ => 9
  | .leat _ _ _ => 10
  | .fence _ => 11

/-- Whether a wait is for the status of the product that is running: its group steps are progress, and come more often
than any limit (R194, R394). (log 8, DESIGN CHOICE) -/
def Core.stepping (k : Core) (g : GWait) : Bool :=
  k.mq.any fun o => o.kind == .product && o.readyAt.isSome && k.flights.any fun f => o.waiters.contains f.id && g.awaits f

/-- The threads of a wait whose timers have reached the limit of their launch, in real time, and that are not reported yet;
a thread that `brk` has stopped runs no timer (R5, R394, R395). (log 49, DEDUCED) -/
def Mod.overdue (m : Mod) (c : Nat) (g : GWait) : List Nat :=
  let limit := (m.recOf c g.warp).wdog * 1000000 * Config.ticksPerNs
  if m.external c g || (m.core c).stepping g then []
  else (g.timers.filter fun t => !g.told.contains t.1 && decide (limit ≤ m.tick - t.2) &&
    match m.thread? c g.warp t.1 with | some th => th.run != .stopped | none => false).map (·.1)

/-- WATCHDOG_EXPIRY: the host learns once of each thread whose wait has made no progress for the limit; it waits on
(R394). -/
def execWatchdogExpiry (c id : Nat) (s : State) : Out :=
  match (s.now.core c).waits.find? fun g => g.id == id with
  | none => .next s
  | some g =>
    match s.now.overdue c g with
    | [] => .next s
    | ls =>
      let m := s.now.onCore c fun k =>
        { k with waits := k.waits.map fun x => if x.id = id then { x with told := x.told ++ ls } else x }
      .next { s with now := ls.foldl (fun m l => m.threadEvent 3 c g.warp l g.point g.pc 0) m }

end Sys2Proof.Machine
end

