-- ==== Sys2Proof/Machine/Save.lean ====
section
/-! DEFINITION. Whole-context save and restore (R408 to R414), and the reset of an address space (R417). -/

namespace Sys2Proof.Machine

/-- The resident blocks of an address space: core and block. -/
def Mod.blocksOf (m : Mod) (asid : Nat) : List (Nat × Block) :=
  m.cores.flatMap fun k => (k.blocks.filter fun b => m.asidOf b.launch == asid).map fun b => (k.num, b)

/-- The save state of an address space. -/
def Mod.saveOf (m : Mod) (asid : Nat) : SaveState := ((m.asid? asid).map (·.save)).getD .none

/-- The save state changed. -/
def Mod.setSave (m : Mod) (asid : Nat) (x : SaveState) : Mod := m.onAsid asid fun a => { a with save := x }

/-- The bytes of image that a save needs (R414). -/
def Mod.imageSize (m : Mod) (asid : Nat) : Nat :=
  let n := (m.blocksOf asid).foldl (fun n p =>
    let r := m.recOfBlock p.2
    let frames := ((m.core p.1).warps.filter fun w => w.block == p.2.uid && !w.evicted).length
    n + rowsOf r.scratch * 768 + rowsOf r.accsize * 768 + 8192 + frames * (frameBytes r + 2048)) 65536
  (n + 4095) / 4096 * 4096

/-! ### The save point (R409) -/

/-- Whether every weir of an address space's blocks holds C = 0. -/
def Mod.weirsQuiet (m : Mod) (asid : Nat) : Bool := (m.blocksOf asid).all fun p => p.2.weirs.all fun w => w.c == 0

/-- SAVE_POINT: the save cycle is reached, clean or forced, and the address space stops issuing (R409, R410). -/
def execSavePoint (asid : Nat) (s : State) : Out :=
  match s.now.saveOf asid with
  | .pending dl img size =>
    let quiet := s.now.weirsQuiet asid
    if quiet || decide (dl ≤ s.now.tick) then .next { s with now := s.now.setSave asid (.stopped (!quiet) img size) }
    else .next s
  | _ => .next s

/-! ### Stopping points of the engines (R411) -/

/-- A running product stops at a group boundary that the manual leaves open, below K: kdone and saved are written to its parameter
block; a block altered since `mopf` is known as such (R187, R195, R411). (log 51, DEDUCED) -/
def Mod.stopProduct (m : Mod) (c : Nat) (o : MOp) : Mod :=
  match productPath (m.opGauge o 0) (m.opGauge o 1), m.block? c o.block with
  | some (_, g), some b =>
    let r := m.draw
    let k1 := o.kdone + g * (r.1.toNat % ((pK o.words - o.kdone) / g))
    let changed := words64 8 (m.sread c b o.off 64) != o.words
    let m := if m.reachable o then r.2.runProduct c o k1 else r.2
    let stop := fun (x : MOp) => if x.ticket = o.ticket then
      { x with kdone := k1, wild := x.wild || changed, words := x.words.set 5 (BitVec.ofNat 64 (k1 + 2 ^ 63)) } else x
    (m.swrite c b (o.off + 40) (leBytes 8 (k1 + 2 ^ 63))).onCore c fun k => { k with mq := k.mq.map stop }
  | _, _ => m

/-- The chunks of a running request up to the highest one begun land too, so that the landed bytes end at a chunk
boundary (R411). -/
def Mod.settleChunks (m : Mod) (c : Nat) (r : SReq) : Mod :=
  let all := (shTotal (getR r.words 2) + 255) / 256
  let top := (List.range all).foldl (fun t i => if r.chunks.contains i && (r.flight? i).isNone then t else i + 1) 0
  (r.chunks.filter fun i => decide (i < top)).foldl (fun m i =>
    match (m.core c).slq.find? fun x => x.handle == r.handle with
    | some x => m.slChunk c x i
    | none => m) m

/-- Whether the fixed-latency results of an address space have landed and no matrix operation of it but a product runs
on a core (R410, R411). -/
def Mod.coreQuiet (m : Mod) (c : Nat) (blks gone : List Nat) : Bool :=
  let k := m.core c
  !(k.flights.any fun f => f.kind == .fixed && gone.contains f.dest.warp) && !(k.passes.any fun p => blks.contains p.block) &&
  !k.mq.any fun o => blks.contains o.block && o.readyAt.isSome && o.kind != .product

/-- What a save keeps of a core, and the core without it (R410, R411). -/
def Mod.saveCore (m : Mod) (c asid : Nat) : SavedCore × Mod :=
  let k := m.core c
  let bs := k.blocks.filter fun b => m.asidOf b.launch == asid
  let blks := bs.map (·.uid)
  let ws := k.warps.filter fun w => blks.contains w.block
  let gone := ws.map (·.uid)
  let accs := fun (b : Block) =>
    let n := rowsOf (m.recOfBlock b).accsize * 768
    let at_ := b.accRow * 768
    (b.uid, k.sram.cut at_ (at_ + n), (k.int64s.filter fun a => decide (at_ ≤ a) && decide (a < at_ + n)).map fun a => a - at_)
  let keep : SavedCore := {
    core := c, blocks := bs, warps := ws.map fun w => { w with mstage := none },
    flights := k.flights.filter fun f => gone.contains f.dest.warp, waits := k.waits.filter fun g => gone.contains g.warp,
    mq := (k.mq.filter fun o => blks.contains o.block).map fun o => { o with readyAt := none },
    mdone := k.mdone.filter fun d => blks.contains d.block,
    slq := k.slq.filter fun r => blks.contains r.block, arms := k.arms.filter fun a => blks.contains a.req.block,
    late := k.late.filter fun a => blks.contains a.block, sweeps := (k.sweeps.filter fun s => blks.contains s.block).map fun s => { s with again := true },
    millrace := k.millrace.filter fun t => blks.contains t.block,
    lslots := k.lslots.filter fun p => bs.any fun b => b.launch == p.2,
    scratch := bs.map fun b => (b.uid, k.sram.cut (b.at_ 0) (b.at_ 0 + rowsOf (m.recOfBlock b).scratch * 768)),
    acc := bs.map accs }
  let rest := k.blocks.filter fun b => !blks.contains b.uid
  (keep, m.onCore c fun k => { k with
    blocks := rest, partition := if rest.isEmpty then none else k.partition,
    warps := k.warps.filter fun w => !gone.contains w.uid,
    flights := k.flights.filter fun f => !gone.contains f.dest.warp, waits := k.waits.filter fun g => !gone.contains g.warp,
    mq := k.mq.filter fun o => !blks.contains o.block, slq := k.slq.filter fun r => !blks.contains r.block,
    mdone := k.mdone.filter fun d => !blks.contains d.block,
    arms := k.arms.filter fun a => !blks.contains a.req.block, late := k.late.filter fun a => !blks.contains a.block,
    sweeps := k.sweeps.filter fun s => !blks.contains s.block, millrace := k.millrace.filter fun t => !blks.contains t.block,
    lslots := k.lslots.filter fun p => rest.any fun b => b.launch == p.2 })

/-- The cores on which an address space has blocks. -/
def Mod.coresOf (m : Mod) (asid : Nat) : List Nat := ((m.blocksOf asid).map (·.1)).eraseDups

/-- An image in the module's own form: free values by draw, and at its end the CRC-64 over them (R214, R414).
(log 50, DESIGN CHOICE) -/
def imageBytes (key size : Nat) : List Byte :=
  let body := (List.range (size - 8)).map fun i => Config.freeByte key i
  body ++ leBytes 8 (crc64 body).toNat

/-- Whether an image ends with the CRC-64 over its contents (R414). (log 50, DESIGN CHOICE) -/
def imageCrcOk (bs : List Byte) : Bool := leNat (bs.drop (bs.length - 8)) == (crc64 (bs.take (bs.length - 8))).toNat

/-- SAVE_COMPLETE: once fixed-latency results have landed and the engines stand at their stopping points, the context
leaves its cores and the image is written; the host is told (R410, R411, R414). (log 50, DESIGN CHOICE) -/
def execSaveComplete (asid : Nat) (s : State) : Out :=
  match s.now.saveOf asid with
  | .stopped forced img size =>
    let m := s.now
    let cs := m.coresOf asid
    let blks := (m.blocksOf asid).map fun p => p.2.uid
    let gone := m.cores.flatMap fun k => (k.warps.filter fun w => blks.contains w.block).map (·.uid)
    if !cs.all fun c => m.coreQuiet c blks gone then .next s
    else
      let m := cs.foldl (fun m c => ((m.core c).mq.filter fun o => blks.contains o.block && o.readyAt.isSome).foldl
        (fun m o => m.stopProduct c o) m) m
      let m := cs.foldl (fun m c => ((m.core c).slq.filter fun r => blks.contains r.block && r.code == 1).foldl
        (fun m r => m.settleChunks c r) m) m
      let m := cs.foldl (fun m c => ((m.core c).sweeps.filter fun x => blks.contains x.block).foldl
        (fun m x => m.sweepStop c x) m) m
      let r := cs.foldl (fun (a : List SavedCore × Mod) c => let q := a.2.saveCore c asid; (a.1 ++ [q.1], q.2)) ([], m)
      let m := r.2
      let sv : Saved := { asid := asid, img := img, size := size, key := m.free, cores := r.1,
                          leat := m.leat.ctxs.filter fun x => x.asid == asid }
      let m := { m with
        free := m.free + 1, saved := m.saved.filter (fun (v : Saved) => v.asid != asid) ++ [sv],
        dram := m.dram.writeN img.toNat (imageBytes m.free size),
        leat := { m.leat with ctxs := m.leat.ctxs.filter fun x => x.asid != asid } }
      .next { s with now := (m.setSave asid (.saved img)).plainEvent 5 asid (if forced then 1 else 0) 0 0 }
  | _ => .next s

/-! ### The restore (R412, R413) -/

/-- Whether an image at an address passes its CRC and is one that this module's save of the context has produced, wherever the host
has put it (R408, R414). (log 50, DESIGN CHOICE) -/
def Mod.imageIntact (m : Mod) (v : Saved) (img : W64) : Bool :=
  let bs := m.dram.readN img.toNat v.size
  decide (img.toNat + v.size ≤ Config.dramBytes) && imageCrcOk bs && bs == imageBytes v.key v.size

/-- Where the bytes of saved blocks lie now: old first byte, length, new first byte. -/
def relocate (moved : List (Nat × Nat × Nat)) (a : Nat) : Nat :=
  match moved.find? fun p => decide (p.1 ≤ a) && decide (a < p.1 + p.2.1) with
  | some p => a - p.1 + p.2.2
  | none => a

/-- A saved block placed again in the slot it held, with the first rows that fit; none without room (R141, R387,
R413). -/
def Mod.placeSaved (m : Mod) (k : SavedCore) (b : Block) : Option (List (Nat × Nat × Nat) × Mod) :=
  let c := k.core
  let r := m.recOfBlock b
  let ru := ruOf r.partition
  let au := auOf r.partition
  let asid := m.asidOf b.launch
  let core := m.core c
  let others := fun (f : LRec → Nat) => core.blocks.foldl (fun n x => n + f (m.recOfBlock x)) 0
  let free := (core.blocks.isEmpty || core.partition == some r.partition) &&
    decide (others (·.weirs) + r.weirs ≤ 256) && decide (others (·.flumes) + r.flumes ≤ 32) &&
    !(core.blocks.any fun x => x.slot == b.slot) && !core.lslots.any fun p => k.lslots.any fun q => q.1 == p.1 && q.2 != p.2
  match firstFit (64 * (ru + au)) 2048 (rowsOf r.scratch) (m.scratchRuns c),
      firstFit (64 * ru) (64 * (ru + au)) (rowsOf r.accsize) (m.accRuns c) with
  | some row, some acc =>
    if !free then none
    else
      let sc := ((k.scratch.find? fun p => p.1 == b.uid).map (·.2)).getD []
      let ac := ((k.acc.find? fun p => p.1 == b.uid).map (·.2)).getD ([], [])
      let put := fun (x : Core) =>
        let x := (x.giveRows row (row + rowsOf r.scratch) asid 0).giveRows acc (acc + rowsOf r.accsize) asid 0
        let clear := (x.sram.clear (row * 768) ((row + rowsOf r.scratch) * 768)).clear (acc * 768) ((acc + rowsOf r.accsize) * 768)
        let ints := x.int64s.filter fun a => decide (a < acc * 768) || decide ((acc + rowsOf r.accsize) * 768 ≤ a)
        { x with
          sram := (clear.paste (row * 768) sc).paste (acc * 768) ac.1, int64s := ints ++ ac.2.map fun a => a + acc * 768,
          blocks := x.blocks ++ [{ b with row := row, accRow := acc }], partition := some r.partition,
          lslots := x.lslots ++ k.lslots.filter fun q => q.2 == b.launch && !x.lslots.contains q }
      some ([(b.at_ 0, rowsOf r.scratch * 768, row * 768), (b.accRow * 768, rowsOf r.accsize * 768, acc * 768)], m.onCore c put)
  | _, _ => none

/-- Saved blocks placed one after the other. -/
def Mod.placeAll (m : Mod) (k : SavedCore) : List Block → Option (List (Nat × Nat × Nat) × Mod)
  | [] => some ([], m)
  | b :: bs => match m.placeSaved k b with
    | none => none
    | some r => (r.2.placeAll k bs).map fun q => (r.1 ++ q.1, q.2)

/-- Saved warps given slots and frames again, on their own lane sets (R134, R142, R413); ready threads take the stamp of
this cycle. (log 51, DEDUCED) -/
def Mod.placeWarps (m : Mod) (c : Nat) : List Warp → Option Mod
  | [] => some m
  | w :: ws =>
    let b := (m.core c).block? w.block
    let r := (b.map fun x => m.recOfBlock x).getD default
    let stamp := fun (t : Thread) => match t.run with
      | .ready => { t with stamp := m.clock }
      | .gap u => { t with run := if u ≤ m.clock then .ready else .gap u, stamp := m.clock }
      | _ => t
    let w := { w with threads := w.threads.map stamp }
    if w.evicted then (m.onCore c fun k => { k with warps := k.warps ++ [w] }).placeWarps c ws
    else if !m.backRoom c (ruOf r.partition) r w then none
    else
      let w := { w with slot := m.warpSlot c, frame := m.frameFor c r }
      (m.onCore c fun k => { k.giveFrame w.frame ((b.map m.asidOfBlock).getD 0) with warps := k.warps ++ [w] }).placeWarps c ws

/-- What an operation or a copy remembers of a core's pool, where its blocks lie now. -/
def movedRun (moved : List (Nat × List (Nat × Nat × Nat))) (t : Nat × Nat × Nat) : Nat × Nat × Nat :=
  match moved.find? fun p => p.1 == t.1 with
  | some p => (t.1, relocate p.2 t.2.1, t.2.2)
  | none => t

/-- An operation as it re-enters the queue of a core: it reads its parameter block again at its staged offset; one that was
altered makes its Z undefined (R195, R411). (log 51, DEDUCED) -/
def Mod.reenter (m : Mod) (c : Nat) (moved : List (Nat × List (Nat × Nat × Nat))) (o : MOp) : MOp :=
  let acc := fun (a : Nat) => (movedRun moved (c, a, 8)).2.1
  let o := { o with taint := o.taint.map (movedRun moved), ztaint := o.ztaint.map acc, spans := o.spans.map (movedRun moved) }
  match m.block? c o.block with
  | none => o
  | some b => if o.kind = .zero then o
      else { o with wild := o.wild || words64 8 (m.sread c b o.off 64) != o.words }

/-- Whether a core's engines have room for the entries of a saved one: the matrix queue, the sluice's queue and arm table, the
millrace (R192, R213, R215, R350). -/
def Core.enginesFit (x : Core) (k : SavedCore) : Bool :=
  decide (x.mq.length + k.mq.length ≤ matrixQueue) && decide (x.slq.length + k.slq.length ≤ sluiceQueue) &&
  decide (x.arms.length + k.arms.length ≤ armTable) && decide (x.millrace.length + k.millrace.length ≤ millraceSize)

/-- The warps and the engines of a saved core put back; none where a slot, a lane or an engine's entry is wanting (R192, R213, R215,
R350, R411, R413). -/
def Mod.unsaveCore (m : Mod) (moved : List (Nat × List (Nat × Nat × Nat))) (k : SavedCore) : Option Mod :=
  if !(m.core k.core).enginesFit k then none
  else match m.placeWarps k.core k.warps with
    | none => none
    | some m =>
      let c := k.core
      let here := ((moved.find? fun p => p.1 == c).map (·.2)).getD []
      let back := k.mq.map fun o => m.reenter c moved o
      let move := fun (s : Sweep) => { s with taint := s.taint.map fun t => (relocate here t.1, t.2) }
      let m := m.onCore c fun x => { x with
        flights := x.flights ++ k.flights, waits := x.waits ++ k.waits, slq := x.slq ++ k.slq, arms := x.arms ++ k.arms,
        late := x.late ++ k.late, sweeps := x.sweeps ++ k.sweeps.map move, millrace := x.millrace ++ k.millrace,
        mdone := x.mdone ++ k.mdone,
        mq := match x.mq with
          | o :: os => if o.readyAt.isSome then o :: (back ++ os) else back ++ o :: os
          | [] => back }
      -- the words of armed requests and of waits on words are examined once (R412)
      let ids := k.waits.map (·.id)
      some (m.onCore c fun x =>
        let y := (x.examineWaits m.tick 0 1572864).waits
        let x := { x with waits := y.map fun (g : GWait) => if ids.contains g.id then g
                            else (x.waits.find? fun (z : GWait) => z.id == g.id).getD g }
        x.fireArms (m.coreWrites c) 0 1572864)

/-- Every saved core's blocks placed, with where their bytes lie now, or none. -/
def Mod.placeCores (m : Mod) : List SavedCore → Option (List (Nat × List (Nat × Nat × Nat)) × Mod)
  | [] => some ([], m)
  | k :: ks => match m.placeAll k k.blocks with
    | none => none
    | some r => (r.2.placeCores ks).map fun q => ((k.core, r.1) :: q.1, q.2)

/-- The warps and engines of every saved core put back, or none. -/
def Mod.unsaveCores (m : Mod) (moved : List (Nat × List (Nat × Nat × Nat))) : List SavedCore → Option Mod
  | [] => some m
  | k :: ks => match m.unsaveCore moved k with
    | none => none
    | some n => n.unsaveCores moved ks

/-- Every saved core put back, or none; the sources of copies under way are followed to where they lie now (R228, R411). -/
def Mod.unsaveAll (m : Mod) (ks : List SavedCore) : Option Mod :=
  match m.placeCores ks with
  | none => none
  | some r =>
    let span := fun (x : Option Nat × Nat × Nat × Nat) => match x.1 with
      | some c => (some c, (movedRun r.1 (c, x.2.1, x.2.2.1)).2.1, x.2.2.1, x.2.2.2)
      | none => x
    Mod.unsaveCores { r.2 with fabOps := r.2.fabOps.map fun o => { o with spans := o.spans.map span } } r.1 ks

/-- Whether each die has free contexts for a saved address space's runs. -/
def Mod.leatRoom (m : Mod) (xs : List LtCtx) : Bool :=
  (List.range 4).all fun d =>
    decide (((m.leat.ctxs ++ xs).filter fun x => x.die == d).length ≤ 32)

/-- RESTORE_START: where the address space's former cores have room, the images are copied back, blocks, warps and
engines take up their state, the words are examined, and collectives whose turn has come are admitted (R281, R412, R413). -/
def execRestoreStart (asid : Nat) (s : State) : Out :=
  match s.now.saveOf asid, s.now.saved.find? fun v => v.asid == asid with
  | .restoring _, some v =>
    if !s.now.leatRoom v.leat then .next s
    else match s.now.unsaveAll v.cores with
      | none => .next s
      | some m =>
        let m := { m with saved := m.saved.filter fun x => x.asid != asid,
                          leat := { m.leat with ctxs := m.leat.ctxs ++ v.leat } }
        .next { s with now := (m.admitCollectives.setSave asid .none).plainEvent 6 asid 0 0 0 }
  | _, _ => .next s

/-! ### Reset of an address space (R417) -/

/-- The engines' entries of a saved core end as those on a core do: matrix operations with status 2, which lands where it is waited
for, sluice requests with status 5 (R196, R216, R417). -/
def Mod.cancelSaved (m : Mod) (k : SavedCore) : Mod :=
  let m := k.mq.foldl (fun m o => (m.onCore k.core fun x => { x with mStatus := x.noteStatus o.ticket 2 }).landWaiters k.core o 2) m
  m.onCore k.core fun x => (k.slq ++ k.arms.map (·.req)).foldl (fun x r => x.slEnd r.handle 5 r.landed) x

/-- The effect of `reset` on an address space: its launches take status 12, its threads and engines stop, its room is
freed, its pages enter the pond, and the host is told the generation (R417, R426). (log 66, DEDUCED) -/
def Mod.resetAsid (m : Mod) (asid : Nat) : Mod :=
  let hs := (m.launches.filter fun l => l.asid == asid).map (·.handle)
  let m := hs.foldl (fun m h => m.setStatus h 12) m
  let m := (m.posts.filter fun p => p.asid == asid).foldl (fun m p => m.tcbWrite asid p.addr 0x180 4 12) m
  let aborted := match m.saveOf asid with
    | .pending _ _ _ => true
    | .stopped _ _ _ => true
    | _ => false
  let m := if aborted then m.plainEvent 5 asid 0 16 0 else m
  let m := m.stopLaunches hs
  let m := ((m.saved.filter fun v => v.asid == asid).flatMap (·.leat)).foldl (fun m x => m.ltEnd x 4) m
  let m := ((m.saved.filter fun v => v.asid == asid).flatMap (·.cores)).foldl Mod.cancelSaved m
  let sv := (m.saved.filter fun v => v.asid == asid).flatMap fun v => v.cores.flatMap fun k => k.blocks.map (·.uid)
  let bs := ((m.asid? asid).map (·.bindings)).getD []
  let shared := bs.flatMap fun b => [(b, false), (b, true)].filter fun x => x.1.shared x.2 != 0
  let inShared := fun (va : Nat) => shared.find? fun x => decide (x.1.base x.2 ≤ va) && decide (va < x.1.base x.2 + x.1.size)
  let ls := m.leaves asid 0 (2 ^ 56)
  let r := m.inval asid 0 (2 ^ 56)
  let m := r.2
  let m := { m with
    launches := m.launches.filter fun l => l.asid != asid, queue := m.queue.filter fun h => !hs.contains h,
    posts := m.posts.filter fun p => p.asid != asid, saved := m.saved.filter fun v => v.asid != asid,
    kids := m.kids.filter fun k => !sv.contains k.block && !sv.contains k.viewBlock,
    asids := m.asids.filter fun a => a.num != asid, shards := m.shards.filter fun x => x.asid != asid,
    preps := m.preps.filter fun p => p.asid != asid,
    canal := { m.canal with q := m.canal.q.filter (fun f => f.asid != asid), orphans := m.canal.orphans.filter fun f => f.asid != asid } }
  let freed := ls.filter fun l => match inShared l.1 with
    | none => true
    | some x => !m.copies.any fun y => y.2.1.shared y.2.2 == x.1.shared x.2
  let pages := freed.map fun l => ({ pa := l.2.2.1, size := l.2.1, gen := r.1, asid := asid } : PondPage)
  let m := { m with pond := m.pond ++ pages }
  let m := shared.foldl (fun m x => match m.copies.find? fun y => y.2.1.shared y.2.2 == x.1.shared x.2 with
    | some y => m.releaseCopy y.1 y.2.1 y.2.2
    | none => m) m
  m.plainEvent 7 asid 0 0 (BitVec.ofNat 64 r.1)

end Sys2Proof.Machine
end

