-- ==== Sys2Proof/Machine/Session.lean ====
section
/-! DEFINITION. The Nerosh Host Protocol (R424 to R428): sessions, the order of commands, what each session may do, and
the commands that concern sessions, launches and threads. -/

namespace Sys2Proof.Machine

/-! ### The common part of every command -/

/-- A reply of a version sent, its reply flag set, and its error flag where the status is not 0 (R424).
(log 53, DEDUCED) -/
def Mod.reply (m : Mod) (v : Nat × Nat) (session seq op status : Nat) (pay : List Byte) : Mod :=
  { m with replies := m.replies ++ [{ major := v.1, minor := v.2, flags := if status = 0 then 1 else 3, session := session,
                                      seq := seq, op := op, status := status, pay := pay }] }

/-- The bytes of a reply (R424). -/
def Reply.bytes (y : Reply) : List Byte :=
  leBytes 2 0x4E48 ++ leBytes 1 y.major ++ leBytes 1 y.minor ++ leBytes 2 y.op ++ leBytes 2 y.flags ++ leBytes 4 y.session ++
    leBytes 4 y.seq ++ leBytes 4 y.pay.length ++ leBytes 4 y.status ++ leBytes 8 0 ++ y.pay

/-- The highest version of this device (R425). -/
def ownVersion : Nat × Nat := (1, 2)

/-- Whether a session has received no datagram for 30 s (R425). -/
def Mod.idle (m : Mod) (x : Session) : Bool := decide (x.last + 30000000000 * Config.ticksPerNs ≤ m.tick)

/-- Sessions that have received no datagram for 30 s are closed before a command is looked at (R425).
(log 53, DEDUCED) -/
def Mod.awake (m : Mod) : Mod := { m with sessions := m.sessions.filter fun x => !m.idle x }

/-- A session by its number. -/
def Mod.session? (m : Mod) (n : Nat) : Option Session := m.sessions.find? fun x => x.num == n

/-- A session changed, if it is open. -/
def Mod.onSession (m : Mod) (n : Nat) (f : Session → Session) : Mod :=
  { m with sessions := alterFirst (fun x => x.num == n) f m.sessions }

/-- The header's flags, status and reserved fields of a command (R424). -/
def cmdPlain (c : Cmd) : Bool := decide (c.flags < 4) && c.status == 0 && c.resv == 0

/-- Whether a payload holds its last field and nothing outside its fields, each a first byte and a length (R428). -/
def payloadOk (need : Nat) (fs : List (Nat × Nat)) (pay : List Byte) : Bool :=
  decide (need ≤ pay.length) &&
  pay.zipIdx.all fun p => p.1 == 0 || fs.any fun f => decide (f.1 ≤ p.2) && decide (p.2 < f.1 + f.2)

/-- What a command is: its op, whether tenants may send it, where its payload names an ASID, the capability it needs, its
payload's length and fields. -/
structure CmdKind where
  op : Nat
  tenant : Bool
  asid : Option (Nat × Nat)
  cap : Option Nat
  need : Nat
  fields : List (Nat × Nat)

/-- Whether a session may send a command (R425, R427, R428). -/
def Session.may (x : Session) (k : CmdKind) (pay : List Byte) : Bool :=
  let role := if x.tenant then
      k.tenant && match k.asid with
        | some f => decide (field pay f.1 f.2 < 256) && x.asids.getLsbD (field pay f.1 f.2)
        | none => true
    else if x.proved then k.op != 3 else k.op == 2 || k.op == 3
  role && match k.cap with
    | some b => x.caps.getLsbD b
    | none => true

/-- How far a sequence number lies ahead of the next one (R426). -/
def Session.ahead (x : Session) (seq : Nat) : Nat := (seq + 2 ^ 32 - x.next) % 2 ^ 32

/-- A command performed in its turn: the checks of R424, R425 and R428, its effect, its reply; then the next command held,
if it is here, is taken up (R426). (log 53, DEDUCED; log 54, DESIGN CHOICE) -/
def Mod.perform (m : Mod) (x : Session) (k : CmdKind) (c : Cmd) (f : Session → Mod → Nat × List Byte × Mod) : Mod :=
  let r : Nat × List Byte × Mod :=
    if x.major ≠ c.major ∨ x.minor ≠ c.minor then (2, [], m)
    else if !cmdPlain c then (4, [], m)
    else if !x.may k c.pay then (6, [], m)
    else if !payloadOk k.need k.fields c.pay then (4, [], m)
    else f x m
  let m := r.2.2.reply (x.major, x.minor) x.num c.seq k.op r.1 r.2.1
  let m := m.onSession x.num fun y => { y with
    next := (c.seq + 1) % 2 ^ 32, replies := (c.seq, r.1, r.2.1) :: y.replies.filter fun z => z.1 != c.seq }
  match m.session? x.num with
  | none => m
  | some y => match y.held.find? fun h => h.1 == y.next with
    | none => m
    | some h => { m.onSession x.num fun z => { z with held := z.held.filter fun g => g.1 != h.1 } with
                  turn := m.turn ++ [h.2] }

/-- A command that reaches the command processor: performed, held, answered again, or discarded (R424, R426).
(log 53, DEDUCED) -/
def hostCommand (i : Instr) (k : CmdKind) (c : Cmd) (s : State) (f : Session → Mod → Nat × List Byte × Mod) : Out :=
  let m := s.now.awake
  match m.session? c.session with
  | none => .next { s with now := m.reply ownVersion c.session c.seq k.op 5 [] }
  | some x =>
    let x := { x with last := m.tick }
    let m := m.onSession x.num fun _ => x
    let d := x.ahead c.seq
    if d = 0 then .next { s with now := m.perform x k c f }
    else match x.replies.find? fun r => r.1 == c.seq with
      | some r => .next { s with now := m.reply (x.major, x.minor) x.num c.seq k.op r.2.1 r.2.2 }
      | none =>
        if d ≤ 64 && decide (x.held.length < 64) && !x.held.any fun h => h.1 == c.seq then
          .next { s with now := m.onSession x.num fun y => { y with held := y.held ++ [(c.seq, i)] } }
        else .next { s with now := m }

/-- A command with an op that R427 does not assign (R424). -/
def execUnknownCommand (op : Nat) (c : Cmd) (s : State) : Out :=
  let k : CmdKind := { op := op, tenant := true, asid := none, cap := none, need := 0, fields := [(0, 8192)] }
  hostCommand (.unknownCommand op c) k c s fun _ m => (3, [], m)

/-! ### Sessions (R425, R428) -/

/-- Sessions that the device holds. -/
def sessionLimit : Nat := 64

/-- What this device offers to a host session: version 1.2, lowest major 1, three capabilities (R425). -/
def ownHostOffer : Offer := { ownOffer with hiMajor := 1, hiMinor := 2, caps := 7 }

/-- The reply payload of the command that opened a session (R428). -/
def Session.openPay (x : Session) : List Byte :=
  leBytes 1 x.major ++ leBytes 1 x.minor ++ leBytes 2 0 ++ leBytes 4 x.caps.toNat ++ leBytes 4 x.num ++ leBytes 4 0 ++
    leBytes 64 x.challenge.toNat

/-- 0x0001, session open (R425, R426, R428): the version and capabilities are negotiated, and the role is checked; the command that
has opened a session still open is answered again. (log 53, DEDUCED) -/
def execSessionOpen (c : Cmd) (s : State) : Out :=
  let m := s.now.awake
  let no := fun (st : Nat) => (.next { s with now := m.reply ownVersion c.session c.seq 1 st [] } : Out)
  let o : Offer := { hiMajor := field c.pay 0 1, hiMinor := field c.pay 1 1, loMajor := field c.pay 2 1,
                     caps := BitVec.ofNat 32 (field c.pay 4 4), lanes := [], roundTripNs := 0 }
  let role := field c.pay 3 1
  let grant := field c.pay 8 8
  if c.session ≠ 0 then no 5
  else if !cmdPlain c ∨ payloadOk 16 [(0, 16)] c.pay = false ∨ 1 < role ∨ (role = 0 ∧ grant ≠ 0) then no 4
  else match m.sessions.find? fun x => x.opening == some c with
  | some x => .next { s with now := m.reply (x.major, x.minor) x.num c.seq 1 0 x.openPay }
  | none => match agreeVersion ownHostOffer o with
    | none => no 2
    | some v =>
      let asids := if role = 0 then some (0 : BitVec 256) else (m.grants.find? fun g => g.1 == grant).map (·.2)
      match asids with
      | none => no 1
      | some a =>
        if sessionLimit ≤ m.sessions.length ∨ (role = 0 ∧ (m.sessions.any fun x => !x.tenant) = true) then no 1
        else
          let n := m.sessionNum
          let ch : BitVec 512 := if role = 0 then Config.challenge n else 0
          let x : Session := { num := n, tenant := role == 1, proved := false, asids := a, major := v.1, minor := v.2.1,
                               caps := v.2.2, challenge := ch, next := (c.seq + 1) % 2 ^ 32, held := [], replies := [],
                               last := m.tick, opening := some c }
          let m := { m with sessions := m.sessions ++ [x], sessionNum := n + 1 }
          .next { s with now := m.reply (v.1, v.2.1) n c.seq 1 0 x.openPay }

/-- A session closed; its rings stay open (R425). -/
def Mod.closeSession (m : Mod) (n : Nat) : Mod := { m with sessions := m.sessions.filter fun x => x.num != n }

/-- 0x0002, session close. -/
def execSessionClose (c : Cmd) (s : State) : Out :=
  hostCommand (.sessionClose c) { op := 2, tenant := true, asid := none, cap := none, need := 0, fields := [] } c s
    fun x m => (0, [], m.closeSession x.num)

/-- 0x0003, session proof: the operator key's signature over the challenge; a failed proof closes the session (R428). -/
def execSessionProof (c : Cmd) (s : State) : Out :=
  hostCommand (.sessionProof c) { op := 3, tenant := false, asid := none, cap := none, need := 512, fields := [(0, 512)] } c s
    fun x m =>
      let good := match m.security.operator with
        | some d => Config.pssVerify d (leBytes 64 x.challenge.toNat) (c.pay.take 512)
        | none => false
      if good then (0, [], m.onSession x.num fun y => { y with proved := true }) else (1, [], m.closeSession x.num)

/-- SESSION_IDLE_TIMEOUT: a session that has received no datagram for 30 s closes (R425). -/
def execSessionIdleTimeout (n : Nat) (s : State) : Out :=
  match s.now.session? n with
  | none => .next s
  | some x => if s.now.idle x then .next { s with now := s.now.closeSession n }
      else .next s

/-- 0x0024, tenant grant: a set of ASIDs under a new grant number (R425). (log 3, DESIGN CHOICE) -/
def execTenantGrant (c : Cmd) (s : State) : Out :=
  hostCommand (.tenantGrant c) { op := 0x24, tenant := false, asid := none, cap := none, need := 32, fields := [(0, 32)] } c s
    fun _ m =>
      let n := m.grants.length + 1
      (0, leBytes 8 n, { m with grants := m.grants ++ [(n, BitVec.ofNat 256 (field c.pay 0 32))] })

/-! ### Launches and threads -/

/-- 0x0010, post launch (R376, R383). -/
def execPostLaunch (c : Cmd) (s : State) : Out :=
  hostCommand (.postLaunch c)
    { op := 0x10, tenant := true, asid := some (0, 1), cap := none, need := 16, fields := [(0, 1), (8, 8)] } c s fun _ m =>
      let a := BitVec.ofNat 64 (field c.pay 8 8)
      if a.toNat % 512 ≠ 0 then (16, [], m)
      else
        let r := m.postRecord (field c.pay 0 1) a
        (r.1, leBytes 8 r.2.1, r.2.2)

/-- 0x0011, read record status (R381, R382). -/
def execReadRecordStatus (c : Cmd) (s : State) : Out :=
  hostCommand (.readRecordStatus c)
    { op := 0x11, tenant := true, asid := some (0, 1), cap := none, need := 16, fields := [(0, 1), (8, 8)] } c s fun _ m =>
      let r := m.devRead .launch (field c.pay 0 1) (field c.pay 8 8) 512
      match r.1 with
      | .ok bs => (0, (bs.drop 0x180).take 4 ++ (bs.drop 0x1D4).take 4 ++ (bs.drop 0x1D8).take 8, r.2)
      | .error _ => (1, [], r.2)

/-- A stopped thread goes on (R94, R145): a wait or a sweep that its bundle began holds it still, and its watchdog timer starts
here (R394). (log 76, DEDUCED) -/
def Mod.resumeThread (m : Mod) (c w l : Nat) : Mod :=
  let run := ((m.core c).heldBy w l).getD .ready
  let m := m.onCore c fun k => { k with waits := k.waits.map fun g =>
    if g.warp == w then { g with timers := g.timers.map fun t => if t.1 = l then (l, m.tick) else t } else g }
  m.onThread c w l fun t => { t with run := run, stamp := m.clock }

/-- 0x0012, resume a `brk` thread: the stopped thread of that core, warp slot and lane is ready again (R94, R145). -/
def execResumeBrkThread (c : Cmd) (s : State) : Out :=
  hostCommand (.resumeBrkThread c)
    { op := 0x12, tenant := true, asid := some (0, 1), cap := none, need := 6, fields := [(0, 1), (2, 4)] } c s fun _ m =>
      let core := field c.pay 2 2
      let lane := field c.pay 5 1
      let w := (m.core core).warps.find? fun w => w.slot == field c.pay 4 1 && !w.evicted &&
        ((m.launchOf core w.uid).map (·.asid)) == some (field c.pay 0 1)
      match w.bind fun w => (w.thread? lane).map fun t => (w.uid, t) with
      | some (u, t) => if t.run = .stopped then
          (0, [], m.resumeThread core u lane) else (16, [], m)
      | none => (16, [], m)

/-- 0x0034, read a shard's ready word (R342). -/
def execReadShardReady (c : Cmd) (s : State) : Out :=
  hostCommand (.readShardReady c)
    { op := 0x34, tenant := true, asid := some (0, 1), cap := none, need := 8, fields := [(0, 1), (4, 4)] } c s fun _ m =>
      match m.shards.find? fun x => x.num == field c.pay 4 4 && x.asid == field c.pay 0 1 with
      | some x => (0, leBytes 4 x.word.toNat, m)
      | none => (16, [], m)

end Sys2Proof.Machine
end

