-- ==== Sys2Proof/Machine/HostCmd.lean ====
section
/-! DEFINITION. The commands of the Nerosh Host Protocol that concern grids, address spaces, weights, saves, pages,
event rings, attestation, firmware and counters (R427 to R429, R433, R434). -/

namespace Sys2Proof.Machine

/-- A command that no tenant may send, and that names no ASID of a session. -/
def mgmt (op need : Nat) (fields : List (Nat × Nat)) : CmdKind :=
  { op := op, tenant := false, asid := none, cap := none, need := need, fields := fields }

/-- A command that tenants may send for the ASID in payload byte 0. -/
def ofAsid (op need : Nat) (fields : List (Nat × Nat)) : CmdKind :=
  { op := op, tenant := true, asid := some (0, 1), cap := none, need := need, fields := fields }

/-- Whether n bytes at a physical address do not lie in device memory: the address itself lies below 384 GiB, even of no bytes (R428). -/
def outside (pa n : Nat) : Bool := decide (Config.dramBytes ≤ pa) || decide (Config.dramBytes < pa + n)

/-- The 64-bit field at a byte of a payload. -/
def field64 (pay : List Byte) (lo : Nat) : W64 := BitVec.ofNat 64 (field pay lo 8)

/-! ### Grid contexts (R238, R241, R242) -/

/-- Whether a rule's fields are legal in a grid of n axes and these extents (R241). -/
def Rule.legal (u : Rule) (n : Nat) (ext : List Nat) : Bool :=
  bitsOf u.w0.toNat 60 4 == 0 && bitsOf u.w1.toNat 24 40 == 0 && decide (u.k < n) &&
  ((List.range 4).all fun a => decide (a < u.k) || u.fix a == 0) &&
  decide (u.lo ≤ u.hi) && decide (u.hi < ext.getD u.k 0) &&
  (if 29 ≤ u.link then u.dist == 0 else decide (u.link ≤ 23) && decide (1 ≤ u.dist))

/-- Whether a coordinate lies within extents. -/
def coordIn (n : Nat) (ext : List Nat) (c : W64) : Bool :=
  bitsOf c.toNat 60 4 == 0 && (List.range 5).all fun k =>
    if k < n then decide (axisOf c k < ext.getD k 0) else axisOf c k == 0

/-- A context image of command 0x0020 (R428): the context, inactive, or the status that refuses it.
(log 55, DEDUCED) -/
def gridImage (num : Nat) (bs : List Byte) : Except Nat GridCtx :=
  let n := field bs 0 1
  let ext := (List.range 5).map fun k => field bs (2 + 2 * k) 2
  let count := field bs 64 4
  let rules := (List.range count).map fun i => ({ w0 := field64 bs (128 + 16 * i), w1 := field64 bs (136 + 16 * i) } : Rule)
  let coord := field64 bs 16
  if bs.length < 128 then .error 1
  else if field bs 1 1 ≠ 0 ∨ field bs 12 4 ≠ 0 ∨ field bs 30 2 ≠ 0 ∨ field bs 68 60 ≠ 0 then .error 4
  else if n < 1 ∨ 5 < n then .error 1
  else if !(ext.zipIdx.all fun p => if p.2 < n then decide (1 ≤ p.1) && decide (p.1 ≤ 4096) else p.1 == 0) then .error 1
  else if 4096 < (ext.take n).foldl (· * ·) 1 then .error 1
  else if !coordIn n ext coord ∨ field bs 24 4 = 0 then .error 1
  else if 4096 < count ∨ bs.length < 128 + 16 * count then .error 1
  else if !(rules.all fun u => u.legal n ext) then .error 1
  else .ok { num := num, n := n, ext := ext, coord := coord, asids := BitVec.ofNat 256 (field bs 32 32), rules := rules,
             allowance := field bs 24 4, verMajor := field bs 28 1, verMinor := field bs 29 1, active := false }

/-- Whether a launch of a context is resident. -/
def Mod.gridBusy (m : Mod) (ctx : Nat) : Bool :=
  m.launches.any fun l => l.status == 4 && l.rec_.axes != 0 && l.rec_.grid == ctx

/-- 0x0020 with byte 1 zero, grid context load: the image is checked and stored, not yet active; the rules of all eight
contexts are at most 4096 (R238, R241, R242). (log 55, DEDUCED) -/
def execGridContextLoad (c : Cmd) (s : State) : Out :=
  hostCommand (.gridContextLoad c) (mgmt 0x20 20 [(0, 1), (1, 1), (8, 8), (16, 4)]) c s fun _ m =>
    let ctx := field c.pay 0 1
    let pa := field c.pay 8 8
    let len := field c.pay 16 4
    if 7 < ctx ∨ field c.pay 1 1 ≠ 0 ∨ outside pa len then (1, [], m)
    else if m.gridBusy ctx then (16, [], m)
    else match gridImage ctx (m.dram.readN pa len) with
      | .error st => (st, [], m)
      | .ok g =>
        let others := m.grids.filter fun x => x.num != ctx
        if 4096 < others.foldl (fun n x => n + x.rules.length) g.rules.length then (1, [], m)
        else (0, [], { m with grids := others ++ [g] })

/-- The coordinates within the extents of a context. -/
def GridCtx.coords (g : GridCtx) : List W64 :=
  ((g.ext.take g.n).zipIdx.foldl (fun (l : List Nat) (p : Nat × Nat) =>
    l.flatMap fun x => (List.range p.1).map fun v => x + v * 4096 ^ p.2) [0]).map (BitVec.ofNat 64)

/-- The highest coordinate of a context. -/
def GridCtx.top (g : GridCtx) : W64 := ofAxes (g.ext.map (· - 1))

/-- The checks of R242 on one table: each coordinate is matched by one rule, the own coordinate's rule is local and
matches nothing else, no other rule is local, and tree links can combine. (log 56, DEDUCED) -/
def Mod.tableOk (m : Mod) (g : GridCtx) (tree : Bool) : Bool :=
  let us := g.rules.filter fun u => u.tree == tree
  (g.coords.all fun c => (us.filter fun u => u.matches c).length == 1) &&
  (us.all fun u =>
    (if u.matches g.coord then u.link == 31 && ((u.cut 0 g.top).map fun p => boxSize p.1 p.2) == some 1
     else u.link != 31) &&
    (!tree || decide (24 ≤ u.link) || ((m.link? u.link).map fun k => k.caps.getLsbD 1) == some true))

/-- 0x0020 with byte 1 set, grid context commit (R242). (log 55, DEDUCED) -/
def execGridContextCommit (c : Cmd) (s : State) : Out :=
  hostCommand (.gridContextCommit c) (mgmt 0x20 16 [(0, 1), (1, 1), (8, 8)]) c s fun _ m =>
    let ctx := field c.pay 0 1
    match m.grid? ctx with
    | none => (1, [], m)
    | some g =>
      if Config.dramBytes ≤ field c.pay 8 8 then (1, [], m)
      else if m.gridBusy ctx then (16, [], m)
      else if m.tableOk g false && m.tableOk g true then
        (0, [], { m with grids := alterFirst (fun x => x.num == ctx) (fun x => { x with active := true }) m.grids })
      else (1, [], m)

/-! ### The Canal group, address spaces, the save pool -/

/-- 0x0021, Canal group configure: every word is zero and no sequence number applied; what was pending in the group ends
as at its loss (R261, R262). (log 47, DEDUCED; log 57, DEDUCED) -/
def execCanalGroupConfigure (c : Cmd) (s : State) : Out :=
  hostCommand (.canalGroupConfigure c) (mgmt 0x21 4 [(0, 2), (2, 1), (3, 1)]) c s fun _ m =>
    let g := field c.pay 0 2
    let n := field c.pay 2 1
    let i := field c.pay 3 1
    if n < 2 ∨ 64 < n ∨ n ≤ i then (1, [], m)
    else if (m.canal.group.any fun x => x != g) && !m.canal.left then (16, [], m)
    else
      let m := m.loseCanal.2
      (0, [], { m with
        canal := { Canal.idle with group := some g, n := n, index := i, bargeAt := m.tick, orphans := m.canal.orphans }
        leat := { m.leat with admitted := [] } })

/-- 0x0022, ASID configure: weights and page-table root (R415, R416, R420). -/
def execAsidConfigure (c : Cmd) (s : State) : Out :=
  hostCommand (.asidConfigure c) (mgmt 0x22 16 [(0, 1), (1, 1), (2, 1), (3, 1), (8, 8)]) c s fun _ m =>
    let a := field c.pay 0 1
    let root := field c.pay 8 8
    if (m.launches.any fun l => l.asid == a && l.status == 4) || m.saveOf a != .none then (16, [], m)
    else if root % 4096 ≠ 0 ∨ Config.dramBytes ≤ root then (1, [], m)
    else
      let w := fun (new old : Nat) => if new = 0 then old else new
      (0, [], m.onAsid a fun x => { x with
        root := root, wFabric := w (field c.pay 1 1) x.wFabric, wSluice := w (field c.pay 2 1) x.wSluice,
        wHome := w (field c.pay 3 1) x.wHome })

/-- 0x0023, save-pool configure (R386). -/
def execSavePoolConfigure (c : Cmd) (s : State) : Out :=
  hostCommand (.savePoolConfigure c) (mgmt 0x23 16 [(0, 8), (8, 8)]) c s fun _ m =>
    let base := field c.pay 0 8
    let n := field c.pay 8 8
    if m.launches.any fun l => l.status == 4 && l.rec_.saves != 0 then (16, [], m)
    else if outside base n then (1, [], m)
    else (0, [], { m with saveBase := base, savePool := n })

/-! ### Weights (R337, R341, R343, R344) -/

/-- Whether a range of an address space is mapped, and read-only, as a shared copy is (R338). -/
def Mod.mappedReadOnly (m : Mod) (asid base size : Nat) : Bool :=
  let ls := m.leaves asid base (base + size)
  ls.foldl (fun n l => n + l.2.1) 0 == size && ls.all fun l => leNat (m.dram.readN l.2.2.2 8) / 8 % 2 == 0

/-- Whether the checks of R337 pass on a binding of an address space; a shared copy is loaded where the host has mapped it
(R338). (log 58, DEDUCED) -/
def Mod.bindingOk (m : Mod) (asid : Nat) (b : Binding) : Bool :=
  let big := 2 ^ 21
  let others := (((m.asid? asid).map (·.bindings)).getD []).filter fun x => x.num != b.num
  let fresh := fun (base : Nat) => others.all fun x => !overlaps base b.size (x.base false) x.size &&
    !overlaps base b.size (x.base true) x.size
  let loaded := fun (id base : Nat) => id == 0 || (m.mappedReadOnly asid base b.size &&
    m.copies.all fun x => x.2.1.shared x.2.2 != id || x.2.1.size == b.size)
  decide (b.num < 64) && b.tag != 0 && b.abase.toNat % big == 0 && b.bbase.toNat % big == 0 && b.size % big == 0 &&
  decide (0 < b.size) && decide (b.size ≤ 2 ^ 38) && fresh b.abase.toNat && fresh b.bbase.toNat &&
  loaded b.ashr b.abase.toNat && loaded b.bshr b.bbase.toNat

/-- 0x0030, binding load (R337). -/
def execBindingLoad (c : Cmd) (s : State) : Out :=
  hostCommand (.bindingLoad c) (ofAsid 0x30 48
    [(0, 1), (1, 1), (2, 2), (4, 1), (5, 1), (8, 8), (16, 8), (24, 8), (32, 8), (40, 8)]) c s fun _ m =>
    let a := field c.pay 0 1
    let b : Binding := {
      num := field c.pay 1 1, tag := field c.pay 2 2, abase := field64 c.pay 8, bbase := field64 c.pay 16,
      size := field c.pay 24 8, ashr := field c.pay 32 8, bshr := field c.pay 40 8, sel := field c.pay 5 1 == 1,
      rword := field c.pay 4 1 }
    if 1 < field c.pay 5 1 ∨ !m.bindingOk a b then (1, [], m)
    else (0, [], m.onAsid a fun x => { x with bindings := x.bindings.filter (fun y => y.num != b.num) ++ [b] })

/-- The operation that multicasts a shard and its checksum to the staging areas of the replicas (R341, R228).
(log 44, DEDUCED) -/
def Mod.shardCopy (m : Mod) (x : Shard) (g : GridCtx) (lows highs : W64) : FabOp :=
  let p : Packet := {
    op := 1, hop := 0, lnd := false, err := false, cn := false, tree := false, ctx := g.num, asid := x.asid,
    lows := lows, highs := highs, addr := BitVec.ofNat 64 x.staging, src := g.coord, core := 0, cnt := 0, len := 0,
    tag := m.next % 2 ^ 32, opd0 := 0, opd1 := 0, pay := [] }
  { id := m.next, core := 1024, block := x.num, warp := 0, lanes := [], launch := 0, pkt := p, left := g.count lows highs,
    dest := none, ty := .n64, deps := [], src := BitVec.ofNat 64 x.staging, len := x.len + 8, sent := 0, image := [],
    spans := [], taint := [], dspans := [], newer := [], seen := 0, unsent := true, fwd := [], done := [] }

/-- Whether a region of a key belongs to an address space and holds n bytes at an address (R428, R429). -/
def Mod.regionHolds (m : Mod) (key asid va n : Nat) : Bool :=
  m.regions.any fun r => r.key == key && r.asid == asid && decide (r.base ≤ va) && decide (va + n ≤ r.base + r.size)

/-- 0x0031, shard load: refused for a selected or captured copy, and where the host's region does not hold the shard; the shard's word returns to 0, and the module that
holds the shard starts its multicast (R341, R342). (log 59, DEDUCED) -/
def execShardLoad (c : Cmd) (s : State) : Out :=
  hostCommand (.shardLoad c) (ofAsid 0x31 56 [(0, 1), (1, 1), (2, 1), (3, 1), (4, 4), (8, 8), (16, 8), (24, 8), (32, 4),
    (36, 1), (40, 8), (48, 8)]) c s fun _ m =>
    let a := field c.pay 0 1
    let n := field c.pay 1 1
    let copy := field c.pay 2 1 == 1
    let off := field c.pay 8 8
    let len := field c.pay 16 8
    let lows := field64 c.pay 40
    let highs := field64 c.pay 48
    match m.binding? a n, m.grid? (field c.pay 36 1) with
    | some b, some g =>
      if 1 < field c.pay 2 1 ∨ 1 < field c.pay 3 1 ∨ m.copyInUse a b copy = true ∨ off % 64 ≠ 0 ∨ len % 64 ≠ 0 ∨
          len = 0 ∨ b.size < off + len ∨ 2 ^ 32 ≤ len + 8 ∨ 2 ^ 56 ≤ field c.pay 24 8 + len + 8 ∨
          (field c.pay 3 1 = 0 ∧ (!g.active || !g.asids.getLsbD a || !g.patternOk lows highs ||
            !m.regionHolds (field c.pay 32 4) a (field c.pay 24 8) (len + 8)) = true) then (1, [], m)
      else
        let old := m.shards.find? fun x => x.asid == a && x.binding == n && x.copy == copy && x.off == off && x.len == len
        let num := (old.map (·.num)).getD m.next
        let x : Shard := {
          num := num, asid := a, binding := n, copy := copy, off := off, len := len,
          deadline := m.tick + field c.pay 4 4 * 1000 * Config.ticksPerNs + 1, word := 0, staging := field c.pay 24 8,
          staged := 0, chunks := [], kept := [], freed := none }
        let m := { m with next := m.next + 1, shards := m.shards.filter (fun y => y.num != num) ++ [x],
                          fabOps := m.fabOps.filter fun o => !(o.core == 1024 && o.block == num) }
        let m := if field c.pay 3 1 = 0 then
            { m with fabOps := m.fabOps ++ [m.shardCopy x g lows highs], next := m.next + 1 } else m
        (0, leBytes 4 num, m)
    | _, _ => (1, [], m)

/-- 0x0032, switch prepare (R343). (log 59, DEDUCED) -/
def execSwitchPrepare (c : Cmd) (s : State) : Out :=
  hostCommand (.switchPrepare c) (ofAsid 0x32 16 [(0, 1), (2, 1), (4, 4), (8, 8)]) c s fun _ m =>
    let p : Prep := { asid := field c.pay 0 1, g := BitVec.ofNat 32 (field c.pay 4 4), word := field c.pay 2 1,
                      mask := field64 c.pay 8, posted := none }
    if p.g = 0 then (1, [], m)
    else (0, [], { m with preps := m.preps.filter (fun x => !(x.asid == p.asid && x.word == p.word)) ++ [p] })

/-- 0x0033, switch request: a kind-2 frame is queued (R344). -/
def execSwitchRequest (c : Cmd) (s : State) : Out :=
  hostCommand (.switchRequest c) (ofAsid 0x33 40 [(0, 1), (8, 32)]) c s fun _ m =>
    if !m.canal.member || decide (canalQueue ≤ m.canal.q.length) then (1, [], m)
    else (0, [], m.postFrame { kind := 2, pay := (c.pay.drop 8).take 32, at_ := m.clock, core := 1024, held := false,
                               deps := [], asid := field c.pay 0 1, launch := 0 })

/-! ### Save, restore, reset, invalidation (R408, R417, R421, R422) -/

/-- 0x0040, save (R408, R409, R414). (log 60, DEDUCED) -/
def execSave (c : Cmd) (s : State) : Out :=
  hostCommand (.save c) (mgmt 0x40 24 [(0, 1), (4, 4), (8, 8), (16, 8)]) c s fun _ m =>
    let a := field c.pay 0 1
    let us := field c.pay 4 4
    let img := field c.pay 8 8
    let n := field c.pay 16 8
    if 10000 < us ∨ (m.blocksOf a).isEmpty = true ∨ n < m.imageSize a ∨ outside img n = true ∨
        m.saveOf a ≠ .none then (1, [], m)
    else
      let dl := m.tick + (if us = 0 then 200 else us) * 1000 * Config.ticksPerNs
      (0, [], m.setSave a (.pending dl (BitVec.ofNat 64 img) (m.imageSize a)))

/-- 0x0041, restore (R408, R413). -/
def execRestore (c : Cmd) (s : State) : Out :=
  hostCommand (.restore c) (mgmt 0x41 16 [(0, 1), (8, 8)]) c s fun _ m =>
    let a := field c.pay 0 1
    let img := field64 c.pay 8
    match m.saveOf a, m.saved.find? fun v => v.asid == a with
    | .saved _, some v =>
      if m.imageIntact v img = true then (0, [], m.setSave a (.restoring img)) else (1, [], m)
    | _, _ => (1, [], m)

/-- 0x0042, reset of an ASID (R417, R426). -/
def execReset (c : Cmd) (s : State) : Out :=
  hostCommand (.reset c) (mgmt 0x42 1 [(0, 1)]) c s fun _ m => (0, [], m.resetAsid (field c.pay 0 1))

/-- 0x0050, `inval`: the range leaves the caches and the freed pages enter the pond (R421, R422). (log 61, DEDUCED) -/
def execInval (c : Cmd) (s : State) : Out :=
  hostCommand (.inval c) (mgmt 0x50 40 [(0, 1), (1, 1), (8, 8), (16, 8), (24, 4), (32, 8)]) c s fun _ m =>
    let lo := field c.pay 8 8
    let count := field c.pay 24 4
    let list := field c.pay 32 8
    if 1 < field c.pay 1 1 then (4, [], m)
    else if outside list (8 * count) then (1, [], m)
    else
      let bs := m.dram.readN list (8 * count)
      let pages := (List.range count).map fun i => field bs (8 * i) 8
      if !(pages.all fun p => p % 4096 == 0 && decide (p < Config.dramBytes)) then (1, [], m)
      else
        let r := if field c.pay 1 1 = 1 then m.inval (field c.pay 0 1) 0 (2 ^ 56)
          else m.inval (field c.pay 0 1) lo (lo + field c.pay 16 8)
        let freed := pages.map fun p => ({ pa := p, size := 4096, gen := r.1, asid := field c.pay 0 1 } : PondPage)
        (0, leBytes 8 r.1, { r.2 with pond := r.2.pond ++ freed })

/-! ### Event rings (R418, R429) -/

/-- A command of a ring. -/
def ofRing (op need : Nat) (fields : List (Nat × Nat)) : CmdKind :=
  { op := op, tenant := true, asid := none, cap := none, need := need, fields := fields }

/-- A ring by its number. -/
def Mod.ring? (m : Mod) (n : Nat) : Option Ring := m.rings.find? fun r => r.num == n

/-- 0x0060, ring open. (log 62, DEDUCED) -/
def execRingOpen (c : Cmd) (s : State) : Out :=
  hostCommand (.ringOpen c) (ofRing 0x60 28 [(0, 1), (1, 1), (4, 4), (8, 8), (16, 8), (24, 4)]) c s fun _ m =>
    let k := field c.pay 1 1
    if (m.ring? (field c.pay 0 1)).isSome then (16, [], m)
    else if k < 4 ∨ 16 < k ∨ 512 ≤ field c.pay 4 4 then (1, [], m)
    else
      let r : Ring := { num := field c.pay 0 1, k := k, qp := field c.pay 4 4, entries := field64 c.pay 8,
                        tailAddr := field64 c.pay 16, key := field c.pay 24 4, tail := 0, head := 0, written := [] }
      (0, [], { m with rings := m.rings ++ [r] })

/-- 0x0061, ring close. (log 62, DEDUCED) -/
def execRingClose (c : Cmd) (s : State) : Out :=
  hostCommand (.ringClose c) (ofRing 0x61 1 [(0, 1)]) c s fun _ m =>
    if (m.ring? (field c.pay 0 1)).isNone then (1, [], m)
    else (0, [], { m with rings := m.rings.filter fun r => r.num != field c.pay 0 1 })

/-- 0x0062, ring head update: the count of records that the host has consumed. (log 62, DEDUCED) -/
def execRingHeadUpdate (c : Cmd) (s : State) : Out :=
  hostCommand (.ringHeadUpdate c) (ofRing 0x62 16 [(0, 1), (8, 8)]) c s fun _ m =>
    match m.ring? (field c.pay 0 1) with
    | none => (1, [], m)
    | some r =>
      let h := field c.pay 8 8
      if r.head ≤ h ∧ h ≤ r.tail then
        (0, [], { m with rings := m.rings.map fun x => if x.num = r.num then { x with head := h } else x })
      else (1, [], m)

/-- The ring of an event, when it is open and not full (R429). -/
def Mod.ringFor (m : Mod) (e : Event) : Option Ring :=
  m.rings.find? fun r => r.num == e.ring && decide (r.tail - r.head < 2 ^ r.k)

/-- The first waiting event that can be written: the oldest of its ring, its releases performed, its ring with room
(R98, R418). -/
def Mod.drainable (m : Mod) : Option (Event × Ring) :=
  (m.rings.filterMap fun r => m.events.find? fun e => e.ring == r.num).findSome? fun e =>
    if m.allPerformed e.deps then (m.ringFor e).map fun r => (e, r) else none

/-- The 64 bytes of a record (R418). (log 67, DEDUCED) -/
def Event.bytes (e : Event) : List Byte :=
  leBytes 2 e.type ++ leBytes 1 e.asid ++ leBytes 1 e.flags ++ leBytes 4 e.seq ++ leBytes 8 e.handle ++ leBytes 2 e.core ++
    leBytes 1 e.warp ++ leBytes 1 e.lane ++ leBytes 4 e.code ++ leBytes 8 e.pc.toNat ++ leBytes 8 e.payload.toNat ++
    leBytes 8 e.time.toNat ++ leBytes 16 0

/-- A write to the host's region of a ring. (log 67, DEDUCED) -/
def Ring.write (r : Ring) (addr : W64) (bs : List Byte) : HostWrite := { qp := r.qp, key := r.key, addr := addr, bytes := bs }

/-- EVENT_RING_DRAIN: a record, then its ring's tail word, the count of records written, is written to the host (R418, R429).
(log 67, DEDUCED) -/
def execEventRingDrain (s : State) : Out :=
  match s.now.drainable with
  | none => .next s
  | some (e, r) =>
    let e' := { e with seq := r.tail % 2 ^ 32 }
    let put := { r with tail := r.tail + 1, written := r.written ++ [e'] }
    let sent := [r.write (r.entries + BitVec.ofNat 64 (64 * (r.tail % 2 ^ r.k))) e'.bytes, r.write r.tailAddr (leBytes 8 (r.tail + 1))]
    .next { s with now := { s.now with events := s.now.events.erase e, hostWrites := s.now.hostWrites ++ sent,
                                       rings := s.now.rings.map fun x => if x.num = r.num then put else x } }

/-! ### Attestation, firmware, counters (R431 to R434) -/

/-- The first n bytes of a list, zero where it is shorter. -/
def padTo (n : Nat) (bs : List Byte) : List Byte := (List.range n).map fun i => bs.getD i 0

/-- What a report says of an address space: a byte for each grid context whose set holds it, its binding entries, and the
identifiers of its shared copies, in index order (R434). (log 63, DESIGN CHOICE) -/
def Mod.configBytes (m : Mod) (asid : Nat) : List Byte :=
  let bs := ((m.asid? asid).map (·.bindings)).getD []
  let entry := fun (b : Binding) => leBytes 1 b.num ++ leBytes 2 b.tag ++ leBytes 1 b.rword ++
    leBytes 1 (if b.sel then 1 else 0) ++ leBytes 8 b.abase.toNat ++ leBytes 8 b.bbase.toNat ++ leBytes 8 b.size
  ((List.range 8).flatMap fun i => leBytes 1 (if (m.grids.any fun g => g.num == i && g.asids.getLsbD asid) then 1 else 0)) ++
  ((List.range 64).flatMap fun i => (bs.filter fun b => b.num == i).flatMap entry) ++
  ((List.range 64).flatMap fun i => (bs.filter fun b => b.num == i).flatMap fun b => leBytes 8 b.ashr ++ leBytes 8 b.bshr)

/-- The X.509 certificate that Podric has signed for the public half of the identity key (R434). R434 has it read through NHP, and
R427 gives no command for it. (log 109, DESIGN CHOICE) -/
def Security.certificate (x : Security) : List Byte := Config.certificate x.identity

/-- The image that runs. -/
def Security.image (x : Security) : FwImage := ((x.slots.getD x.running none)).getD { index := 0, digest := 0 }

/-- The signed part of a report, 224 bytes (R434). (log 63, DESIGN CHOICE) -/
def Mod.reportBody (m : Mod) (asid : Nat) (nonce : List Byte) : List Byte :=
  leBytes 4 1 ++ leBytes 2 asid ++ leBytes 2 0 ++ padTo 64 nonce ++ leBytes 64 m.security.image.digest.toNat ++
  leBytes 64 (Config.sha512 (m.configBytes asid)).toNat ++ leBytes 8 m.security.image.index ++ leBytes 8 m.clock ++
  leBytes 8 0

/-- 0x0070, attestation request (R434). (log 63, DESIGN CHOICE) -/
def execAttestationRequest (c : Cmd) (s : State) : Out :=
  hostCommand (.attestationRequest c)
    { op := 0x70, tenant := true, asid := some (0, 2), cap := some 1, need := 72, fields := [(0, 2), (8, 64)] } c s
    fun _ m =>
      let a := field c.pay 0 2
      if 256 ≤ a then (1, [], m)
      else
        let body := m.reportBody a ((c.pay.drop 8).take 64)
        (0, body ++ padTo 512 (Config.pssSign m.security.identity body), m)

/-- The outcome of a firmware image (R431, R433): 0 with its index and digest, 17, or 18. (log 64, DEDUCED) -/
def firmwareCheck (fused : Nat) (bs : List Byte) : Nat × FwImage :=
  let body := bs.drop 4096
  let img : FwImage := { index := field bs 8 8, digest := BitVec.ofNat 512 (field bs 24 64) }
  let bad := bs.length < 4096 ∨ field bs 0 4 ≠ 0x46574E53 ∨ field bs 4 4 ≠ 1 ∨ 2 ^ 26 < field bs 16 8 ∨
    field bs 16 8 ≠ body.length ∨ field bs 600 3496 ≠ 0 ∨ Config.sha512 body ≠ img.digest ∨
    Config.pssVerify Config.firmwareKey (bs.take 88) ((bs.drop 88).take 512) = false
  if bad then (17, img) else if img.index < fused then (18, img) else (0, img)

/-- 0x0080, firmware update: a verified image goes to the slot not in use and runs from the next reset (R432, R433). -/
def execFirmwareUpdate (c : Cmd) (s : State) : Out :=
  hostCommand (.firmwareUpdate c)
    { op := 0x80, tenant := false, asid := none, cap := some 2, need := 16, fields := [(0, 8), (8, 8)] } c s fun _ m =>
      let pa := field c.pay 0 8
      let n := field c.pay 8 8
      if m.launches.any fun l => l.status == 4 then (16, [], m)
      else if outside pa n then (1, [], m)
      else
        let x := m.security
        let r := firmwareCheck x.fused (m.dram.readN pa n)
        if r.1 ≠ 0 then (r.1, [], m)
        else
          let slot := 1 - x.running
          (0, [], { m with security := { x with slots := x.slots.set slot (some r.2), newest := slot } })

/-- The counters of a set (R428). (log 65, DESIGN CHOICE) -/
def Counters.set? (k : Counters) : Nat → Option (List Nat)
  | 0 => some [k.port]
  | 1 => some [k.droppedEvents]
  | 2 => some [k.overruns]
  | 3 => some [k.protocol]
  | _ => none

/-- 0x0090, read counters (R98, R247, R423). -/
def execReadCounters (c : Cmd) (s : State) : Out :=
  hostCommand (.readCounters c) (ofRing 0x90 1 [(0, 1)]) c s fun _ m =>
    match m.counters.set? (field c.pay 0 1) with
    | none => (1, [], m)
    | some l => (0, leBytes 8 l.length ++ l.flatMap (leBytes 8), m)

end Sys2Proof.Machine
end

