-- ==== Sys2Proof/Machine/Board.lean ====
section
/-! DEFINITION. Bulk transfer over RoCEv2 (R423, R429), module reset and bring-up (R430 to R435), power and board
management (R436, R437). -/

namespace Sys2Proof.Machine

/-! ### The Ethernet port (R313, R423, R429) -/

/-- The regions registered, with the one that a request tells of (R429). (log 109, DESIGN CHOICE) -/
def Mod.register (m : Mod) (r : RoceReq) : Mod :=
  match r.fresh with
  | some x => { m with regions := upsert (fun y => y.key == x.key) x m.regions }
  | none => m

/-- Queue pairs (R429). -/
def queuePairs : Nat := 512

/-- The address space of the region in which n bytes that a request names lie; none for another queue pair than the 512, a key that
is not registered, or bytes outside its region (R429). -/
def Mod.roceSpace (m : Mod) (r : RoceReq) (va n : Nat) : Option Nat :=
  if queuePairs ≤ r.qp then none
  else ((m.regions.find? fun x => x.key == r.key).filter fun x =>
    decide (x.base ≤ va) && decide (va + n ≤ x.base + x.size)).map (·.asid)

/-- An answer to an RDMA request. -/
def Mod.roceAnswer (m : Mod) (ack : Bool) (bs : List Byte) : Mod := { m with roceOut := m.roceOut ++ [(ack, bs)] }

/-- ROCE_WRITE: an RDMA WRITE into a registered region of an address space; it is acknowledged once every byte is performed, and
gets a NAK outside the region or when its translation fails (R429).
(log 68, DESIGN CHOICE; log 109, DESIGN CHOICE) -/
def execRoceWrite (req : RoceReq) (va : W64) (bytes : List Byte) (s : State) : Out :=
  let m := s.now.register req
  match m.roceSpace req va.toNat bytes.length with
  | none => .next { s with now := m.roceAnswer false [] }
  | some asid =>
    let r := m.devWrite .port asid va.toNat bytes
    let ack := match r.1 with
      | .ok _ => true
      | .error _ => false
    .next { s with now := r.2.roceAnswer ack [] }

/-- ROCE_READ: an RDMA READ of a registered region served from device memory (R429). (log 68, DESIGN CHOICE; log 109,
DESIGN CHOICE) (log 68, DESIGN CHOICE; log 109, DESIGN CHOICE) -/
def execRoceRead (req : RoceReq) (va : W64) (len : Nat) (s : State) : Out :=
  let m := s.now.register req
  match m.roceSpace req va.toNat len with
  | none => .next { s with now := m.roceAnswer false [] }
  | some asid =>
    let r := m.devRead .port asid va.toNat len
    match r.1 with
    | .ok bs => .next { s with now := r.2.roceAnswer true bs }
    | .error _ => .next { s with now := r.2.roceAnswer false [] }

/-- ROCE_INVALID_REQUEST: a SEND or an atomic verb is answered with a NAK for an invalid request (R429). -/
def execRoceInvalidRequest (s : State) : Out := .next { s with now := s.now.roceAnswer false [] }

/-- The host port changed. -/
def Mod.onPort (m : Mod) (f : HostPort → HostPort) : Mod := { m with hostPort := f m.hostPort }

/-- Bytes of the largest frame that the host port accepts (R423). -/
def hostMtu : Nat := 9000

/-- A frame at the host port (R423): above the MTU it is not accepted; IPv4 and datagrams of other ports are discarded and counted; one
for another address is not for this module; a marked RoCEv2 packet is answered with a congestion notification. Of the datagrams of the host protocol
one of another magic is discarded, one whose length is not its payload's is discarded and counted (R424). A pause holds classes
3 and 0, which changes only when something is sent. (log 109, DESIGN CHOICE) -/
def Mod.frameIn (m : Mod) : HostFrame → Mod
  | .datagram len ip6 dst port marked =>
    if hostMtu < len then m
    else if !ip6 || !(port == 4791 || port == 5187) then { m with counters := { m.counters with port := m.counters.port + 1 } }
    else if marked && port == 4791 && (dst == Config.linkLocal || m.hostPort.globals.contains dst) then
      m.onPort fun p => { p with notices := p.notices + 1 }
    else m
  | .nhp bytes => match decodeDatagram bytes with
    | .ok i => { m with turn := m.turn ++ [i] }
    | .error .badLength => { m with counters := { m.counters with port := m.counters.port + 1 } }
    | .error _ => m
  | .pause cls on =>
    if cls = 0 ∨ cls = 3 then
      m.onPort fun p => { p with paused := if on then cls :: p.paused.filter (fun x => x != cls) else p.paused.filter fun x => x != cls }
    else m
  | .assign addr => if m.hostPort.globals.length < 4 then m.onPort fun p => { p with globals := p.globals ++ [addr] } else m

/-- UNUSED_TRAFFIC_DISCARD: a frame reaches the host port that carries no command and no RDMA request for this module (R423). -/
def execUnusedTrafficDiscard (frame : HostFrame) (s : State) : Out := .next { s with now := s.now.frameIn frame }

/-! ### Reset and bring-up (R432, R435) -/

/-- Whether a slot holds an image that boots: a valid one not below the fused index (R431). -/
def Security.bootable (x : Security) (slot : Nat) : Bool :=
  match x.slots.getD slot none with
  | some img => decide (x.fused ≤ img.index)
  | none => false

/-- The slot that boots: the newer valid one, else the other (R432, R435). -/
def Security.bootSlot (x : Security) : Option Nat :=
  if x.bootable x.newest then some x.newest
  else if x.bootable (1 - x.newest) then some (1 - x.newest) else none

/-- The fuses of the rollback index. -/
def fuseSteps : Nat := 64

/-- Module reset (R435), step by step: the firmware boots and raises the fused index, and without a valid one the module halts at
step 1; a memory stack that fails holds it at step 2; cores that fail their test are disabled; every counter is zero, the generation
1; the links are down until they train; the host port comes up. No grid context, ASID, binding, ring, session or save pool survives.
(log 4, DESIGN CHOICE; log 69, DEDUCED) -/
def Mod.moduleReset (m : Mod) : Mod :=
  let fresh := { Mod.reset with agenda := m.agenda, free := m.free + 1, next := m.next, tick := m.tick, boardOut := m.boardOut }
  let at_ := fun (n : Nat) (m : Mod) => { m with board := { m.board with step := n } }
  let board := { m.board with disabled := [], clk := 24, powered := true, stepFrom := m.tick }
  match m.security.bootSlot with
  | none => at_ 1 { fresh with security := m.security, board := board }
  | some slot =>
    let img := (m.security.slots.getD slot none).getD { index := 0, digest := 0 }
    let booted := { fresh with
      board := board
      security := { m.security with running := slot, fused := max m.security.fused (min img.index fuseSteps) } }
    if !Config.stacksPass m.free then at_ 2 booted
    else
      let tested := { booted with board := { board with disabled := (List.range Config.coreCount).filter (Config.coreFails m.free) } }
      at_ 6 (tested.onPort fun p => { p with lanes := if Config.fourLanes m.free then 4 else 8 })

/-- MODULE_RESET: power-on, or the reset that follows a firmware update (R435). -/
def execModuleReset (s : State) : Out := .next { now := s.now.moduleReset, issue := none }

/-! ### Power and board management (R436, R437) -/

/-- The cap that the management session sets: from 1,000 W to 2,800 W (R436). -/
def Board.capOf (b : Board) (x : Thermal) : Nat :=
  match x.cap with
  | some c => if 1000 ≤ c ∧ c ≤ 2800 then c else b.cap
  | none => b.cap

/-- The time between two steps of the clock: 10 µs (R436). -/
def throttleStep : Nat := 10000 * Config.ticksPerNs

/-- THERMAL_THROTTLE: with a die at 95 °C, or with more power than the cap, the clock steps down by 100 MHz, to no lower than 1.2 GHz;
else it steps back up, to 2.4 GHz; no step comes within 10 µs of the one before (R436). (log 109, DESIGN CHOICE) -/
def execThermalThrottle (reading : Thermal) (s : State) : Out :=
  let m := s.now
  let b : Board := { m.board with cap := m.board.capOf reading }
  let hot := (reading.temps.any fun t => decide (95 ≤ t)) || decide (b.cap < reading.power)
  let clk := if hot then max 12 (b.clk - 1) else min 24 (b.clk + 1)
  let b := if b.stepFrom ≤ m.tick ∧ clk ≠ b.clk then { b with clk := clk, stepFrom := m.tick + throttleStep } else b
  .next { s with now := { m with board := b } }

/-- THERMAL_TRIP: issue stops, the links drop, the dies lose power and with it every launch; board management reports
the trip as the single number 110 (R436). (log 70, DESIGN CHOICE; log 75, DESIGN CHOICE) -/
def execThermalTrip (s : State) : Out :=
  let m := s.now
  .next {
    now := { m with
      cores := [], reqs := [], kids := [], walks := [], tlb := [], links := m.links.map fun k => { k with up := false },
      portQ := [], fabOps := [], freds := [], leat := { m.leat with ctxs := [], pool := [], refused := [], admitted := [] },
      posts := [], queue := [], launches := [], saved := [], boardOut := m.boardOut ++ [[110]],
      board := { m.board with powered := false } },
    issue := none }

/-- What a board-management request answers: readings of sensors are free values, one byte for each of four compute
dies, the I/O die, eight stacks and the inlet, and 64 bits for the power. (log 70, DESIGN CHOICE) -/
def Mod.boardAnswer (m : Mod) : BoardReq → List Nat
  | .readTemps => (List.range 14).map fun i => (Config.freeByte m.free i).toNat
  | .readPower => [(Config.free64 m.free).toNat]
  | .readClock => [m.board.clk * 100]
  | .readStep => [m.board.step]
  | .readDisabled => [m.board.disabled.length]
  | .resetRequest => []
  | .writeOperatorDigest _ => [if m.security.operator.isNone then 1 else 0]

/-- BOARD_MGMT_REQUEST: a reading, the reset request, or the one-time write of the operator key digest (R432, R437). -/
def execBoardMgmtRequest (r : BoardReq) (s : State) : Out :=
  let m := { s.now with boardOut := s.now.boardOut ++ [s.now.boardAnswer r], free := s.now.free + 1 }
  match r with
  | .resetRequest => .next { now := m.moduleReset, issue := none }
  | .writeOperatorDigest d =>
    .next { s with now := { m with security := { m.security with operator := some (m.security.operator.getD d) } } }
  | _ => .next { s with now := m }

end Sys2Proof.Machine
end

