-- ==== Sys2Proof/Machine/Remote.lean ====
section
/-! DEFINITION. Requests beyond a core: cluster stores, cluster loads and atomics, and accesses at the home slices
(R124, R125, R266, R270, R298, R299). -/

namespace Sys2Proof.Machine

/-- Whether two requests touch a common byte. -/
def Req.meets (r x : Req) : Bool :=
  match r.place, x.place with
  | .cluster c b o, .cluster c' b' o' => c == c' && b == b' && overlaps o r.what.bytes o' x.what.bytes
  | .device a, .device a' => overlaps a r.what.bytes a' x.what.bytes
  | _, _ => false

/-- Whether a request is a plain store into the outbound buffer (R299). -/
def Req.isBuffered (r : Req) : Bool :=
  match r.place, r.what with
  | .cluster _ _ _, .store _ => true
  | _, _ => false

/-- Whether a request is a load, not an atomic. -/
def Req.isLoad (r : Req) : Bool :=
  match r.what with
  | .load _ _ => true
  | _ => false

/-- Whether a thread that issued a request had observed a write of its core by then, or has been given it since by
forwarding (R303). -/
def Mod.hadSeen (m : Mod) (r : Req) (id : Nat) : Bool :=
  decide (id < r.seen) || match m.thread? r.core r.warp r.lane with | some t => t.fwd.contains id | none => false

/-- Whether an earlier request of the core at a common byte must be performed before another: stores leave the outbound
buffer in order; a load takes a buffered store's bytes and does not wait for it; else the writes of one bundle are performed in the
order of its lanes (R270, R272), the accesses of one thread keep their order, and none goes behind a write that the thread had observed (R296, R299, R300, R304). -/
def Mod.goesFirst (m : Mod) (x r : Req) : Bool :=
  if x.isBuffered && r.isBuffered then true
  else if x.isBuffered && r.isLoad then false
  else (x.at_ == r.at_ && x.writes && r.writes) || (x.warp == r.warp && x.lane == r.lane) || (x.writes && m.hadSeen r x.id)

/-- Whether an earlier fabric operation must be performed at this module before a request: both in the outbound buffer, of one thread,
or a write that the thread had observed (R296, R299, R300, R304). -/
def Mod.opGoesFirst (m : Mod) (o : FabOp) (r : Req) : Bool :=
  decide (o.id < r.id) && o.core == r.core && m.openHere o && !(decide (o.pkt.op ≤ 1) && r.isLoad && !(match r.place with
    | .device _ => true
    | _ => false)) &&
  ((o.warp == r.warp && o.lanes.contains r.lane) || (o.buffered && r.isBuffered) || (o.pkt.op != 2 && m.hadSeen r o.id)) && m.opMeets o r.place r.what.bytes

/-- Whether a request may be performed now: the writes that it releases are performed, and no earlier access that must be
performed before it is outstanding, nor a pass of an earlier access of the core (R39, R271, R296, R300). -/
def Mod.reqOpen (m : Mod) (r : Req) : Bool :=
  m.allPerformed r.deps && !((m.core r.core).passes.any fun p => decide (p.id < r.id)) &&
  !(m.reqs.any fun x => decide (x.id < r.id) && x.core == r.core && r.meets x && m.goesFirst x r) &&
  !m.fabOps.any fun o => m.opGoesFirst o r

/-- A request is over. -/
def Mod.endReq (m : Mod) (r : Req) : Mod :=
  let m := m.fenceProgress r.core r.id
  { m with reqs := m.reqs.filter fun x => x.id != r.id }

/-- The address word of a cluster place in the form of R208. -/
def clusterWord (c slot off : Nat) : W64 := BitVec.ofNat 64 (3 * 2 ^ 56 + slot * 2 ^ 44 + c * 2 ^ 32 + off)

/-- The bytes that a core's outbound buffer holds for byte i of a cluster place that a load names: the number of each write
and its byte; the load's own thread's later stores are not for it (R299, R300). -/
def Mod.clusterBuffered (m : Mod) (r : Req) (t blk off i : Nat) : List (Nat × Byte) :=
  let stores := m.reqs.filterMap fun x => match x.place, x.what with
    | .cluster t' blk' o, .store bs =>
      if x.core = r.core ∧ x.launch = r.launch ∧ t' = t ∧ blk' = blk ∧ o ≤ off + i ∧ off + i - o < bs.length then
        some (x.id, bs.getD (off + i - o) 0) else none
    | _, _ => none
  let fab := match m.launch? r.launch, m.block? t blk with
    | some la, some b => if la.rec_.axes = 0 then [] else match m.grid? la.rec_.grid with
      | some g => (m.buffered r.core r.launch (some g) g.coord (clusterWord t b.slot off) i).filter fun p =>
          m.fabOps.any fun o => o.id == p.1
      | none => []
    | _, _ => []
  let own := fun (id : Nat) => (m.reqs.any fun x => x.id == id && x.warp == r.warp && x.lane == r.lane) ||
    m.fabOps.any fun o => o.id == id && o.warp == r.warp && o.lanes.contains r.lane
  (stores ++ fab).filter fun p => decide (p.1 < r.id) || !own p.1

/-- The bytes at a place as a thread (core, warp, lane) reads them, in a saved context too; none where the block has ended (R124,
R198, R412). -/
def Mod.placeRead (m : Mod) (t : Nat × Nat × Nat) (p : Place) (n : Nat) : Option (List Byte) :=
  match p with
  | .cluster c b off => (m.spotOf c b).map fun x => m.spotLoad [t] x off n
  | .device pa => some (m.dram.readN pa n)

/-- Bytes written at a request's place; a block that has ended takes none (R124). -/
def Mod.placeWrite (m : Mod) (p : Place) (bs : List Byte) : Mod :=
  match p with
  | .cluster c b off => match m.spotOf c b with
    | some t => m.spotStore t off bs
    | none => m
  | .device pa => m.dramWrite pa bs

/-- The pending registers of a request take a value, low word first, and land, in the live core or in a saved context (R38, R411). -/
def Mod.landReq (m : Mod) (r : Req) (val : Nat) : Mod :=
  let land := some (max r.readyAt m.clock)
  let one := fun (f : Flight) =>
    if f.id == r.id && f.kind == .onModule then
      match f.dest with
      | .v _ _ n => { f with land := land, val := BitVec.ofNat 64 (val / 2 ^ (32 * (n - r.d)) % 2 ^ 32) }
      | _ => f
    else f
  let m := m.onCore r.core fun k => { k with flights := k.flights.map one }
  let saved := fun (k : SavedCore) => if k.core = r.core then { k with flights := k.flights.map one } else k
  { m with saved := m.saved.map fun v => { v with cores := v.cores.map saved } }

/-- A request that acquires does so when it is performed (R271, R272, R304). -/
def Mod.reqAcquires (m : Mod) (r : Req) : Mod := if r.acq then m.acquire r.core r.warp [r.lane] else m

/-- A request is performed at its place. -/
def Mod.performReq (m : Mod) (r : Req) : Mod :=
  match r.what with
  | .store bs => (m.placeWrite r.place bs).endReq r
  | .load t k =>
    let n := r.what.bytes
    match m.placeRead (r.core, r.warp, r.lane) r.place n with
    | none =>
      let v := ((m.draw.1 : W64) ++ (m.draw.2.draw.1 : W64)).toNat
      (m.draw.2.draw.2.endReq r).landReq r v
    | some bs =>
      let fw := match r.place with
        | .cluster t blk off => (List.range n).filterMap fun i =>
            (youngest (m.clusterBuffered r t blk off i)).map fun p => (i, p)
        | .device _ => []
      let bs := fw.foldl (fun l p => l.set p.1 p.2.2) bs
      let v := if k = 1 then loadVal (tyCode t) (leNat bs) else leNat bs
      let m := m.sawForwarded r.core r.warp [r.lane] (fw.map fun p => p.2.1)
      ((m.endReq r).landReq r v).reqAcquires r
  | .atom op t n v cmp ret =>
    match m.placeRead (r.core, r.warp, r.lane) r.place n with
    | none =>
      let x := ((m.draw.1 : W64) ++ (m.draw.2.draw.1 : W64)).toNat
      (m.draw.2.draw.2.endReq r).landReq r x
    | some bs =>
      let old := leNat bs
      let new := atomNew op (tyCode t) old v.toNat cmp.toNat
      let m := (m.placeWrite r.place (leBytes n new)).endReq r
      (if ret then m.landReq r old else m).reqAcquires r

/-- Whether a request goes to a cluster place. -/
def Req.toCluster (r : Req) : Bool :=
  match r.place with
  | .cluster _ _ _ => true
  | .device _ => false

/-- Whether a request is a plain store. -/
def Req.isStore (r : Req) : Bool :=
  match r.what with
  | .store _ => true
  | _ => false

/-- A request of a kind is performed, if it may be. -/
def serveReq (pick : Req → Bool) (id : Nat) (s : State) : Out :=
  match s.now.reqs.find? fun r => r.id == id && pick r with
  | none => .next s
  | some r => if s.now.reqOpen r then .next { s with now := s.now.performReq r } else .next s

/-- CLUSTER_WRITE_PERFORM: a store of the outbound buffer is performed at its bank (R298, R303). -/
def execClusterWritePerform (id : Nat) (s : State) : Out := serveReq (fun r => r.toCluster && r.isStore) id s

/-- REMOTE_ACCESS_SERVE: a cluster load or atomic is served at its bank (R125, R266, R270). -/
def execRemoteAccessServe (id : Nat) (s : State) : Out := serveReq (fun r => r.toCluster && !r.isStore) id s

/-- HOME_SLICE_ACCESS: an access to device memory is performed at its home slice (R266, R270, R298). -/
def execHomeSliceAccess (id : Nat) (s : State) : Out := serveReq (fun r => !r.toCluster) id s

end Sys2Proof.Machine
end

