-- ==== Sys2Proof/Machine/Uniform.lean ====
section
/-! DEFINITION. Uniform arithmetic, moves and scratchpad access (R67 to R71). -/

namespace Sys2Proof.Machine

/-- A two-source uniform operation: `s[d]` receives the result extended to 64 bits, 2 c after issue (R34, R68). -/
def uniform2 (op : IntOp) (h : Hdr) (f : FmtV) (s : State) : Out :=
  perWarp h s fun w _ b =>
    let t := tyOfMinor f.minor
    b.putS w f.d.toNat (BitVec.ofNat 64 (extend t 64 (intOp op t (b.x.ua f w).toNat (b.x.ub f w).toNat))) 2

/-- `sadd` (R68). -/
def execSadd (h : Hdr) (f : FmtV) (s : State) : Out := uniform2 .add h f s

/-- `ssub` (R68). -/
def execSsub (h : Hdr) (f : FmtV) (s : State) : Out := uniform2 .sub h f s

/-- `smul` (R68). -/
def execSmul (h : Hdr) (f : FmtV) (s : State) : Out := uniform2 .mul h f s

/-- `smulh` (R68). -/
def execSmulh (h : Hdr) (f : FmtV) (s : State) : Out := uniform2 .mulh h f s

/-- `sdiv` (R68). -/
def execSdiv (h : Hdr) (f : FmtV) (s : State) : Out := uniform2 .div h f s

/-- `srem` (R68). -/
def execSrem (h : Hdr) (f : FmtV) (s : State) : Out := uniform2 .rem h f s

/-- `sand` (R68). -/
def execSand (h : Hdr) (f : FmtV) (s : State) : Out := uniform2 .and h f s

/-- `sor` (R68). -/
def execSor (h : Hdr) (f : FmtV) (s : State) : Out := uniform2 .or h f s

/-- `sxor` (R68). -/
def execSxor (h : Hdr) (f : FmtV) (s : State) : Out := uniform2 .xor h f s

/-- `sshl` (R68). -/
def execSshl (h : Hdr) (f : FmtV) (s : State) : Out := uniform2 .shl h f s

/-- `sshr` (R68). -/
def execSshr (h : Hdr) (f : FmtV) (s : State) : Out := uniform2 .shr h f s

/-- `ssra` (R68). -/
def execSsra (h : Hdr) (f : FmtV) (s : State) : Out := uniform2 .sra h f s

/-- `smin` (R68). -/
def execSmin (h : Hdr) (f : FmtV) (s : State) : Out := uniform2 .min h f s

/-- `smax` (R68). -/
def execSmax (h : Hdr) (f : FmtV) (s : State) : Out := uniform2 .max h f s

/-- `sli` (R69). -/
def execSli (h : Hdr) (f : FmtI) (s : State) : Out :=
  perWarp h s fun w _ b =>
    b.putS w f.d.toNat (if tyOfMinor f.minor = 2 then f.imm32.signExtend 64 else f.imm32.setWidth 64) 2

/-- `slih` (R69). -/
def execSlih (h : Hdr) (f : FmtI) (s : State) : Out :=
  perWarp h s fun w _ b => b.putS w f.d.toNat (f.imm32 ++ (b.x.s w f.d.toNat).extractLsb' 0 32) 2

/-- `smov` (R69). -/
def execSmov (h : Hdr) (f : FmtV) (s : State) : Out :=
  perWarp h s fun w _ b => b.putS w f.d.toNat (b.x.ua f w) 2

/-- `scmp`: the register, and the predicate of every thread whose guard is true (R70). -/
def execScmp (h : Hdr) (f : FmtV) (s : State) : Out :=
  perWarp h s fun w ls b =>
    let r := cmpInt f.minor (b.x.ua f w).toNat (b.x.ub f w).toNat
    ls.foldl (fun b l => b.putQ w l f.qd.toNat r 2) (b.putS w f.d.toNat (if r then 1 else 0) 2)

/-- `ssel` (R69). -/
def execSsel (h : Hdr) (f : FmtV) (s : State) : Out :=
  perWarp h s fun w _ b =>
    b.putS w f.d.toNat (if b.x.s w f.c.toNat ≠ 0 then b.x.ua f w else b.x.ub f w) 2

/-- The threads of a warp-level scratchpad access of n bytes at ea, checked (R71): the fault, a hold while a write of theirs
to the bytes, of an earlier bundle, is not performed (R30, R296), or the access, which takes one pass after those of earlier slots (R122). -/
def uniformAccess (h : Hdr) (f : FmtM) (n : Nat) (s : State) (go : Nat → List Nat → Nat → Bx → Bx) : Out :=
  perWarp h s fun w ls b =>
    let ea := b.x.ea f w 0
    match accessFault ea n n (b.m.scratchOf b.x.core w) with
    | some cause => b.faultAll (ls.map fun l => (w, l)) cause
    | none =>
      if b.mustWait w ls ea n then { b with x := { b.x with hold := true } }
      else (go w ls ea b).addPasses 1

/-- `sld` (R71). -/
def execSld (h : Hdr) (f : FmtM) (s : State) : Out :=
  let t := tyOfMinor f.minor
  let n := tyWidth t / 8
  uniformAccess h f n s fun w ls ea b =>
    (b.putS w f.d.toNat (BitVec.ofNat 64 (extend t 64 (b.m.sreadOf b.x.core w ls ea n))) 10 b.x.passes).readAgain w ea n t
      (.s w f.d.toNat)

/-- `sst` (R71). -/
def execSst (h : Hdr) (f : FmtM) (s : State) : Out :=
  let n := tyWidth (tyOfMinor f.minor) / 8
  uniformAccess h f n s fun w _ ea b => b.writePass w ea n (b.x.s w f.d.toNat).toNat

end Sys2Proof.Machine
end

