-- ==== Sys2Proof/Machine/Dispatch.lean ====
section
/-! DEFINITION. The dispatcher: one meaning for each row of the opcode table. -/

namespace Sys2Proof.Machine

/-- The meaning of an instruction, step or event. -/
def exec (i : Instr) (s : State) : Host.Outcome State Fault Refusal :=
  match i with
  | .issueCycle core => Sys2Proof.Machine.execIssueCycle core s
  | .lineFetchComplete core flip => Sys2Proof.Machine.execLineFetchComplete core flip s
  | .fixedResultLanding core => Sys2Proof.Machine.execFixedResultLanding core s
  | .deferredResultLanding core id => Sys2Proof.Machine.execDeferredResultLanding core id s
  | .handlerEntry core warp lane => Sys2Proof.Machine.execHandlerEntry core warp lane s
  | .threadEnd core warp lane => Sys2Proof.Machine.execThreadEnd core warp lane s
  | .blockEnd core slot => Sys2Proof.Machine.execBlockEnd core slot s
  | .weirDeferredIncrement core k => Sys2Proof.Machine.execWeirDeferredIncrement core k s
  | .clusterWritePerform id => Sys2Proof.Machine.execClusterWritePerform id s
  | .remoteAccessServe id => Sys2Proof.Machine.execRemoteAccessServe id s
  | .homeSliceAccess id => Sys2Proof.Machine.execHomeSliceAccess id s
  | .matrixOpStart core => Sys2Proof.Machine.execMatrixOpStart core s
  | .matrixOpComplete core => Sys2Proof.Machine.execMatrixOpComplete core s
  | .mopfStaged core warp => Sys2Proof.Machine.execMopfStaged core warp s
  | .jigSweepChunk core warp => Sys2Proof.Machine.execJigSweepChunk core warp s
  | .sluiceRequestStart core => Sys2Proof.Machine.execSluiceRequestStart core s
  | .sluiceChunkLanded core handle chunk => Sys2Proof.Machine.execSluiceChunkLanded core handle chunk s
  | .fabricPacketArrival p => Sys2Proof.Machine.execFabricPacketArrival p s
  | .fabricCompletionArrival p => Sys2Proof.Machine.execFabricCompletionArrival p s
  | .fwaitTimeout core wait => Sys2Proof.Machine.execFwaitTimeout core wait s
  | .flitCrcReplay check => Sys2Proof.Machine.execFlitCrcReplay check s
  | .laneFailureRetrain link lane => Sys2Proof.Machine.execLaneFailureRetrain link lane s
  | .linkTraining link o => Sys2Proof.Machine.execLinkTraining link o s
  | .vcStopGo link mask => Sys2Proof.Machine.execVcStopGo link mask s
  | .backwaterFlit flit => Sys2Proof.Machine.execBackwaterFlit flit s
  | .backwaterLapse peer => Sys2Proof.Machine.execBackwaterLapse peer s
  | .bargeArrival b => Sys2Proof.Machine.execBargeArrival b s
  | .canalFrameApply f => Sys2Proof.Machine.execCanalFrameApply f s
  | .canalReleaseEligible k => Sys2Proof.Machine.execCanalReleaseEligible k s
  | .canalWaitTimeout core wait => Sys2Proof.Machine.execCanalWaitTimeout core wait s
  | .leatStep die => Sys2Proof.Machine.execLeatStep die s
  | .leatMessageArrival p => Sys2Proof.Machine.execLeatMessageArrival p s
  | .leatGoNotice p => Sys2Proof.Machine.execLeatGoNotice p s
  | .leatWaitTimeout core wait => Sys2Proof.Machine.execLeatWaitTimeout core wait s
  | .taskWaveForm core => Sys2Proof.Machine.execTaskWaveForm core s
  | .cisternRefill core => Sys2Proof.Machine.execCisternRefill core s
  | .veneerFold id => Sys2Proof.Machine.execVeneerFold id s
  | .gridsyncStart handle ok => Sys2Proof.Machine.execGridsyncStart handle ok s
  | .launchRetire handle => Sys2Proof.Machine.execLaunchRetire handle s
  | .warpEvict core => Sys2Proof.Machine.execWarpEvict core s
  | .warpRestore core warp => Sys2Proof.Machine.execWarpRestore core warp s
  | .watchdogExpiry core wait => Sys2Proof.Machine.execWatchdogExpiry core wait s
  | .savePoint asid => Sys2Proof.Machine.execSavePoint asid s
  | .saveComplete asid => Sys2Proof.Machine.execSaveComplete asid s
  | .restoreStart asid => Sys2Proof.Machine.execRestoreStart asid s
  | .shardDeadlineExpiry shard => Sys2Proof.Machine.execShardDeadlineExpiry shard s
  | .sessionIdleTimeout session => Sys2Proof.Machine.execSessionIdleTimeout session s
  | .roceWrite asid va bytes => Sys2Proof.Machine.execRoceWrite asid va bytes s
  | .roceRead asid va len => Sys2Proof.Machine.execRoceRead asid va len s
  | .thermalThrottle hot => Sys2Proof.Machine.execThermalThrottle hot s
  | .boardMgmtRequest r => Sys2Proof.Machine.execBoardMgmtRequest r s
  | .sessionOpen c => Sys2Proof.Machine.execSessionOpen c s
  | .sessionClose c => Sys2Proof.Machine.execSessionClose c s
  | .sessionProof c => Sys2Proof.Machine.execSessionProof c s
  | .postLaunch c => Sys2Proof.Machine.execPostLaunch c s
  | .readRecordStatus c => Sys2Proof.Machine.execReadRecordStatus c s
  | .resumeBrkThread c => Sys2Proof.Machine.execResumeBrkThread c s
  | .gridContextLoad c => Sys2Proof.Machine.execGridContextLoad c s
  | .gridContextCommit c => Sys2Proof.Machine.execGridContextCommit c s
  | .canalGroupConfigure c => Sys2Proof.Machine.execCanalGroupConfigure c s
  | .asidConfigure c => Sys2Proof.Machine.execAsidConfigure c s
  | .savePoolConfigure c => Sys2Proof.Machine.execSavePoolConfigure c s
  | .tenantGrant c => Sys2Proof.Machine.execTenantGrant c s
  | .bindingLoad c => Sys2Proof.Machine.execBindingLoad c s
  | .shardLoad c => Sys2Proof.Machine.execShardLoad c s
  | .switchPrepare c => Sys2Proof.Machine.execSwitchPrepare c s
  | .switchRequest c => Sys2Proof.Machine.execSwitchRequest c s
  | .readShardReady c => Sys2Proof.Machine.execReadShardReady c s
  | .save c => Sys2Proof.Machine.execSave c s
  | .restore c => Sys2Proof.Machine.execRestore c s
  | .reset c => Sys2Proof.Machine.execReset c s
  | .inval c => Sys2Proof.Machine.execInval c s
  | .ringOpen c => Sys2Proof.Machine.execRingOpen c s
  | .ringClose c => Sys2Proof.Machine.execRingClose c s
  | .ringHeadUpdate c => Sys2Proof.Machine.execRingHeadUpdate c s
  | .attestationRequest c => Sys2Proof.Machine.execAttestationRequest c s
  | .firmwareUpdate c => Sys2Proof.Machine.execFirmwareUpdate c s
  | .readCounters c => Sys2Proof.Machine.execReadCounters c s
  | .sadd h f => Sys2Proof.Machine.execSadd h f s
  | .ssub h f => Sys2Proof.Machine.execSsub h f s
  | .smul h f => Sys2Proof.Machine.execSmul h f s
  | .smulh h f => Sys2Proof.Machine.execSmulh h f s
  | .sdiv h f => Sys2Proof.Machine.execSdiv h f s
  | .srem h f => Sys2Proof.Machine.execSrem h f s
  | .sand h f => Sys2Proof.Machine.execSand h f s
  | .sor h f => Sys2Proof.Machine.execSor h f s
  | .sxor h f => Sys2Proof.Machine.execSxor h f s
  | .sshl h f => Sys2Proof.Machine.execSshl h f s
  | .sshr h f => Sys2Proof.Machine.execSshr h f s
  | .ssra h f => Sys2Proof.Machine.execSsra h f s
  | .smin h f => Sys2Proof.Machine.execSmin h f s
  | .smax h f => Sys2Proof.Machine.execSmax h f s
  | .sli h f => Sys2Proof.Machine.execSli h f s
  | .slih h f => Sys2Proof.Machine.execSlih h f s
  | .smov h f => Sys2Proof.Machine.execSmov h f s
  | .scmp h f => Sys2Proof.Machine.execScmp h f s
  | .ssel h f => Sys2Proof.Machine.execSsel h f s
  | .sld h f => Sys2Proof.Machine.execSld h f s
  | .sst h f => Sys2Proof.Machine.execSst h f s
  | .nop h f => Sys2Proof.Machine.execNop h f s
  | .bra h f => Sys2Proof.Machine.execBra h f s
  | .brc h f => Sys2Proof.Machine.execBrc h f s
  | .call h f => Sys2Proof.Machine.execCall h f s
  | .ret h f => Sys2Proof.Machine.execRet h f s
  | .jmpi h f => Sys2Proof.Machine.execJmpi h f s
  | .wsync h f => Sys2Proof.Machine.execWsync h f s
  | .exit h f => Sys2Proof.Machine.execExit h f s
  | .yield h f => Sys2Proof.Machine.execYield h f s
  | .elect h f => Sys2Proof.Machine.execElect h f s
  | .trap h f => Sys2Proof.Machine.execTrap h f s
  | .tret h f => Sys2Proof.Machine.execTret h f s
  | .mfsr h f => Sys2Proof.Machine.execMfsr h f s
  | .mtsr h f => Sys2Proof.Machine.execMtsr h f s
  | .lnch h f => Sys2Proof.Machine.execLnch h f s
  | .evnt h f => Sys2Proof.Machine.execEvnt h f s
  | .brk h f => Sys2Proof.Machine.execBrk h f s
  | .vadd h f => Sys2Proof.Machine.execVadd h f s
  | .vsub h f => Sys2Proof.Machine.execVsub h f s
  | .vmulLo h f => Sys2Proof.Machine.execVmulLo h f s
  | .vmulHi h f => Sys2Proof.Machine.execVmulHi h f s
  | .vmad h f => Sys2Proof.Machine.execVmad h f s
  | .vand h f => Sys2Proof.Machine.execVand h f s
  | .vor h f => Sys2Proof.Machine.execVor h f s
  | .vxor h f => Sys2Proof.Machine.execVxor h f s
  | .vnot h f => Sys2Proof.Machine.execVnot h f s
  | .vshl h f => Sys2Proof.Machine.execVshl h f s
  | .vshr h f => Sys2Proof.Machine.execVshr h f s
  | .vsra h f => Sys2Proof.Machine.execVsra h f s
  | .vmin h f => Sys2Proof.Machine.execVmin h f s
  | .vmax h f => Sys2Proof.Machine.execVmax h f s
  | .vabs h f => Sys2Proof.Machine.execVabs h f s
  | .vneg h f => Sys2Proof.Machine.execVneg h f s
  | .vpopc h f => Sys2Proof.Machine.execVpopc h f s
  | .vclz h f => Sys2Proof.Machine.execVclz h f s
  | .vbrev h f => Sys2Proof.Machine.execVbrev h f s
  | .vbfe h f => Sys2Proof.Machine.execVbfe h f s
  | .vbfi h f => Sys2Proof.Machine.execVbfi h f s
  | .vsel h f => Sys2Proof.Machine.execVsel h f s
  | .vmov h f => Sys2Proof.Machine.execVmov h f s
  | .vli h f => Sys2Proof.Machine.execVli h f s
  | .vcmp h f => Sys2Proof.Machine.execVcmp h f s
  | .vfadd h f => Sys2Proof.Machine.execVfadd h f s
  | .vfsub h f => Sys2Proof.Machine.execVfsub h f s
  | .vfmul h f => Sys2Proof.Machine.execVfmul h f s
  | .vffma h f => Sys2Proof.Machine.execVffma h f s
  | .vfmin h f => Sys2Proof.Machine.execVfmin h f s
  | .vfmax h f => Sys2Proof.Machine.execVfmax h f s
  | .vfabs h f => Sys2Proof.Machine.execVfabs h f s
  | .vfneg h f => Sys2Proof.Machine.execVfneg h f s
  | .vfcmp h f => Sys2Proof.Machine.execVfcmp h f s
  | .vdadd h f => Sys2Proof.Machine.execVdadd h f s
  | .vdmul h f => Sys2Proof.Machine.execVdmul h f s
  | .vdffma h f => Sys2Proof.Machine.execVdffma h f s
  | .vcvt h f => Sys2Proof.Machine.execVcvt h f s
  | .vpack h f => Sys2Proof.Machine.execVpack h f s
  | .vunpk h f => Sys2Proof.Machine.execVunpk h f s
  | .vhfmaBf16x2 h f => Sys2Proof.Machine.execVhfmaBf16x2 h f s
  | .vhfmaF16x2 h f => Sys2Proof.Machine.execVhfmaF16x2 h f s
  | .vrcp h f => Sys2Proof.Machine.execVrcp h f s
  | .vrsq h f => Sys2Proof.Machine.execVrsq h f s
  | .vsqrt h f => Sys2Proof.Machine.execVsqrt h f s
  | .vdiv h f => Sys2Proof.Machine.execVdiv h f s
  | .vexp2 h f => Sys2Proof.Machine.execVexp2 h f s
  | .vlog2 h f => Sys2Proof.Machine.execVlog2 h f s
  | .vsin h f => Sys2Proof.Machine.execVsin h f s
  | .vcos h f => Sys2Proof.Machine.execVcos h f s
  | .vshflIdx h f => Sys2Proof.Machine.execVshflIdx h f s
  | .vshflUp h f => Sys2Proof.Machine.execVshflUp h f s
  | .vshflDown h f => Sys2Proof.Machine.execVshflDown h f s
  | .vshflXor h f => Sys2Proof.Machine.execVshflXor h f s
  | .vbcast h f => Sys2Proof.Machine.execVbcast h f s
  | .vred h f => Sys2Proof.Machine.execVred h f s
  | .vscan h f => Sys2Proof.Machine.execVscan h f s
  | .vballot h f => Sys2Proof.Machine.execVballot h f s
  | .vany h f => Sys2Proof.Machine.execVany h f s
  | .vall h f => Sys2Proof.Machine.execVall h f s
  | .vld h f => Sys2Proof.Machine.execVld h f s
  | .vst h f => Sys2Proof.Machine.execVst h f s
  | .vstCw h f => Sys2Proof.Machine.execVstCw h f s
  | .vldt h f => Sys2Proof.Machine.execVldt h f s
  | .vldc h f => Sys2Proof.Machine.execVldc h f s
  | .vatom h f => Sys2Proof.Machine.execVatom h f s
  | .mma h f => Sys2Proof.Machine.execMma h f s
  | .mopf h f => Sys2Proof.Machine.execMopf h f s
  | .mwait h f => Sys2Proof.Machine.execMwait h f s
  | .mzero h f => Sys2Proof.Machine.execMzero h f s
  | .mrd h f => Sys2Proof.Machine.execMrd h f s
  | .mwr h f => Sys2Proof.Machine.execMwr h f s
  | .mld h f => Sys2Proof.Machine.execMld h f s
  | .mst h f => Sys2Proof.Machine.execMst h f s
  | .jigSet h f => Sys2Proof.Machine.execJigSet h f s
  | .jigSetSv h f => Sys2Proof.Machine.execJigSetSv h f s
  | .jigSetClr h f => Sys2Proof.Machine.execJigSetClr h f s
  | .jop h f => Sys2Proof.Machine.execJop h f s
  | .gcvtTo h f => Sys2Proof.Machine.execGcvtTo h f s
  | .gcvtFrom h f => Sys2Proof.Machine.execGcvtFrom h f s
  | .gpack h f => Sys2Proof.Machine.execGpack h f s
  | .gunpk h f => Sys2Proof.Machine.execGunpk h f s
  | .slA h f => Sys2Proof.Machine.execSlA h f s
  | .slB h f => Sys2Proof.Machine.execSlB h f s
  | .slC h f => Sys2Proof.Machine.execSlC h f s
  | .slD h f => Sys2Proof.Machine.execSlD h f s
  | .slGo h f => Sys2Proof.Machine.execSlGo h f s
  | .slArm h f => Sys2Proof.Machine.execSlArm h f s
  | .slSt h f => Sys2Proof.Machine.execSlSt h f s
  | .slKill h f => Sys2Proof.Machine.execSlKill h f s
  | .fst h f => Sys2Proof.Machine.execFst h f s
  | .fld h f => Sys2Proof.Machine.execFld h f s
  | .fatom h f => Sys2Proof.Machine.execFatom h f s
  | .fred h f => Sys2Proof.Machine.execFred h f s
  | .fcopy h f => Sys2Proof.Machine.execFcopy h f s
  | .fwait h f => Sys2Proof.Machine.execFwait h f s
  | .fcnt h f => Sys2Proof.Machine.execFcnt h f s
  | .fcrd h f => Sys2Proof.Machine.execFcrd h f s
  | .fcrdClr h f => Sys2Proof.Machine.execFcrdClr h f s
  | .cnlPost h f => Sys2Proof.Machine.execCnlPost h f s
  | .cnlWt h f => Sys2Proof.Machine.execCnlWt h f s
  | .cnlRel h f => Sys2Proof.Machine.execCnlRel h f s
  | .ltRun h f => Sys2Proof.Machine.execLtRun h f s
  | .ltRunCn h f => Sys2Proof.Machine.execLtRunCn h f s
  | .ltWt h f => Sys2Proof.Machine.execLtWt h f s
  | .ltSt h f => Sys2Proof.Machine.execLtSt h f s
  | .weirSet h f => Sys2Proof.Machine.execWeirSet h f s
  | .weirArv h f => Sys2Proof.Machine.execWeirArv h f s
  | .weirWt h f => Sys2Proof.Machine.execWeirWt h f s
  | .weirAw h f => Sys2Proof.Machine.execWeirAw h f s
  | .weirTst h f => Sys2Proof.Machine.execWeirTst h f s
  | .wfa h f => Sys2Proof.Machine.execWfa h f s
  | .atom h f => Sys2Proof.Machine.execAtom h f s
  | .fence h f => Sys2Proof.Machine.execFence h f s
  | .ldAcq h f => Sys2Proof.Machine.execLdAcq h f s
  | .stRel h f => Sys2Proof.Machine.execStRel h f s
  | .spn h f => Sys2Proof.Machine.execSpn h f s
  | .jwait h f => Sys2Proof.Machine.execJwait h f s
  | .dove h f => Sys2Proof.Machine.execDove h f s
  | .vnrUpd h f => Sys2Proof.Machine.execVnrUpd h f s
  | .vnrGet h f => Sys2Proof.Machine.execVnrGet h f s
  | .stlReq h f => Sys2Proof.Machine.execStlReq h f s
  | .cutNext h f => Sys2Proof.Machine.execCutNext h f s
  | .flmCfg h f => Sys2Proof.Machine.execFlmCfg h f s
  | .flmPush h f => Sys2Proof.Machine.execFlmPush h f s
  | .flmPop h f => Sys2Proof.Machine.execFlmPop h f s
  | .flmTry h f => Sys2Proof.Machine.execFlmTry h f s
  | .unknownCommand op c => Sys2Proof.Machine.execUnknownCommand op c s
  | .unusedTrafficDiscard bytes => Sys2Proof.Machine.execUnusedTrafficDiscard bytes s
  | .translationWalkComplete => Sys2Proof.Machine.execTranslationWalkComplete s
  | .backwaterRepeat => Sys2Proof.Machine.execBackwaterRepeat s
  | .bargeRegenerate => Sys2Proof.Machine.execBargeRegenerate s
  | .canalMemberLeave => Sys2Proof.Machine.execCanalMemberLeave s
  | .canalGroupForm => Sys2Proof.Machine.execCanalGroupForm s
  | .launchPost => Sys2Proof.Machine.execLaunchPost s
  | .launchAdmission => Sys2Proof.Machine.execLaunchAdmission s
  | .blockPlacement => Sys2Proof.Machine.execBlockPlacement s
  | .pondRelease => Sys2Proof.Machine.execPondRelease s
  | .eventRingDrain => Sys2Proof.Machine.execEventRingDrain s
  | .thermalTrip => Sys2Proof.Machine.execThermalTrip s
  | .moduleReset => Sys2Proof.Machine.execModuleReset s
  | .roceInvalidRequest => Sys2Proof.Machine.execRoceInvalidRequest s

end Sys2Proof.Machine
end

