-- ==== Sys2Proof/Machine/Schedule.lean ====
section
/-! DEFINITION. What happens next: the steps that a cycle's rules make due, the steps that the manual leaves unordered,
and what follows from every step at once. -/

namespace Sys2Proof.Machine

/-! ### Steps that may happen -/

/-- Steps at a cycle of their own, for one core: results that land (R34, R38), entry at a handler (R399), ends of threads
(R40), staged matrix blocks (R193), deadlines of waits and watchdog timers (R394). A step that is not due leaves the state as
it is. -/
def Core.due (k : Core) : List Instr :=
  [.fixedResultLanding k.num] ++
  ((k.flights.filter fun f => f.kind != .fixed && f.land.isSome).map fun f => .deferredResultLanding k.num f.id) ++
  (k.warps.flatMap fun w => w.threads.flatMap fun t => match t.run with
    | .parked _ => [.handlerEntry k.num w.uid t.lane]
    | .ending _ => [.threadEnd k.num w.uid t.lane]
    | _ => []) ++
  ((k.warps.filter fun w => w.mstage.isSome).map fun w => .mopfStaged k.num w.uid) ++
  (k.waits.flatMap fun g => match g.wait with
    | .count _ _ _ (some _) => [.fwaitTimeout k.num g.id]
    | .canal _ _ _ _ _ (some _) => [.canalWaitTimeout k.num g.id]
    | .leat _ _ (some _) => [.leatWaitTimeout k.num g.id]
    | _ => []) ++
  (k.waits.map fun g => .watchdogExpiry k.num g.id)

/-- The increments of a core's completed releases: they are made as soon as the release is complete, after the one of an instruction
issued in the cycle (R87, R88). -/
def Core.increments (k : Core) : List Instr := k.late.map fun a => .weirDeferredIncrement k.num a.id

/-- Steps that follow the issue of a cycle at once, for one core: the millrace's wave, else its refill (R351, R352). -/
def Core.must (k : Core) : List Instr := [.taskWaveForm k.num, .cisternRefill k.num]

/-- The save points of the module's contexts: whether a cycle is a save cycle stands at its beginning (R409, R410). -/
def Mod.savePoints (m : Mod) : List Instr := m.asids.map fun a => .savePoint a.num

/-- Steps of a core's engines, whose time the manual bounds from below only or leaves open. (log 8, DESIGN CHOICE) -/
def Core.mayDo (k : Core) : List Instr :=
  (if k.lineReqs.isEmpty then [] else [.lineFetchComplete k.num 0]) ++
  [.matrixOpComplete k.num, .matrixOpStart k.num] ++
  (k.sweeps.map fun x => .jigSweepChunk k.num x.warp) ++
  [.sluiceRequestStart k.num] ++
  (k.slq.flatMap fun r => r.chunks.map fun i => .sluiceChunkLanded k.num r.handle.toNat i) ++
  (k.blocks.map fun b => .blockEnd k.num b.slot) ++
  ((k.warps.filter (·.evicted)).map fun w => .warpRestore k.num w.uid) ++ [.warpEvict k.num]

/-- Steps of the module outside its cores. (log 1, DESIGN CHOICE; log 7, DESIGN CHOICE; log 8, DESIGN CHOICE) -/
def Mod.mayDo (m : Mod) : List Instr :=
  [.translationWalkComplete] ++
  (m.reqs.flatMap fun r => [.clusterWritePerform r.id, .remoteAccessServe r.id, .homeSliceAccess r.id]) ++
  [.fabricPacketArrival none, .fabricCompletionArrival none, .leatMessageArrival none, .leatGoNotice none] ++
  ((List.range 4).map fun d => .leatStep d) ++ (m.kids.map fun k => .veneerFold k.id) ++
  ((List.range (m.canal.q.length + m.canal.orphans.length)).map fun i => .canalReleaseEligible i) ++
  [.bargeRegenerate, .canalMemberLeave, .canalGroupForm] ++
  (m.shards.flatMap fun x => .shardDeadlineExpiry x.num :: x.chunks.map fun i => .sluiceChunkLanded 1024 x.num i) ++
  (m.asids.flatMap fun a => [.saveComplete a.num, .restoreStart a.num]) ++
  [.launchPost, .launchAdmission, .blockPlacement] ++
  ((m.launches.filter fun l => l.syncing).flatMap fun l => [.gridsyncStart l.handle true, .gridsyncStart l.handle false]) ++
  (m.launches.map fun l => .launchRetire l.handle) ++ [.pondRelease, .eventRingDrain] ++
  (m.marks.map fun k => .backwaterLapse k.peer) ++ [.backwaterRepeat] ++
  (m.sessions.map fun x => .sessionIdleTimeout x.num)

/-- Whether a step can happen: it changes the state. -/
def canHappen (s : State) (i : Instr) : Bool :=
  match exec i s with
  | .next t => t != s
  | _ => true

/-! ### What follows from a step at once -/

/-- The armed requests of a core's blocks whose threads and tasks have all ended are removed as by `sl.kill` (R82). -/
def Mod.dropArms (m : Mod) (c : Nat) : Mod :=
  let k := m.core c
  let idle := fun (x : Arm) => ((k.block? x.req.block).map (m.blockIdle c)).getD false
  if k.arms.any idle then
    m.onCore c fun k => (k.arms.filter idle).foldl (fun k a => k.slEnd a.req.handle 5 0) k
  else m

/-- Tasks that are complete are counted, armed requests of idle blocks removed, waits whose conditions hold end, and the words that follow the state are written
and posted: readiness (R343), batch frames (R340), errc and dropped (R382); refused leat messages that now have a place
are called for (R330). -/
def Mod.settle (m : Mod) : Mod :=
  let m := m.countKids
  let m := m.cores.foldl (fun m k => ((m.dropArms k.num).wakeCore k.num).noteConditions k.num) m
  let m := m.postReadiness.postBatches.ltRoom.reheat.markQueues.drainLinks
  m.launches.foldl (fun m l => m.tellTcb l.handle) m

/-- After a step: a bundle whose slots have all run ends (R31), and while no bundle is under way the module settles. -/
def settle (s : State) : State :=
  let t := finishIssue s
  match t.issue with
  | some _ => t
  | none => { t with now := t.now.settle }

/-- A step's outcome, settled. -/
def settleOut : Out → Out
  | .next s => .next (settle s)
  | .fault f => .fault f
  | .refused r => .refused r

/-! ### What happens next -/

/-- A word in a bundle that no encoding has: the illegal-instruction fault of the whole group (R21, R32). -/
def badWord (x : Issue) (w : BSlot) : Issue :=
  { x with todo := [], faults := x.group.map fun p =>
      { warp := p.1, lane := p.2, slot := w.num, cause := 2, detail := 0, whole := true } }

/-- The next slot of the bundle under way. -/
def stepSlot (s : State) (x : Issue) (w : BSlot) : Out :=
  match decodeSlot w.word with
  | .ok i => settleOut (exec i s)
  | .error _ => .next (settle { s with issue := some (badWord x w) })

/-- One cycle passes, once the groups whose join conditions have come to hold in it have woken, in warp-slot order (R361).
(log 12, DESIGN CHOICE) -/
def Mod.cycle (m : Mod) : Mod :=
  let m := m.cores.foldl (fun m k => (m.wakeJoins k.num).noteConditions k.num) m
  { m with clock := m.clock + 1, tick := m.tick + Config.ticksPerCycle m.board.clk }

/-- Whether a core has its issue cycle still before it in this cycle. -/
def Core.toIssue (k : Core) (clock : Nat) : Bool := k.issuedAt != clock

/-- Whether the issues of this cycle, and what follows them at once, are over. -/
def Mod.isOpen (m : Mod) : Bool := m.opened == m.clock + 1

/-- Whether this cycle's issues have not begun on any core. -/
def Mod.unissued (m : Mod) : Bool := m.cores.all fun k => k.toIssue m.clock

/-- What comes before every step of a free order: what is due; at the beginning of the cycle the save points, then each core's issue
cycle, then its wave or refill; and the increments of completed releases (R88, R144, R151, R410). Once a step of the free order has
been taken, no core issues and no wave forms in the cycle any more. (log 1, DESIGN CHOICE) -/
def State.first (s : State) : Option Instr :=
  let m := s.now
  let ready := fun (l : List Instr) => l.find? (canHappen s)
  let early := if m.isOpen then none else
    (if m.unissued then ready m.savePoints else none).orElse fun _ =>
      ((m.cores.find? fun k => k.toIssue m.clock).map fun k => Instr.issueCycle k.num).orElse fun _ =>
        ready (m.cores.flatMap fun k => k.increments ++ k.must)
  (ready (m.cores.flatMap Core.due)).orElse fun _ => early.orElse fun _ => ready (m.cores.flatMap Core.increments)

/-- Between bundles: a command whose turn has come (R426); then what comes first, if anything; then the free order takes the
next external object, one of the steps that can happen, or the end of the cycle. (log 1, DESIGN CHOICE) -/
def stepFree (s : State) : Out :=
  match s.now.turn, s.first with
  | i :: l, _ => settleOut (exec i { s with now := { s.now with turn := l } })
  | [], some i => settleOut (exec i s)
  | [], none =>
    let t : State := { s with now := { s.now with free := s.now.free + 1, opened := s.now.clock + 1 } }
    let may := (s.now.mayDo ++ s.now.cores.flatMap Core.mayDo).filter (canHappen t)
    let pick := Config.order s.now.free % (s.now.agenda.length.min 1 + may.length + 1)
    let other := fun (n : Nat) => match may[n]? with
      | some i => settleOut (exec i t)
      | none => .next { t with now := t.now.cycle }
    match s.now.agenda, pick with
    | i :: l, 0 => settleOut (exec i { t with now := { t.now with agenda := l } })
    | _ :: _, n + 1 => other n
    | [], n => other n

/-- Whether an event reaches a module that has no power or has halted in bring-up (R435, R437). -/
def reachesBoard : Instr → Bool
  | .boardMgmtRequest _ => true
  | .moduleReset => true
  | _ => false

/-- A module without power, or halted in bring-up: what is not for the board is lost; a halted module waits on, one
without power has no further step. -/
def stepBoard (s : State) : Out :=
  match s.now.agenda with
  | i :: l =>
    let t : State := { s with now := { s.now with agenda := l } }
    if reachesBoard i then exec i t else .next t
  | [] => if s.now.board.powered then .next { s with now := s.now.cycle } else .fault .noPower

/-- Whether the module has come up (R435). -/
def Mod.running (m : Mod) : Bool := m.board.powered && m.board.step == 6

/-- Where the next instruction of a new program stands: the head of the bundle under way. -/
def State.nextSlot (s : State) : Option (Issue × BSlot) :=
  match s.issue with
  | some x => match x.todo with
    | w :: _ => some (x, w)
    | [] => none
  | none => none

end Sys2Proof.Machine
end

