-- ==== Sys2Proof/Machine/Fetch.lean ====
section
/-! DEFINITION. A word made the next one to run: in the bundle under way, or in a bundle of a new launch of one block and
one warp on core 0; a longer word is a datagram that arrives from the host. -/

namespace Sys2Proof.Machine

/-- The record of the launch that stands for a loaded program: 16 lanes, every register, 4 KiB of scratchpad.
(log 13, DESIGN CHOICE) -/
def fetchRec : LRec :=
  { (default : LRec) with width := 16, vregs := 256, uregs := 512, blocks := 1, warps := 1, scratch := 4096 }

/-- The launch that stands for a loaded program. -/
def fetchLaunch (handle : Nat) : Launch :=
  { handle := handle, asid := 0, addr := 0, rec_ := fetchRec, status := 4, bind := 0, queuedAt := 0, placed := 0,
    ended := 0, go := true, inError := false, errc := 0, dropped := 0, framed := false, order := 0, told := (0, 0) }

/-- A module with a new launch of one block and one warp on core 0, at the head of a bundle of one slot.
(log 13, DESIGN CHOICE) -/
def Mod.withProgram (m : Mod) (word : Slot) : State :=
  let l := { fetchLaunch m.handles with evOpen := m.rings.any fun r => r.num == 0 }
  let w := m.next + 1
  let m := Mod.startBlock { m with launches := m.launches ++ [l], handles := m.handles + 1 } 0 l
  let m := m.onLaunch l.handle fun x => { x with placed := 1 }
  let lanes := ((m.warp? 0 w).map fun x => x.threads.map (·.lane)).getD []
  let rs := lanes.map fun i => ({ warp := w, lane := i, slot := 0, since := m.clock, tag := (0, false, false, 0) } : Ready)
  startBundle m 0 rs (0, false, false, 0)
    { slots := [{ num := 0, word := word }], named := [], instrs := [], badSlot := none, nextPc := fallThrough 0 0,
      stall := (Hdr.of word).stall.toNat, bound := warpBound word, port := usesPort word }

/-- A state in which the next step runs a word: the head of the bundle under way is replaced, or a program is loaded; the
module has come up. (log 13, DESIGN CHOICE) -/
def State.withWord (s : State) (nbits w : Nat) : State :=
  let m := { s.now with board := { s.now.board with step := 6, powered := true } }
  if 96 < nbits then
    match decodeDatagram (leBytes (nbits / 8) w) with
    | .ok i => { now := { m with turn := i :: m.turn }, issue := none }
    | .error .badLength => { now := { m with counters := { m.counters with port := m.counters.port + 1 } }, issue := none }
    | .error _ => { now := m, issue := none }
  else
    let word : Slot := BitVec.ofNat 96 w
    match s.nextSlot with
    | some (x, t) => { now := m, issue := some { x with todo := { t with word := word } :: x.todo.drop 1 } }
    | none => m.withProgram word

end Sys2Proof.Machine
end

