-- ==== Sys2Proof/Machine/Step.lean ====
section
/-! DEFINITION. One step of the machine, and the state in which the next step runs a given word. -/

namespace Sys2Proof.Machine

/-- One step: the next slot of the bundle under way; between bundles a command whose turn has come, a due step, an issue
cycle, or what the free order takes: an external object, a step that can happen, or the passing of a cycle. -/
def step (s : State) : Host.Outcome State Fault Refusal :=
  if !s.now.running then stepBoard s
  else match s.nextSlot with
    | some (x, w) => stepSlot s x w
    | none => stepFree s

/-- The state with a word in the bundle that the next step goes on with: a slot of a resident warp when the bits fit
one, else a host datagram that arrives. -/
def State.withFetchWord (s : State) (nbits w : Nat) : State := s.withWord nbits w

end Sys2Proof.Machine
end

