-- ==== Sys2Proof/Safety.lean ====
section
/-! DEFINITION. What claims about the machine are stated in: the canonical form of every memory, a bundle that is whole,
the slot that runs next, results on their way to registers, and what an instruction leaves alone. -/

namespace Sys2Proof.Claims

open Machine

/-! ### Invariants -/

/-- Every memory of a module is in canonical form: device memory, the pools of its cores, and what saved contexts keep of
them. -/
def Canonical (m : Mod) : Prop :=
  m.dram.wf = true ∧ (∀ k ∈ m.cores, k.sram.wf = true) ∧
  ∀ v ∈ m.saved, ∀ k ∈ v.cores, (∀ p ∈ k.scratch, p.2.wf = true) ∧ ∀ p ∈ k.acc, p.2.1.wf = true

/-- Every memory of a state is in canonical form, also those of the module that a bundle under way began with. -/
def CanonicalState (s : State) : Prop := Canonical s.now ∧ ∀ x, s.issue = some x → Canonical x.before

/-- A bundle under way holds one to five slots (R16), and the slots still to run are its last ones. -/
def Whole (x : Issue) : Prop := 1 ≤ x.slots.length ∧ x.slots.length ≤ 5 ∧ ∃ ran, x.slots = ran ++ x.todo

/-- What every step keeps: the canonical form of every memory, and the form of a bundle under way. -/
def Kept (s : State) : Prop := CanonicalState s ∧ ∀ x, s.issue = some x → Whole x

/-! ### The slot that runs next -/

/-- Slot t is the next of bundle x to run, before the slots ts. -/
def AtSlot (s : State) (x : Issue) (t : BSlot) (ts : List BSlot) : Prop := s.issue = some x ∧ x.todo = t :: ts

/-- The bundle once slot t has been taken off its list. -/
def past (x : Issue) (t : BSlot) (ts : List BSlot) : Issue := { x with todo := ts, cur := t.num }

/-- The threads (warp, lane) for which a per-thread instruction acts in a bundle (R19, R31). -/
def threadsOf (x : Issue) (h : Hdr) : List (Nat × Nat) := x.active false h

/-- A warp-level instruction acts for the lanes ls of warp w (R31, R66). -/
def ActsFor (x : Issue) (h : Hdr) (w : Nat) (ls : List Nat) : Prop :=
  ls ≠ [] ∧ x.active true h = ls.map fun l => (w, l)

/-! ### Results on their way to registers -/

/-- A fixed-latency result: the threads of a warp that issue it, the register (file 0 vector, 1 predicate, 2 uniform, 3
trap register), the value and the latency (R34). -/
structure Result where
  warp : Nat
  lanes : List Nat
  file : Nat
  n : Nat
  dest : Dest
  val : W64
  lat : Nat

/-- A result for a vector register of a thread. -/
def inV (p : Nat × Nat) (n : Nat) (val : W32) (lat : Nat) : Result :=
  { warp := p.1, lanes := [p.2], file := 0, n := n, dest := .v p.1 p.2 n, val := val.setWidth 64, lat := lat }

/-- A result for a predicate of a thread. -/
def inQ (p : Nat × Nat) (n : Nat) (val : Bool) (lat : Nat) : Result :=
  { warp := p.1, lanes := [p.2], file := 1, n := n, dest := .q p.1 p.2 n, val := if val then 1 else 0, lat := lat }

/-- A result for a uniform register, issued by a group. -/
def inS (x : Issue) (w n : Nat) (val : W64) (lat : Nat) : Result :=
  { warp := w, lanes := x.lanes w, file := 2, n := n, dest := .s w n, val := val, lat := lat }

/-- No earlier result of the threads lands in the register as late as this one: the write is not undersized (R35). -/
def Unhurried (m : Mod) (c : Nat) (r : Result) : Prop :=
  ∀ l ∈ r.lanes, ∀ t, m.thread? c r.warp l = some t →
    ∀ e ∈ t.recent, e.file = r.file → e.n = r.n → e.at_ + e.lat < t.sched + r.lat

/-- A result stands in a core's pipes, the last of those that land in its register in that cycle: the register reads it from
its landing cycle on (R34). -/
def Stands (fl : List Flight) (r : Result) (land : Nat) : Prop :=
  ∃ a f b, fl = a ++ f :: b ∧ f.dest = r.dest ∧ f.kind = .fixed ∧ f.val = r.val ∧ f.land = some land ∧ f.lanes = r.lanes ∧
    ∀ g ∈ b, g.dest = r.dest → g.kind = .fixed → g.land ≠ some land

/-- A result stands in the pipes of core c. -/
def Pending (m : Mod) (c : Nat) (r : Result) (land : Nat) : Prop := Stands (m.core c).flights r land

/-- A thread without what it remembers of its results in the pipes (R35). -/
def bareThread (t : Thread) : Thread := { t with recent := [] }

/-- A warp without what its threads remember of results in the pipes. -/
def bareWarp (w : Warp) : Warp := { w with threads := w.threads.map bareThread }

/-- A core without the fixed-latency results of its pipes and without what its threads remember of them. -/
def bare (k : Core) : Core :=
  { k with flights := k.flights.filter fun f => f.kind != .fixed, warps := k.warps.map bareWarp }

/-- A module without its cores. -/
def outside (m : Mod) : Mod := { m with cores := [] }

/-- Of a module nothing changes but fixed-latency results on their way to registers among ds of core c: every register,
byte of memory, flag and engine stands. -/
def OnlyResults (m m' : Mod) (c : Nat) (ds : List Dest) : Prop :=
  outside m' = outside m ∧ (∀ d, bare (m'.core d) = bare (m.core d)) ∧
  (∀ d, d ≠ c → m'.core d = m.core d) ∧
  ∀ f, f.dest ∉ ds → (f ∈ (m'.core c).flights ↔ f ∈ (m.core c).flights)

/-- The slot has run, and its only effect are the results rs: each is on its way, at its latency, unless an undersized
write leaves it open (R34, R35). -/
def Gives (s : State) (x : Issue) (t : BSlot) (ts : List BSlot) (rs : List Result) (u : State) : Prop :=
  u.issue = some (past x t ts) ∧ OnlyResults s.now u.now x.core (rs.map (·.dest)) ∧
  ∀ r ∈ rs, Unhurried s.now x.core r → Pending u.now x.core r (s.now.clock + r.lat)

end Sys2Proof.Claims
end

