-- ==== Sys2Proof/Safety/Values.lean ====
section
/-! DEFINITION. What the instructions that only give register results compute, written from the rules' own formulas over
words of a type's width: rows of an instruction, its latency and its value. -/

namespace Sys2Proof.Claims

open Machine

/-! ### Words of a type's width (R68, R100) -/

/-- A word of the type's width extended by the type's signedness. -/
def widen (t n : Nat) {w : Nat} (r : BitVec w) : BitVec n := if signed t then r.signExtend n else r.setWidth n

/-- Whether x is below y in the type's order. -/
def below (t : Nat) {w : Nat} (x y : BitVec w) : Bool := if signed t then x.slt y else x.ult y

/-- The two-source operations of R68 at the width of their words. -/
def alu (op : IntOp) (t : Nat) {w : Nat} (x y : BitVec w) : BitVec w :=
  match op with
  | .add => x + y
  | .sub => x - y
  | .mul => x * y
  | .mulh => ((widen t (2 * w) x) * (widen t (2 * w) y)).extractLsb' w w
  | .div => if y = 0 then BitVec.allOnes w else if signed t then x.sdiv y else x / y
  | .rem => if y = 0 then x else if signed t then x.srem y else x % y
  | .and => x &&& y
  | .or => x ||| y
  | .xor => x ^^^ y
  | .shl => if w ≤ y.toNat then 0 else x <<< y.toNat
  | .shr => if w ≤ y.toNat then 0 else x >>> y.toNat
  | .sra => if w ≤ y.toNat then (if x.msb then BitVec.allOnes w else 0)
      else if signed t then x.sshiftRight y.toNat else x >>> y.toNat
  | .min => if below t y x then y else x
  | .max => if below t x y then y else x

/-- The integer conditions of R54 on words of a type. -/
def holds (c t : Nat) {w : Nat} (x y : BitVec w) : Bool :=
  match c with
  | 0 => x == y
  | 1 => x != y
  | 2 => below t x y
  | 3 => !below t y x
  | 4 => below t y x
  | 5 => !below t x y
  | _ => false

/-- The one-source operations of R103. -/
inductive UnOp where
  | not | abs | neg | popc | clz | brev
deriving DecidableEq, Repr

/-- Their results at the width of the word. -/
def unary (op : UnOp) (t : Nat) {w : Nat} (x : BitVec w) : BitVec w :=
  match op with
  | .not => ~~~x
  | .abs => if signed t && x.msb then -x else x
  | .neg => -x
  | .popc => BitVec.ofNat w ((List.range w).countP fun i => x.getLsbD i)
  | .clz => BitVec.ofNat w (if x = 0 then w else w - 1 - Nat.log2 x.toNat)
  | .brev => x.reverse

/-- The low `len` bits set, from bit `pos` on. -/
def fieldMask (w pos len : Nat) : BitVec w := (BitVec.ofNat w (2 ^ len - 1)) <<< pos

/-! ### Uniform instructions (R67 to R70) -/

/-- Operand b of a uniform instruction (R68). -/
def uniformB (x : Issue) (f : FmtV) (w : Nat) : W64 :=
  if f.bk = 0b10 then f.imm16.signExtend 64 else x.s w f.b.toNat

/-- The fourteen two-source uniform operations. -/
def uniformRows : List ((Hdr → FmtV → Instr) × IntOp) :=
  [(.sadd, .add), (.ssub, .sub), (.smul, .mul), (.smulh, .mulh), (.sdiv, .div), (.srem, .rem), (.sand, .and),
   (.sor, .or), (.sxor, .xor), (.sshl, .shl), (.sshr, .shr), (.ssra, .sra), (.smin, .min), (.smax, .max)]

/-- The result of R68 on two uniform registers. -/
def uniformValue (op : IntOp) (t : Nat) (a b : W64) : W64 :=
  widen t 64 (alu op t (a.setWidth (tyWidth t)) (b.setWidth (tyWidth t)))

/-- Whether `scmp`'s condition holds (R70). -/
def uniformHolds (minor : BitVec 8) (a b : W64) : Bool :=
  let t := minor.toNat % 16
  holds (minor.toNat / 16) t (a.setWidth (tyWidth t)) (b.setWidth (tyWidth t))

/-! ### Vector operands and results (R100) -/

/-- The type code in the low half of a minor field. -/
def typeOf (f : FmtV) : Nat := f.minor.toNat % 16

/-- A vector operand at a type's width: a register, or an even pair for 64 bits. -/
def operand (x : Issue) (p : Nat × Nat) (t n : Nat) : BitVec (tyWidth t) :=
  if tyWidth t = 64 then ((x.v p.1 p.2 (n + 1)) ++ (x.v p.1 p.2 n)).setWidth _ else (x.v p.1 p.2 n).setWidth _

/-- Operand b: a vector register, a uniform register, or the sign-extended immediate. -/
def operandB (x : Issue) (p : Nat × Nat) (f : FmtV) (t : Nat) : BitVec (tyWidth t) :=
  if f.bk = 0b00 then operand x p t f.b.toNat
  else if f.bk = 0b01 then (x.s p.1 f.b.toNat).setWidth _
  else (f.imm16.signExtend 64).setWidth _

/-- A value of a type written to register n of a thread, or to the pair n, n + 1. -/
def written (p : Nat × Nat) (n t lat : Nat) (r : BitVec (tyWidth t)) : List Result :=
  if tyWidth t = 64 then
    [inV p n ((r.setWidth 64).extractLsb' 0 32) lat, inV p (n + 1) ((r.setWidth 64).extractLsb' 32 32) lat]
  else [inV p n (if t < 8 then widen t 32 r else r.setWidth 32) lat]

/-- The threads on which a format V instruction acts: with a uniform operand b it is warp-level (R57). -/
def actsOn (x : Issue) (h : Hdr) (f : FmtV) : List (Nat × Nat) := x.active (f.bk == 0b01) h

/-- The vector integer instructions of R103 with a register result: the value in one thread. -/
def vectorIntRows : List ((Hdr → FmtV → Instr) × ((f : FmtV) → Issue → Nat × Nat → BitVec (tyWidth (typeOf f)))) :=
  let two := fun (op : IntOp) (f : FmtV) (x : Issue) (p : Nat × Nat) =>
    alu op (typeOf f) (operand x p (typeOf f) f.a.toNat) (operandB x p f (typeOf f))
  let one := fun (op : UnOp) (f : FmtV) (x : Issue) (p : Nat × Nat) =>
    unary op (typeOf f) (operand x p (typeOf f) f.a.toNat)
  [(.vadd, two .add), (.vsub, two .sub), (.vmulLo, two .mul), (.vmulHi, two .mulh), (.vand, two .and), (.vor, two .or),
   (.vxor, two .xor), (.vshl, two .shl), (.vshr, two .shr), (.vsra, two .sra), (.vmin, two .min), (.vmax, two .max),
   (.vnot, one .not), (.vabs, one .abs), (.vneg, one .neg), (.vpopc, one .popc), (.vclz, one .clz), (.vbrev, one .brev),
   (.vmad, fun f x p => operand x p (typeOf f) f.a.toNat * operandB x p f (typeOf f) + operand x p (typeOf f) f.c.toNat),
   (.vbfe, fun f x p => widen (typeOf f) _
      (((operand x p (typeOf f) f.a.toNat) >>> (f.aux.toNat % 64)).setWidth (f.aux.toNat / 64))),
   (.vbfi, fun f x p =>
      let m := fieldMask (tyWidth (typeOf f)) (f.aux.toNat % 64) (f.aux.toNat / 64)
      (operandB x p f (typeOf f) &&& ~~~m) ||| ((operand x p (typeOf f) f.a.toNat <<< (f.aux.toNat % 64)) &&& m)),
   (.vsel, fun f x p => if xor (x.q p.1 p.2 (f.aux.toNat % 8)) (f.aux.getLsbD 3)
      then operand x p (typeOf f) f.a.toNat else operandB x p f (typeOf f)),
   (.vmov, fun f x p => operandB x p f (typeOf f))]

/-- The result of a compare: the predicate, unless it is q0, and the register of the second form (R104). -/
def compared (p : Nat × Nat) (f : FmtV) (r : Bool) : List Result :=
  (if f.qd = 0 then [] else [inQ p f.qd.toNat r 4]) ++ (if f.aux = 1 then [inV p f.d.toNat (if r then 1 else 0) 4] else [])

/-! ### Vector float instructions (R105 to R112) -/

/-- A binary32 operand as an exact value (R165). -/
def num32 (x : W32) : Machine.Num := unF f32 x.toNat

/-- A binary32 result: `round_ne(x, f32)` (R172). -/
def round32 (x : Machine.Num) : W32 := BitVec.ofNat 32 (roundNe f32 x)

/-- One half of a packed word. -/
def half (x : W32) (i : Nat) : Nat := (x.extractLsb' (16 * i) 16).toNat

/-- The packed fused multiply-add of R106. -/
def packedFma (f : FFmt) (a b c : W32) : W32 :=
  let r := fun i => BitVec.ofNat 16 (roundNe f (((unF f (half a i)).mul (unF f (half b i))).add (unF f (half c i))))
  r 1 ++ r 0

/-- The smaller or larger of two binary32 words, −0 below +0 and a NaN giving way (R107). -/
def extremum (larger : Bool) (a b : W32) : W32 :=
  match (num32 a).isNan, (num32 b).isNan with
  | true, true => 0x7FC00000
  | true, false => b
  | false, true => a
  | false, false => if larger then (if (num32 a).below (num32 b) then b else a)
      else if (num32 b).below (num32 a) then b else a

/-- The float instructions of one 32-bit register result: latency, and value of operands a, b and c. -/
def vectorFloatRows : List ((Hdr → FmtV → Instr) × Nat × (FmtV → W32 → W32 → W32 → W32)) :=
  [(.vfadd, 6, fun _ a b _ => round32 ((num32 a).add (num32 b))),
   (.vfsub, 6, fun _ a b _ => round32 ((num32 a).add (num32 b).neg)),
   (.vfmul, 6, fun _ a b _ => round32 ((num32 a).mul (num32 b))),
   (.vffma, 6, fun _ a b c => round32 (((num32 a).mul (num32 b)).add (num32 c))),
   (.vfmin, 4, fun _ a b _ => extremum false a b),
   (.vfmax, 4, fun _ a b _ => extremum true a b),
   (.vfabs, 4, fun _ a _ _ => if (num32 a).isNan then 0x7FC00000 else a &&& 0x7FFFFFFF),
   (.vfneg, 4, fun _ a _ _ => if (num32 a).isNan then 0x7FC00000 else a ^^^ 0x80000000),
   (.vhfmaBf16x2, 6, fun _ a b c => packedFma (ffmt 9) a b c),
   (.vhfmaF16x2, 6, fun _ a b c => packedFma (ffmt 8) a b c),
   (.vunpk, 6, fun f a _ _ =>
      let t := f.minor.toNat / 16
      let n := if t = 14 ∨ t = 15 then 16 else 8
      round32 (unF (ffmt t) (a.toNat / 2 ^ (n * f.aux.toNat) % 2 ^ n)))]

/-- The binary64 instructions: the value of operands a, b and c, from and to register pairs, at 10 c. -/
def vectorDoubleRows : List ((Hdr → FmtV → Instr) × (Machine.Num → Machine.Num → Machine.Num → Machine.Num)) :=
  [(.vdadd, fun a b _ => a.add b), (.vdmul, fun a b _ => a.mul b), (.vdffma, fun a b c => (a.mul b).add c)]

/-- The special functions of R111, at 14 c. -/
def specialRows : List ((Hdr → FmtV → Instr) × (Nat → Nat → Nat)) :=
  [(.vrcp, fun a _ => fRcp a), (.vrsq, fun a _ => fRsq a), (.vsqrt, fun a _ => fSqrt a), (.vdiv, fDiv),
   (.vexp2, fun a _ => fExp2 a), (.vlog2, fun a _ => fLog2 a), (.vsin, fun a _ => fSin a), (.vcos, fun a _ => fCos a)]

/-! ### Cross-lane instructions (R113 to R119) -/

/-- The relative lane of a lane in a warp of a width (R113). -/
def relative (width l : Nat) : Nat := l % width

/-- The shuffles: the relative lane that a selector names from a relative lane; an integer, since it may fall outside the
warp (R114). -/
def shuffleRows : List ((Hdr → FmtV → Instr) × (Nat → Nat → Int)) :=
  [(.vshflIdx, fun _ k => k), (.vshflUp, fun i k => (i : Int) - k), (.vshflDown, fun i k => i + k),
   (.vshflXor, fun i k => Int.ofNat (i ^^^ k)), (.vbcast, fun _ k => k)]

/-- The results of a shuffle in one lane: the value of the active lane named, or the thread's own, and whether there is
one (R114). -/
def shuffled (x : Issue) (f : FmtV) (w : Nat) (ls : List Nat) (name : Nat → Nat → Int) (l : Nat) : List Result :=
  let width := x.before.widthOf x.core w
  let j := name (relative width l) (operandB x (w, l) f 6).toNat
  let from_ := ls.find? fun k => decide (Int.ofNat (relative width k) = j) && decide (j < width)
  inV (w, l) f.d.toNat (x.v w (from_.getD l) f.a.toNat) 6 ::
    if f.qd = 0 then [] else [inQ (w, l) f.qd.toNat from_.isSome 6]

/-- The votes of the active lanes (R119). -/
def vote (x : Issue) (f : FmtV) (w l : Nat) : Bool := xor (x.q w l (f.aux.toNat % 8)) (f.aux.getLsbD 3)

/-- Bit i of a ballot: whether the thread at relative lane i is active and votes 1 (R119). -/
def ballotBit (x : Issue) (f : FmtV) (w : Nat) (ls : List Nat) (i : Nat) : Bool :=
  ls.any fun l => decide (relative (x.before.widthOf x.core w) l = i) && vote x f w l

/-- The fold of two values by an operation code of R115, at a type code. -/
def combine (op t : Nat) (a b : W32) : W32 :=
  match op with
  | 0 => if t = 10 then round32 ((num32 a).add (num32 b)) else a + b
  | 1 => if t = 10 then extremum false a b else alu .min t a b
  | 2 => if t = 10 then extremum true a b else alu .max t a b
  | 5 => a &&& b
  | 6 => a ||| b
  | _ => a ^^^ b

/-- The value that a fold over no lane gives, and from which one over some lanes starts (R115); the `.f32` minimum and
maximum skip lanes, so that a fold over some lanes starts from a NaN, which gives way. -/
def startOf (op t : Nat) (none_ : Bool) : W32 :=
  match op with
  | 0 => if t = 10 then 0x80000000 else 0
  | 1 => if t = 10 then (if none_ then 0x7F800000 else 0x7FC00000) else if t = 2 then 0x7FFFFFFF else 0xFFFFFFFF
  | 2 => if t = 10 then (if none_ then 0xFF800000 else 0x7FC00000) else if t = 2 then 0x80000000 else 0
  | 5 => 0xFFFFFFFF
  | _ => 0

/-- The fold over the values of some lanes, in order. -/
def folded (op t : Nat) (vs : List W32) : W32 := vs.foldl (combine op t) (startOf op t vs.isEmpty)

/-- The butterfly of R116 after n doublings, at relative lane i. -/
def butterflyAt (x : Nat → W32) : Nat → Nat → W32
  | 0, i => x i
  | n + 1, i => round32 ((num32 (butterflyAt x n (min i (i ^^^ 2 ^ n)))).add (num32 (butterflyAt x n (max i (i ^^^ 2 ^ n)))))

/-- Whether a value ranks before another for `minidx`, or `maxidx` (R117): a NaN ranks behind every number. -/
def ranksFirst (larger : Bool) (t : Nat) (a b : W32) : Bool :=
  if t = 10 then !(num32 a).isNan && ((num32 b).isNan ||
    (if larger then (num32 b).below (num32 a) else (num32 a).below (num32 b)))
  else if larger then below t b a else below t a b

end Sys2Proof.Claims
end

