-- ==== Sys2Proof/Safety/Access.lean ====
section
/-! DEFINITION. What a memory access does, in the terms of claims: the checks of R71 and R121, the passes of R39, bytes
read and stored, and what a store leaves alone. -/

namespace Sys2Proof.Claims

open Machine

/-! ### Checks and lanes -/

/-- The fault of a scratchpad access of n bytes at ea: 0x07 when it is not aligned on its size, 0x08 when it passes the
allocation's size (R71, R121). -/
def causeAt (ea n size : Nat) : Option Nat := if ea % n ≠ 0 then some 0x07 else if size < ea + n then some 0x08 else none

/-- The threads of a list that no fault turns away. -/
def passing (ps : List (Nat × Nat)) (cause : Nat × Nat → Option Nat) : List (Nat × Nat) :=
  ps.filter fun p => (cause p).isNone

/-- The bundle past slot t, with a fault for every thread that is turned away (R31). -/
def turned (x : Issue) (t : BSlot) (ts : List BSlot) (whole : Bool) (ps : List (Nat × Nat))
    (cause : Nat × Nat → Option Nat) : Issue :=
  { past x t ts with faults := x.faults ++ ps.filterMap fun p => (cause p).map fun k =>
      { warp := p.1, lane := p.2, slot := t.num, cause := k, detail := 0, whole := whole } }

/-- The bundle after n more passes of its core's port (R122). -/
def Taken (y : Issue) (n : Nat) : Issue := { y with passes := y.passes + n }

/-- The module once a bundle's accesses hold the port of core c for n passes from this cycle on (R39). -/
def afterPort (m : Mod) (c n : Nat) : Mod :=
  Mod.onCore { m with free := m.free + 1 } c fun k => { k with portFree := m.clock + n }

/-! ### Bytes -/

/-- n bytes of core c's pool from address a on, as a little-endian number. -/
def poolWord (m : Mod) (c a n : Nat) : Nat := leNat ((m.core c).sram.readN a n)

/-- n bytes from address a on of a memory seen as a function. -/
def wordAt (mem : Nat → Byte) (a n : Nat) : Nat := leNat ((List.range n).map fun i => mem (a + i))

/-- The memory after bytes are stored from address a on. -/
def storedAt (mem : Nat → Byte) (a : Nat) (bs : List Byte) : Nat → Byte :=
  fun y => if a ≤ y ∧ y < a + bs.length then bs.getD (y - a) 0 else mem y

/-- No store of a matrix unit is outstanding: no byte of a pool reads as undefined to an engine (R198). -/
def NoMatrixStores (m : Mod) : Prop := ∀ k ∈ m.cores, k.storing = []

/-- No store of a matrix unit is outstanding, and no leat run: no byte of a pool reads as undefined (R198, R333). -/
def NoStores (m : Mod) : Prop := NoMatrixStores m ∧ m.leat.hot = []

/-- The threads ps of core c have acquired the completion of every store of the matrix unit that has ended (R197, R198). -/
def Known (m : Mod) (c : Nat) (ps : List (Nat × Nat)) : Prop :=
  ∀ p ∈ ps, ∀ k ∈ m.cores, ∀ d ∈ k.mdone, d.spans = [] ∨ m.afterDone d (c, p.1, p.2) = true

/-- n bytes of core c's pool that no store of the matrix unit and no leat run is writing, as far as the threads ps know: they read
what stands there (R198, R333). -/
def Steady (m : Mod) (c : Nat) (ps : List (Nat × Nat)) (a n : Nat) : Prop :=
  m.readBy (ps.map fun p => (c, p.1, p.2)) c a n = (m.core c).sram.readN a n

/-- No write that the threads ps have issued or observed is still to be performed on the bytes of core c's pool that they
access, each in runs of pool address and length (R296, R304). -/
def Settled (m : Mod) (c : Nat) (ps : List (Nat × Nat)) (runs : Nat × Nat → List (Nat × Nat)) : Prop :=
  ∀ p ∈ ps, ∀ r ∈ runs p, m.mustWait c p.1 p.2 r.1 r.2 = false

/-- No veneer view is in use on core c: no byte of its pool is held (R357); and no leat run is outstanding (R333). -/
def NoViews (m : Mod) (c : Nat) : Prop := (∀ b ∈ (m.core c).blocks, b.viewsUsed = []) ∧ m.leat.hot = []

/-! ### Passes (R39, R122, R127) -/

/-- What a thread leaves for later passes of the port: the pass, the pool address, and what is done there. -/
abbrev Rest := List (Nat × Nat × PassOp)

/-- The module once threads have left accesses to later passes, each with a number of its own and its cycle; acquiring ones
acquire after that. -/
def taking (m : Mod) (c : Nat) (acq : Bool) (l : List ((Nat × Nat) × Rest)) : Mod :=
  l.foldl (fun m q =>
    let blk := ((m.warp? c q.1.1).map (·.block)).getD 0
    let next : Mod := { m with next := m.next + q.2.length }
    let n := next.onCore c fun k => { k with passes := k.passes ++ q.2.zipIdx.map fun r =>
      { id := m.next + r.2, block := blk, warp := q.1.1, at_ := m.clock + r.1.1, addr := r.1.2.1, what := r.1.2.2 } }
    if acq then n.onThread c q.1.1 q.1.2 fun t => { t with seen := n.next } else n) m

/-- The module once an access of warp w has left one thing to the pass n cycles from now (R39, R122). -/
def latePass (m : Mod) (c w n a : Nat) (what : PassOp) : Mod := taking m c false [((w, 0), [(n, a, what)])]

/-- What has a pass of its own behind the first. -/
def behind (l : Rest) : Rest := l.filter fun r => r.1 != 0

/-- What a transposing load of elements of b bytes reads again in later passes: element r of a thread lies at a r, in the b bytes
from byte b · r of its registers on (R123). -/
def transposedAgain (pass : Nat → Nat) (p : Nat × Nat) (d b : Nat) (a : Nat → Nat) : Rest :=
  behind ((List.range 4).flatMap fun r =>
    let n := d + b * r / 4
    if b = 8 then [(pass (a r / 8), a r, .load 4 6 (.v p.1 p.2 n) 0 32), (pass (a r / 8), a r + 4, .load 4 6 (.v p.1 p.2 (n + 1)) 0 32)]
    else [(pass (a r / 8), a r, .load b 7 (.v p.1 p.2 n) (8 * (b * r % 4)) (8 * b))])

/-- The threads of an access in which every lane counts by itself, each with its pass (R127). -/
def eachPass (start n : Nat) (at_ : Nat × Nat → Nat) : List (Nat × Nat) → List Nat → List ((Nat × Nat) × Nat)
  | [], _ => []
  | p :: ps, earlier => (p, start + passAfter earlier (at_ p / 8)) :: eachPass start n at_ ps (earlier ++ wordsOf (at_ p) n)

/-- What a load of n bytes at pool address a into the registers of a thread from d on reads again in later passes: an element
of type t below 32 bits, or four bytes to a register. -/
def readsAgain (pass : Nat → Nat) (p : Nat × Nat) (d a n t : Nat) : Rest :=
  behind (if n < 4 then [(pass (a / 8), a, .load n t (.v p.1 p.2 d) 0 32)]
    else (List.range (n / 4)).map fun i => (pass ((a + 4 * i) / 8), a + 4 * i, .load 4 6 (.v p.1 p.2 (d + i)) 0 32))

/-- The parts of bytes stored at ea, each within a word: address and bytes. -/
def partsOf (at_ : Nat → Nat) (ea : Nat) (bs : List Byte) : List (Nat × List Byte) :=
  (wordParts ea bs.length).map fun q => (at_ (ea + q.1), (bs.drop q.1).take q.2)

/-- What a store leaves to later passes. -/
def storesAgain (pass : Nat → Nat) (l : List (Nat × List Byte)) : Rest :=
  behind (l.map fun q => (pass (q.1 / 8), q.1, .store q.2))

/-- The parts that a store writes at once. -/
def storesNow (pass : Nat → Nat) (l : List (Nat × List Byte)) : List (Nat × List Byte) :=
  l.filter fun q => pass (q.1 / 8) == 0

/-! ### Register results of a load -/

/-- Results over a module that has changed otherwise: each lands `extra` cycles after its latency (R39, R122). -/
def GivesOver (s : State) (base : Mod) (y : Issue) (extra : Nat) (rs : List Result) (u : State) : Prop :=
  u.issue = some y ∧ OnlyResults base u.now y.core (rs.map (·.dest)) ∧
  ∀ r ∈ rs, Unhurried s.now y.core r → Pending u.now y.core r (s.now.clock + r.lat + extra)

/-- The registers that elements of type t loaded from n bytes of a pool are delivered to: an element below 32 bits is
extended into one register, others fill registers of four bytes each (R100, R121). -/
def loaded (m : Mod) (c : Nat) (p : Nat × Nat) (d t a n lat : Nat) : List Result :=
  if tyWidth t < 32 then [inV p d (widen t 32 (BitVec.ofNat (tyWidth t) (poolWord m c a n))) lat]
  else (List.range (n / 4)).map fun i => inV p (d + i) (BitVec.ofNat 32 (poolWord m c (a + 4 * i) 4)) lat

/-! ### Stores -/

/-- A module without its cores, and without what its copies and its leat runs learn of a write (R228, R326). -/
def beyond (m : Mod) : Mod :=
  { outside m with
    fabOps := m.fabOps.map fun o => { o with taint := [], newer := [] },
    leat := { m.leat with ctxs := m.leat.ctxs.map fun x => { x with met := false } } }

/-- A core without what its engines remember of writes to the pools while they run (R198, R205). -/
def calm (k : Core) : Core :=
  { k with
    mq := k.mq.map fun o => { o with taint := [] },
    warps := k.warps.map fun w => { w with mstage := w.mstage.map fun g => { g with taint := [] } },
    sweeps := k.sweeps.map fun g => { g with taint := [] } }

/-- A core without its pool, and without what its waits, armed requests, sluice queue and cisterns learn of a write (R93,
R215, R230, R347). -/
def quiet (k : Core) : Core :=
  { calm k with
    sram := [], waits := k.waits.map fun g => { g with met := none, timers := [] }, arms := [], slq := [],
    blocks := k.blocks.map fun b => { b with cistern := b.cistern.map fun t => { t with wild := false } } }

/-- Of a module nothing changes but the bytes of core c's pool, which read as `new` says. -/
def Writes (m m' : Mod) (c : Nat) (new : Nat → Byte) : Prop :=
  beyond m' = beyond m ∧ (∀ d, quiet (m'.core d) = quiet (m.core d)) ∧
  (∀ d, d ≠ c → calm (m'.core d) = calm (m.core d)) ∧ ∀ a, (m'.core c).sram.read a = new a

/-- The slot has run over the module `base`: results rs are on their way, the bytes of core c's pool that `new` names are
stored, and every other byte of memory, register, flag and engine stands. -/
def Does (s : State) (base : Mod) (y : Issue) (extra : Nat) (rs : List Result) (new : Nat → Byte) (u : State) : Prop :=
  u.issue = some y ∧ beyond u.now = beyond base ∧ (∀ d, quiet (bare (u.now.core d)) = quiet (bare (base.core d))) ∧
  (∀ d, d ≠ y.core → calm (u.now.core d) = calm (base.core d)) ∧
  (∀ a, (u.now.core y.core).sram.read a = new a) ∧
  (∀ f, f.dest ∉ rs.map (·.dest) → (f ∈ (u.now.core y.core).flights ↔ f ∈ (base.core y.core).flights)) ∧
  ∀ r ∈ rs, Unhurried s.now y.core r → Pending u.now y.core r (s.now.clock + r.lat + extra)

/-- The bytes of a thread's registers from number d on, four a register. -/
def regBytes (x : Issue) (p : Nat × Nat) (d n : Nat) : List Byte :=
  (List.range n).map fun i => (x.v p.1 p.2 (d + i / 4)).extractLsb' (8 * (i % 4)) 8

/-- A pool after runs of bytes have been stored one after the other, those of threads in lane order: where two store the same
byte, the later one's stands (R121). -/
def afterStores (l : List (Nat × List Byte)) (mem : Nat → Byte) : Nat → Byte :=
  l.foldl (fun mem q => storedAt mem q.1 q.2) mem

/-! ### Atomics -/

/-- The word that an atomic leaves (R126, R226, R270). -/
def atomWord (op t : Nat) {w : Nat} (old v cmp : BitVec w) : BitVec w :=
  match op with
  | 0 => if t = 10 then (round32 ((num32 (old.setWidth 32)).add (num32 (v.setWidth 32)))).setWidth w else old + v
  | 1 => alu .min t old v
  | 2 => alu .max t old v
  | 3 => old &&& v
  | 4 => old ||| v
  | 5 => old ^^^ v
  | 6 => v
  | _ => if old = cmp then v else old

/-- n bytes of a thread's registers from number d on, as a word. -/
def regWord (x : Issue) (p : Nat × Nat) (d n : Nat) : BitVec (8 * n) := BitVec.ofNat _ (leNat (regBytes x p d n))

/-- The new word of an atomic of n bytes in a thread whose data begin at register d: `cas` compares with the first data
and stores the second (R126, R269). -/
def atomNext (x : Issue) (op t d n : Nat) (p : Nat × Nat) (old : BitVec (8 * n)) : BitVec (8 * n) :=
  if op = 7 then atomWord 7 t old (regWord x p (d + n / 4) n) (regWord x p d n) else atomWord op t old (regWord x p d n) 0

/-- The memory after the atomics of some threads, each with its pass, in lane order: those of the first pass are performed; and
the word that each finds as yet (R127). -/
def atomLanes (x : Issue) (op t d n : Nat) (at_ : Nat × Nat → Nat) : List ((Nat × Nat) × Nat) → (Nat → Byte) →
    (Nat → Byte) × List ((Nat × Nat) × BitVec (8 * n))
  | [], mem => (mem, [])
  | (p, k) :: ps, mem =>
    let old : BitVec (8 * n) := BitVec.ofNat _ (wordAt mem (at_ p) n)
    let r := atomLanes x op t d n at_ ps
      (if k = 0 then storedAt mem (at_ p) (leBytes n (atomNext x op t d n p old).toNat) else mem)
    (r.1, (p, old) :: r.2)

/-- The atomic that a thread leaves to a later pass, which then performs it and delivers what it finds (R127). -/
def atomsAgain (x : Issue) (op t d n : Nat) (at_ : Nat × Nat → Nat) (ret : Bool) (q : (Nat × Nat) × Nat) : Rest :=
  let arg := fun (d : Nat) => leNat (regBytes x q.1 d n)
  behind [(q.2, at_ q.1, .atom (atomOpOf op) t n (arg (if op = 7 then d + n / 4 else d)) (if op = 7 then arg d else 0)
    (if ret then some (q.1.1, q.1.2, d) else none))]

/-- A word of n bytes delivered to consecutive registers. -/
def delivered (p : Nat × Nat) (d n lat : Nat) (r : BitVec (8 * n)) : List Result :=
  (List.range (n / 4)).map fun i => inV p (d + i) (r.extractLsb' (32 * i) 32) lat

/-! ### Requests that leave a core (R124, R125, R266 to R272) -/

/-- The bundle past slot t, with a fault and its detail for every thread that is turned away. -/
def rejected (x : Issue) (t : BSlot) (ts : List BSlot) (whole : Bool) (ps : List (Nat × Nat))
    (why : Nat × Nat → Option (Nat × W32)) : Issue :=
  { past x t ts with faults := x.faults ++ ps.filterMap fun p => (why p).map fun k =>
      { warp := p.1, lane := p.2, slot := t.num, cause := k.1, detail := k.2, whole := whole } }

/-- The ASID of a warp's launch. -/
def asidOfWarp (m : Mod) (c w : Nat) : Nat := ((m.launchOf c w).map (·.asid)).getD 0

/-- A remote access: scope, bytes, whether it writes, registers that it returns, what it does for a thread, the register
named in the request, whether it releases, the least cycles to its landing, and whether it acquires. -/
structure Remote where
  scope : Nat
  n : Nat
  wr : Bool
  regs : Nat
  what : Nat × Nat → ReqOp
  d : Nat
  rel : Bool
  wait : Nat
  acq : Bool

/-- The remote accesses of a format M word. -/
def remotes (h : Hdr) (f : FmtM) (x : Issue) : List (Instr × Remote) :=
  let scope := f.minor.toNat % 8
  let t := f.aux.toNat % 16
  let d := f.d.toNat
  let n := atomBytes f
  let op := f.minor.toNat / 8
  let wait := if scope = 3 then 24 else if scope ≤ 5 then 160 else 240
  let ret := f.aux.getLsbD 6
  let arg := fun (p : Nat × Nat) (d : Nat) => BitVec.ofNat 128 (leNat (regBytes x p d n))
  [(.vstCw h f, { scope := 3, n := elemBytes f, wr := true, regs := 0, d := 0, rel := false, wait := 0, acq := false,
                  what := fun p => .store (regBytes x p d (elemBytes f)) }),
   (.vldc h f, { scope := 3, n := elemBytes f, wr := false, regs := max 1 (elemBytes f / 4), d := d, rel := false,
                 wait := 20, acq := false, what := fun _ => .load (tyOf t) (elemBytes f / (tyWidth t / 8)) }),
   (.ldAcq h f, { scope := scope, n := tyWidth t / 8, wr := false, regs := max 1 (tyWidth t / 32), d := d, rel := false,
                  wait := wait, acq := true, what := fun _ => .load (tyOf t) 1 }),
   (.stRel h f, { scope := scope, n := tyWidth t / 8, wr := true, regs := 0, d := 0, rel := true, wait := 0,
                  acq := false, what := fun p => .store (regBytes x p d (tyWidth t / 8)) }),
   (.atom h f, { scope := scope, n := n, wr := true, regs := if ret then n / 4 else 0, d := d,
                 rel := f.aux.getLsbD 8, wait := wait, acq := f.aux.getLsbD 7,
                 what := fun p => .atom (atomOpOf op) (tyOf t) n (arg p (if op = 7 then d + n / 4 else d))
                   (if op = 7 then arg p d else 0) ret })]

/-- Why a thread's remote access is turned away: alignment, then a cluster address's own faults, or a translation's with
its detail (R121, R124, R267, R396). -/
def Remote.why (r : Remote) (m : Mod) (x : Issue) (f : FmtM) (p : Nat × Nat) : Option (Nat × W32) :=
  let ea := x.ea f p.1 p.2
  if ea % r.n ≠ 0 then some (0x07, 0)
  else if r.scope = 3 then
    match m.clusterAt x.core p.1 ea r.n with
    | .error k => some (k, 0)
    | .ok _ => none
  else match m.xlateLane x.core (asidOfWarp m x.core p.1) ea r.wr with
    | .fault d => some (0x0A, d)
    | _ => none

/-- Where a thread's remote access goes. -/
def Remote.place (r : Remote) (m : Mod) (x : Issue) (f : FmtM) (p : Nat × Nat) : Place :=
  let ea := x.ea f p.1 p.2
  if r.scope = 3 then
    match m.clusterAt x.core p.1 ea r.n with
    | .ok t => .cluster t.1 t.2.1 t.2.2
    | .error _ => .device 0
  else match m.xlateLane x.core (asidOfWarp m x.core p.1) ea r.wr with
    | .phys pa => .device pa
    | _ => .device 0

/-- The request of a thread. -/
def Remote.req (r : Remote) (m : Mod) (x : Issue) (f : FmtM) (p : Nat × Nat) (id : Nat) : Req :=
  { id := id, core := x.core, warp := p.1, lane := p.2, launch := ((m.blockOf x.core p.1).map (·.launch)).getD 0,
    place := r.place m x f p, what := r.what p, d := r.d,
    deps := if r.rel then m.releaseSet x.core p.1 [p.2] else [], seen := ((m.thread? x.core p.1 p.2).map (·.seen)).getD 0, at_ := m.clock, readyAt := m.clock + r.wait,
    gen := m.gen, acq := r.acq }

/-- The registers that wait for the results of some threads' requests, numbered from id on (R38). -/
def Remote.pending (r : Remote) (id : Nat) (ps : List (Nat × Nat)) : List Flight :=
  ps.zipIdx.flatMap fun q => (List.range r.regs).map fun i =>
    { id := id + q.2, dest := .v q.1.1 q.1.2 (r.d + i), val := 0, land := none, kind := .onModule, lanes := [q.1.2] }

/-- The module once the threads ps have sent their requests: each takes a number, and its registers are pending (R38). -/
def Remote.after (r : Remote) (m : Mod) (x : Issue) (f : FmtM) (ps : List (Nat × Nat)) : Mod :=
  let qs := ps.zipIdx.map fun q => r.req m x f q.1 (m.next + q.2)
  let m1 : Mod := { m with next := m.next + ps.length, reqs := m.reqs ++ qs }
  if r.regs = 0 then m1 else m1.onCore x.core fun k => { k with flights := k.flights ++ r.pending m.next ps }

/-- Whether an address of some threads has come back from a failed walk (R267). -/
def answeredWalk (m : Mod) (x : Issue) (f : FmtM) (ps : List (Nat × Nat)) (k : Walk) : Bool :=
  k.failed && ps.any fun p => k.who == .die (x.core / 256) && k.asid == asidOfWarp m x.core p.1 &&
    k.va == x.ea f p.1 p.2 / 4096 * 4096

/-- Threads observe what their core has not performed yet: a later release of theirs waits for it (R303, R304). -/
def acquired (m : Mod) (c : Nat) (ps : List (Nat × Nat)) : Mod :=
  ps.foldl (fun m p => m.onThread c p.1 p.2 fun t => { t with seen := m.next }) m

end Sys2Proof.Claims
end

