-- ==== Sys2Proof/Safety/Threads.lean ====
section
/-! DEFINITION. What an instruction does to threads, warps and launches, in the terms of claims: threads changed one by
one, branch targets, special registers. -/

namespace Sys2Proof.Claims

open Machine

/-- Some threads of core c are changed, and nothing else. -/
def each (m : Mod) (c : Nat) (ps : List (Nat × Nat)) (f : Nat × Nat → Thread → Thread) : Mod :=
  ps.foldl (fun m p => m.onThread c p.1 p.2 (f p)) m

/-- The slot has run and changed only the module: no fault, no pass of the port. -/
def ran (x : Issue) (t : BSlot) (ts : List BSlot) (m : Mod) : State := { now := m, issue := some (past x t ts) }

/-- The slot has run without effect. -/
def idle (s : State) (x : Issue) (t : BSlot) (ts : List BSlot) : State := ran x t ts s.now

/-- A core without its threads, its expectations and the waits of `wsync`. -/
def husk (k : Core) : Core :=
  { k with
    warps := k.warps.map fun w => { w with threads := [], expect := none },
    waits := k.waits.filter fun g => g.wait != .wsync && !g.lanes.isEmpty }

/-- Of a module nothing changes but threads in ps of core c, the expectations of its warps, and the waits of `wsync`, which
such threads may have left and whose timers may have restarted. -/
def ThreadsOnly (m m' : Mod) (c : Nat) (ps : List (Nat × Nat)) : Prop :=
  outside m' = outside m ∧ (∀ d, husk (m'.core d) = husk (m.core d)) ∧ (∀ d, d ≠ c → m'.core d = m.core d) ∧
  (∀ w l, (w, l) ∉ ps → m'.thread? c w l = m.thread? c w l) ∧
  ∀ g' ∈ (m'.core c).waits, ∃ g ∈ (m.core c).waits,
    g' = { g with lanes := g'.lanes, timers := g'.timers } ∧ (∀ l ∈ g'.lanes, l ∈ g.lanes) ∧
    ∀ l ∈ g.lanes, l ∉ g'.lanes → (g.warp, l) ∈ ps

/-- The PC of slot t of a bundle: the bundle's line with the slot's number. -/
def slotPc (x : Issue) (t : BSlot) : W64 := x.pc &&& ~~~7#64 ||| BitVec.ofNat 64 t.num

/-- The linear slot number of a PC (R15). -/
def linear (pc : W64) : Nat := pc.toNat / 64 % 2 ^ 50 * 5 + pc.toNat % 8

/-- The PC that lies a displacement away from a linear number; none outside the address space (R25, R73). -/
def targetFrom (base : Nat) (disp : BitVec 40) : Option W64 :=
  let t : Int := (base : Int) + disp.toInt
  if 0 ≤ t ∧ t < 5 * 2 ^ 50 then some (BitVec.ofNat 64 (t.toNat / 5 * 64 + t.toNat % 5)) else none

/-- A branch-target fault with the bit that says that no PC names the target (R25, R396). -/
def offMap (pc : Option W64) : Option (Nat × W32) := if pc.isNone then some (0x04, 1) else none

/-- A thread that has taken a transfer (R17). -/
def jumped (pc : W64) (t : Thread) : Thread := { t with pc := pc, entered := true }

/-- The thread is an ordinary one of a warp, no handler (R400). -/
def Ordinary (m : Mod) (c : Nat) (p : Nat × Nat) : Prop := ∃ t, m.thread? c p.1 p.2 = some t ∧ t.handler = false

/-- A thread that issues no bundle before a cycle; one at a blocking point or in a sweep stays there (R33, R145). -/
def heldTill (u : Nat) (t : Thread) : Thread :=
  { t with
    notBefore := max t.notBefore u
    run := match t.run with
      | .blocked i => .blocked i
      | .busy i => .busy i
      | _ => .gap (max t.notBefore u) }

/-- A thread that enters a wait; one that parks, is stopped or ends stays so (R145). -/
def blockedAt (id : Nat) (t : Thread) : Thread :=
  { t with
    run := match t.run with
      | .parked h => .parked h
      | .stopped => .stopped
      | .ending h => .ending h
      | .exited => .exited
      | _ => .blocked id }

/-- The bits of the relative lanes of some lanes of a warp. -/
def lanesBit (width : Nat) (ls : List Nat) (i : Nat) : Bool := ls.any fun l => relative width l == i

/-- `$torigin` at a park (R398): wave, `$wid`, redo, task, block slot and warp slot. -/
def originWord (slot block : Nat) (task redo : Bool) (wid : W32) : W32 :=
  (wid.extractLsb' 31 1 ++ wid.extractLsb' 0 15 ++ (0#2 ++ BitVec.ofBool redo ++ BitVec.ofBool task) ++
    BitVec.ofNat 4 block ++ BitVec.ofNat 8 slot).setWidth 32

/-- A thread that has taken a trap (R397 to R399): `$tcause` from cause, slot and detail, `$tepc`, `$torigin`; it stays
parked until h. -/
def parkedAs (x : Warp) (block : Nat) (cause slot : Nat) (detail : BitVec 16) (tepc : W64) (redo : Bool) (h : Nat)
    (t : Thread) : Thread :=
  { t with
    tcause := detail ++ (BitVec.ofNat 8 slot ++ BitVec.ofNat 8 cause), tepc := tepc, parkPc := tepc,
    torigin := originWord x.slot block t.task.isSome redo x.wid, redo := redo, entered := false, run := .parked h }

/-- The events of a list queued behind those that wait, each with its number and the cycle (R418). -/
def queued (m : Mod) (es : List Event) : Mod :=
  { m with
    events := m.events ++ es.zipIdx.map fun e =>
      { e.1 with seq := m.eventSeq + e.2, time := BitVec.ofNat 64 m.clock },
    eventSeq := m.eventSeq + es.length }

/-- An event about a thread of a warp of a launch (R418). -/
def threadNote (type : Nat) (la : Launch) (c slot lane code : Nat) (pc payload : W64) (deps : List Nat) : Event :=
  { type := type, asid := la.asid, flags := 0, seq := 0, handle := la.handle, core := c, warp := slot, lane := lane,
    code := code, pc := pc, payload := payload, time := 0, ring := la.rec_.evring, deps := deps }

/-- The special registers that any thread may read (R52): number and value for a thread of a warp of a launch. -/
def plainSpecials (m : Mod) (c : Nat) (x : Warp) (la : Launch) (l : Nat) : List (Nat × W64) :=
  [(0x000, BitVec.ofNat 64 l), (0x001, x.wid.setWidth 64), (0x002, BitVec.ofNat 64 c),
   (0x003, BitVec.ofNat 64 (c / 128)), (0x004, BitVec.ofNat 64 (c / 256)), (0x030, la.bind),
   (0x040, BitVec.ofNat 64 m.clock)] ++
  (List.range 5).map fun k => (0x010 + k, match m.grid? la.rec_.grid with
    | some g => if k < la.rec_.axes ∧ k < g.n then (g.coord.extractLsb' (12 * k) 12).setWidth 64 else 0
    | none => 0)

/-- The special registers of a handler's own thread (R52, R397, R398). -/
def handlerSpecials (t : Thread) : List (Nat × W64) :=
  [(0x020, t.tcause.setWidth 64), (0x021, t.tepc),
   (0x022, (t.torigin.extractLsb' 14 18 ++ BitVec.ofBool t.redo ++ t.torigin.extractLsb' 0 13).setWidth 64)]

/-- A thread reads its trap registers as they stand: no write to them is still on its way (R95). -/
def TrapSettled (t : Thread) : Prop := ∀ r ∈ t.recent, r.file = 3 → r.at_ + r.lat ≤ t.sched

end Sys2Proof.Claims
end

