-- ==== Sys2Proof/Safety/Engines.lean ====
section
/-! DEFINITION. What the weirs, gauges, jigs and the matrix unit do, in the terms of claims. -/

namespace Sys2Proof.Claims

open Machine

/-! ### Weirs (R84 to R91) -/

/-- A weir after an increment of n (R87). -/
def stepped (x : Weir) (n : Nat) : Weir :=
  if x.t.toNat ≤ x.c.toNat + n then { t := x.t, c := 0, p := x.p + 1 }
  else { t := x.t, c := BitVec.ofNat 32 (x.c.toNat + n), p := x.p }

/-- The weir i of a warp's block, and the block. -/
def WeirAt (m : Mod) (c w i : Nat) (b : Block) (x : Weir) : Prop := m.blockOf c w = some b ∧ b.weirs[i]? = some x

/-- A group blocks on a wait, from this cycle on (R145, R146). -/
def blocked (m : Mod) (x : Issue) (w : Nat) (ls : List Nat) (wait : Wait) : Mod :=
  m.block x.core w ls wait x.pc

/-- The pairs of a warp and some lanes. -/
def pairs (w : Nat) (ls : List Nat) : List (Nat × Nat) := ls.map fun l => (w, l)

/-- Some threads of a warp have waited for a weir: they acquire, also the completions of the matrix operations that have credited
it, the regions of the leat runs that they have waited for are ordinary again, and they go on once the fixed-latency results of
their warp have landed (R37, R91, R197, R333). -/
def weirPassed (m : Mod) (c w : Nat) (ls : List Nat) (i : Nat) : Mod :=
  let learnt := (acquired m c (pairs w ls)).learnDone c w ls fun _ d => d.block == m.buid c w && d.weir == some i
  each (learnt.coolRuns fun r => r.core == c && r.warp == w && r.ended && r.weir == some i) c (pairs w ls)
    fun _ => heldTill ((m.core c).warpLanding w 0)

/-- An arrival whose increment waits for the writes that it releases (R87). -/
def arrivesLater (m : Mod) (c : Nat) (b : Block) (i n : Nat) (deps : List Nat) : Mod :=
  Mod.onCore { m with next := m.next + 1 } c fun k => { k with
    late := k.late ++ [{ id := m.next, block := b.uid, weir := i, n := n, deps := deps }] }

/-- A warp of core c changed. -/
def withWarp (m : Mod) (c w : Nat) (f : Warp → Warp) : Mod := m.onWarp c w f

/-! ### Jigs (R200 to R205) -/

/-- A record with its four counters zero (R200). -/
def clearedCounters (r : BitVec 512) : BitVec 512 := r &&& ~~~(BitVec.ofNat 512 (2 ^ 64 - 1) <<< (256 : Nat))

/-- A warp whose jig register n holds a record, and is busy for 10 c (R201). -/
def jigLoaded (n : Nat) (r : BitVec 512) (clock : Nat) (k : Warp) : Warp :=
  { k with jigs := setR k.jigs n r, jigBusy := (n, clock + 10) :: k.jigBusy.filter fun p => p.1 != n }

/-- A warp whose jig register n is busy for 10 c. -/
def jigHeld (n clock : Nat) (k : Warp) : Warp :=
  { k with jigBusy := (n, clock + 10) :: k.jigBusy.filter fun p => p.1 != n }

/-- The value that a sweep gives an element of Y and Z, with its scalar (R203). -/
def sweptValue (op : Nat) (y z : Machine.Num) (s : W32) : Machine.Num :=
  let least := fun (larger : Bool) =>
    if y.isNan then z else if z.isNan then y
    else if larger then (if y.below z then z else y) else if z.below y then z else y
  match op with
  | 0 => y
  | 1 => y.add z
  | 2 => y.add z.neg
  | 3 => y.mul z
  | 4 => least false
  | 5 => least true
  | 6 => (y.mul (num32 s)).add z
  | _ => y.mul (num32 s)

/-- Every element of a tile is aligned, and inside n bytes (R204). -/
def TileInside (j : JigRec) (shape : List Nat) (count n : Nat) : Prop :=
  ∀ i < count, 0 ≤ j.addr (unLin i shape) ∧ j.addr (unLin i shape) % j.bytes = 0 ∧ j.addr (unLin i shape) + j.bytes ≤ n

/-! ### The matrix unit (R187 to R199) -/

/-- The eight words of a parameter block in a pool (R187). -/
def blockWords (m : Mod) (c a : Nat) : List W64 := (List.range 8).map fun i => BitVec.ofNat 64 (poolWord m c (a + 8 * i) 8)

/-- A block that `mopf` has staged, whole after 10 c (R193). -/
def staged (m : Mod) (c w off : Nat) (kind : MKind) (ws : List W64) (spans : List (Nat × Nat × Nat)) : MStage :=
  { id := m.next, places := m.placesOf c w kind ws, off := off, kind := kind, words := ws, readyAt := m.clock + 10, taint := [], ztaint := [], spans := spans }

/-- What `mzero` queues: its offset and length, with no block behind them (R194). -/
def zeroStage (m : Mod) (ws : List W64) : MStage :=
  { id := m.next, places := [none, none, none], off := 0, kind := .zero, words := ws, readyAt := 0, taint := [], ztaint := [], spans := [] }

/-- An operation of a block at the end of core c's queue, with the next ticket (R192). -/
def matrixQueued (m : Mod) (c : Nat) (b : Block) (kind : MKind) (g : MStage) : Mod :=
  m.onCore c fun k => { k with
    mTicket := k.mTicket + 1,
    mq := k.mq ++ [{ id := g.id, places := g.places, wild := false, ticket := k.mTicket, launch := b.launch, block := b.uid, kind := kind, off := g.off,
                     words := g.words, kdone := if kind = .product then pKdone g.words else 0, readyAt := none,
                     taint := g.taint, ztaint := g.ztaint, spans := g.spans, waiters := [] }] }

/-- A result that waits for an engine of the module (R38). -/
def onItsWay (id : Nat) (dest : Dest) (val : W64) (land : Option Nat) (lanes : List Nat) : Flight :=
  { id := id, dest := dest, val := val, land := land, kind := .onModule, lanes := lanes }

/-- The cycles of a pass over n units at a rate of r units in d cycles (R190): the least number c with n · d ≤ c · r. -/
def AtRate (n r d c : Nat) : Prop := n * d ≤ c * r ∧ ∀ c' < c, c' * r < n * d

/-- The least cycles of an operation (R190): 40 and those of its multiply-accumulates, or of its bytes at 768 a cycle. -/
def OperationCycles (m : Mod) (o : MOp) (c : Nat) : Prop :=
  ∃ k, c = 40 + k ∧ match o.kind with
    | .product =>
      let macs := pM o.words * pN o.words * pK o.words
      match (m.opGauge o 0).fmt with
      | 10 => AtRate macs 512 1 k
      | 9 => AtRate macs 2048 1 k
      | 8 => AtRate macs 2048 1 k
      | 16 => AtRate macs 16384 (((m.opGauge o 1).mb + 1) / 2) k
      | _ => AtRate macs 4096 1 k
    | .zero => AtRate (pword o.words 1) 768 1 k
    | _ => AtRate (8 * pM o.words * pN o.words) 768 1 k

/-- The pool address of element (i, j) of an operation's Z. -/
def zAt (b : Block) (o : MOp) (i j : Nat) : Nat := b.accRow * 768 + pZ o.words + 8 * (i * pN o.words + j)

/-- Nothing marks an operation: no operand, element of Z or byte of C was written meanwhile (R198). -/
def Untouched (o : MOp) : Prop := o.taint = [] ∧ o.ztaint = []

/-- A matrix operation has left core c's queue with status 0, its weir is credited, and everything else of the machine stands but
the pool, the kinds of accumulator elements, the waiting results, also those of saved contexts, and what a store to the
scratchpad wakes; that it has completed is kept for the threads that acquire it. -/
def Retired (m m' : Mod) (c : Nat) (o : MOp) : Prop :=
  beyond m' = { beyond m with free := m'.free, next := m.next + 1, launches := m'.launches, saved := m'.saved } ∧
  (m'.core c).mq = (m.core c).mq.filter (fun x => x.ticket != o.ticket) ∧
  (m'.core c).mStatus = (m.core c).mStatus ∧ (∃ d ∈ (m'.core c).mdone, d.id = m.next ∧ d.block = o.block ∧
    d.ticket = o.ticket ∧ d.waiters = o.waiters ∧ d.seenBy = [] ∧ d.known = none) ∧
  (∀ b r, m.block? c o.block = some b → o.kind ≠ .zero → pWen o.words = true → b.weirs[pWeir o.words]? = some r → r.t ≠ 0 →
    ∃ b', m'.block? c o.block = some b' ∧ b'.weirs[pWeir o.words]? = some (stepped r 1)) ∧
  ∀ f ∈ (m.core c).flights, (if o.waiters.contains f.id then { f with val := 0, land := some m.clock } else f) ∈
    (m'.core c).flights

end Sys2Proof.Claims
end

