-- ==== Sys2Proof/Safety/Network.lean ====
section
/-! DEFINITION. What the sluice, the fabric and the Canal do, in the terms of claims. -/

namespace Sys2Proof.Claims

open Machine

/-- Bits [lo + n − 1 : lo] of a word. -/
def part (v : W64) (lo n : Nat) : Nat := (v.extractLsb' lo n).toNat

/-- The bundle held at issue by the slot that stood at its head. -/
def heldAt (s : State) (x : Issue) (t : BSlot) (ts : List BSlot) : State :=
  { s with issue := some { past x t ts with hold := true } }

/-- The bundle past a slot that raises a precise fault for its whole group. -/
def faultAt (s : State) (x : Issue) (t : BSlot) (ts : List BSlot) (w : Nat) (ls : List Nat) (cause : Nat) : State :=
  { s with issue := some (turned x t ts true (pairs w ls) fun _ => some cause) }

/-! ### Sluice requests (R207 to R210) -/

/-- len0, cnt1 and cnt2 of a shape word. -/
def lens (v : W64) : Nat × Nat × Nat := (part v 0 16, part v 16 12 + 1, part v 28 8 + 1)

/-- The payload bytes of a shape word (R209). -/
def payloadOf (v : W64) : Nat := (lens v).1 * (lens v).2.1 * (lens v).2.2

/-- The offset of byte i on the strided side (R209). -/
def stridedAt (v : W64) (i : Nat) : Nat :=
  let n := lens v
  4096 * part v 50 14 * (i / (n.1 * n.2.1)) + 16 * part v 37 13 * (i / n.1 % n.2.1) + i % n.1

/-- The offset of byte i at the source (dst = false) or the destination of a request. -/
def sideAt (v : W64) (dst : Bool) (i : Nat) : Nat := if v.getLsbD 36 = dst then stridedAt v i else i

/-- The bytes that a side spans. -/
def sideSpan (v : W64) (dst : Bool) : Nat :=
  let n := lens v
  if v.getLsbD 36 = dst then 4096 * part v 50 14 * (n.2.2 - 1) + 16 * part v 37 13 * (n.2.1 - 1) + n.1 else payloadOf v

/-- A shape word that R209 accepts: it moves a byte, fewer than 2^32, and a strided destination does not write over
itself. -/
def LegalShape (v : W64) : Prop :=
  part v 0 16 ≠ 0 ∧ payloadOf v < 2 ^ 32 ∧
  (v.getLsbD 36 = true → (part v 37 13 = 0 → (lens v).2.1 = 1) ∧ (part v 50 14 = 0 → (lens v).2.2 = 1))

/-- An address word that R208 accepts for the sluice, for n bytes: device memory, the block's scratchpad, or another
block's of the cluster. -/
def LegalPlace (m : Mod) (c w : Nat) (v : W64) (n : Nat) : Prop :=
  part v 59 5 = 0 ∧ (part v 56 3 = 0 ∨ (part v 56 3 = 1 ∧ part v 21 35 = 0) ∨
    (part v 56 3 = 2 ∧ part v 44 12 = 0 ∧ ∃ r, m.clusterAt c w (part v 0 56) n = .ok r))

/-- A completion word that R210 accepts beside a shape word. -/
def LegalCompletion (v shape : W64) (weirs scratch : Nat) : Prop :=
  (v.getLsbD 8 = true → part v 0 8 < weirs) ∧ 2 ≤ part v 9 3 ∧ part v 9 3 ≤ 6 ∧
  (v.getLsbD 14 = true → shape.getLsbD 36 = true) ∧ v.getLsbD 15 = false ∧
  (v.getLsbD 12 = true → part v 16 21 % 4 = 0 ∧ part v 16 21 + 4 ≤ scratch) ∧ part v 37 11 = 0

/-- A staged request that the checks of R208 to R210 let through. -/
def LegalRequest (m : Mod) (c w : Nat) (b : Block) (w0 w1 w2 w3 : W64) : Prop :=
  LegalShape w2 ∧ LegalPlace m c w w0 (sideSpan w2 false) ∧ LegalPlace m c w w1 (sideSpan w2 true) ∧
  LegalCompletion w3 w2 b.weirs.length (m.scratchOf c w)

/-- The request of four words by some lanes of a warp: the core's counter is its handle (R213). -/
def requestOf (m : Mod) (c w : Nat) (ls : List Nat) (b : Block) (ws : List W64) : SReq :=
  { handle := (m.core c).slCounter, launch := b.launch, block := b.uid, words := ws, code := 0, landed := 0,
    chunks := List.range ((payloadOf (getR ws 2) + 255) / 256), begun := [], kept := [], far := m.slFar c ws,
    deps := m.releaseSet c w ls }

/-- A request entered: its warp's staging set is empty, and the counter has advanced (R212, R213, R215). -/
def entered (m : Mod) (c w : Nat) (f : Core → Core) : Mod :=
  withWarp (m.onCore c fun k => f { k with slCounter := k.slCounter + 1 }) c w fun y =>
    { y with slStage := [none, none, none, none] }

/-- A status word (R216). -/
def statusWord (code landed : Nat) : W64 := BitVec.ofNat 64 (code + 2 ^ 32 * landed)

/-- The status of a handle of core k, with the requests that saves have set aside (R216, R411). -/
def SluiceStatus (k : Core) (aside : List SReq) (hd : W32) (v : W64) : Prop :=
  let age := (k.slCounter - hd).toNat
  let known := 1 ≤ age ∧ age ≤ 65536
  (age = 0 ∨ 2 ^ 31 < age → v = 7) ∧ (65536 < age → age ≤ 2 ^ 31 → v = 2) ∧
  (known → ∀ r, (k.slq ++ aside).find? (fun r => r.handle == hd) = some r → v = statusWord r.code r.landed) ∧
  (known → (∀ r ∈ k.slq ++ aside, r.handle ≠ hd) → (∃ a ∈ k.arms, a.req.handle = hd) → v = 0) ∧
  (known → (∀ r ∈ k.slq ++ aside, r.handle ≠ hd) → (∀ a ∈ k.arms, a.req.handle ≠ hd) →
    (∀ p, k.slDone.find? (fun p => p.1 == hd) = some p → v = statusWord p.2.1 p.2.2) ∧
    ((∀ p ∈ k.slDone, p.1 ≠ hd) → v = 2))

/-- A request of core k that is no longer queued or armed, and is recorded with a code and the bytes that landed. -/
def RequestOver (k k' : Core) (hd : W32) (code landed : Nat) : Prop :=
  (∀ r ∈ k'.slq, r.handle ≠ hd) ∧ (∀ a ∈ k'.arms, a.req.handle ≠ hd) ∧ k'.slDone.head? = some (hd, code, landed) ∧
  k'.slCounter = k.slCounter

/-! ### Patterns and count words (R218 to R223) -/

/-- Axis k of one side of a pattern. -/
def sideOf (p : W64) (k : Nat) : Nat := part p (12 * k) 12

/-- A pattern that R218 accepts on a grid. -/
def LegalPattern (g : GridCtx) (lows highs : W64) : Prop :=
  part lows 60 4 = 0 ∧ part highs 60 4 = 0 ∧ ∀ k < 5,
    if k < g.n then sideOf lows k ≤ sideOf highs k ∧ sideOf highs k < g.ext.getD k 0
    else sideOf lows k = 0 ∧ sideOf highs k = 0

/-- The expected count of a pattern: its coordinates (R218). -/
def coordinates (g : GridCtx) (lows highs : W64) : Nat :=
  (List.range g.n).foldr (fun k p => (sideOf highs k - sideOf lows k + 1) * p) 1

/-- An address word that R208 accepts for the fabric. -/
def LegalTarget (v : W64) : Prop :=
  part v 59 5 = 0 ∧ (part v 56 3 = 0 ∨
    (part v 56 3 = 3 ∧ part v 21 11 = 0 ∧ part v 42 2 = 0 ∧ part v 48 8 = 0))

/-- The offset of an address word in its space. -/
def targetAt (v : W64) : Nat := if part v 56 3 = 3 then part v 0 21 else part v 0 56

/-- A descriptor that R223 accepts, for a destination and a landing bit. -/
def LegalDescriptor (d dest : W64) (lnd : Bool) (scratch : Nat) : Prop :=
  8 ≤ part d 21 13 ∧ part d 21 13 ≤ 4096 ∧ part d 21 13 % 8 = 0 ∧ part d 34 21 % 8 = 0 ∧
  (lnd = false → part d 34 21 = 0) ∧ part d 55 9 = 0 ∧ (lnd = true → part dest 56 3 = 3) ∧ part d 0 21 % 8 = 0 ∧
  (part dest 56 3 = 0 → part dest 0 56 % 8 = 0) ∧ part d 0 21 + part d 21 13 ≤ scratch

/-- The last word of a request packet (R248): operation, type, landing offset and whether a value comes back. -/
def lastOperand (fn ty land : Nat) (ret : Bool) : W64 :=
  BitVec.ofNat 64 (fn + 2 ^ 5 * ty + 2 ^ 9 * land + (if ret then 2 ^ 30 else 0))

/-- A fabric instruction at issue: its grid, launch and block, and the pool address of its count word. -/
structure Issuing where
  m : Mod
  c : Nat
  w : Nat
  ls : List Nat
  g : GridCtx
  la : Launch
  b : Block
  n : Nat

/-- The pool address of the count word. -/
def Issuing.at_ (i : Issuing) : Nat := i.b.at_ (8 * i.n)

/-- The count word (R220). -/
def Issuing.old (i : Issuing) : Nat := poolWord i.m i.c i.at_ 8

/-- The pool after the expected field has risen by k (R221). -/
def Issuing.raised (i : Issuing) (k : Nat) : Nat → Byte :=
  storedAt (fun a => (i.m.core i.c).sram.read a) i.at_ (leBytes 8 (i.old + 2 ^ 32 * k))

/-- len bytes of the block's scratchpad once the count word has risen. -/
def Issuing.bytes (i : Issuing) (k off len : Nat) : List Byte :=
  (List.range len).map fun j => i.raised k (i.b.at_ (off + j))

/-- The request packet that every operation shares (R248). -/
def Issuing.packet (i : Issuing) (op scope : Nat) (lnd : Bool) (lows highs addr : W64) : Packet :=
  { op := op, hop := 0, lnd := lnd, err := false, cn := scope == 7, tree := op == 6, ctx := i.g.num, asid := i.la.asid,
    lows := lows, highs := highs, addr := addr, src := i.g.coord, core := i.c, cnt := i.n, len := 0,
    tag := i.m.next % 2 ^ 32, opd0 := 0, opd1 := 0, pay := [] }

/-- The lanes on which a warp has threads. -/
def lanesOfWarp (m : Mod) (c w : Nat) : List Nat := (List.range 64).filter fun l => (m.thread? c w l).isSome

/-- The number below which some threads of a warp have observed their core's writes (R303). -/
def seenOf (m : Mod) (c w : Nat) (ls : List Nat) : Nat :=
  (ls.map fun l => ((m.thread? c w l).map (·.seen)).getD 0).foldl max 0

/-- The operation that an instruction leaves with its core's port, expecting some completions; `.cn` waits for the writes
before it (R229). -/
def Issuing.op (i : Issuing) (p : Packet) (left : Nat) : FabOp :=
  { id := i.m.next, core := i.c, block := i.b.uid, warp := i.w, lanes := i.ls, launch := i.la.handle, pkt := p,
    left := left, dest := none, ty := .n64, deps := if p.cn then i.m.releaseSet i.c i.w (lanesOfWarp i.m i.c i.w) else [],
    src := 0, len := 0, sent := 0, image := [], spans := [], taint := [], dspans := [], newer := [], seen := seenOf i.m i.c i.w i.ls,
    unsent := true, fwd := [], done := [] }

/-- The module with one more operation, under the number that was next. -/
def withOp (m : Mod) (o : FabOp) : Mod := { m with next := m.next + 1, fabOps := m.fabOps ++ [o] }

/-- The module in which a uniform register waits for an operation of the fabric (R38). -/
def withPending (m : Mod) (c w d : Nat) (ls : List Nat) (kind : LandKind) (id : Nat) (val : W64) (land : Option Nat) :
    Mod :=
  m.onCore c fun k => { k with flights := k.flights ++
    [{ id := id, dest := .s w d, val := val, land := land, kind := kind, lanes := ls }] }

/-- The module once operation id of a group reads its payload of len bytes at an address of the pool: an access behind n passes of
the bundle and those of its own cycle (R122, R144). The threads stay in gap 4 c and a cycle for each 64 bytes (R223), and until
the passes are over. -/
def readsPayload (m : Mod) (c w : Nat) (ls : List Nat) (n id a len : Nat) : Mod :=
  each (latePass m c w (n + 1) a (.payload id)) c (pairs w ls) fun _ =>
    heldTill (m.clock + max (4 + (len + 63) / 64) (n + 1))

/-- A fabric operation: its own checks, what it adds to the expected field, what else holds it at issue, the module once
it has left for the port, and, for a copy from a scratchpad, the bytes of its source. -/
structure FabRow where
  instr : Instr
  legal : Prop
  add : Nat
  waits : Prop
  base : List Byte → Mod
  image : Option (List Byte)

/-- The five fabric operations of R223 to R228, at issue. -/
def fabricRows (h : Hdr) (f : FmtE) (x : Issue) (i : Issuing) : List FabRow :=
  let m := i.m
  let lows := x.s i.w f.a.toNat
  let highs := x.s i.w (f.a.toNat + 1)
  let dest := x.s i.w f.b.toNat
  let v := x.s i.w f.c.toNat
  let v1 := x.s i.w (f.c.toNat + 1)
  let cnt := coordinates i.g lows highs
  let scope := f.minor.toNat % 8
  let lnd1 := f.cmd.getLsbD 0
  let hi := f.cmd.getLsbD 4
  let t := f.cmd.toNat % 16
  let fldt := f.cmd.toNat % 4 + (if f.cmd.getLsbD 2 then 0 else 4)
  let root := (x.s i.w (f.a.toNat + 2)).extractLsb' 0 60
  let len := part v 21 13
  let open_ := ¬Settled x.before i.c (pairs i.w i.ls) fun p => [(m.poolAt i.c p.1 (part v 0 21), len)]
  let found := m.forwarded i.c i.la.handle (some i.g) lows dest (tyWidth fldt / 8)
  let seen := if found.length = tyWidth fldt / 8 then found else []
  let saw := m.sawForwarded i.c i.w i.ls (seen.map (·.2.1))
  let casPay := if f.minor.toNat / 8 = 7 then leBytes 8 v1.toNat else []
  let get := { i.packet 2 scope false lows lows dest with opd1 := lastOperand 0 fldt 0 false }
  let put := { i.packet 0 scope lnd1 lows highs dest with
    len := len, pay := i.bytes cnt (part v 0 21) len, opd1 := lastOperand 0 0 (part v 34 21) false }
  let mix := { i.packet 4 scope false lows highs dest with
    opd0 := v, opd1 := lastOperand (f.minor.toNat / 8) t 0 hi, len := casPay.length, pay := casPay }
  let red := { i.packet 6 scope hi lows highs dest with
    len := len, pay := i.bytes 1 (part v 0 21) len, opd0 := root.setWidth 64,
    opd1 := lastOperand (f.minor.toNat / 8) t (part v 34 21) false }
  let cpy := { i.packet 1 scope lnd1 lows highs dest with opd1 := lastOperand 0 0 (part v1 32 21) false }
  [{ instr := .fst h f, legal := LegalTarget dest ∧ LegalDescriptor v dest lnd1 i.la.rec_.scratch, add := cnt, waits := open_,
     base := fun _ => readsPayload (withOp m (i.op put cnt)) i.c i.w (x.lanes i.w) x.passes m.next (i.b.at_ (part v 0 21)) len, image := none },
   { instr := .fld h f, legal := cnt = 1 ∧ LegalTarget dest ∧ targetAt dest % (tyWidth fldt / 8) = 0, add := 1, waits := False,
     base := fun _ => withOp (withPending saw i.c i.w f.d.toNat i.ls .fabric m.next 0 none) { i.op get 1 with
       dest := some f.d.toNat, ty := tyOf fldt, deps := if scope = 7 then saw.releaseSet i.c i.w (lanesOfWarp m i.c i.w) else [],
       fwd := seen.map fun y => (y.1, y.2.2) }, image := none },
   { instr := .fatom h f, legal := (hi = true → cnt = 1) ∧ LegalTarget dest ∧ targetAt dest % (tyWidth t / 8) = 0, add := cnt, waits := False,
     base := fun _ => withOp (if hi then withPending m i.c i.w f.d.toNat i.ls .fabric m.next 0 none else m) { i.op mix cnt with
       dest := if hi then some f.d.toNat else none, ty := tyOf t }, image := none },
   { instr := .fred h f, legal := LegalTarget dest ∧ LegalPattern i.g (root.setWidth 64) (root.setWidth 64) ∧ LegalDescriptor v dest hi i.la.rec_.scratch ∧ ∀ k < 5, sideOf lows k ≤ sideOf i.g.coord k ∧ sideOf i.g.coord k ≤ sideOf highs k,
     add := 1, waits := i.g.allowance ≤ (m.fabOps.filter fun o => o.pkt.op == 6 && o.pkt.ctx == i.g.num).length ∨ open_,
     base := fun _ => readsPayload (withOp m (i.op red 1)) i.c i.w (x.lanes i.w) x.passes m.next (i.b.at_ (part v 0 21)) len, image := none },
   { instr := .fcopy h f, legal := f.c.toNat % 2 = 0 ∧ LegalTarget dest ∧ part v 59 5 = 0 ∧ part v 56 3 ≤ 1 ∧ (part v 56 3 = 1 → part v 21 35 = 0) ∧ part v1 0 32 ≠ 0 ∧ part v1 53 11 = 0,
     add := cnt, waits := False,
     base := fun img => withOp m { i.op cpy cnt with src := v, len := part v1 0 32, image := img, spans := m.copySpans i.c i.b.uid i.la.asid v 0 (part v1 0 32), dspans := m.copyHere cpy 0 (part v1 0 32) },
     image := if part v 56 3 = 1 ∧ part v 0 56 + part v1 0 32 ≤ i.la.rec_.scratch then
       some (i.bytes cnt (part v 0 56) (part v1 0 32)) else none }]

/-- Whether a count word meets a wait: its done field has reached the threshold, or the expected field (R230). -/
def Met (thr : Option W32) (v : Nat) : Prop := (thr.map (·.toNat)).getD (v / 2 ^ 32 % 2 ^ 30) ≤ v % 2 ^ 32

/-! ### Packets at a port (R219, R221, R224 to R226, R244, R248) -/

/-- A count word after completions of n coordinates: done rises modulo 2^32, and an error sets bit 63 (R220, R221). -/
def credited (v : W64) (n : Nat) (err : Bool) : W64 :=
  (v.extractLsb' 32 32 ++ (v.extractLsb' 0 32 + BitVec.ofNat 32 n)) ||| (if err then 1#64 <<< 63 else 0)

/-- The answer of a module to a request packet (R248). -/
def replyTo (p : Packet) (op : Nat) (err : Bool) (len : Nat) (pay : List Byte) (own last : W64) : Packet :=
  { op := op, cls := true, hop := 0, lnd := false, err := err, cn := false, tree := false, ctx := p.ctx, asid := p.asid,
    lows := p.src, highs := p.src, addr := BitVec.ofNat 64 p.core, src := own, core := p.core, cnt := p.cnt,
    len := len, tag := p.tag, opd0 := 0, opd1 := last, pay := pay }

/-- Of a module only link l changes, to k. -/
def LinkBecomes (m m' : Mod) (l : Nat) (k : Link) : Prop :=
  m'.link? l = some k ∧ (∀ j, j ≠ l → m'.link? j = m.link? j) ∧ { m' with links := m.links } = m

/-- A packet waits on link l, and nothing else changes (R244, R250). -/
def Queues (m m' : Mod) (l : Nat) (p : Packet) : Prop :=
  ∀ k, m.link? l = some k → LinkBecomes m m' l { k with txq := k.txq ++ [p] }

/-- A packet leaves by the route table: on a link, or to the own port's queue. -/
def Leaves (m m' : Mod) (g : GridCtx) (a : Packet) : Prop :=
  (∀ l r, m.expand g a = [.link l r] → Queues m m' l r) ∧
  ∀ r, m.expand g a = [.here r] → m' = { m with portQ := m.portQ ++ [r] }

/-- A packet names n bytes at an offset of a block of core c that this module holds, and no landing word (R208, R247). -/
def NamesBlock (m : Mod) (p : Packet) (n : Nat) (c off : Nat) (b : Block) : Prop :=
  part p.addr 56 3 = 3 ∧ part p.addr 0 32 = off ∧ p.lnd = false ∧ m.block? c b.uid = some b ∧
  ∃ size, m.gridSpot p.asid p.ctx (part p.addr 32 10) (part p.addr 44 4) = some (.live c b.uid, size) ∧ off + n ≤ size ∧
    size ≤ 2 ^ 21

/-- A header that R248 accepts. -/
def LegalHeader (p : Packet) : Prop :=
  p.op ≤ 8 ∧ p.cls = decide (p.op ∈ [3, 5, 7]) ∧ p.resv1 = 0 ∧ p.resv2 = 0 ∧ part p.lows 60 4 = 0 ∧ part p.highs 60 4 = 0 ∧
  p.len ≤ 4096 ∧ p.hop ≤ 7 ∧ (p.op ≠ 8 → part p.opd1 31 33 = 0)

/-- A module without its cores, its inbound queue, and what its operations learn of a request performed (R298). -/
def beyondQueue (m : Mod) : Mod :=
  { beyond m with inQ := [], free := 0, fabOps := m.fabOps.map fun o => { o with taint := [], newer := [], done := [] } }

/-- Of a module nothing changes but the bytes of core c's pool, which read as `new` says, and the inbound queue. -/
def Stores (m m' : Mod) (c : Nat) (new : Nat → Byte) : Prop :=
  beyondQueue m' = beyondQueue m ∧
  (∀ d, quiet (m'.core d) = quiet (m.core d)) ∧ (∀ d, d ≠ c → calm (m'.core d) = calm (m.core d)) ∧
  ∀ a, (m'.core c).sram.read a = new a

/-- A pool once some parts of a payload are written from an address on (R224, R295). -/
def afterParts (pay : List Byte) (at_ : Nat) (mem : Nat → Byte) (l : List (Nat × Nat)) : Nat → Byte :=
  l.foldl (fun mem q => storedAt mem (at_ + q.1) ((pay.drop q.1).take q.2)) mem

/-- What becomes of a byte string under a request's address. -/
def byteAt (m : Mod) (c : Nat) : Nat → Byte := fun a => (m.core c).sram.read a

/-! ### Links (R251 to R253, R264, R265) -/

/-- The lanes that a link trains on, of those that work. -/
def lanesFor (caps : BitVec 32) (working : List Nat) : List Nat :=
  let l := (List.range 16).filter fun k => working.contains k
  if l.length % 2 = 1 ∧ caps.getLsbD 0 = false then l.take (l.length - 1) else l

/-- A link that has just trained, with the packets that waited for it (R252, R264, R336). -/
def trained (l : Nat) (o : Offer) (major minor : Nat) (caps : BitVec 32) (waiting : List Packet) : Link :=
  { num := l, up := true, working := (List.range 16).filter fun k => o.lanes.contains k, lanes := lanesFor caps o.lanes,
    major := major, minor := minor, caps := caps, steps := o.steps, stop := 0, txq := waiting, sent := [], again := [],
    replays := 0, asked := [] }

/-! ### The Canal (R258 to R263, R274 to R277) -/

/-- The module belongs to a formed group and has not left it (R274). -/
def Member (k : Canal) : Prop := k.group.isSome = true ∧ k.formed = true ∧ k.left = false

/-- The frame of `cnl.post` or `cnl.rel`: one entry of 16 bytes (R260, R275, R276). -/
def postedFrame (m : Mod) (c : Nat) (b : Block) (kind idx : Nat) (add : Bool) (val : W64) (deps : List Nat) : OutFrame :=
  { kind := kind, pay := leBytes 8 (idx + if add then 2 ^ 8 else 0) ++ leBytes 8 val.toNat, at_ := m.clock, core := c,
    held := kind = 1 && !m.allPerformed deps, deps := deps, asid := m.asidOf b.launch, launch := b.launch }

/-- A queued frame as it leaves under the barge's number (R258, R259). -/
def stamped (b : Barge) (sender : Nat) (f : OutFrame) : Frame :=
  let fr : Frame := { group := b.group, sender := sender, resv := 0, kind := f.kind, seq := b.seq, len := f.pay.length,
                      crc := 0, pay := f.pay }
  { fr with crc := frameCrc fr }

/-- A queue with one more frame: behind the others, but before those that higher cores issued in the same cycle
(R274). -/
def QueuedFrame (q q' : List OutFrame) (f : OutFrame) : Prop :=
  ∃ l1 l2, q = l1 ++ l2 ∧ q' = l1 ++ f :: l2 ∧ (∀ y ∈ l1, ¬(y.at_ = f.at_ ∧ f.core < y.core)) ∧
    ∀ y, l2.head? = some y → y.at_ = f.at_ ∧ f.core < y.core

/-- The condition of a Canal wait (R277). -/
def Meets (cond : Nat) (word cmp : W64) : Prop :=
  match cond with
  | 0 => cmp.toNat ≤ word.toNat
  | 1 => word = cmp
  | 2 => word ≠ cmp
  | _ => True

/-- A word of the replica after one entry of a frame of a sender (R260). -/
def afterEntry (sender : Nat) (pay : List Byte) (member idx : Nat) (v : W64) (i : Nat) : W64 :=
  let w := leNat ((pay.drop (16 * i)).take 8)
  let val := BitVec.ofNat 64 (leNat ((pay.drop (16 * i + 8)).take 8))
  if member = sender ∧ w % 256 = idx ∧ w < 512 then (if w / 256 = 1 then v + val else val) else v

/-- A held wait has ended: its results land at a cycle, and its threads are in gap until then at the least, or held by another
wait that their bundle began (R145). -/
def WaitEnded (m m' : Mod) (c : Nat) (g : GWait) (land : Nat) (vals : List (Nat × W64)) : Prop :=
  outside m' = outside m ∧ (∀ d, d ≠ c → m'.core d = m.core d) ∧ (∀ y ∈ (m'.core c).waits, y.id ≠ g.id) ∧
  (∀ p ∈ vals, ∀ lanes v0, { id := g.id, dest := .s g.warp p.1, val := v0, land := none, kind := .held, lanes := lanes } ∈
    (m.core c).flights → { id := g.id, dest := .s g.warp p.1, val := p.2, land := some land, kind := .held,
                           lanes := lanes } ∈ (m'.core c).flights) ∧
  ∀ l ∈ g.lanes, ∀ th, m.thread? c g.warp l = some th → th.run = .blocked g.id →
    m'.thread? c g.warp l = some { th with
      notBefore := max th.notBefore land
      run := ((m'.core c).heldBy g.warp l).getD (.gap (max th.notBefore land)) }

/-- One of the waits that end together 2 c from now has ended: its results are on their way, and its threads, those of no other
wait, are in gap until then at the least; they acquire below a number, if one is given (R145, R277). -/
def WaitsEnd (m m' : Mod) (c : Nat) (g : GWait) (vals : List (Nat × W64)) (seen : Option Nat) : Prop :=
  let land := m.clock + 2
  (∀ y ∈ (m'.core c).waits, y.id ≠ g.id) ∧
  (∀ p ∈ vals, ∀ lanes v0, { id := g.id, dest := .s g.warp p.1, val := v0, land := none, kind := .held, lanes := lanes } ∈
    (m.core c).flights → { id := g.id, dest := .s g.warp p.1, val := p.2, land := some land, kind := .held,
                           lanes := lanes } ∈ (m'.core c).flights) ∧
  ∀ l ∈ g.lanes, ∀ th, m.thread? c g.warp l = some th → th.run = .blocked g.id →
    (∀ y ∈ (m.core c).waits, y.id ≠ g.id → y.warp = g.warp → l ∉ y.lanes) →
    m'.thread? c g.warp l = some { th with
      notBefore := max th.notBefore land
      run := ((m'.core c).heldBy g.warp l).getD (.gap (max th.notBefore land))
      seen := seen.getD th.seen }

/-! ### Leat (R278 to R284) -/

/-- The status of a handle's 64 bits on a die (R282). -/
def LeatStatus (m : Mod) (die : Nat) (hd : W64) (v : Nat) : Prop :=
  let n : W32 := hd.extractLsb' 0 32
  let age := (m.leat.counters.getD die 0 - n).toNat
  let known := part hd 32 2 = die ∧ part hd 34 30 = 0 ∧ 1 ≤ age ∧ age ≤ 2 ^ 31
  let runs := (∃ x ∈ m.leat.ctxs, x.die = die ∧ x.handle = n) ∨ m.savedRun die n = true
  (¬known → v = 6) ∧ (known → 65536 < age → v = 1) ∧ (known → age ≤ 65536 → runs → v = 0) ∧
  (known → age ≤ 65536 → ¬runs → ∀ p, m.leat.done.find? (fun p => p.1 == die && p.2.1 == n) = some p → v = p.2.2)

/-- A run block that R279 accepts on a grid; a saved run counts among those of its members. -/
def LegalRun (m : Mod) (b : Block) (la : Launch) (g : GridCtx) (ws : List W64) : Prop :=
  let w0 := (getR ws 0).toNat
  let w3 := getR ws 3
  let w4 := (getR ws 4).toNat
  w0 % 8 = 0 ∧ w0 < 2 ^ 21 ∧ w0 + 8 ≤ la.rec_.scratch ∧
  (∀ k < 5, sideOf (getR ws 1) k ≤ sideOf g.coord k ∧ sideOf g.coord k ≤ sideOf (getR ws 2) k) ∧
  part w3 41 23 = 0 ∧ (w3.getLsbD 40 = true → part w3 32 8 < b.weirs.length) ∧
  w4 % 64 = 0 ∧ w4 < 2 ^ 21 ∧ w4 + 192 ≤ la.rec_.scratch ∧ getR ws 5 = 0 ∧ getR ws 6 = 0 ∧ getR ws 7 = 0 ∧
  g.verMajor ≠ 0 ∧
  ∀ x ∈ m.leat.ctxs ++ m.saved.flatMap (·.leat), ¬(x.grid = g.num ∧ x.lows = getR ws 1 ∧ x.highs = getR ws 2 ∧
    x.key = w3.extractLsb' 0 32)

/-- The context of a run that has just begun (R279, R280, R284). -/
def newRun (m : Mod) (c w : Nat) (ls : List Nat) (b : Block) (la : Launch) (g : GridCtx) (ws : List W64) : LtCtx :=
  { die := c / 256, handle := m.leat.counters.getD (c / 256) 0, core := c, block := b.uid, launch := la.handle,
    grid := g.num, asid := la.asid, prog := (getR ws 0).toNat, lows := getR ws 1, highs := getR ws 2,
    key := (getR ws 3).extractLsb' 0 32, weir := if (getR ws 3).getLsbD 40 then some (part (getR ws 3) 32 8) else none,
    rec_ := (getR ws 4).toNat, cn := false, kth := 0, admitted := true, step := 0, values := [0, 0, 0, 0],
    trips := [0, 0, 0, 0], store := [], out := [], sentNum := [], takenNum := [], sentB := 0, recvB := 0, zeros := 0,
    subn := 0, infs := 0, nans := 0, emax := 0, emin := 255, bins := List.replicate 32 0, err := false, met := false,
    deps := m.releaseSet c w ls }

/-- A run of warp w that has begun: its die's counter has advanced, and the regions that its steps name are remembered (R280,
R333). -/
def begun (m : Mod) (x : LtCtx) (w : Nat) : Mod :=
  { m with leat := { m.leat with
    ctxs := m.leat.ctxs ++ [x], counters := m.leat.counters.set x.die (x.handle + 1), hot := m.liveHot ++ [m.hotRun x w] } }

/-- A context that may go on: admitted, the writes before it performed, its tenant not stopped (R280, R281). -/
def MayStep (m : Mod) (x : LtCtx) : Prop :=
  x.admitted = true ∧ m.allPerformed x.deps = true ∧ m.frozen x.asid = false

/-- The step word that a context of a block has reached (R327). -/
def stepWord (m : Mod) (x : LtCtx) (b : Block) : W64 := BitVec.ofNat 64 (poolWord m x.core (b.at_ (x.prog + 8 * x.step)) 8)

/-- A run has ended with a status: its context is gone and its handle's status recorded (R282, R283). -/
def RunOver (m' : Mod) (x : LtCtx) (st : Nat) : Prop :=
  (∀ y ∈ m'.leat.ctxs, ¬(y.die = x.die ∧ y.handle = x.handle)) ∧ m'.leat.done.head? = some (x.die, x.handle, st)

/-- The bytes of a data step's buffer (R325). -/
def bufLen (v : W64) : Nat := 8 * part v 51 13

/-- The offset of a data step's chunk of the buffer that starts at an offset in units of 8 bytes (R325). -/
def chunkAt (x : LtCtx) (v : W64) (unit : Nat) : Nat :=
  8 * unit + (if part v 31 2 = 0 then 0 else x.values.getD (part v 31 2) 0) * bufLen v

/-- The elements of a data step's buffer at an offset, widened (R328). -/
def elementsAt (m : Mod) (x : LtCtx) (b : Block) (v : W64) (off : Nat) : List Nat :=
  ltWide (part v 4 2) ((List.range (bufLen v)).map fun i => byteAt m x.core (b.at_ (off + i)))

/-- The bytes of a buffer's element (R325). -/
def elementSize (v : W64) : Nat := if part v 4 2 = 1 ∨ part v 4 2 = 2 then 2 else 4

/-- The bytes that a data step stores for its results: each rounded once where the write is final, and none where it is not and the
type is narrower (R328). -/
def storedBytes (v : W64) (rs : List Nat) : List Byte :=
  if v.getLsbD 3 = false ∧ elementSize v = 2 then [] else rs.flatMap fun r =>
    leBytes (elementSize v) (if v.getLsbD 3 ∧ part v 4 2 ≠ 3 then convert 10 (ltTy (part v 4 2)) r else r)

/-- A context once its step's results are counted: those of a final write of floats (R284, R328). -/
def counted (v : W64) (x : LtCtx) (rs : List Nat) : LtCtx :=
  if v.getLsbD 3 ∧ part v 4 2 ≠ 3 then rs.foldl (fun y r => y.tally r) x else x

/-- A context that has handed over elements for a peer under number id; to an absent one nothing is sent, and err is set (R332,
R439). -/
def handedOver (m : Mod) (x : LtCtx) (peer : W64) (rs : List Nat) : LtCtx :=
  if m.peerGone x peer then { x with err := true }
  else { x with
    out := x.out ++ [{ id := m.next, peer := peer, num := numOf x.sentNum peer, pay := rs.flatMap (leBytes 4 ·), sent := 0,
                       parked := false }]
    sentNum := bumpNum x.sentNum peer
    sentB := x.sentB + 4 * rs.length }

/-- The message that a `take` from a peer finds, in the receive store or the pool, with the context and the pool that it leaves
(R329, R330). -/
def FindsMessage (m : Mod) (x : LtCtx) (peer : W64) (g : LtMsg) (x0 : LtCtx) (pool : List (Nat × LtMsg)) : Prop :=
  let whole := fun (g : LtMsg) => g.src == peer && g.num == numOf x.takenNum peer % 2 ^ 20 && decide (g.total ≤ g.pay.length)
  let mine := fun (g : LtMsg) => g.asid == x.asid && g.ctx == x.grid && g.lows == x.lows && g.highs == x.highs && g.key == x.key
  (x.store.find? whole = some g ∧ x0 = { x with store := x.store.erase g } ∧ pool = m.leat.pool) ∨
  (x.store.find? whole = none ∧ x0 = x ∧ ∃ l, m.leat.pool.find? (fun y => whole y.2 && mine y.2) = some (l, g) ∧
    pool = m.leat.pool.erase (l, g))

/-- What `take` gives a step for as many elements as it has: those of the message, or the identities of an absent peer, with the
context and the pool that it leaves (R329, R332). -/
def Takes (m : Mod) (x : LtCtx) (v : W64) (peer : W64) (ls : List Nat) (x1 : LtCtx) (pool : List (Nat × LtMsg))
    (vals : List Nat) : Prop :=
  (m.peerGone x peer = true ∧ x1 = { x with err := true } ∧ pool = m.leat.pool ∧
    vals = ls.map fun l => ltIdentity (part v 4 2) (part v 6 2) l) ∨
  (m.peerGone x peer = false ∧ ∃ g x0, FindsMessage m x peer g x0 pool ∧ g.pay.length = 4 * ls.length ∧
    x1 = { x0 with takenNum := bumpNum x.takenNum peer, recvB := x.recvB + g.pay.length } ∧
    vals = (List.range ls.length).map fun i => leNat ((g.pay.drop (4 * i)).take 4))

/-- The results of a data step: its own elements combined with others (R328). -/
def combined (v : W64) (ls vals : List Nat) : List Nat := (ls.zip vals).map fun p => ltComb (part v 4 2) (part v 6 2) p.1 p.2

/-- A data step of a context is over: the context stands behind the others as y at its next step, bytes stand from an offset of its
block on, the pool is as given, and of the module nothing else changes but the numbers given out (R323, R328). -/
def StepOver (m m' : Mod) (x y : LtCtx) (b : Block) (off : Nat) (bs : List Byte) (pool : List (Nat × LtMsg)) : Prop :=
  let unmet := fun (l : List LtCtx) => l.map fun z => { z with met := false }
  Writes m { m' with leat := m.leat, next := m.next } x.core (storedAt (byteAt m x.core) (b.at_ off) bs) ∧
  (∃ l, m'.leat.ctxs = l ++ [{ y with step := x.step + 1, met := false }] ∧
    unmet l = unmet (m.leat.ctxs.filter fun z => !(z.die == x.die && z.handle == x.handle))) ∧
  m'.leat = { m.leat with ctxs := m'.leat.ctxs, pool := pool }

/-- A data step that R325, R326 or R328 ends with status 3 whatever message comes. -/
def BadData (m : Mod) (x : LtCtx) (v : W64) : Prop :=
  let op := part v 0 3
  let size := m.ltScratch x
  bufLen v = 0 ∨ size < chunkAt x v (part v 33 18) + bufLen v ∨
  (op = 1 ∧ (v.getLsbD 3 = true ∨ part v 6 2 ≠ 0)) ∨ (op ≤ 2 ∧ part v 23 8 ≠ 0) ∨
  (op ≤ 3 ∧ m.ltPeer x (part v 8 3) (part v 11 12) = none) ∨ (op = 3 ∧ m.ltPeer x (part v 8 3) (part v 23 8) = none) ∨
  (op = 4 ∧ ((v.getLsbD 3 = false ∧ elementSize v = 2) ∨ part v 8 3 ≠ 0 ∨ part v 29 2 ≠ 0 ∨
    size < chunkAt x v (part v 11 18) + bufLen v))

/-- A loop step that R326 ends with status 3. -/
def BadLoop (x : LtCtx) (v : W64) : Prop :=
  6 ≤ part v 8 3 ∨ part v 6 2 ≠ 0 ∨ (v.getLsbD 3 = false ∧ (part v 51 13 = 0 ∨ part v 23 28 ≠ 0)) ∨
  (v.getLsbD 3 = true ∧ (x.trips.getD (part v 4 2) 0 = 0 ∨ part v 23 10 ≠ 0 ∨ part v 51 13 ≠ 0))

/-- The modulus of a loop step: the members along an axis of the pattern, or all (R326). -/
def loopSize (x : LtCtx) (v : W64) : Nat :=
  if part v 8 3 < 5 then sideOf x.highs (part v 8 3) - sideOf x.lows (part v 8 3) + 1 else patSize x.lows x.highs

/-- A context has been served: it stands behind the others of its die, as y (R323). -/
def servedAs (m : Mod) (x y : LtCtx) : Mod :=
  { m with leat := { m.leat with ctxs := m.leat.ctxs.filter (fun z => !(z.die == x.die && z.handle == x.handle)) ++ [y] } }

end Sys2Proof.Claims
end

