-- ==== Sys2Proof/Safety/Tasks.lean ====
section
/-! DEFINITION. What tasks, veneers, steals, the cutting list and flumes do, in the terms of claims. -/

namespace Sys2Proof.Claims

open Machine

/-! ### Tasks (R346 to R364) -/

/-- The record of a task that a thread spawns: its payload registers, zeros up to eight, entry and tile mask (R348,
R349). -/
def spawned (x : Issue) (b : Block) (f : FmtE) (w l id : Nat) : TaskRec :=
  let first := f.imm16.toNat % 2 ^ 8
  let k := f.imm16.toNat / 2 ^ 8 % 2 ^ 4
  { id := id, block := b.uid, pay := (List.range 8).map fun i => if i < k then x.v w l (first + i) else 0,
    entry := x.s w f.a.toNat, mask := (x.s w f.b.toNat).extractLsb' 0 8, deps := [], wild := false }

/-- The child that a spawn enters in the join structure (R359). -/
def child (m : Mod) (c w l n id : Nat) (b : Block) (mask : BitVec 8) : Child :=
  { id := id, parent := m.parentOf c w l, core := c, block := b.uid, counter := n, mask := mask, views := [], viewCore := c,
    viewBlock := b.uid, ended := false, poisoned := false, marked := false, counted := false, wild := false, deps := [] }

/-- A block whose join counter n has risen by k (R346). -/
def risen (b : Block) (n k : Nat) : Block :=
  let j := b.joins.getD n { count := 0, poison := 0 }
  { b with joins := b.joins.set n { count := j.count + BitVec.ofNat 32 k, poison := j.poison } }

/-- The address of the i-th cistern entry of a block from its head (R350). -/
def cisternEntry (b : Block) (r : LRec) (i : Nat) : Nat := b.at_ (r.cistoff + 64 * ((b.cistHead + i) % r.cistlen))

/-- A mask and the tiles that its threads may have views of: at most four, declared, and viewed by each of them (R349). -/
def LegalTiles (m : Mod) (c w : Nat) (ls : List Nat) (r : LRec) (v : W64) : Prop :=
  v.toNat < 256 ∧ ((List.range 8).filter fun t => v.getLsbD t).length ≤ 4 ∧
  ∀ t < 8, v.getLsbD t = true → (r.tiles.getD t 0).getLsbD 32 = true ∧ ∀ l ∈ ls, (m.threadView c w l t).isSome

/-- The end condition of `jwait` on counter n (R361). -/
def Joined (m : Mod) (c w : Nat) (ls : List Nat) (b : Block) (n : Nat) : Prop :=
  (b.joins.getD n { count := 0, poison := 0 }).count = 0 ∧
  ∀ l ∈ ls, ∀ k ∈ m.kids, k.parent = m.parentOf c w l → k.counter ≠ n

/-- The block of the cluster that a steal request may name as its victim (R362). -/
def VictimAt (m : Mod) (c : Nat) (own : Block) (a : W64) (tc : Nat) (v : Block) : Prop :=
  a.toNat < 4096 ∧ a.getLsbD 7 = false ∧ tc = c / 128 * 128 + part a 0 7 ∧
  (m.core tc).blockIn? (part a 8 4) = some v ∧ v.launch = own.launch ∧ v.uid ≠ own.uid

/-- Where a thread's element of its view of tile t lies, if it has one: the tile is declared, the index below the tile's
words, and a view there (R356, R357). -/
def elementAt (m : Mod) (x : Issue) (f : FmtV) (r : LRec) (p : Nat × Nat) : Option Nat :=
  let i := (x.v p.1 p.2 f.a.toNat).toNat
  if (r.tiles.getD f.aux.toNat 0).getLsbD 32 = true ∧ i < r.vnrwords then
    (m.threadView x.core p.1 p.2 f.aux.toNat).map fun v => v.2 + 4 * i
  else none

/-! ### Flumes (R365 to R369) -/

/-- A flume descriptor that R367 accepts. -/
def LegalFlume (a : W64) (scratch : Nat) : Prop :=
  part a 0 21 % 4 = 0 ∧ part a 0 21 + 4 * part a 32 9 ≤ scratch ∧ part a 21 11 = 0 ∧ 1 ≤ part a 32 9 ∧
  part a 32 9 ≤ 256 ∧ part a 41 7 = 0 ∧ 1 ≤ part a 48 9 ∧ part a 48 9 ≤ part a 32 9 ∧ part a 57 7 = 0

/-- Flume n of a block of core c replaced. -/
def withFlumeAt (m : Mod) (c : Nat) (b : Block) (n : Nat) (y : Flume) : Mod :=
  m.onBlock c b.uid fun z => { z with flumes := z.flumes.set n y }

/-- No thread waits on a flume of core c. -/
def NoFlumeWaits (m : Mod) (c : Nat) : Prop :=
  ∀ g ∈ (m.core c).waits, (∀ n v, g.wait ≠ .flmPush n v) ∧ ∀ n d, g.wait ≠ .flmPop n d

end Sys2Proof.Claims
end

