-- ==== Sys2Proof/Safety/Platform.lean ====
section
/-! DEFINITION. What the launch unit, the host protocol and the board do, in the terms of claims. -/

namespace Sys2Proof.Claims

open Machine

/-- An event without a thread, for ring 0 (R418). -/
def plainNote (type asid flags code : Nat) (payload : W64) : Event :=
  { type := type, asid := asid, flags := flags, seq := 0, handle := 0, core := 0xFFFF, warp := 0, lane := 0, code := code,
    pc := 0, payload := payload, time := 0, ring := 0, deps := [] }

/-! ### Launches (R376 to R388) -/

/-- A handle is a launch's alone. -/
def OneHandle (m : Mod) (h : Nat) : Prop := ∀ a ∈ m.launches, ∀ b ∈ m.launches, a.handle = h → b.handle = h → a = b

/-- A block whose threads, tasks and engine commands are over (R82). -/
def BlockOver (m : Mod) (c : Nat) (b : Block) : Prop :=
  b.started = true ∧ b.held = false ∧ b.cistern = [] ∧ b.mailbox = [] ∧ (∀ w ∈ (m.core c).warps, w.block ≠ b.uid) ∧
  (∀ t ∈ (m.core c).millrace, t.block ≠ b.uid) ∧ (∀ k ∈ m.kids, k.block ≠ b.uid ∧ k.viewBlock ≠ b.uid) ∧
  (∀ o ∈ (m.core c).mq, o.block ≠ b.uid) ∧ (∀ r ∈ (m.core c).slq, r.block ≠ b.uid) ∧
  (∀ x ∈ (m.core c).sweeps, x.block ≠ b.uid) ∧ (∀ p ∈ (m.core c).passes, p.block ≠ b.uid) ∧
  (∀ a ∈ (m.core c).arms, a.req.block ≠ b.uid) ∧ (∀ x ∈ m.leat.ctxs, x.block ≠ b.uid) ∧
  ∀ o ∈ m.fabOps, o.block ≠ b.uid

/-- A launch that has nothing left to do (R312, R388). -/
def LaunchOver (m : Mod) (l : Launch) : Prop :=
  l.status = 4 ∧ l.placed = l.rec_.blocks ∧ l.ended = l.rec_.blocks ∧ (∀ r ∈ m.reqs, r.launch ≠ l.handle) ∧
  ∀ o ∈ m.fabOps, o.launch ≠ l.handle

/-- The module translates the 512 bytes of a record of an address space to device memory at pa, for writes (R376). -/
def RecordAt (m : Mod) (asid : Nat) (addr : W64) (pa : Nat) : Prop :=
  addr.toNat % 512 = 0 ∧ ∀ o < 512, m.xlate .launch asid (addr.toNat + o) true = (.ok (pa + o), m)

/-- A launch as its record is accepted (R382, R383). -/
def accepted (m : Mod) (p : Post) (bs : List Byte) (status queuedAt : Nat) : Launch :=
  { handle := m.handles, asid := p.asid, addr := p.addr, rec_ := recordOf bs, status := status, bind := 0,
    queuedAt := queuedAt, placed := 0, ended := 0, go := false, inError := false, errc := 0, dropped := 0, framed := false,
    order := 0, told := (0, 0) }

/-- A word of n bytes written to a record in device memory at pa. -/
def noted (m : Mod) (pa off n val : Nat) : Mod := m.dramWrite (pa + off) (leBytes n val)

/-- What a post of a record comes to (R376, R381 to R383): the reply status, the handle and the module. The record's bytes
are bs, in device memory at pa. -/
def Posted (m : Mod) (p : Post) (bs : List Byte) (pa : Nat) (r : Nat × Nat × Mod) : Prop :=
  let st := leNat ((bs.drop 0x180).take 4)
  let h := m.handles
  let new := noted { m with handles := h + 1 } pa 0x1D8 8 h
  m.devRead .launch p.asid p.addr.toNat 512 = (.ok bs, m) ∧ RecordAt m p.asid p.addr pa ∧
  ((1 ≤ st ∧ st ≤ 4 ∧ r = (1, 0, { m with counters := { m.counters with protocol := m.counters.protocol + 1 } })) ∨
   ((st = 0 ∨ 4 < st) ∧ recordOk bs = false ∧ r = (0, 0, noted m pa 0x180 4 7)) ∨
   ((st = 0 ∨ 4 < st) ∧ recordOk bs = true ∧ (recordOf bs).weightBound = false ∧ (∀ l ∈ m.launches, l.handle ≠ h) ∧
    ((leNat ((bs.drop 0x184).take 4) ≠ 0 ∧
      r = (0, h, { noted new pa 0x180 4 1 with launches := m.launches ++ [accepted m p bs 1 0] })) ∨
     (leNat ((bs.drop 0x184).take 4) = 0 ∧
      r = (0, h, { noted new pa 0x180 4 3 with launches := m.launches ++ [accepted m p bs 3 m.tick], queue := m.queue ++ [h] })))))

/-- A launch gone from the module and its queues. -/
def dropped (m : Mod) (h : Nat) : Mod :=
  { m with launches := m.launches.filter (fun l => l.handle != h), queue := m.queue.filter fun x => x != h }

/-- The completion event of a launch (R388, R418). -/
def endNote (l : Launch) (code : Nat) : Event :=
  { plainNote 2 l.asid 0 code 0 with handle := l.handle, ring := l.rec_.evring }

/-- A block as it starts (R84, R346, R365, R386): the place it was given, weirs, joins and flumes at their start. -/
def FreshBlock (m : Mod) (l : Launch) (b : Block) : Prop :=
  b.uid = m.next ∧ b.launch = l.handle ∧ b.index = l.placed ∧
  b.weirs = List.replicate l.rec_.weirs { t := 0, c := 0, p := 0 } ∧
  b.joins = List.replicate 64 { count := 0, poison := 0 } ∧ b.flumes.length = l.rec_.flumes ∧
  (∀ y ∈ b.flumes, y.count = 0) ∧ b.cistern = [] ∧ b.reserved = 0 ∧ b.cursor = 0 ∧ b.mailbox = [] ∧ b.viewsUsed = [] ∧
  b.waves = 0 ∧ b.started = true ∧ b.held = l.rec_.gridsync

/-- Rows a to a + n − 1 lie apart from rows b to b + k − 1. -/
def Apart (a n b k : Nat) : Prop := k = 0 ∨ b + k ≤ a ∨ a + n ≤ b

/-- The warps of a block as it starts (R133, R134): one for each index, its threads at the kernel's entry with registers
zero. -/
def FreshWarps (r : LRec) (uid : Nat) (ws : List Warp) : Prop :=
  ws.length = r.warps ∧ ∀ i k, ws[i]? = some k → k.block = uid ∧ k.wid = BitVec.ofNat 32 i ∧ k.width = r.width ∧ k.s = [] ∧
    k.threads.length = r.width ∧ ∀ th ∈ k.threads, th.pc = r.kernel ∧ th.v = [] ∧ th.q = 0 ∧ th.run = .ready ∧ th.task = none

/-- The threads of a wait whose timers have reached their launch's limit in milliseconds, and that were neither reported nor
stopped by `brk` (R394). -/
def late (m : Mod) (c : Nat) (g : GWait) : List Nat :=
  let due := g.timers.filter fun t => decide ((m.recOf c g.warp).wdog * 1000000 * Config.ticksPerNs ≤ m.tick - t.2)
  (due.map (·.1)).filter fun l => !g.told.contains l && ((m.thread? c g.warp l).map (·.run)).any fun r => r != .stopped

/-- The 64 bytes of an event record (R418). -/
def recordOfEvent (e : Event) : List Byte :=
  leBytes 2 e.type ++ leBytes 1 e.asid ++ leBytes 1 e.flags ++ leBytes 4 e.seq ++ leBytes 8 e.handle ++ leBytes 2 e.core ++
    leBytes 1 e.warp ++ leBytes 1 e.lane ++ leBytes 4 e.code ++ leBytes 8 e.pc.toNat ++ leBytes 8 e.payload.toNat ++
    leBytes 8 e.time.toNat ++ leBytes 16 0

/-- The runs of the save pool that the areas of evicted warps take, those of saved contexts too (R386, R393). -/
def takenAreas (m : Mod) : List (Nat × Nat) :=
  ((m.cores.flatMap fun k => k.warps.filterMap (·.area)) ++
    m.saved.flatMap fun v => v.cores.flatMap fun k => k.warps.filterMap (·.area)).flatten

/-- Runs of the save pool that are free, in order, as many bytes as n where the pool has them (R386, R393). -/
def FreeRuns (m : Mod) (runs : List (Nat × Nat)) (n : Nat) : Prop :=
  (∀ x ∈ runs, x.1 + x.2 ≤ m.savePool.getD 0 ∧ ∀ t ∈ takenAreas m, t.2 = 0 ∨ t.1 + t.2 ≤ x.1 ∨ x.1 + x.2 ≤ t.1) ∧
  (runs.Pairwise fun x y => x.1 + x.2 ≤ y.1) ∧
  (((takenAreas m).map (·.2)).sum + n ≤ m.savePool.getD 0 → (runs.map (·.2)).sum = n)

/-- A thread of a warp that is restored: one that is free to go on is ready no earlier than this cycle (R153). -/
def returned (clock : Nat) (t : Thread) : Thread :=
  match t.run with
  | .ready => { t with stamp := clock }
  | .gap u => { t with run := .gap (max u clock) }
  | _ => t

/-! ### Saves and the board (R408 to R414, R430 to R437) -/

/-- The save state of an address space of the module changed. -/
def withSave (m : Mod) (y : Asid) (x : SaveState) : Mod :=
  { m with asids := upsert (fun z => z.num == y.num) { y with save := x } m.asids }

/-- A memory lies below n. -/
def Within (mem : Memory) (n : Nat) : Prop := mem.wf = true ∧ ∀ e ∈ mem, e.1 < n

/-- The slot whose image boots: the one written last if it holds a valid image, else the other (R431, R432, R435). -/
def Boots (x : Security) (slot : Nat) (img : FwImage) : Prop :=
  let valid := fun (i : Nat) => ∃ y, x.slots.getD i none = some y ∧ x.fused ≤ y.index
  x.slots.getD slot none = some img ∧ x.fused ≤ img.index ∧ (slot = x.newest ∨ (slot = 1 - x.newest ∧ ¬valid x.newest))

/-- The memory regions with the one that a request tells of (R429). -/
def registered (m : Mod) (q : RoceReq) : Mod :=
  match q.fresh with
  | some x => { m with regions := upsert (fun y => y.key == x.key) x m.regions }
  | none => m

/-- The region that a request names, of an address space, holds n bytes from va on, and its queue pair is one of the 512 (R429). -/
def InRegion (m : Mod) (q : RoceReq) (va n asid : Nat) : Prop :=
  q.qp < 512 ∧ ∃ x, m.regions.find? (fun y => y.key == q.key) = some x ∧ x.base ≤ va ∧ va + n ≤ x.base + x.size ∧ x.asid = asid

/-- An answer to an RDMA request: an acknowledgement with bytes, or a NAK (R429). -/
def roceAnswered (m : Mod) (ack : Bool) (bs : List Byte) : Mod := { m with roceOut := m.roceOut ++ [(ack, bs)] }

/-- A frame discarded and counted at the host port (R423, R424). -/
def portCounted (m : Mod) : Mod := { m with counters := { m.counters with port := m.counters.port + 1 } }

/-- A module right after reset, with its board and its security processor (R435). -/
def ResetModule (m m' : Mod) (b : Board) (sec : Security) : Prop :=
  m'.saved = [] ∧ m'.tlb = [] ∧ m'.shards = [] ∧ m'.hostPort.globals = [] ∧ m'.hostPort.paused = [] ∧ m'.hostPort.notices = 0 ∧
  m'.cores = [] ∧ m'.dram = [] ∧ m'.launches = [] ∧ m'.queue = [] ∧ m'.gen = 1 ∧ m'.pond = [] ∧ m'.clock = 0 ∧
  m'.grids = [] ∧ m'.asids = [] ∧ m'.rings = [] ∧ m'.events = [] ∧ m'.sessions = [] ∧ m'.grants = [] ∧ m'.savePool = none ∧ m'.regions = [] ∧
  m'.canal = Canal.idle ∧ m'.links = [] ∧ m'.fabOps = [] ∧ m'.reqs = [] ∧ m'.leat.ctxs = [] ∧
  m'.counters = { port := 0, droppedEvents := 0, overruns := 0, protocol := 0 } ∧ m'.board = b ∧ m'.security = sec ∧
  m'.tick = m.tick ∧ m'.turn = [] ∧ m'.agenda = m.agenda ∧ m'.boardOut = m.boardOut

/-! ### Host commands (R424 to R428) -/

/-- A payload that holds its last field and nothing outside its fields (R428). -/
def FieldsOnly (need : Nat) (fields : List (Nat × Nat)) (pay : List Byte) : Prop :=
  need ≤ pay.length ∧ ∀ i < pay.length, pay.getD i 0 = 0 ∨ ∃ f ∈ fields, f.1 ≤ i ∧ i < f.1 + f.2

/-- Every session has received a datagram within the last 30 s (R425). -/
def AllAwake (m : Mod) : Prop := ∀ y ∈ m.sessions, m.tick < y.last + 30000000000 * Config.ticksPerNs

/-- A command of an open session, in its turn, under the session's version, with a plain header (R424, R426). -/
def InTurn (m : Mod) (x : Session) (c : Cmd) : Prop :=
  AllAwake m ∧ x ∈ m.sessions ∧ (m.sessions.map (·.num)).Nodup ∧ x.num = c.session ∧ x.next = c.seq ∧ x.held = [] ∧
  x.major = c.major ∧ x.minor = c.minor ∧ c.flags < 4 ∧ c.status = 0 ∧ c.resv = 0

/-- A management session that has proved itself (R425, R428). -/
def Manages (x : Session) : Prop := x.tenant = false ∧ x.proved = true

/-- A session that may act for an address space (R425). -/
def ActsForAsid (x : Session) (a : Nat) : Prop := Manages x ∨ (x.tenant = true ∧ a < 256 ∧ x.asids.getLsbD a = true)

/-- A reply of a version, with its flags: bit 0, and bit 1 for an error (R424). -/
def replyOf (major minor session seq op st : Nat) (pay : List Byte) : Reply :=
  { major := major, minor := minor, flags := if st = 0 then 1 else 3, session := session, seq := seq, op := op, status := st,
    pay := pay }

/-- The module m' once the session's command is answered: the reply is sent and remembered, the next number is due (R424,
R426). -/
def answered (m m' : Mod) (x : Session) (c : Cmd) (op st : Nat) (pay : List Byte) : Mod :=
  { m' with
    replies := m.replies ++ [replyOf x.major x.minor x.num c.seq op st pay],
    sessions := m.sessions.map fun y => if y.num = x.num then
      { y with
        last := m.tick, next := (c.seq + 1) % 2 ^ 32
        replies := (c.seq, st, pay) :: y.replies.filter fun z => z.1 != c.seq } else y }

/-- A command: its step, its op, who may send it, its payload's length and fields, when it succeeds, what it answers, and
the module after it. -/
structure HostRow where
  instr : Instr
  op : Nat
  may : Prop
  need : Nat
  fields : List (Nat × Nat)
  ok : Prop
  status : Nat
  pay : List Byte
  after : Mod

/-- A ring as it is opened (R429). -/
def ringOf (num k qp : Nat) (entries tailAddr : W64) (key : Nat) : Ring :=
  { num := num, k := k, qp := qp, entries := entries, tailAddr := tailAddr, key := key, tail := 0, head := 0, written := [] }

/-- The commands whose effect is one change of the module (R427, R428). -/
def hostRows (m : Mod) (x : Session) (c : Cmd) : List HostRow :=
  let f := fun (lo n : Nat) => leNat ((c.pay.drop lo).take n)
  let w := fun (lo : Nat) => BitVec.ofNat 64 (f lo 8)
  let a := f 0 1
  let old := (m.asid? a).getD { num := a, root := 0, wFabric := 16, wSluice := 16, wHome := 16, bindings := [], save := .none }
  let putAsid := fun (y : Asid) => { m with asids := upsert (fun z => z.num == a) y m.asids }
  let weight := fun (new old : Nat) => if new = 0 then old else new
  let bind : Binding := { num := f 1 1, tag := f 2 2, abase := w 8, bbase := w 16, size := f 24 8, ashr := f 32 8, bshr := f 40 8, sel := f 5 1 == 1, rword := f 4 1 }
  let prep : Prep := { asid := a, g := BitVec.ofNat 32 (f 4 4), word := f 2 1, mask := w 8, posted := none }
  let save := ((m.asid? a).map (·.save)).getD .none
  let us := if f 4 4 = 0 then 200 else f 4 4
  let kind2 : OutFrame := { kind := 2, pay := (c.pay.drop 8).take 32, at_ := m.clock, core := 1024, held := false, deps := [], asid := a, launch := 0 }
  let fw := firmwareCheck m.security.fused (m.dram.readN (f 0 8) (f 8 8))
  [{ instr := .asidConfigure c, op := 0x22, may := Manages x, need := 16, fields := [(0, 1), (1, 1), (2, 1), (3, 1), (8, 8)],
     ok := (∀ l ∈ m.launches, ¬(l.asid = a ∧ l.status = 4)) ∧ save = .none ∧ f 8 8 % 4096 = 0 ∧ f 8 8 < Config.dramBytes,
     status := 0, pay := [],
     after := putAsid { old with root := f 8 8, wFabric := weight (f 1 1) old.wFabric, wSluice := weight (f 2 1) old.wSluice, wHome := weight (f 3 1) old.wHome } },
   { instr := .savePoolConfigure c, op := 0x23, may := Manages x, need := 16, fields := [(0, 8), (8, 8)],
     ok := (∀ l ∈ m.launches, ¬(l.status = 4 ∧ l.rec_.saves ≠ 0)) ∧ f 0 8 < Config.dramBytes ∧ f 0 8 + f 8 8 ≤ Config.dramBytes,
     status := 0, pay := [], after := { m with saveBase := f 0 8, savePool := some (f 8 8) } },
   { instr := .tenantGrant c, op := 0x24, may := Manages x, need := 32, fields := [(0, 32)], ok := True, status := 0,
     pay := leBytes 8 (m.grants.length + 1),
     after := { m with grants := m.grants ++ [(m.grants.length + 1, BitVec.ofNat 256 (f 0 32))] } },
   { instr := .gridContextLoad c, op := 0x20, may := Manages x, need := 20, fields := [(0, 1), (1, 1), (8, 8), (16, 4)],
     ok := a ≤ 7 ∧ f 1 1 = 0 ∧ f 8 8 < Config.dramBytes ∧ f 8 8 + f 16 4 ≤ Config.dramBytes ∧ m.gridBusy a = true, status := 16, pay := [], after := m },
   { instr := .bindingLoad c, op := 0x30, may := ActsForAsid x a, need := 48,
     fields := [(0, 1), (1, 1), (2, 2), (4, 1), (5, 1), (8, 8), (16, 8), (24, 8), (32, 8), (40, 8)],
     ok := f 5 1 ≤ 1 ∧ m.bindingOk a bind = true, status := 0, pay := [],
     after := putAsid { old with bindings := old.bindings.filter (fun y => y.num != bind.num) ++ [bind] } },
   { instr := .switchPrepare c, op := 0x32, may := ActsForAsid x a, need := 16, fields := [(0, 1), (2, 1), (4, 4), (8, 8)],
     ok := f 4 4 ≠ 0, status := 0, pay := [],
     after := { m with preps := m.preps.filter (fun y => !(y.asid == prep.asid && y.word == prep.word)) ++ [prep] } },
   { instr := .switchRequest c, op := 0x33, may := ActsForAsid x a, need := 40, fields := [(0, 1), (8, 32)],
     ok := Member m.canal ∧ m.canal.q.length < 64 ∧ ∀ y ∈ m.canal.q, y.core ≤ 1024, status := 0, pay := [],
     after := { m with canal := { m.canal with q := m.canal.q ++ [kind2] } } },
   { instr := .save c, op := 0x40, may := Manages x, need := 24, fields := [(0, 1), (4, 4), (8, 8), (16, 8)],
     ok := f 4 4 ≤ 10000 ∧ m.blocksOf a ≠ [] ∧ m.imageSize a ≤ f 16 8 ∧ f 8 8 < Config.dramBytes ∧
       f 8 8 + f 16 8 ≤ Config.dramBytes ∧ save = .none,
     status := 0, pay := [],
     after := putAsid { old with save := .pending (m.tick + us * 1000 * Config.ticksPerNs) (w 8) (m.imageSize a) } },
   { instr := .restore c, op := 0x41, may := Manages x, need := 16, fields := [(0, 1), (8, 8)],
     ok := (∃ i, save = .saved i) ∧ ∃ v, m.saved.find? (fun v => v.asid == a) = some v ∧ m.imageIntact v (w 8) = true,
     status := 0, pay := [], after := putAsid { old with save := .restoring (w 8) } },
   { instr := .ringOpen c, op := 0x60, may := Manages x ∨ x.tenant = true, need := 28,
     fields := [(0, 1), (1, 1), (4, 4), (8, 8), (16, 8), (24, 4)],
     ok := (∀ r ∈ m.rings, r.num ≠ a) ∧ 4 ≤ f 1 1 ∧ f 1 1 ≤ 16 ∧ f 4 4 < 512, status := 0, pay := [],
     after := { m with rings := m.rings ++ [ringOf a (f 1 1) (f 4 4) (w 8) (w 16) (f 24 4)] } },
   { instr := .ringClose c, op := 0x61, may := Manages x ∨ x.tenant = true, need := 1, fields := [(0, 1)],
     ok := ∃ r ∈ m.rings, r.num = a, status := 0, pay := [],
     after := { m with rings := m.rings.filter fun r => r.num != a } },
   { instr := .ringHeadUpdate c, op := 0x62, may := Manages x ∨ x.tenant = true, need := 16, fields := [(0, 1), (8, 8)],
     ok := (m.rings.map (·.num)).Nodup ∧ ∃ r ∈ m.rings, r.num = a ∧ r.head ≤ f 8 8 ∧ f 8 8 ≤ r.tail, status := 0, pay := [],
     after := { m with rings := m.rings.map fun r => if r.num = a then { r with head := f 8 8 } else r } },
   { instr := .attestationRequest c, op := 0x70, may := ActsForAsid x (f 0 2) ∧ x.caps.getLsbD 1 = true, need := 72,
     fields := [(0, 2), (8, 64)], ok := f 0 2 < 256, status := 0,
     pay := m.reportBody (f 0 2) ((c.pay.drop 8).take 64) ++
       padTo 512 (Config.pssSign m.security.identity (m.reportBody (f 0 2) ((c.pay.drop 8).take 64))), after := m },
   { instr := .firmwareUpdate c, op := 0x80, may := Manages x ∧ x.caps.getLsbD 2 = true, need := 16, fields := [(0, 8), (8, 8)],
     ok := (∀ l ∈ m.launches, l.status ≠ 4) ∧ f 0 8 < Config.dramBytes ∧ f 0 8 + f 8 8 ≤ Config.dramBytes ∧ fw.1 = 0, status := 0, pay := [],
     after := { m with security := { m.security with slots := m.security.slots.set (1 - m.security.running) (some fw.2), newest := 1 - m.security.running } } },
   { instr := .readCounters c, op := 0x90, may := Manages x ∨ x.tenant = true, need := 1, fields := [(0, 1)], ok := a ≤ 3,
     status := 0, pay := leBytes 8 1 ++ leBytes 8 (if a = 0 then m.counters.port else if a = 1 then m.counters.droppedEvents else if a = 2 then m.counters.overruns else m.counters.protocol),
     after := m }]

/-- The commands of R427 that belong to a session, with their ops. -/
def hostOps (c : Cmd) : List (Instr × Nat) :=
  [(.sessionClose c, 0x02), (.sessionProof c, 0x03), (.postLaunch c, 0x10), (.readRecordStatus c, 0x11),
   (.resumeBrkThread c, 0x12), (.gridContextLoad c, 0x20), (.gridContextCommit c, 0x20), (.canalGroupConfigure c, 0x21),
   (.asidConfigure c, 0x22), (.savePoolConfigure c, 0x23), (.tenantGrant c, 0x24), (.bindingLoad c, 0x30),
   (.shardLoad c, 0x31), (.switchPrepare c, 0x32), (.switchRequest c, 0x33), (.readShardReady c, 0x34), (.save c, 0x40),
   (.restore c, 0x41), (.reset c, 0x42), (.inval c, 0x50), (.ringOpen c, 0x60), (.ringClose c, 0x61),
   (.ringHeadUpdate c, 0x62), (.attestationRequest c, 0x70), (.firmwareUpdate c, 0x80), (.readCounters c, 0x90)]

/-- A datagram of a session has come (R425). -/
def heard (m : Mod) (x : Session) : Mod :=
  { m with sessions := m.sessions.map fun y => if y.num = x.num then { y with last := m.tick } else y }

/-- A reply of a version sent, and nothing else (R424). -/
def replied (m : Mod) (major minor session seq op st : Nat) (pay : List Byte) : Mod :=
  { m with replies := m.replies ++ [replyOf major minor session seq op st pay] }

/-- One session of a module changed. -/
def withSession (m : Mod) (x : Session) (f : Session → Session) : Mod :=
  { m with sessions := m.sessions.map fun y => if y.num = x.num then f y else y }

/-- The session that an open command gives (R425): this device offers 1.2 and capabilities 0 to 2. -/
def opened (m : Mod) (c : Cmd) (tenant : Bool) (asids : BitVec 256) : Session :=
  let hi := leNat (c.pay.take 1)
  { num := m.sessionNum, tenant := tenant, proved := false, asids := asids, major := 1,
    minor := if hi = 1 then min 2 (leNat ((c.pay.drop 1).take 1)) else 2,
    caps := BitVec.ofNat 32 (leNat ((c.pay.drop 4).take 4)) &&& 7, next := (c.seq + 1) % 2 ^ 32, held := [], replies := [],
    challenge := if tenant then 0 else Config.challenge m.sessionNum, last := m.tick, opening := some c }

/-- The reply payload of an open command (R428). -/
def openPay (x : Session) : List Byte :=
  leBytes 1 x.major ++ leBytes 1 x.minor ++ leBytes 2 0 ++ leBytes 4 x.caps.toNat ++ leBytes 4 x.num ++ leBytes 4 0 ++
    leBytes 64 x.challenge.toNat

/-- The ops of R427 that a tenant may send, and those among them whose payload names an ASID in byte 0. -/
def tenantOps : List Nat :=
  [0x02, 0x10, 0x11, 0x12, 0x30, 0x31, 0x32, 0x33, 0x34, 0x60, 0x61, 0x62, 0x70, 0x90]

/-- The ops of tenants that name an ASID in payload byte 0 (R428). -/
def asidOps : List Nat := [0x10, 0x11, 0x12, 0x30, 0x31, 0x32, 0x33, 0x34]

/-- A session that R425, R427 and R428 do not allow an op with a payload. -/
def NotPermitted (x : Session) (op : Nat) (pay : List Byte) : Prop :=
  (x.tenant = true ∧ op ∉ tenantOps) ∨
  (x.tenant = true ∧ op ∈ asidOps ∧ x.asids.getLsbD (leNat (pay.take 1)) = false) ∨
  (x.tenant = false ∧ x.proved = false ∧ op ≠ 2 ∧ op ≠ 3) ∨ (x.tenant = false ∧ x.proved = true ∧ op = 3) ∨
  (op = 0x70 ∧ x.caps.getLsbD 1 = false) ∨ (op = 0x80 ∧ x.caps.getLsbD 2 = false)

/-- A shard as it is loaded (R341, R342). -/
def newShard (m : Mod) (f : Nat → Nat → Nat) : Shard :=
  { num := m.next, asid := f 0 1, binding := f 1 1, copy := f 2 1 == 1, off := f 8 8, len := f 16 8,
    deadline := m.tick + f 4 4 * 1000 * Config.ticksPerNs + 1, word := 0, staging := f 24 8, staged := 0, chunks := [],
    kept := [], freed := none }

/-- Grid context n of an image's bytes, as R428 lays them out. -/
def ImageOf (bs : List Byte) (num : Nat) (g : GridCtx) : Prop :=
  let f := fun (lo n : Nat) => leNat ((bs.drop lo).take n)
  g.num = num ∧ g.active = false ∧ g.n = f 0 1 ∧ (∀ k < 5, g.ext.getD k 0 = f (2 + 2 * k) 2) ∧
  g.coord = BitVec.ofNat 64 (f 16 8) ∧ g.allowance = f 24 4 ∧ g.verMajor = f 28 1 ∧ g.verMinor = f 29 1 ∧
  g.asids = BitVec.ofNat 256 (f 32 32) ∧ g.rules.length = f 64 4 ∧
  ∀ i < g.rules.length, g.rules[i]? = some { w0 := BitVec.ofNat 64 (f (128 + 16 * i) 8), w1 := BitVec.ofNat 64 (f (136 + 16 * i) 8) }

end Sys2Proof.Claims
end

