-- ==== Sys2Proof/Certificates/Slice0/Obligations.lean ====
section
/-! DEFINITION. The statements for the provers. -/

open Sys2Proof Sys2Proof.Machine Sys2Proof.Claims

/-! ### Uniform instructions -/

/-- R68: each of the fourteen two-source uniform operations completes and gives its register the result, computed at the
type's width and extended to 64 bits, 2 c after issue; nothing else changes. R69: the moves and the select complete and give
their register its value 2 c after issue; nothing else changes. R70: `scmp` completes and gives its register 1 or 0, and,
where qd names one, the predicate of every thread whose guard is true, 2 c after issue; nothing else changes. Completes:
`sli`, `slih`, `smov`, `scmp`, `ssel`, `sadd`, `ssub`, `smul`, `smulh`, `sdiv`, `srem`, `sand`, `sor`, `sxor`, `sshl`, `sshr`,
`ssra`, `smin`, `smax`. -/
def Obligations.UniformResults : Prop :=
  (∀ row ∈ uniformRows, ∀ (h : Hdr) (f : FmtV) (s : State) (x : Issue) (t : BSlot) (ts : List BSlot) (w : Nat)
    (ls : List Nat), (row.1 h f).wf = true → AtSlot s x t ts → ActsFor x h w ls →
    ∃ u, exec (row.1 h f) s = .next u ∧
      Gives s x t ts [inS x w f.d.toNat (uniformValue row.2 (typeOf f) (x.s w f.a.toNat) (uniformB x f w)) 2] u) ∧
  (∀ (h : Hdr) (s : State) (x : Issue) (t : BSlot) (ts : List BSlot) (w : Nat) (ls : List Nat),
    AtSlot s x t ts → ActsFor x h w ls →
    (∀ f : FmtI, f.minor = 2 → ∃ u, exec (.sli h f) s = .next u ∧
      Gives s x t ts [inS x w f.d.toNat (f.imm32.signExtend 64) 2] u) ∧
    (∀ f : FmtI, f.minor = 6 → ∃ u, exec (.sli h f) s = .next u ∧
      Gives s x t ts [inS x w f.d.toNat (f.imm32.setWidth 64) 2] u) ∧
    (∀ f : FmtI, ∃ u, exec (.slih h f) s = .next u ∧
      Gives s x t ts [inS x w f.d.toNat (f.imm32 ++ (x.s w f.d.toNat).extractLsb' 0 32) 2] u) ∧
    (∀ f : FmtV, ∃ u, exec (.smov h f) s = .next u ∧ Gives s x t ts [inS x w f.d.toNat (x.s w f.a.toNat) 2] u) ∧
    (∀ f : FmtV, ∃ u, exec (.ssel h f) s = .next u ∧
      Gives s x t ts [inS x w f.d.toNat (if x.s w f.c.toNat ≠ 0 then x.s w f.a.toNat else uniformB x f w) 2] u)) ∧
  (∀ (h : Hdr) (f : FmtV) (s : State) (x : Issue) (t : BSlot) (ts : List BSlot) (w : Nat) (ls : List Nat),
    (Instr.scmp h f).wf = true → AtSlot s x t ts → ActsFor x h w ls → ls.Nodup →
    let r := uniformHolds f.minor (x.s w f.a.toNat) (uniformB x f w)
    ∃ u, exec (.scmp h f) s = .next u ∧
      Gives s x t ts (inS x w f.d.toNat (if r then 1 else 0) 2 ::
        if f.qd = 0 then [] else ls.map fun l => inQ (w, l) f.qd.toNat r 2) u)

/-! ### Vector instructions -/

/-- R103: each vector integer instruction with a register result completes and gives every active thread its result, written
under R100, 4 c after issue; nothing else changes. R103: `vli` completes and gives every active thread the immediate, 4 c
after issue; nothing else changes. R104 and R107: `vcmp` and `vfcmp` complete and give every active thread the predicate,
unless it is q0, and in the second form the register, 4 c after issue; nothing else changes. Completes: `vli`, `vcmp`,
`vfcmp`, `vadd`, `vsub`, `vmulLo`, `vmulHi`, `vmad`, `vand`, `vor`, `vxor`, `vnot`, `vshl`, `vshr`, `vsra`, `vmin`, `vmax`,
`vabs`, `vneg`, `vpopc`, `vclz`, `vbrev`, `vbfe`, `vbfi`, `vsel`, `vmov`. -/
def Obligations.VectorIntegerInstructionResults : Prop :=
  (∀ row ∈ vectorIntRows, ∀ (h : Hdr) (f : FmtV) (s : State) (x : Issue) (t : BSlot) (ts : List BSlot),
    (row.1 h f).wf = true → AtSlot s x t ts → x.group.Nodup →
    ∃ u, exec (row.1 h f) s = .next u ∧
      Gives s x t ts ((actsOn x h f).flatMap fun p => written p f.d.toNat (typeOf f) 4 (row.2 f x p)) u) ∧
  (∀ (h : Hdr) (f : FmtI) (s : State) (x : Issue) (t : BSlot) (ts : List BSlot), AtSlot s x t ts → x.group.Nodup →
    ∃ u, exec (.vli h f) s = .next u ∧
      Gives s x t ts ((threadsOf x h).map fun p => inV p f.d.toNat f.imm32 4) u) ∧
  (∀ (h : Hdr) (f : FmtV) (s : State) (x : Issue) (t : BSlot) (ts : List BSlot), AtSlot s x t ts → x.group.Nodup →
    ((Instr.vcmp h f).wf = true → ∃ u, exec (.vcmp h f) s = .next u ∧
      Gives s x t ts ((actsOn x h f).flatMap fun p => compared p f
        (holds (f.minor.toNat / 16) (typeOf f) (operand x p (typeOf f) f.a.toNat) (operandB x p f (typeOf f)))) u) ∧
    ((Instr.vfcmp h f).wf = true → ∃ u, exec (.vfcmp h f) s = .next u ∧
      Gives s x t ts ((actsOn x h f).flatMap fun p => compared p f
        (floatCond (f.minor.toNat / 16) (num32 (operand x p 10 f.a.toNat)) (num32 (operandB x p f 10)))) u))

/-- R106, R107, R110: each binary32, packed and widening instruction completes and gives every active thread its value at its
latency of R34; nothing else changes. R106: each binary64 instruction completes and gives every active thread's register pair
the rounded value 10 c after issue; nothing else changes. Completes: `vfadd`, `vfsub`, `vfmul`, `vffma`, `vfmin`, `vfmax`,
`vfabs`, `vfneg`, `vhfmaBf16x2`, `vhfmaF16x2`, `vunpk`, `vdadd`, `vdmul`, `vdffma`. -/
def Obligations.VectorFloatInstructionResults : Prop :=
  (∀ row ∈ vectorFloatRows, ∀ (h : Hdr) (f : FmtV) (s : State) (x : Issue) (t : BSlot) (ts : List BSlot),
    AtSlot s x t ts → x.group.Nodup →
    ∃ u, exec (row.1 h f) s = .next u ∧
      Gives s x t ts ((actsOn x h f).map fun p => inV p f.d.toNat
        (row.2.2 f (operand x p 10 f.a.toNat) (operandB x p f 10) (operand x p 10 f.c.toNat)) row.2.1) u) ∧
  (∀ row ∈ vectorDoubleRows, ∀ (h : Hdr) (f : FmtV) (s : State) (x : Issue) (t : BSlot) (ts : List BSlot),
    AtSlot s x t ts → x.group.Nodup →
    let num := fun (v : BitVec 64) => unF f64 v.toNat
    ∃ u, exec (row.1 h f) s = .next u ∧
      Gives s x t ts ((actsOn x h f).flatMap fun p => written p f.d.toNat 11 10
        (BitVec.ofNat 64 (roundNe f64 (row.2 (num (operand x p 11 f.a.toNat)) (num (operandB x p f 11))
          (num (operand x p 11 f.c.toNat)))))) u)

/-- `vcvt` completes and gives every active thread the converted value, `vpack` two rounded values in one word or in one half
of it, 6 c after issue; nothing else changes. Each special function completes and gives every active thread its value 14 c
after issue; nothing else changes. The values of `vexp2`, `vlog2`, `vsin` and `vcos` in the last clause are the model's choice:
the ends of its own enclosures of the exact values (log 10). After parts of R108, R109, R111. Completes: `vcvt`, `vpack`,
`vrcp`, `vrsq`, `vsqrt`, `vdiv`, `vexp2`, `vlog2`, `vsin`, `vcos`. It rests on choices of the model: log 10. -/
def Obligations.ConversionAndSpecialResults : Prop :=
  (∀ (h : Hdr) (f : FmtV) (s : State) (x : Issue) (t : BSlot) (ts : List BSlot), AtSlot s x t ts → x.group.Nodup →
    let src := f.minor.toNat / 16
    let dst := typeOf f
    let into := fun (v : W32) => roundNe (ffmt dst) (num32 v)
    ((Instr.vcvt h f).wf = true → ∃ u, exec (.vcvt h f) s = .next u ∧
      Gives s x t ts ((actsOn x h f).flatMap fun p => written p f.d.toNat dst 6
        (BitVec.ofNat _ (writeNum dst (readNum src (operand x p src f.a.toNat).toNat)))) u) ∧
    ((Instr.vpack h f).wf = true → ∃ u, exec (.vpack h f) s = .next u ∧
      Gives s x t ts ((actsOn x h f).map fun p => inV p f.d.toNat
        (let a := into (operand x p 10 f.a.toNat)
         let b := into (operandB x p f 10)
         let old : W32 := x.v p.1 p.2 f.d.toNat
         if dst = 14 ∨ dst = 15 then BitVec.ofNat 16 b ++ BitVec.ofNat 16 a
         else if f.aux = 0 then old.extractLsb' 16 16 ++ BitVec.ofNat 8 b ++ BitVec.ofNat 8 a
         else BitVec.ofNat 8 b ++ BitVec.ofNat 8 a ++ old.extractLsb' 0 16) 6) u)) ∧
  (∀ row ∈ specialRows, ∀ (h : Hdr) (f : FmtV) (s : State) (x : Issue) (t : BSlot) (ts : List BSlot),
    AtSlot s x t ts → x.group.Nodup →
    ∃ u, exec (row.1 h f) s = .next u ∧
      Gives s x t ts ((actsOn x h f).map fun p => inV p f.d.toNat
        (BitVec.ofNat 32 (row.2 (operand x p 10 f.a.toNat).toNat (operandB x p f 10).toNat)) 14) u)

/-! ### Cross-lane instructions -/

/-- Each shuffle completes and gives every active lane the value of the active lane that it names, or its own, and the
validity predicate, 6 c after issue; nothing else changes. `vballot`, `vany` and `vall` complete and give every active thread
the votes, 10 c after issue; nothing else changes. After parts of R114, R119. Completes: `vballot`, `vany`, `vall`,
`vshflIdx`, `vshflUp`, `vshflDown`, `vshflXor`, `vbcast`. -/
def Obligations.ShuffleAndVoteResults : Prop :=
  (∀ row ∈ shuffleRows, ∀ (h : Hdr) (f : FmtV) (s : State) (x : Issue) (t : BSlot) (ts : List BSlot) (w : Nat)
    (ls : List Nat), AtSlot s x t ts → ActsFor x h w ls → ls.Nodup →
    ∃ u, exec (row.1 h f) s = .next u ∧ Gives s x t ts (ls.flatMap (shuffled x f w ls row.2)) u) ∧
  (∀ (h : Hdr) (f : FmtV) (s : State) (x : Issue) (t : BSlot) (ts : List BSlot) (w : Nat) (ls : List Nat),
    AtSlot s x t ts → ActsFor x h w ls → ls.Nodup →
    (∃ u m, exec (.vballot h f) s = .next u ∧ (∀ i < 64, BitVec.getLsbD m i = ballotBit x f w ls i) ∧
      Gives s x t ts (ls.flatMap fun l => inV (w, l) f.d.toNat (BitVec.extractLsb' 0 32 (m : W64)) 10 ::
        if x.before.widthOf x.core w = 64 then [inV (w, l) (f.d.toNat + 1) (m.extractLsb' 32 32) 10] else []) u) ∧
    (∃ u, exec (.vany h f) s = .next u ∧ Gives s x t ts
      (if f.qd = 0 then [] else ls.map fun l => inQ (w, l) f.qd.toNat (ls.any (vote x f w)) 10) u) ∧
    ∃ u, exec (.vall h f) s = .next u ∧ Gives s x t ts
      (if f.qd = 0 then [] else ls.map fun l => inQ (w, l) f.qd.toNat (ls.all (vote x f w)) 10) u)

/-- R115 to R117: `vred` completes and gives every active thread the fold of the active values; for `add.f32` the sum of the
butterfly at the thread's own relative lane; for `minidx` and `maxidx` the value and the relative lane of the lowest lane that
ranks first. The results land 10 c after issue; nothing else changes. R118: `vscan` completes and gives every active thread
the fold over the active lanes up to its own, or before it in the exclusive form, in ascending lane order, 10 c after issue;
nothing else changes. Completes: `vred`, `vscan`. -/
def Obligations.ReductionAndScanResults : Prop :=
  (∀ (h : Hdr) (f : FmtV) (s : State) (x : Issue) (t : BSlot) (ts : List BSlot) (w : Nat) (ls : List Nat),
    (Instr.vred h f).wf = true → AtSlot s x t ts → ActsFor x h w ls →
    let width := x.before.widthOf x.core w
    let op := f.minor.toNat / 16
    let ty := typeOf f
    let v := fun l => x.v w l f.a.toNat
    (width = 16 ∨ width = 32 ∨ width = 64) → (ls.map (relative width)).Pairwise (· < ·) →
    (op = 0 → ty = 10 → ∃ u, exec (.vred h f) s = .next u ∧ Gives s x t ts (ls.map fun l => inV (w, l) f.d.toNat
      (butterflyAt (fun i => match ls.find? fun k => relative width k == i with | some k => v k | none => 0x80000000)
        (Nat.log2 width) (relative width l)) 10) u) ∧
    (op ≠ 3 → op ≠ 4 → ¬(op = 0 ∧ ty = 10) → ∃ u, exec (.vred h f) s = .next u ∧ Gives s x t ts
      (ls.map fun l => inV (w, l) f.d.toNat (folded op ty (ls.map v)) 10) u) ∧
    (op = 3 ∨ op = 4 → ∃ u, ∃ k ∈ ls, exec (.vred h f) s = .next u ∧
      (∀ j ∈ ls, ranksFirst (op == 4) ty (v j) (v k) = false ∧
        (ranksFirst (op == 4) ty (v k) (v j) = false → relative width k ≤ relative width j)) ∧
      Gives s x t ts (ls.flatMap fun l =>
        [inV (w, l) f.d.toNat (if ty = 10 ∧ (num32 (v k)).isNan = true then 0x7FC00000 else v k) 10,
         inV (w, l) (f.d.toNat + 1) (BitVec.ofNat 32 (relative width k)) 10]) u)) ∧
  (∀ (h : Hdr) (f : FmtV) (s : State) (x : Issue) (t : BSlot) (ts : List BSlot) (w : Nat) (ls : List Nat),
    (Instr.vscan h f).wf = true → AtSlot s x t ts → ActsFor x h w ls →
    let rel := relative (x.before.widthOf x.core w)
    (ls.map rel).Pairwise (· < ·) →
    ∃ u, exec (.vscan h f) s = .next u ∧ Gives s x t ts (ls.map fun l => inV (w, l) f.d.toNat
      (folded (f.minor.toNat / 16) (typeOf f)
        ((ls.filter fun k => if f.aux = 1 then decide (rel k < rel l) else decide (rel k ≤ rel l)).map
          fun k => x.v w k f.a.toNat)) 10) u)

/-! ### The local scratchpad -/

/-- `sld`, `vld` and `vldt` complete for the threads whose address is aligned and in range, where no earlier access of theirs to
the bytes is still to be performed: each gets the bytes at its address, extended below the register's width, at the access's
latency and its bundle's passes; a word that a later pass reaches is read again in it; the other threads of the two vector
forms fault and commit nothing. No byte of memory changes. That `vldt` takes its addresses modulo 2^64 is the model's choice
(log 79). After parts of R71, R121, R123. Completes: `sld`, `vld`, `vldt`. It rests on choices of the model: logs 77, 78, 79
and 93. -/
def Obligations.ScratchpadLoadResults : Prop :=
  ∀ (h : Hdr) (f : FmtM) (s : State) (x : Issue) (t : BSlot) (ts : List BSlot),
    AtSlot s x t ts → x.group.Nodup → NoStores s.now → Known s.now x.core x.group →
    (∀ p ∈ x.group, ∃ b, s.now.blockOf x.core p.1 = some b) →
    let c := x.core
    let at_ := fun (w a : Nat) => s.now.poolAt c w a
    (∀ w ls, (Instr.sld h f).wf = true → ActsFor x h w ls →
      let ty := f.minor.toNat % 16
      let n := tyWidth ty / 8
      let a := at_ w (x.ea f w 0)
      let later := behind [(x.passes, a, .load n ty (.s w f.d.toNat) 0 64)]
      causeAt (x.ea f w 0) n (s.now.scratchOf c w) = none → Settled x.before c (pairs w ls) (fun _ => [(a, n)]) →
      ∃ u, exec (.sld h f) s = .next u ∧
      GivesOver s (afterPort (taking s.now c false [((w, 0), later)]) c (x.passes + 1)) (Taken (past x t ts) 1) x.passes
        [inS x w f.d.toNat (widen ty 64 (BitVec.ofNat (tyWidth ty) (poolWord s.now c a n))) 10] u) ∧
    ((Instr.vld h f).wf = true →
      let n := elemBytes f
      let ps := x.active f.bk h
      let cause := fun (p : Nat × Nat) => causeAt (x.ea f p.1 p.2) n (s.now.scratchOf c p.1)
      let ok := passing ps cause
      let a := fun (p : Nat × Nat) => at_ p.1 (x.ea f p.1 p.2)
      let ws := ok.flatMap fun p => wordsOf (a p) n
      let k := passesOf ws
      let pass := fun (word : Nat) => x.passes + passOf ws word
      let later := ok.map fun p => (p, readsAgain pass p f.d.toNat (a p) n (elemTy f))
      ok ≠ [] → Settled x.before c ok (fun p => [(a p, n)]) → ∃ u, exec (.vld h f) s = .next u ∧
      GivesOver s (afterPort (taking s.now c false later) c (x.passes + k)) (Taken (turned x t ts f.bk ps cause) k)
        (x.passes + k - 1) (ok.flatMap fun p => loaded s.now c p f.d.toNat (elemTy f) (a p) n 10) u) ∧
    ((Instr.vldt h f).wf = true →
      let b := tyWidth (f.aux.toNat % 16) / 8
      let ps := x.active true h
      let addr := fun (p : Nat × Nat) (r : Nat) =>
        (x.ea f p.1 p.2 + r * (f.aux.toNat / 16) + relative (x.before.widthOf c p.1) p.2 * b) % 2 ^ 64
      let cause := fun (p : Nat × Nat) => (List.range 4).findSome? fun r => causeAt (addr p r) b (s.now.scratchOf c p.1)
      let ok := passing ps cause
      let a := fun (p : Nat × Nat) (r : Nat) => at_ p.1 (addr p r)
      let ws := ok.flatMap fun p => (List.range 4).flatMap fun r => wordsOf (a p r) b
      let k := passesOf ws
      let pass := fun (word : Nat) => x.passes + passOf ws word
      let byte := fun (p : Nat × Nat) (i : Nat) => (s.now.core c).sram.read (a p (i / b) + i % b)
      let later := ok.map fun p => (p, transposedAgain pass p f.d.toNat b (a p))
      ok ≠ [] → Settled x.before c ok (fun p => (List.range 4).map fun r => (a p r, b)) →
      ∃ u, exec (.vldt h f) s = .next u ∧
      GivesOver s (afterPort (taking s.now c false later) c (x.passes + k)) (Taken (turned x t ts true ps cause) k)
        (x.passes + k - 1) (ok.flatMap fun p => (List.range b).map fun j => inV p (f.d.toNat + j)
          (byte p (4 * j + 3) ++ byte p (4 * j + 2) ++ byte p (4 * j + 1) ++ byte p (4 * j)) 12) u)

/-- `sst` and `vst` complete for the threads whose address is aligned and in range, where no earlier access of theirs to the bytes
is still to be performed: the low bytes of each thread's registers stand at its address, a higher lane's over a lower one's, or
are left to the pass that reaches their word; the other threads fault and store nothing; every other byte of memory and every
register stands. After parts of R71, R121. Completes: `sst`, `vst`. It rests on choices of the model: logs 77, 78 and 93. -/
def Obligations.ScratchpadStoreEffects : Prop :=
  ∀ (h : Hdr) (f : FmtM) (s : State) (x : Issue) (t : BSlot) (ts : List BSlot),
    AtSlot s x t ts → Canonical s.now → NoViews s.now x.core → (∀ p ∈ x.group, ∃ b, s.now.blockOf x.core p.1 = some b) →
    let c := x.core
    let at_ := fun (w a : Nat) => s.now.poolAt c w a
    let pool := fun a => (s.now.core c).sram.read a
    (∀ w ls, (Instr.sst h f).wf = true → ActsFor x h w ls →
      let n := tyWidth (f.minor.toNat % 16) / 8
      let a := at_ w (x.ea f w 0)
      let bytes := (List.range n).map fun i => (x.s w f.d.toNat).extractLsb' (8 * i) 8
      causeAt (x.ea f w 0) n (s.now.scratchOf c w) = none → Settled x.before c (pairs w ls) (fun _ => [(a, n)]) →
      ∃ u, exec (.sst h f) s = .next u ∧
      Does s (afterPort (taking s.now c false [((w, 0), behind [(x.passes, a, .store bytes)])]) c (x.passes + 1))
        (Taken (past x t ts) 1) 0 [] (if x.passes = 0 then storedAt pool a bytes else pool) u) ∧
    ((Instr.vst h f).wf = true →
      let n := elemBytes f
      let ps := x.active f.bk h
      let cause := fun (p : Nat × Nat) => causeAt (x.ea f p.1 p.2) n (s.now.scratchOf c p.1)
      let ok := passing ps cause
      let a := fun (p : Nat × Nat) => at_ p.1 (x.ea f p.1 p.2)
      let ws := ok.flatMap fun p => wordsOf (a p) n
      let k := passesOf ws
      let pass := fun (word : Nat) => x.passes + passOf ws word
      let parts := fun (p : Nat × Nat) => partsOf (at_ p.1) (x.ea f p.1 p.2) (regBytes x p f.d.toNat n)
      ok ≠ [] → Settled x.before c ok (fun p => [(a p, n)]) → ∃ u, exec (.vst h f) s = .next u ∧
      Does s (afterPort (taking s.now c false (ok.map fun p => (p, storesAgain pass (parts p)))) c (x.passes + k))
        (Taken (turned x t ts f.bk ps cause) k) 0 [] (afterStores (ok.flatMap fun p => storesNow pass (parts p)) pool) u)

/-- `vatom` completes for the threads whose address is aligned and in range, where no earlier access of theirs to the word is
still to be performed: they perform their operations in ascending lane order, each on the word that the earlier ones left, each lane in
a pass of its own, and in the returning form get the word that they found, 10 c after issue and the passes; every other byte
and register stands. After parts of R126, R127. Completes: `vatom`. It rests on choices of the model: logs 77, 78 and 93. -/
def Obligations.ScratchpadAtomicEffects : Prop :=
  ∀ (h : Hdr) (f : FmtM) (s : State) (x : Issue) (t : BSlot) (ts : List BSlot), (Instr.vatom h f).wf = true →
    AtSlot s x t ts → x.group.Nodup → Canonical s.now → NoViews s.now x.core → NoStores s.now → Known s.now x.core x.group →
    (∀ p ∈ x.group, ∃ b, s.now.blockOf x.core p.1 = some b) →
    let c := x.core
    let ty := f.minor.toNat % 16
    let n := tyWidth ty / 8
    let ps := x.active f.bk h
    let cause := fun (p : Nat × Nat) => causeAt (x.ea f p.1 p.2) n (s.now.scratchOf c p.1)
    let ok := passing ps cause
    let at_ := fun (p : Nat × Nat) => s.now.poolAt c p.1 (x.ea f p.1 p.2)
    let k := passesEach (ok.flatMap fun p => wordsOf (at_ p) n)
    let qs := eachPass x.passes n at_ ok []
    let r := atomLanes x (f.minor.toNat / 16) ty f.d.toNat n at_ qs fun a => (s.now.core c).sram.read a
    let later := qs.map fun q => (q.1, atomsAgain x (f.minor.toNat / 16) ty f.d.toNat n at_ (f.aux == 1) q)
    ok ≠ [] → Settled x.before c ok (fun p => [(at_ p, n)]) → ∃ u, exec (.vatom h f) s = .next u ∧
      Does s (afterPort (taking s.now c false later) c (x.passes + k)) (Taken (turned x t ts f.bk ps cause) k)
        (x.passes + k - 1) (if f.aux = 1 then r.2.flatMap fun q => delivered q.1 f.d.toNat n 10 q.2 else []) r.1 u

/-- Where every thread's address is misaligned or out of range, an access to the scratchpad only reports the faults: no
register result, no byte stored, no pass. Where an access of one of its threads to its bytes, of an earlier bundle, is still
to be performed, the access holds its bundle at issue. After parts of R71, R121, R296. It rests on choices of the model: logs 77
and 93. -/
def Obligations.ScratchpadFaultsOnly : Prop :=
  ∀ (h : Hdr) (f : FmtM) (s : State) (x : Issue) (t : BSlot) (ts : List BSlot), AtSlot s x t ts →
    let c := x.core
    (∀ i ∈ [Instr.sld h f, .sst h f], ∀ w ls, i.wf = true → ActsFor x h w ls →
      let n := tyWidth (f.minor.toNat % 16) / 8
      let a := s.now.poolAt c w (x.ea f w 0)
      (∀ k, causeAt (x.ea f w 0) n (s.now.scratchOf c w) = some k →
        exec i s = .next { s with issue := some (turned x t ts true (pairs w ls) fun _ => some k) }) ∧
      (causeAt (x.ea f w 0) n (s.now.scratchOf c w) = none → (∃ l ∈ ls, x.before.mustWait c w l a n = true) →
        exec i s = .next (heldAt s x t ts))) ∧
    let word := tyWidth (f.aux.toNat % 16) / 8
    let block := if f.minor.toNat % 8 = 2 then [(Instr.atom h f, atomBytes f), (.ldAcq h f, word), (.stRel h f, word)] else []
    ∀ row ∈ [(Instr.vld h f, elemBytes f), (.vst h f, elemBytes f), (.vatom h f, tyWidth (f.minor.toNat % 16) / 8),
        (.wfa h f, 4)] ++ block, row.1.wf = true →
      let n := row.2
      let ps := x.active f.bk h
      let cause := fun (p : Nat × Nat) => causeAt (x.ea f p.1 p.2) n (s.now.scratchOf c p.1)
      ((∀ p ∈ ps, cause p ≠ none) → exec row.1 s = .next { s with issue := some (turned x t ts f.bk ps cause) }) ∧
      ((∃ p ∈ ps, cause p = none ∧ x.before.mustWait c p.1 p.2 (s.now.poolAt c p.1 (x.ea f p.1 p.2)) n = true) →
        exec row.1 s = .next { s with issue := some { turned x t ts f.bk ps cause with hold := true } })

/-! ### Accesses at wider scopes, and waits on memory -/

/-- A cluster store or load, and `atom`, `ld.acq` and `st.rel` at a scope beyond the block, complete for the threads whose
address passes its checks: each sends its request to its place, and the registers that it returns are pending; the other
threads fault. Nothing else changes. Where every thread's address fails its checks, only the faults are reported. A translation
that must be walked holds the bundle, and its walk is asked for, unless 64 walks are under way (R267, R419). After parts of
R124, R125, R266, R271. Completes: `vstCw`, `vldc`, `atom`, `ldAcq`, `stRel`. It rests on choices of the model: logs 22, 93 and
94. -/
def Obligations.RemoteRequestsSent : Prop :=
  ∀ (h : Hdr) (f : FmtM) (s : State) (x : Issue) (t : BSlot) (ts : List BSlot), AtSlot s x t ts → x.group.Nodup →
    (∀ w l th, s.now.thread? x.core w l = some th → th.seen ≤ s.now.next ∧ ∀ i ∈ th.fwd, i < s.now.next) →
    ∀ row ∈ remotes h f x, row.1.wf = true → 3 ≤ row.2.scope →
      let r := row.2
      let ps := x.active f.bk h
      let waits := fun (p : Nat × Nat) => r.scope ≠ 3 ∧ x.ea f p.1 p.2 % r.n = 0 ∧
        s.now.xlateLane x.core (asidOfWarp s.now x.core p.1) (x.ea f p.1 p.2) r.wr = .wait
      let ok := ps.filter fun p => (r.why s.now x f p).isNone
      let walks := if r.scope = 3 then s.now.walks else s.now.walks.filter fun k => !answeredWalk s.now x f ps k
      ((∀ p ∈ ps, ¬waits p) → ok ≠ [] → exec row.1 s = .next
        { now := { r.after s.now x f ok with walks := walks },
          issue := some (rejected x t ts f.bk ps (r.why s.now x f)) }) ∧
      ((∀ p ∈ ps, ¬waits p) → ok = [] → exec row.1 s = .next
        { now := { s.now with walks := walks }, issue := some (rejected x t ts f.bk ps (r.why s.now x f)) }) ∧
      (∀ p ∈ ps, waits p → ∃ asked, exec row.1 s = .next
        { now := { s.now with walks := s.now.walks ++ asked }, issue := some { past x t ts with hold := true } } ∧
        (∀ k ∈ asked, k.failed = false ∧ k.gen = s.now.gen) ∧
        ((∃ k ∈ s.now.walks ++ asked, k.who = .die (x.core / 256) ∧ k.asid = asidOfWarp s.now x.core p.1 ∧
            k.va = x.ea f p.1 p.2 / 4096 * 4096 ∧ k.failed = false) ∨
          64 ≤ ((s.now.walks ++ asked).filter fun k => !k.failed).length))

/-- `atom`, `ld.acq` and `st.rel` at block scope complete on the thread's own scratchpad, in ascending lane order, each lane
taking a pass of its own, where no earlier access of theirs to the bytes is still to be performed; an acquiring form covers
what its core has not performed, which is the model's choice (log 29). `wfa` on words that differ from their registers goes on
and acquires, and one on an equal word blocks its thread; a word that a later pass reaches is looked at in that pass, and its
thread issues nothing until then; `fence` keeps each thread from its next bundle for 2 c, after which its conditions are looked
at. After parts of R92, R145, R269 to R273. Completes: `wfa`, `atom`, `fence`, `ldAcq`, `stRel`. It rests on choices of the
model: logs 24, 29, 77, 78 and 93. -/
def Obligations.BlockScopeAndWaitEffects : Prop :=
  (∀ (h : Hdr) (f : FmtM) (s : State) (x : Issue) (t : BSlot) (ts : List BSlot), f.minor.toNat % 8 = 2 →
    AtSlot s x t ts → x.group.Nodup → Canonical s.now → NoViews s.now x.core → NoStores s.now → Known s.now x.core x.group →
    (∀ p ∈ x.group, ∃ b, s.now.blockOf x.core p.1 = some b) →
    let c := x.core
    let ty := f.aux.toNat % 16
    let ps := x.active f.bk h
    let cause := fun (n : Nat) (p : Nat × Nat) => causeAt (x.ea f p.1 p.2) n (s.now.scratchOf c p.1)
    let at_ := fun (p : Nat × Nat) => s.now.poolAt c p.1 (x.ea f p.1 p.2)
    let ok := fun (n : Nat) => passing ps (cause n)
    let k := fun (n : Nat) => passesEach ((ok n).flatMap fun p => wordsOf (at_ p) n)
    let qs := fun (n : Nat) => eachPass x.passes n at_ (ok n) []
    let y := fun (n : Nat) => Taken (turned x t ts f.bk ps (cause n)) (k n)
    let base := fun (n : Nat) (acq : Bool) (rest : (Nat × Nat) × Nat → Rest) =>
      afterPort (taking s.now c acq ((qs n).map fun q => (q.1, rest q))) c (x.passes + k n)
    let pool := fun a => (s.now.core c).sram.read a
    let may := fun (n : Nat) => ok n ≠ [] ∧ Settled x.before c (ok n) fun p => [(at_ p, n)]
    ((Instr.atom h f).wf = true →
      let n := atomBytes f
      let r := atomLanes x (f.minor.toNat / 8) ty f.d.toNat n at_ (qs n) pool
      may n → ∃ u, exec (.atom h f) s = .next u ∧
      Does s (base n (f.aux.getLsbD 7) (atomsAgain x (f.minor.toNat / 8) ty f.d.toNat n at_ (f.aux.getLsbD 6))) (y n)
        (x.passes + k n - 1) (if f.aux.getLsbD 6 then r.2.flatMap fun q => delivered q.1 f.d.toNat n 10 q.2 else []) r.1 u) ∧
    ((Instr.ldAcq h f).wf = true →
      let n := tyWidth ty / 8
      may n → ∃ u, exec (.ldAcq h f) s = .next u ∧
      Does s (base n true fun q => readsAgain (fun _ => q.2) q.1 f.d.toNat (at_ q.1) n ty) (y n) (x.passes + k n - 1)
        ((ok n).flatMap fun p => loaded s.now c p f.d.toNat ty (at_ p) n 10) pool u) ∧
    ((Instr.stRel h f).wf = true →
      let n := tyWidth ty / 8
      let parts := fun (p : Nat × Nat) => partsOf (s.now.poolAt c p.1) (x.ea f p.1 p.2) (regBytes x p f.d.toNat n)
      may n → ∃ u, exec (.stRel h f) s = .next u ∧
      Does s (base n false fun q => storesAgain (fun _ => q.2) (parts q.1)) (y n) 0 []
        (afterStores ((qs n).flatMap fun q => storesNow (fun _ => q.2) (parts q.1)) pool) u)) ∧
  (∀ (h : Hdr) (s : State) (x : Issue) (t : BSlot) (ts : List BSlot), AtSlot s x t ts → x.group.Nodup →
    (∀ p ∈ x.group, ∃ b, s.now.blockOf x.core p.1 = some b) →
    let c := x.core
    (∀ f : FmtM, (Instr.wfa h f).wf = true → NoStores s.now → Known s.now c x.group →
      (∀ p ∈ x.group, ∃ th, s.now.thread? c p.1 p.2 = some th ∧ th.run ≠ .exited) →
      let ps := x.active f.bk h
      let at_ := fun (p : Nat × Nat) => s.now.poolAt c p.1 (x.ea f p.1 p.2)
      let equal := fun (p : Nat × Nat) => poolWord s.now c (at_ p) 4 = (x.v p.1 p.2 f.d.toNat).toNat
      let ws := ps.flatMap fun p => wordsOf (at_ p) 4
      let pass := fun (p : Nat × Nat) => x.passes + passOf ws (at_ p / 8)
      let waits := fun (m : Mod) (p : Nat × Nat) => m.block c p.1 [p.2] (.wfa (x.ea f p.1 p.2) (x.v p.1 p.2 f.d.toNat)) x.pc
      let looks := fun (m : Mod) (p : Nat × Nat) =>
        if pass p ≠ 0 then latePass (each m c [p] fun _ => heldTill (m.clock + pass p)) c p.1 (pass p) (at_ p)
          (.look p.1 p.2 (x.ea f p.1 p.2) (x.v p.1 p.2 f.d.toNat) x.pc)
        else if equal p then waits m p else acquired m c [p]
      ps ≠ [] → (∀ p ∈ ps, causeAt (x.ea f p.1 p.2) 4 (s.now.scratchOf c p.1) = none) →
      Settled x.before c ps (fun p => [(at_ p, 4)]) → exec (.wfa h f) s = .next
        { now := afterPort (ps.foldl looks s.now) c (x.passes + passesOf ws), issue := some (Taken (past x t ts) (passesOf ws)) }) ∧
    ∀ f : FmtS, (Instr.fence h f).wf = true → exec (.fence h f) s = .next
      (ran x t ts (each s.now c (threadsOf x h) fun _ th =>
        { heldTill (s.now.clock + 2) th with fence := some (f.minor.toNat, s.now.clock + 2, x.pc) })))

/-! ### Control -/

/-- The transfers complete for every thread whose guard is true: it goes on at the target, `call` leaves the following
bundle's PC in its link pair 1 c after issue, and a target outside the address space is the branch-target fault; `nop` does
nothing (R83). Nothing else changes. After parts of R25, R73. Completes: `nop`, `bra`, `brc`, `call`, `ret`, `jmpi`. It rests
on choices of the model: logs 80 and 82. -/
def Obligations.ControlTransferResults : Prop :=
  ∀ (h : Hdr) (s : State) (x : Issue) (t : BSlot) (ts : List BSlot), AtSlot s x t ts → x.group.Nodup →
    t.num < 8 → let c := x.core
    let ps := threadsOf x h
    (∀ f, exec (.nop h f) s = .next (idle s x t ts)) ∧
    (∀ f : FmtB,
      let goal := targetFrom (linear (slotPc x t)) f.disp
      exec (.bra h f) s = .next
        { now := each s.now c (ps.filter fun _ => goal.isSome) fun _ => jumped (goal.getD 0),
          issue := some (rejected x t ts false ps fun _ => offMap goal) } ∧
      ((Instr.brc h f).wf = true →
        let go := ps.filter fun p =>
          holds (f.minor.toNat / 16) (f.minor.toNat % 16) (x.v p.1 p.2 f.a.toNat) (0 : W32)
        exec (.brc h f) s = .next
          { now := each s.now c (go.filter fun _ => goal.isSome) fun _ => jumped (goal.getD 0),
            issue := some (rejected x t ts false go fun _ => offMap goal) }) ∧
      ((Instr.call h f).wf = true → ∃ u, exec (.call h f) s = .next u ∧
        GivesOver s (each s.now c (ps.filter fun _ => goal.isSome) fun _ => jumped (goal.getD 0))
          (rejected x t ts false ps fun _ => offMap goal) 0
          ((ps.filter fun _ => goal.isSome).flatMap fun p => [inV p f.l.toNat (x.nextPc.extractLsb' 0 32) 1,
            inV p (f.l.toNat + 1) (x.nextPc.extractLsb' 32 32) 1]) u)) ∧
    ∀ f : FmtB,
      let pair := fun (p : Nat × Nat) => x.v p.1 p.2 (f.a.toNat + 1) ++ x.v p.1 p.2 f.a.toNat
      let goal := fun (p : Nat × Nat) => targetFrom (linear (pair p)) f.disp
      exec (.ret h f) s = .next (ran x t ts (each s.now c ps fun p => jumped (pair p))) ∧
      exec (.jmpi h f) s = .next
        { now := each s.now c (ps.filter fun p => (goal p).isSome) fun p => jumped ((goal p).getD 0),
          issue := some (rejected x t ts false ps fun p => offMap (goal p)) }

/-- `elect` names the lowest active relative lane, `yield` holds its threads for 8 c at least, `exit` takes them out of their
expectation and ends them max(S, 1) c later. That a thread at a wait of its bundle stays there through `yield` is the model's
choice (log 76). After parts of R77 to R82. Completes: `exit`, `yield`, `elect`. It rests on choices of the model: log 76. -/
def Obligations.ElectYieldExitEffects : Prop :=
  ∀ (h : Hdr) (s : State) (x : Issue) (t : BSlot) (ts : List BSlot), AtSlot s x t ts → x.group.Nodup →
    let c := x.core
    (∀ f w ls, ActsFor x h w ls →
      let width := x.before.widthOf c w
      ∃ u, ∃ l ∈ ls, (∀ k ∈ ls, relative width l ≤ relative width k) ∧ exec (.elect h f) s = .next u ∧
      ((width = 16 ∨ width = 32 ∨ width = 64) → (∀ k ∈ ls, k < 64) →
        Gives s x t ts (ls.flatMap fun k =>
          (if f.qd = 0 then [] else [inQ (w, k) f.qd.toNat (relative width k == relative width l) 4]) ++
          if f.aux = 1 then [inV (w, k) f.d.toNat (BitVec.ofNat 32 (relative width l)) 4] else []) u)) ∧
    (∀ f, exec (.yield h f) s = .next (ran x t ts (each s.now c (threadsOf x h) fun _ th =>
      heldTill (s.now.clock + 8) th))) ∧
    ∀ f, (∀ p ∈ threadsOf x h, ∃ th, s.now.thread? c p.1 p.2 = some th) →
      ∃ u, exec (.exit h f) s = .next u ∧ u.issue = some (past x t ts) ∧
      ThreadsOnly s.now u.now c (threadsOf x h) ∧
      (∀ p ∈ threadsOf x h, u.now.thread? c p.1 p.2 =
        (s.now.thread? c p.1 p.2).map fun th => { th with run := .ending (s.now.clock + max x.stall 1) }) ∧
      ∀ w k, s.now.warp? c w = some k → (k.width = 16 ∨ k.width = 32 ∨ k.width = 64) →
        let gone := lanesBit k.width (((threadsOf x h).filter fun p => p.1 == w).map (·.2))
        ∃ k', u.now.warp? c w = some k' ∧ k'.expect.isSome = k.expect.isSome ∧
        ∀ e e', k.expect = some e → k'.expect = some e' → e'.pc = e.pc ∧ e'.m = e.m ∧ ∀ i < 64,
          e'.e.getLsbD i = (e.e.getLsbD i && !gone i) ∧ e'.arrived.getLsbD i = (e.arrived.getLsbD i && !gone i)

/-- `wsync` of ordinary threads opens an expectation, or joins the one of its PC and mask, and blocks its threads; under
another PC or mask it is the mismatch fault 0x0C, and in the handler state an illegal instruction. After parts of R76, R77.
Completes: `wsync`. It rests on choices of the model: log 95. -/
def Obligations.WarpSyncEffects : Prop :=
  ∀ (h : Hdr) (f : FmtI) (s : State) (x : Issue) (t : BSlot) (ts : List BSlot) (w : Nat) (ls : List Nat) (k : Warp),
    AtSlot s x t ts → ActsFor x h w ls → s.now.warp? x.core w = some k → (∀ l ∈ ls, l < 64) →
    (k.width = 16 ∨ k.width = 32 ∨ k.width = 64) →
    let c := x.core
    let width := x.before.widthOf c w
    let mask : W64 := (if f.aux = 1 then x.s w f.a.toNat else f.imm32.setWidth 64) &&& BitVec.ofNat 64 (2 ^ width - 1)
    let handler := ls.any fun l => match k.thread? l with | some th => th.handler | none => false
    let joins := match k.expect with | none => True | some e => e.pc = x.pc ∧ e.m = mask
    (handler = true → exec (.wsync h f) s = .next { s with
      issue := some (turned x t ts true (ls.map fun l => (w, l)) fun _ => some 0x02) }) ∧
    (handler = false → ¬joins → exec (.wsync h f) s = .next { s with
      issue := some (turned x t ts true (ls.map fun l => (w, l)) fun _ => some 0x0C) }) ∧
    (handler = false → joins → ∃ u k' e', exec (.wsync h f) s = .next u ∧ u.issue = some (past x t ts) ∧
      u.now.warp? c w = some k' ∧ k'.expect = some e' ∧ e'.pc = x.pc ∧ e'.m = mask ∧
      (∀ i < 64, e'.arrived.getLsbD i =
        (((k.expect.map fun e => e.arrived.getLsbD i).getD false) || lanesBit k.width ls i)) ∧
      (∀ i < 64, e'.e.getLsbD i = match k.expect with
        | some e => e.e.getLsbD i
        | none => (mask.getLsbD i || lanesBit k.width (ls.take 1) i) &&
            k.threads.any fun th => th.running && relative k.width th.lane == i) ∧
      (∀ l ∈ ls, ∀ th, s.now.thread? c w l = some th →
        u.now.thread? c w l = some (blockedAt s.now.next th)) ∧
      (∀ g' ∈ (u.now.core c).waits, g' = ⟨s.now.next, w, ls, .wsync, x.pc, s.now.clock, ls.map (fun l => (l, s.now.tick)), [], none⟩ ∨
        g' ∈ (s.now.core c).waits ∨ ∃ g ∈ (s.now.core c).waits, g.warp = w ∧ g.wait = .wsync ∧
          g' = { g with timers := g.timers.map fun p => (p.1, s.now.tick) }) ∧
      (∃ g' ∈ (u.now.core c).waits, g'.id = s.now.next ∧ g'.wait = .wsync ∧ g'.lanes = ls) ∧
      outside u.now = outside { s.now with next := s.now.next + 1 } ∧ (∀ d, husk (u.now.core d) = husk (s.now.core d)) ∧
      (∀ d, d ≠ c → u.now.core d = s.now.core d) ∧
      ∀ w' l', (w', l') ∉ ls.map (fun l => (w, l)) → u.now.thread? c w' l' = s.now.thread? c w' l')

/-! ### Traps and special registers -/

/-- `trap` parks an ordinary thread with cause 0x01, the slot and its operand in `$tcause`, the PC of the bundle that follows
in `$tepc`, and `$torigin`, out of its expectation; `brk` stops it and reports it when the launch may be debugged, and does
nothing otherwise; `tret` returns a handler thread to `$tepc` and is illegal in another. After parts of R94, R396 to R399.
Completes: `trap`, `tret`, `brk`. It rests on choices of the model: logs 76 and 95. -/
def Obligations.TrapInstructionEffects : Prop :=
  ∀ (h : Hdr) (f : FmtS) (s : State) (x : Issue) (t : BSlot) (ts : List BSlot), AtSlot s x t ts → x.group.Nodup →
    t.num < 8 → let c := x.core
    let ps := threadsOf x h
    ((Instr.trap h f).wf = true → (∀ p ∈ ps, Ordinary s.now c p) → ∃ u, exec (.trap h f) s = .next u ∧
      u.issue = some (past x t ts) ∧ ThreadsOnly s.now u.now c ps ∧
      ∀ p ∈ ps, ∀ k th b, s.now.warp? c p.1 = some k → s.now.thread? c p.1 p.2 = some th →
        s.now.block? c k.block = some b → u.now.thread? c p.1 p.2 = some (parkedAs k b.slot 0x01 t.num
          (f.imm32.setWidth 16) x.nextPc false ((s.now.core c).lastLanding p.1 p.2 s.now.clock) th)) ∧
    ((Instr.trap h f).wf = true → (∀ p ∈ ps, ∃ th, s.now.thread? c p.1 p.2 = some th ∧ th.handler = true) →
      ∃ u, exec (.trap h f) s = .next u ∧ u.issue = some (past x t ts) ∧
      ∀ p ∈ ps, (∀ th, s.now.thread? c p.1 p.2 = some th →
          u.now.thread? c p.1 p.2 = some { th with run := .ending (max th.notBefore s.now.clock) }) ∧
        ∀ la, s.now.launchOf c p.1 = some la → ∃ la', u.now.launch? la.handle = some la' ∧ la'.inError = true) ∧
    ((∀ p ∈ ps, (s.now.recOf c p.1).debug = false) → exec (.brk h f) s = .next (idle s x t ts)) ∧
    (∀ la k, (∀ p ∈ ps, s.now.launchOf c p.1 = some la ∧ (∃ k', s.now.warp? c p.1 = some k' ∧ k'.slot = k)) →
      la.rec_.debug = true → s.now.events.length + ps.length ≤ 4096 →
      exec (.brk h f) s = .next (ran x t ts (queued (each s.now c ps fun _ th => { th with run := .stopped })
        (ps.map fun p => threadNote 4 la c k p.2 f.imm32.toNat x.pc 0 [])))) ∧
    ((∀ p ∈ ps, ∃ th, x.before.thread? c p.1 p.2 = some th ∧ TrapSettled th) →
      let th := fun (p : Nat × Nat) => x.before.thread? c p.1 p.2
      let ok := ps.filter fun p => (th p).any (·.handler)
      exec (.tret h f) s = .next
        { now := each s.now c ok fun p q =>
            { heldTill q.notBefore q with pc := ((th p).map (·.tepc)).getD 0, handler := false, entered := true },
          issue := some (rejected x t ts false ps fun p => if (th p).any (·.handler) then none else some (0x02, 0)) })

/-- A parked thread whose results have landed enters its launch's handler; where the launch has none, it ends and its launch
is in error. A thread whose end has come is no more: it has exited, its results that no other thread shares are discarded, and
a warp whose threads have all ended goes with it. The thread of a task ends the task, poisoned unless it dovetailed: without
children it is complete, its join counter falls by one, and a poison mark raises the counter's poison count; with children it
waits for them. After parts of R40, R82, R358, R359, R399, R403. Completes: `handlerEntry`, `threadEnd`. It rests on choices of
the model: logs 33 and 76. -/
def Obligations.HandlerEntryAndThreadEnd : Prop :=
  (∀ (s : State) (c w l : Nat) (th : Thread) (la : Launch) (v : Nat),
    s.now.thread? c w l = some th → th.run = .parked v → v ≤ s.now.clock → s.now.launchOf c w = some la →
    (la.rec_.handler ≠ 0 → exec (.handlerEntry c w l) s = .next { s with now := each s.now c [(w, l)] fun _ q =>
      { q with pc := la.rec_.handler, handler := true, entered := true, stamp := s.now.clock,
               run := ((s.now.core c).heldBy w l).getD .ready, recent := [] } }) ∧
    (la.rec_.handler = 0 → ∃ u la' th', exec (.handlerEntry c w l) s = .next u ∧
      u.now.launch? la.handle = some la' ∧ la'.inError = true ∧
      la'.errc = (if la.inError then la.errc else th.tcause) ∧
      u.now.thread? c w l = some th' ∧ th'.run = .ending (max th.notBefore s.now.clock))) ∧
  (∀ (s : State) (c w l : Nat) (k : Warp) (th : Thread) (v : Nat),
    s.now.warp? c w = some k → k.thread? l = some th → th.run = .ending v → v ≤ s.now.clock → th.task = none →
    (k.threads.map (·.lane)).Nodup → ((s.now.core c).warps.map (·.uid)).Nodup →
    let last := k.threads.all fun q => q.lane == l || q.run == .exited
    ∃ u, exec (.threadEnd c w l) s = .next u ∧ u.issue = s.issue ∧ outside u.now = outside s.now ∧
      (last = false → u.now.thread? c w l = some { th with run := .exited, handler := false }) ∧
      (last = true → u.now.warp? c w = none ∧ ∃ k' ∈ (u.now.core c).ended, k' = { k with threads := k'.threads } ∧
        k'.thread? l = some { th with run := .exited, handler := false } ∧
        ∀ l', l' ≠ l → k'.thread? l' = k.thread? l') ∧
      (∀ w' l', (w', l') ≠ (w, l) → (last = true → w' ≠ w) → u.now.thread? c w' l' = s.now.thread? c w' l') ∧
      (∀ d, d ≠ c → u.now.core d = s.now.core d) ∧ (u.now.core c).sram = (s.now.core c).sram ∧
      (∀ n, ∀ fl ∈ (u.now.core c).flights, fl.dest = .v w l n → fl.lanes ≠ [l])) ∧
  ∀ (s : State) (c w l : Nat) (k : Warp) (th : Thread) (v : Nat) (kid : Child) (b : Block),
    s.now.warp? c w = some k → k.thread? l = some th → th.run = .ending v → v ≤ s.now.clock → th.task = some kid.id →
    (k.threads.map (·.lane)).Nodup → kid ∈ s.now.kids → (s.now.kids.map (·.id)).Nodup → kid.counted = false →
    kid.viewCore = kid.core → (∀ y ∈ s.now.kids, y.id ≠ kid.id → y.counted = true ∨ y.ended = false) →
    s.now.block? kid.core kid.block = some b → kid.counter < b.joins.length →
    let bad := kid.poisoned || !th.doved
    let ended := { kid with ended := true, poisoned := bad, deps := [] }
    let j := b.join kid.counter
    ∃ u b', exec (.threadEnd c w l) s = .next u ∧ u.issue = s.issue ∧ (u.now.core c).sram = (s.now.core c).sram ∧
      (∀ q, u.now.thread? c w l = some q → q.run = .exited) ∧
      (∀ d, d ≠ c → d ≠ kid.core → u.now.core d = s.now.core d) ∧ u.now.block? kid.core kid.block = some b' ∧
      (∀ n, n ≠ kid.counter → b'.join n = b.join n) ∧ (∀ y, y.id ≠ kid.id → (y ∈ u.now.kids ↔ y ∈ s.now.kids)) ∧
      ((∃ y ∈ s.now.kids, y.parent = .task kid.id) → ended ∈ u.now.kids ∧ b'.join kid.counter = j) ∧
      ((∀ y ∈ s.now.kids, y.parent ≠ .task kid.id) → { ended with counted := true } ∈ u.now.kids ∧
        b'.join kid.counter = { count := j.count - 1, poison := if bad || kid.marked then j.poison + 1 else j.poison })

/-- `mfsr` gives each thread the special register that it names, or one half of it, 4 c after issue, and the group's uniform
register 2 c after issue; a handler's registers and undeclared levels are illegal elsewhere. `mtsr` in the handler state sends
the register to `$tcause` or to a half of `$tepc`, 4 c after issue, and is illegal in another thread; nothing else changes.
After parts of R52, R95, R379. Completes: `mfsr`, `mtsr`. It rests on choices of the model: logs 81 and 95. -/
def Obligations.SpecialRegisterAccess : Prop :=
  (∀ (h : Hdr) (f : FmtS) (s : State) (x : Issue) (t : BSlot) (ts : List BSlot) (la : Launch) (k : Warp),
    (Instr.mfsr h f).wf = true → AtSlot s x t ts → x.group.Nodup → x.before.warp? x.core k.uid = some k →
    x.before.launchOf x.core k.uid = some la → (∀ p ∈ x.group, p.1 = k.uid) →
    let c := x.core
    let half := fun (v : W64) => if f.aux = 1 then v.extractLsb' 32 32 else v.extractLsb' 0 32
    (∀ v : Nat → W64, f.dk = false → (∀ l, (f.sr.toNat, v l) ∈ plainSpecials x.before c k la l) →
      ∃ u, exec (.mfsr h f) s = .next u ∧
      Gives s x t ts ((threadsOf x h).map fun p => inV p f.d.toNat (half (v p.2)) 4) u) ∧
    (∀ v ls, f.dk = true → ActsFor x h k.uid ls → (f.sr.toNat, v) ∈ plainSpecials x.before c k la (ls.headD 0) →
      ∃ u, exec (.mfsr h f) s = .next u ∧ Gives s x t ts [inS x k.uid f.d.toNat v 2] u) ∧
    (∀ (th : Nat → Thread) (v : Nat → W64), f.dk = false →
      (∀ p ∈ threadsOf x h, x.before.thread? c p.1 p.2 = some (th p.2) ∧ TrapSettled (th p.2)) →
      (∀ l, (f.sr.toNat, v l) ∈ handlerSpecials (th l)) → ∃ u, exec (.mfsr h f) s = .next u ∧
      GivesOver s s.now (rejected x t ts false (threadsOf x h) fun p => if (th p.2).handler then none else some (0x02, 0))
        0 (((threadsOf x h).filter fun p => (th p.2).handler).map fun p => inV p f.d.toNat (half (v p.2)) 4) u) ∧
    (0x008 ≤ f.sr.toNat → f.sr.toNat ≤ 0x00F →
      let e := la.rec_.levels.getD (f.sr.toNat - 8) 0
      let b := (x.before.blockOf c k.uid).map (·.index)
      let index := fun (l : Nat) => (match (e.extractLsb' 0 3).toNat with
        | 0 => BitVec.ofNat 32 (relative k.width l)
        | 1 => k.wid
        | 2 => BitVec.ofNat 32 (b.getD 0)
        | 3 => BitVec.ofNat 32 (c / 128)
        | 4 => BitVec.ofNat 32 (c / 256)
        | 5 => match x.before.grid? la.rec_.grid with
          | some g => if la.rec_.axes = 0 then 0 else BitVec.ofNat 32 (rankOf g.coord g.ext 0)
          | none => 0
        | _ => 0)
      (k.width = 16 ∨ k.width = 32 ∨ k.width = 64) →
      (e.getLsbD 6 = true → ∃ u, exec (.mfsr h f) s = .next u ∧
        Gives s x t ts ((threadsOf x h).map fun p => inV p f.d.toNat (index p.2) 4) u) ∧
      (e.getLsbD 6 = false → exec (.mfsr h f) s = .next { s with
        issue := some (turned x t ts false (threadsOf x h) fun _ => some 0x02) }))) ∧
  (∀ (h : Hdr) (f : FmtS) (s : State) (x : Issue) (t : BSlot) (ts : List BSlot), (Instr.mtsr h f).wf = true →
    AtSlot s x t ts → x.group.Nodup → (∀ p ∈ x.group, ∃ th, x.before.thread? x.core p.1 p.2 = some th) →
    let n := if f.sr = 0x020 then 0 else if f.aux = 0 then 1 else 2
    let goal : Nat × Nat → Dest := fun p =>
      if f.sr = 0x020 then .tcause p.1 p.2 else if f.aux = 0 then .tepcLo p.1 p.2 else .tepcHi p.1 p.2
    let ok := (threadsOf x h).filter fun p => (x.before.thread? x.core p.1 p.2).any (·.handler)
    ∃ u, exec (.mtsr h f) s = .next u ∧
      GivesOver s s.now (rejected x t ts false (threadsOf x h) fun p =>
          if (x.before.thread? x.core p.1 p.2).any (·.handler) then none else some (0x02, 0)) 0
        (ok.map fun p => { warp := p.1, lanes := [p.2], file := 3, n := n, dest := goal p,
                           val := (x.v p.1 p.2 f.a.toNat).setWidth 64, lat := 4 }) u)

/-- `lnch` posts its record once for the group, with the writes that it releases, and waits for a full queue; a misaligned
address faults; `evnt` queues an event with its code and payload, or counts it as dropped when the ring is full. How many
records the queue of `lnch` takes is open, and a free value of the model (log 26). After parts of R97, R98. Completes: `lnch`,
`evnt`. It rests on choices of the model: log 26. -/
def Obligations.LaunchAndEventEffects : Prop :=
  ∀ (h : Hdr) (f : FmtS) (s : State) (x : Issue) (t : BSlot) (ts : List BSlot) (w : Nat) (ls : List Nat)
    (la : Launch) (k : Warp), AtSlot s x t ts → ActsFor x h w ls → s.now.launchOf x.core w = some la →
    s.now.warp? x.core w = some k →
    let c := x.core
    let a := x.s w f.a.toNat
    let deps := s.now.releaseSet c w ls
    (a.toNat % 512 ≠ 0 → exec (.lnch h f) s = .next { s with
      issue := some (turned x t ts true (ls.map fun l => (w, l)) fun _ => some 0x07) }) ∧
    (a.toNat % 512 = 0 → s.now.posts.length ≤ Config.postQueueMore → exec (.lnch h f) s = .next (ran x t ts { s.now with
      posts := s.now.posts ++ [{ deps := deps, asid := la.asid, addr := a }] })) ∧
    (a.toNat % 512 = 0 → Config.postQueueMore < s.now.posts.length → exec (.lnch h f) s = .next { s with
      issue := some { past x t ts with hold := true } }) ∧
    (∀ r, la.evOpen = true → s.now.rings.find? (fun r => r.num == la.rec_.evring) = some r →
      r.tail - r.head + (s.now.events.filter fun e => e.ring == la.rec_.evring).length < 2 ^ r.k →
      exec (.evnt h f) s = .next (ran x t ts (queued s.now
        [threadNote 1 la c k.slot (ls.headD 0) f.imm32.toNat x.pc a deps]))) ∧
    ((la.evOpen = false ∨ ∀ r, s.now.rings.find? (fun r => r.num == la.rec_.evring) = some r →
        2 ^ r.k ≤ r.tail - r.head + (s.now.events.filter fun e => e.ring == la.rec_.evring).length) →
      exec (.evnt h f) s = .next (ran x t ts (s.now.onLaunch la.handle fun y => { y with dropped := y.dropped + 1 })))

/-! ### Steps of a core and of the memory system -/

/-- A request that nothing holds back is performed at its place: a store leaves its bytes, a load lands the bytes that it
finds in its registers, extended below their width, and an atomic leaves its new word and lands the old one when it returns
it; the request is over, and no other byte or register changes. An acquiring one leaves its thread covering what its core has
not performed, which is the model's choice (log 29). An earlier write of the core that a request has to go behind holds it
back, and so does one of a lower lane of its own bundle; a request that is no more leaves the state as it is. After parts of
R125, R266, R270, R272, R296, R298 to R300. Completes: `clusterWritePerform`, `remoteAccessServe`, `homeSliceAccess`. It rests
on choices of the model: log 29. -/
def Obligations.RequestsPerformed : Prop :=
  (∀ (s : State) (r : Req), Canonical s.now → NoStores s.now → Known s.now r.core [(r.warp, r.lane)] → r ∈ s.now.reqs → (s.now.reqs.map (·.id)).Nodup →
    s.now.reqOpen r = true →
    let after_ := s.now.endReq r
    let got := fun (m : Mod) (v : Nat) =>
      if r.acq then acquired (m.landReq r v) r.core [(r.warp, r.lane)] else m.landReq r v
    let value := fun (t : Ty) (k raw : Nat) =>
      if k = 1 ∧ tyWidth (tyCode t) < 32 then
        (widen (tyCode t) 32 (BitVec.ofNat (tyWidth (tyCode t)) raw)).toNat else raw
    let next := fun (op : AtomOp) (t : Ty) (n old : Nat) (v cmp : BitVec 128) =>
      match op with
      | .cas => if old = cmp.toNat then v.toNat else old
      | .exch => v.toNat
      | .and => old &&& v.toNat
      | .or => old ||| v.toNat
      | .xor => old ^^^ v.toNat
      | .add => (atomWord 0 (tyCode t) (BitVec.ofNat (8 * n) old) (v.setWidth _) 0).toNat
      | .min => (atomWord 1 (tyCode t) (BitVec.ofNat (8 * n) old) (v.setWidth _) 0).toNat
      | .max => (atomWord 2 (tyCode t) (BitVec.ofNat (8 * n) old) (v.setWidth _) 0).toNat
    (∀ tc blk off b, r.place = .cluster tc blk off → s.now.block? tc blk = some b → NoViews s.now tc →
      let pool := fun a => (s.now.core tc).sram.read a
      let a := b.at_ off
      (∀ bs, r.what = .store bs → ∃ m, exec (.clusterWritePerform r.id) s = .next { s with now := m } ∧
        Writes after_ m tc (storedAt pool a bs)) ∧
      (∀ t k, r.what = .load t k →
        let n := tyWidth (tyCode t) / 8 * k
        let held := fun (i : Nat) => youngest (s.now.clusterBuffered r tc blk off i)
        let m := (s.now.sawForwarded r.core r.warp [r.lane] ((List.range n).filterMap fun i => (held i).map (·.1))).endReq r
        exec (.remoteAccessServe r.id) s = .next { s with
          now := got m (value t k (leNat ((List.range n).map fun i => ((held i).map (·.2)).getD (pool (a + i))))) }) ∧
      ∀ op t n v cmp ret, r.what = .atom op t n v cmp ret → v.toNat < 2 ^ (8 * n) → 8 * n = tyWidth (tyCode t) ∨ op = .exch ∨ op = .cas →
        ∃ m, Writes after_ m tc (storedAt pool a (leBytes n (next op t n (poolWord s.now tc a n) v cmp))) ∧
        exec (.remoteAccessServe r.id) s = .next { s with
          now := if ret then got m (poolWord s.now tc a n)
            else if r.acq then acquired m r.core [(r.warp, r.lane)] else m }) ∧
    (∀ tc blk off bs, r.place = .cluster tc blk off → s.now.spotOf tc blk = none → r.what = .store bs →
      exec (.clusterWritePerform r.id) s = .next { s with now := after_ }) ∧
    (∀ pa, r.place = .device pa →
      let word := fun n => leNat (s.now.dram.readN pa n)
      (∀ bs, r.what = .store bs → exec (.homeSliceAccess r.id) s = .next { s with
        now := after_.dramWrite pa bs }) ∧
      (∀ t k, r.what = .load t k → exec (.homeSliceAccess r.id) s = .next { s with
        now := got after_ (value t k (word (tyWidth (tyCode t) / 8 * k))) }) ∧
      ∀ op t n v cmp ret, r.what = .atom op t n v cmp ret → v.toNat < 2 ^ (8 * n) → 8 * n = tyWidth (tyCode t) ∨ op = .exch ∨ op = .cas →
        let m := after_.dramWrite pa (leBytes n (next op t n (word n) v cmp))
        exec (.homeSliceAccess r.id) s = .next { s with
          now := if ret then got m (word n) else if r.acq then acquired m r.core [(r.warp, r.lane)] else m }) ∧
    ∀ v, ∀ f ∈ (after_.core r.core).flights, f.id = r.id → f.kind = .onModule → ∀ w l n, f.dest = .v w l n →
      { f with land := some (max r.readyAt s.now.clock), val := BitVec.ofNat 64 (v / 2 ^ (32 * (n - r.d)) % 2 ^ 32) } ∈
        ((after_.landReq r v).core r.core).flights) ∧
  (∀ (s : State) (id : Nat), ∀ i ∈ [Instr.clusterWritePerform id, .remoteAccessServe id, .homeSliceAccess id],
    ((∀ r ∈ s.now.reqs, r.id ≠ id) → exec i s = .next s) ∧
    ∀ r, s.now.reqs.find? (fun r => r.id == id) = some r → (s.now.reqs.map (·.id)).Nodup →
      ((s.now.allPerformed r.deps = false ∨ ∃ p ∈ (s.now.core r.core).passes, p.id < id) → exec i s = .next s) ∧
      ∀ x ∈ s.now.reqs, x.id < id → x.core = r.core → r.meets x = true →
        ((x.isBuffered = true ∧ r.isBuffered = true) ∨
          (¬(x.isBuffered = true ∧ r.isLoad = true) ∧ x.warp = r.warp ∧ x.lane = r.lane) ∨
          (x.at_ = r.at_ ∧ x.isLoad = false ∧ r.isLoad = false)) → exec i s = .next s)

/-- The walk that was asked for first comes back: a leaf joins the translator's cache with its page, size, physical base and
permissions, and a walk that finds none is kept as failed; a walk whose four tables and leaf are well formed finds the 4 KiB
page of the leaf. After parts of R267, R419, R420. Completes: `translationWalkComplete`. It rests on choices of the model: log
22. -/
def Obligations.TranslationWalks : Prop :=
  (∀ (s : State) (k : Walk), s.now.walks.find? (fun k => !k.failed) = some k →
    (∀ z pa rd wr, s.now.walk k.asid k.va = some (z, pa, rd, wr) → exec .translationWalkComplete s = .next { s with
      now := { s.now with
        walks := s.now.walks.erase k,
        tlb := { who := k.who, asid := k.asid, va := k.va / z * z, size := z, pa := pa, rd := rd, wr := wr } ::
          s.now.tlb } }) ∧
    (s.now.walk k.asid k.va = none → exec .translationWalkComplete s = .next { s with
      now := { s.now with walks := s.now.walks.erase k ++ [{ k with failed := true }] } })) ∧
  (∀ s : State, (∀ k ∈ s.now.walks, k.failed = true) → exec .translationWalkComplete s = .next s) ∧
  ∀ (m : Mod) (a : Asid) (va : Nat) (e : Nat → Nat), m.asid? a.num = some a → va < 2 ^ 56 →
    let entry := fun (table lvl : Nat) => leNat (m.dram.readN (table + 8 * (va / 2 ^ (12 + 9 * lvl) % 512)) 8)
    e 5 = a.root → (∀ lvl < 4, entry (e (lvl + 2)) (lvl + 1) = e (lvl + 1) + 1) →
    (∀ lvl, 1 ≤ lvl → lvl ≤ 4 → e lvl % 4096 = 0 ∧ e lvl < Config.dramBytes) → e 0 % 4096 = 0 → e 0 < Config.dramBytes →
    ∀ rd wr : Bool, entry (e 1) 0 = e 0 + 3 + (if rd then 4 else 0) + (if wr then 8 else 0) →
      m.walk a.num va = some (4096, e 0, rd, wr)

/-- The results whose cycle has come land, fixed ones together and deferred ones by operation: each is in its register, of
those for one register the one issued last, and no register without a landing result changes; the watchdog timers of the waits
on them restart. The threads to which a status of 0 comes acquire, and cover what their core has not performed, which is the
model's choice (log 29). After parts of R34, R38, R197, R394. Completes: `fixedResultLanding`, `deferredResultLanding`. It
rests on choices of the model: log 29. -/
def Obligations.ResultsLand : Prop :=
  ∀ (s : State) (c id : Nat),
    ∀ row ∈ ([(.fixedResultLanding c, fun f => f.kind == .fixed && f.due s.now.clock),
      (.deferredResultLanding c id, fun f => f.id == id && f.kind != .fixed && f.due s.now.clock)] :
        List (Instr × (Flight → Bool))),
    let fs := (s.now.core c).flights.filter row.2
    let ds := fs.map (·.dest)
    let last := fun (f : Flight) => ∃ a b, fs = a ++ f :: b ∧ ∀ g ∈ b, g.dest ≠ f.dest
    ∃ u, exec row.1 s = .next u ∧ u.issue = s.issue ∧ outside u.now = outside s.now ∧
      (∀ d, d ≠ c → u.now.core d = s.now.core d) ∧
      (u.now.core c).flights = (s.now.core c).flights.filter (fun f => !row.2 f) ∧
      (u.now.core c).sram = (s.now.core c).sram ∧
      (u.now.core c).waits = (s.now.core c).waits.map (fun g => if fs.any g.awaits then g.restart s.now.tick else g) ∧
      (∀ w l th, s.now.thread? c w l = some th → ∃ th', u.now.thread? c w l = some th' ∧
        th'.pc = th.pc ∧ th'.run = th.run ∧ th'.handler = th.handler ∧ th'.torigin = th.torigin ∧
        (∀ n, .v w l n ∉ ds → getR th'.v n = getR th.v n) ∧ (∀ n, .q w l n ∉ ds → th'.q.getLsbD n = th.q.getLsbD n) ∧
        (.tcause w l ∉ ds → th'.tcause = th.tcause) ∧
        (.tepcLo w l ∉ ds → th'.tepc.extractLsb' 0 32 = th.tepc.extractLsb' 0 32) ∧
        (.tepcHi w l ∉ ds → th'.tepc.extractLsb' 32 32 = th.tepc.extractLsb' 32 32) ∧
        ∀ f, last f → (∀ n, f.dest = .v w l n → getR th'.v n = f.val.setWidth 32) ∧
          (∀ n, n ≠ 0 → n < 8 → f.dest = .q w l n → th'.q.getLsbD n = (f.val != 0)) ∧
          (f.dest = .tcause w l → th'.tcause = f.val.setWidth 32) ∧
          (f.dest = .tepcLo w l → th'.tepc.extractLsb' 0 32 = f.val.setWidth 32) ∧
          (f.dest = .tepcHi w l → th'.tepc.extractLsb' 32 32 = f.val.setWidth 32)) ∧
      (∀ f ∈ fs, f.kind = .onModule → f.val = 0 → ∀ w n, f.dest = .s w n → ∀ l ∈ f.lanes, ∀ th',
        u.now.thread? c w l = some th' → th'.seen = s.now.next) ∧
      ∀ w k, s.now.warp? c w = some k → ∃ k', u.now.warp? c w = some k' ∧
        (∀ n, .s w n ∉ ds → getR k'.s n = getR k.s n) ∧ ∀ f, last f → ∀ n, f.dest = .s w n → getR k'.s n = f.val

/-- In a cycle in which a core's ready threads stand at one PC of one warp, and the bundle there is sound, legal and held by
nothing, the core issues it for all of them: they go on at the bundle that follows, in gap for the stall count, and the slots
are those from the PC up to the next start bit. A core's issue cycle comes once a cycle, and not within a bundle; the passes
of the core's port whose cycle has come are taken first, in order, each doing what its access left to it: a store's bytes, an
atomic's word, an element read into its result, the payload of a fabric operation, the record of `jig.set` and the block of `mopf`
(where they are legal ones), the word of `wfa`; and the fences whose first 2 c are over come to their wait or go on. After parts
of R16, R33, R39, R92, R144, R154, R155, R193, R201, R223, R273. Completes: `issueCycle`. It rests on choices of the model: logs
29, 78, 83 and 84. -/
def Obligations.IssueCycleStartsBundle : Prop :=
  (∀ (s : State) (c w : Nat) (la : Launch) (l : ILine) (pc : W64) (rs : List Ready),
    let m := (s.now.runPasses c).prepFences c
    s.issue = none → (s.now.core c).issuedAt ≠ s.now.clock → m.readyThreads c = rs → rs ≠ [] →
    m.launchOf c w = some la → pcLegal pc = true →
    (∀ r ∈ rs, r.warp = w ∧ r.lane < 64 ∧ r.tag.2 = (false, false, pc) ∧ r.tag.1 = (rs.map (·.tag.1)).headD 0) →
    (rs.map (·.lane)).Nodup → (m.core c).line? la.asid (lineVa pc) = some l → l.bad = none → l.tries = 0 →
    lineKindOk l.data = true → lineStart l.data 0 = true → lineStart l.data (slotOf pc) = true →
    (∀ r ∈ rs, ∀ th, m.thread? c w r.lane = some th → th.entered = true → lineTarget l.data (slotOf pc) = true) →
    let b := bundleOf l.data pc
    b.port = false → b.faults la.rec_.width (m.gauge c w) = false →
    b.illegal la.rec_ (m.gauge c w) = none → la.rec_.check = false → (m.core c).reserve = none → (m.core c).reserveH = none →
    (m.core c).groupTable = [] →
    (∀ r ∈ rs, ∀ th, m.thread? c w r.lane = some th →
      (m.core c).deferredHits w r.lane (b.accs la.rec_.width (m.gauge c w)) = [] ∧
      (m.core c).heldUntil s.now.clock w th (b.accs la.rec_.width (m.gauge c w)) = none) →
    ∃ u x, exec (.issueCycle c) s = .next u ∧ u.issue = some x ∧ x.before = u.now ∧ x.core = c ∧ x.pc = pc ∧
      x.slots = (bundleSlots l.data (slotOf pc)).map (fun p => { num := p.1, word := p.2 }) ∧ x.todo = x.slots ∧
      x.nextPc = b.nextPc ∧ x.stall = b.stall ∧ x.faults = [] ∧ x.hold = false ∧ x.passes = 0 ∧
      (∀ p, p ∈ x.group ↔ p.1 = w ∧ p.2 ∈ rs.map (·.lane)) ∧ x.group.Nodup ∧ (u.now.core c).issuedAt = s.now.clock ∧
      outside u.now = outside m ∧ (u.now.core c).sram = (m.core c).sram ∧
      ∀ p ∈ x.group, ∀ th, m.thread? c p.1 p.2 = some th → u.now.thread? c p.1 p.2 = some { th with
        pc := b.nextPc, entered := false, run := .gap (s.now.clock + max b.stall 1),
        notBefore := s.now.clock + max b.stall 1 }) ∧
  (∀ (s : State) (c : Nat),
    (s.issue ≠ none ∨ (s.now.core c).issuedAt = s.now.clock → exec (.issueCycle c) s = .next s) ∧
    (s.issue = none → (s.now.core c).issuedAt ≠ s.now.clock → s.now.readyThreads c = [] → (s.now.core c).passes = [] →
      (s.now.core c).fenced = [] → exec (.issueCycle c) s = .next { s with now := s.now.onCore c fun k =>
        { k with issuedAt := s.now.clock, groupTable := [], reserve := none, reserveH := none } }) ∧
    (∀ w l th sc at_ pc, s.now.thread? c w l = some th → th.fence = some (sc, at_, pc) →
      (s.now.clock < at_ → s.now.prepFence c w l = s.now) ∧
      (at_ ≤ s.now.clock → (∀ g ∈ (s.now.core c).waits, g.isFence = true → g.warp = w → l ∉ g.lanes) →
        (s.now.fenceOver c w l sc = false → s.now.prepFence c w l = s.now.block c w [l] (.fence sc) pc) ∧
        (s.now.fenceOver c w l sc = true → (s.now.prepFence c w l).thread? c w l =
          some { th with seen := s.now.next, fence := none }))) ∧
    ∀ (p : PortPass) (rest : List PortPass), (s.now.core c).passes = p :: rest → p.at_ ≤ s.now.clock →
      (∀ q ∈ rest, s.now.clock < q.at_) → NoViews s.now c → NoStores s.now →
      let m := s.now.runPasses c
      let base := s.now.onCore c fun k => { k with passes := rest }
      let pool := fun a => (s.now.core c).sram.read a
      let knows := fun (w : Nat) (ls : List Nat) => Known s.now c (ls.map fun l => (w, l))
      (∀ bs, p.what = .store bs → Canonical s.now → Writes base m c (storedAt pool p.addr bs)) ∧
      (∀ op n v cmp, p.what = .atom op 6 n v cmp none → Canonical s.now → op = .exch ∨ op = .cas ∨ op = .and ∨ op = .or →
        let old := poolWord s.now c p.addr n
        let new := match op with
          | .cas => if old = cmp then v else old
          | .and => old &&& v
          | .or => old ||| v
          | _ => v
        Writes base m c (storedAt pool p.addr (leBytes n new))) ∧
      (∀ d, p.what = .load 4 6 d 0 32 →
        (∀ y ∈ (s.now.core c).threadsOf d, ∀ k ∈ s.now.cores, ∀ z ∈ k.mdone, z.spans = [] ∨ s.now.afterDone z y = true) →
        beyond m = beyond base ∧ (m.core c).sram = (s.now.core c).sram ∧
        ∀ a f b, (s.now.core c).flights = a ++ f :: b → f.dest = d → f.kind = .fixed →
          (∀ g ∈ b, g.dest = d → g.kind ≠ .fixed ∧ g.kind ≠ .held) →
          (m.core c).flights = a ++ { f with
            val := f.val &&& 0xFFFFFFFF00000000#64 ||| BitVec.ofNat 64 (poolWord s.now c p.addr 4) } :: b) ∧
      (∀ id a o b, p.what = .payload id → s.now.fabOps = a ++ o :: b → o.id = id → (s.now.fabOps.map (·.id)).Nodup →
        knows o.warp o.lanes → (m.core c).sram = (s.now.core c).sram ∧ m.fabOps = a ++ { o with
          pkt := { o.pkt with pay := (s.now.core c).sram.readN p.addr o.pkt.pay.length } } :: b) ∧
      ∀ w k b off, s.now.warp? c w = some k → s.now.blockOf c w = some b → p.addr = b.at_ off →
        (∀ ls n, p.what = .jig w ls n → knows w ls →
          let r := BitVec.ofNat 512 (poolWord s.now c p.addr 64)
          (m.core c).sram = (s.now.core c).sram ∧ ∃ k', m.warp? c w = some k' ∧
            k'.jigs = (if jigLegal r = true then setR k.jigs n r else k.jigs)) ∧
        (∀ ls id g, p.what = .stage w ls id → k.mstage = some g → g.id = id → knows w ls →
          let ws := words64 8 (leBytes 64 (poolWord s.now c p.addr 64))
          (m.core c).sram = (s.now.core c).sram ∧ ∃ k' g', m.warp? c w = some k' ∧ k'.mstage = some g' ∧ g'.id = id ∧
            g'.kind = g.kind ∧ g'.readyAt = g.readyAt ∧ g'.taint = g.taint ∧
            g'.words = if s.now.paramOk c w g.kind ws = true then ws else g.words) ∧
        ∀ l cmp pc th, p.what = .look w l off cmp pc → s.now.thread? c w l = some th →
          th.run ≠ .exited → knows w [l] →
          (poolWord s.now c p.addr 4 = cmp.toNat → m.thread? c w l = some (blockedAt s.now.next th) ∧
            ∃ g ∈ (m.core c).waits, g.id = s.now.next ∧ g.warp = w ∧ g.lanes = [l] ∧ g.wait = .wfa off cmp ∧ g.pc = pc) ∧
          (poolWord s.now c p.addr 4 ≠ cmp.toNat → m.thread? c w l = some { th with seen := s.now.next }))

/-- The line that a core asked for first arrives from its translated address: with good parity it is present and the threads
that waited for it are ready; with bad parity it is fetched once more; a failed translation is kept for the bundle as cause
0x0A's detail. Without a line asked for nothing arrives. After parts of R14, R17, R419. Completes: `lineFetchComplete`. It
rests on choices of the model: log 34. -/
def Obligations.LineFetchCompletes : Prop :=
  (∀ (s : State) (c asid : Nat) (va : W64) (rest : List (Nat × W64)) (flip : BitVec 512),
    (s.now.core c).lineReqs = (asid, va) :: rest → (asid, va) ∉ rest →
    let r := (s.now.xlate (.ifetch c) asid va.toNat false).1
    let old := (s.now.core c).ilines.find? fun x => x.asid == asid && x.va == va
    ∃ u, exec (.lineFetchComplete c flip) s = .next u ∧ u.issue = s.issue ∧ u.now.dram = s.now.dram ∧
      (∀ pa, r = .ok pa →
        let data := BitVec.ofNat 512 (leNat (s.now.dram.readN pa 64)) ^^^ flip
        (lineParityOk data = true → (u.now.core c).lineReqs = rest ∧
          (u.now.core c).line? asid va = some { asid := asid, va := va, data := data, bad := none, tries := 0 } ∧
          ∀ w l th b, s.now.blockOf c w = some b → s.now.asidOf b.launch = asid → s.now.thread? c w l = some th →
            th.run = .lineWait → lineVa th.pc = va →
            u.now.thread? c w l = some { th with run := .ready, stamp := s.now.clock }) ∧
        (lineParityOk data = false → old = none → (u.now.core c).lineReqs = (asid, va) :: rest ∧
          { asid := asid, va := va, data := data, bad := none, tries := 1 } ∈ (u.now.core c).ilines) ∧
        (lineParityOk data = false → (∃ x, old = some x ∧ x.tries = 1) → (u.now.core c).lineReqs = rest ∧
          (u.now.core c).line? asid va = some { asid := asid, va := va, data := data, bad := none, tries := 2 })) ∧
      ∀ e, r = .error e → (u.now.core c).lineReqs = rest ∧
        (u.now.core c).line? asid va =
          some { asid := asid, va := va, data := 0, bad := some (if e then 9 else 8), tries := 0 }) ∧
  (∀ (s : State) (c : Nat) (flip : BitVec 512), (s.now.core c).lineReqs = [] → exec (.lineFetchComplete c flip) s = .next s)

/-! ### Weirs, gauges, jigs -/

/-- `weir.set` loads a target and clears the count; `weir.tst` reads phase and count; an arrival whose release is complete
increments the weir and returns the phase that it found; `weir.wt` goes on under another phase and blocks under this one;
`weir.aw` does both in turn; a weir that the block has not, or without a target, is the weir fault 0x0B. An increment that
waited for its arrival's release is made once every write of it is performed; on a weir without a target it puts the launch in
error; before that nothing changes. Without a completed release of that number no increment is made. What a thread has acquired
when it has passed a weir, and which leat runs' regions are ordinary again then, is kept as the model chooses. After parts of
R84 to R90, R197. Completes: `weirDeferredIncrement`, `weirSet`, `weirArv`, `weirWt`, `weirAw`, `weirTst`. It rests on choices
of the model: logs 29, 32 and 91. -/
def Obligations.WeirInstructionEffects : Prop :=
  (∀ (h : Hdr) (f : FmtE) (s : State) (x : Issue) (t : BSlot) (ts : List BSlot) (w : Nat) (ls : List Nat) (b : Block)
    (r : Weir), AtSlot s x t ts → ActsFor x h w ls → ls.Nodup →
    let c := x.core
    let i := f.weir.toNat
    let target : W32 := if f.cmd = 1 then f.imm16.setWidth 32 else (x.s w f.a.toNat).extractLsb' 0 32
    let tok := (x.s w f.a.toNat).extractLsb' 0 32
    let n := if f.cmd.toNat % 2 = 1 then f.imm16.toNat else ls.length
    let fault : State := { s with issue := some (turned x t ts true (pairs w ls) fun _ => some 0x0B) }
    let now := f.minor.toNat % 8 ≤ 2 ∨ s.now.allPerformed (s.now.releaseSet c w ls) = true
    (s.now.blockOf c w = some b → b.weirs.length ≤ i → ∀ j ∈ [Instr.weirSet h f, .weirArv h f, .weirWt h f,
      .weirAw h f, .weirTst h f], exec j s = .next fault) ∧
    (WeirAt s.now c w i b r →
      (target = 0 → exec (.weirSet h f) s = .next fault) ∧
      (target ≠ 0 → exec (.weirSet h f) s = .next (ran x t ts (s.now.onBlock c b.uid fun y =>
        { y with weirs := y.weirs.set i { t := target, c := 0, p := r.p } }))) ∧
      (∃ u, exec (.weirTst h f) s = .next u ∧ Gives s x t ts [inS x w f.d.toNat (r.p ++ r.c) 2] u) ∧
      (r.t = 0 → ∀ j ∈ [Instr.weirArv h f, .weirWt h f, .weirAw h f], exec j s = .next fault) ∧
      (r.t ≠ 0 → now → ∃ u, exec (.weirArv h f) s = .next u ∧
        GivesOver s (s.now.weirInc c b.uid i n) (past x t ts) 0
          (if 2 ≤ f.cmd.toNat then [inS x w f.d.toNat (r.p.setWidth 64) 2] else []) u) ∧
      (r.t ≠ 0 → ¬now → ∃ u, exec (.weirArv h f) s = .next u ∧
        GivesOver s (arrivesLater s.now c b i n (s.now.releaseSet c w ls)) (past x t ts) 0
          (if 2 ≤ f.cmd.toNat then [inS x w f.d.toNat (r.p.setWidth 64) 2] else []) u) ∧
      (r.t ≠ 0 → ¬now → exec (.weirAw h f) s = .next (ran x t ts
        (blocked (arrivesLater s.now c b i n (s.now.releaseSet c w ls)) x w ls (.weirArrive i r.p s.now.next)))) ∧
      (r.t ≠ 0 → r.p ≠ tok → exec (.weirWt h f) s = .next (ran x t ts (weirPassed s.now c w ls i))) ∧
      (r.t ≠ 0 → r.p = tok → exec (.weirWt h f) s = .next (ran x t ts (blocked s.now x w ls (.weir i tok)))) ∧
      (r.t ≠ 0 → now → r.t.toNat ≤ r.c.toNat + n → n ≠ 0 → exec (.weirAw h f) s = .next (ran x t ts
        (weirPassed (s.now.weirInc c b.uid i n) c w ls i))) ∧
      (r.t ≠ 0 → now → r.c.toNat + n < r.t.toNat → exec (.weirAw h f) s = .next (ran x t ts
        (blocked (s.now.weirInc c b.uid i n) x w ls (.weir i r.p))))) ∧
    ∀ k, s.now.block? c b.uid = some b → b.weirs[k]? = some r → n ≠ 0 →
      (s.now.weirInc c b.uid k n).block? c b.uid = some { b with weirs := b.weirs.set k (stepped r n) } ∧
      outside (s.now.weirInc c b.uid k n) = outside s.now ∧
      ∀ w' l', (s.now.weirInc c b.uid k n).thread? c w' l' = s.now.thread? c w' l') ∧
  (∀ (s : State) (c id : Nat) (a : LateArrival) (b : Block) (r : Weir),
    (s.now.core c).late.find? (fun a => a.id == id) = some a → s.now.allPerformed a.deps = true →
    s.now.block? c a.block = some b → b.weirs[a.weir]? = some r →
    let m := s.now.onCore c fun k => { k with late := k.late.filter fun x => x.id != id }
    (r.t ≠ 0 → exec (.weirDeferredIncrement c id) s = .next { s with now := m.weirInc c a.block a.weir a.n }) ∧
    (r.t = 0 → exec (.weirDeferredIncrement c id) s = .next { s with now := m.onLaunch b.launch fun l =>
      { l with inError := true, errc := if l.inError then l.errc else 0x0B } })) ∧
  (∀ (s : State) (c id : Nat), (∀ a, (s.now.core c).late.find? (fun a => a.id == id) = some a →
    s.now.allPerformed a.deps = false) → exec (.weirDeferredIncrement c id) s = .next s)

/-- `gcvt.to` and `gcvt.from` give each thread the value stored or read through the gauge 6 c after issue, `gpack` the shared
exponent and the mantissa string of a block 14 c after issue, `gunpk` one element of it 6 c after issue. After parts of R206.
Completes: `gcvtTo`, `gcvtFrom`, `gpack`, `gunpk`. -/
def Obligations.GaugeConversionResults : Prop :=
  ∀ (h : Hdr) (f : FmtV) (s : State) (x : Issue) (t : BSlot) (ts : List BSlot), AtSlot s x t ts → x.group.Nodup →
    let ps := threadsOf x h
    let g := fun (p : Nat × Nat) => gaugeOf ((x.before.recOf x.core p.1).gauges.getD (f.minor.toNat % 8) 0)
    let a := fun (p : Nat × Nat) => x.v p.1 p.2 f.a.toNat
    (∀ k < 14, (∀ p ∈ ps, (g p).fmt = k) → ∃ u, exec (.gcvtTo h f) s = .next u ∧
      Gives s x t ts (ps.flatMap fun p => written p f.d.toNat k 6
        (BitVec.ofNat _ (writeNum k ((num32 (a p)).scale (-(g p).scale))))) u) ∧
    (∃ u, exec (.gcvtFrom h f) s = .next u ∧ Gives s x t ts (ps.map fun p => inV p f.d.toNat
      (round32 ((readNum (g p).fmt (operand x p (g p).fmt f.a.toNat).toNat).scale (g p).scale)) 6) u) ∧
    (∃ u, exec (.gpack h f) s = .next u ∧ Gives s x t ts (ps.flatMap fun p =>
      let r := packBlock (g p).mb ((List.range (g p).len).map fun i =>
        (num32 (x.v p.1 p.2 (f.a.toNat + i))).scale (-(g p).scale))
      let n := ((g p).len * (g p).mb + 31) / 32
      ((List.range n).map fun i =>
        inV p (f.d.toNat + i) (BitVec.ofNat 32 (mantString (g p).mb r.2 / 2 ^ (32 * i))) 14) ++
      [inV p (f.d.toNat + n) (BitVec.ofNat 32 r.1) 14]) u) ∧
    ∃ u, exec (.gunpk h f) s = .next u ∧ Gives s x t ts (ps.map fun p =>
      let n := ((g p).len * (g p).mb + 31) / 32
      let str := leNat (regBytes x p f.a.toNat (4 * n))
      inV p f.d.toNat (round32 ((blockVal (g p).mb ((x.v p.1 p.2 (f.a.toNat + n)).toNat % 256)
        (str / 2 ^ ((g p).mb * f.aux.toNat) % 2 ^ (g p).mb)).scale (g p).scale)) 6) u

/-- `jig.set` loads a legal record, `jig.set.sv` stores one with its counters, `jig.set.clr` clears the counters, each in 10
c; behind earlier accesses of the bundle they take a pass of their own; an access of an earlier bundle to the record that is not
performed holds the bundle; an offset that is misaligned or out of range and an illegal record fault; `jop` on legal records of
one shape starts a sweep and keeps its group busy until the status lands. A chunk of a sweep that covers the whole of a small
tile, untouched while it ran, reads every source element before it writes; while it writes, a byte of the destination is the old
or the new one; then every destination element stands, rounded once, the counters name the next index, and no other byte of a
pool changes; at the end of the tile, or where an element stops the sweep, the status lands and the group is in gap until then.
A sweep that a save has stopped begins again with its scalar anew, once that is not pending. Without a sweep of the warp, or
before what the sweep has to wait for, no chunk is handled. After parts of R39, R122, R201, R203 to R205, R295, R296, R308, R411.
Completes: `jigSweepChunk`, `jigSet`, `jigSetSv`, `jigSetClr`, `jop`. It rests on choices of the model: logs 51, 77, 78 and 107. -/
def Obligations.JigEffects : Prop :=
  (∀ (h : Hdr) (f : FmtE) (s : State) (x : Issue) (t : BSlot) (ts : List BSlot) (w : Nat) (ls : List Nat) (k : Warp)
    (b : Block), AtSlot s x t ts → ActsFor x h w ls → Canonical s.now → NoStores s.now → NoViews s.now x.core →
    s.now.warp? x.core w = some k → s.now.blockOf x.core w = some b →
    let c := x.core
    let off := (x.s w f.a.toNat).toNat
    let free := Settled x.before c (pairs w ls) fun p => [(s.now.poolAt c p.1 off, 64)]
    let own := fun (m : Mod) (what : PassOp) => if x.passes = 0 then m else latePass m c w x.passes (b.at_ off) what
    let n := f.cmd.toNat
    let bad := causeAt off 64 (s.now.scratchOf c w)
    let clock := s.now.clock
    (∀ cause, bad = some cause → ∀ j ∈ [Instr.jigSet h f, .jigSetSv h f], exec j s = .next { s with
      issue := some (turned x t ts true (pairs w ls) fun _ => some cause) }) ∧
    (bad = none → ¬free → ∀ j ∈ [Instr.jigSet h f, .jigSetSv h f], exec j s = .next { s with
      issue := some { past x t ts with hold := true } }) ∧
    (bad = none → free →
      let r := BitVec.ofNat 512 ((s.now.afterPasses c).sreadOf c w ls off 64)
      ((s.now.core c).passes = [] → Known s.now c (pairs w ls) → r = BitVec.ofNat 512 (poolWord s.now c (b.at_ off) 64)) ∧
      (jigLegal r = true → exec (.jigSet h f) s = .next
        { now := afterPort (own (withWarp s.now c w (jigLoaded n r clock)) (.jig w ls n)) c (x.passes + 1),
          issue := some (Taken (past x t ts) 1) }) ∧
      (jigLegal r = false → ∃ u, exec (.jigSet h f) s = .next u ∧
        u.issue = some (Taken (turned x t ts true (pairs w ls) fun _ => some 0x10) 1)) ∧
      (x.passes ≠ 0 → exec (.jigSetSv h f) s = .next
        { now := afterPort (withWarp (own s.now (.store (leBytes 64 (getR k.jigs n).toNat))) c w (jigHeld n clock)) c
            (x.passes + 1), issue := some (Taken (past x t ts) 1) }) ∧
      (x.passes = 0 → ∃ u, exec (.jigSetSv h f) s = .next u ∧
        Does s (afterPort (withWarp s.now c w (jigHeld n clock)) c 1) (Taken (past x t ts) 1) 0 []
          (storedAt (fun a => (s.now.core c).sram.read a) (b.at_ off)
            ((List.range 64).map fun i => (getR k.jigs n).extractLsb' (8 * i) 8)) u)) ∧
    exec (.jigSetClr h f) s = .next (ran x t ts
      (withWarp s.now c w (jigLoaded n (clearedCounters (getR k.jigs n)) clock))) ∧
    (let op := f.minor.toNat
     let xi := n % 8
     let yi := n / 8 % 8
     let zi := n / 64 % 8
     let rec_ := fun i => jigOf (getR k.jigs i)
     let uses := op ≠ 0 ∧ op ≠ 7
     let gauge := fun (j : JigRec) => j.gen = true → (gaugeOf ((s.now.recOf c w).gauges.getD j.gauge 0)).fmt = j.type
     let shape := fun (j : JigRec) => (rec_ xi).nd = j.nd ∧ ∀ d < j.nd,
       (rec_ xi).ext.getD d 0 = j.ext.getD d 0 ∨ j.bc / 2 ^ d % 2 = 1
     (∀ p ∈ k.jigBusy, p.2 ≤ clock) → jigLegal (getR k.jigs xi) = true → jigLegal (getR k.jigs yi) = true →
     shape (rec_ yi) → gauge (rec_ xi) → gauge (rec_ yi) →
     (uses → jigLegal (getR k.jigs zi) = true ∧ shape (rec_ zi) ∧ gauge (rec_ zi)) → ∃ u sw, exec (.jop h f) s = .next u ∧
       u.issue = some (past x t ts) ∧ (u.now.core c).sweeps = (s.now.core c).sweeps ++ [sw] ∧ sw.id = s.now.next ∧
       sw.block = k.block ∧ sw.lanes = x.lanes w ∧ sw.taint = [] ∧ sw.again = false ∧ sw.a = f.a.toNat ∧ sw.part = none ∧
       sw.readyAt = clock + 12 + 2 * (((rec_ xi).count - linIndex (rec_ xi).ctr (rec_ xi).ext + 63) / 64) ∧
       sw.warp = w ∧ sw.op = op ∧ sw.x = xi ∧ sw.y = yi ∧ sw.z = zi ∧ sw.d = f.d.toNat ∧
       sw.scalar = (x.s w f.a.toNat).extractLsb' 0 32 ∧
       (∀ l ∈ x.lanes w, ∀ th, s.now.thread? c w l = some th →
         u.now.thread? c w l = some { th with run := .busy s.now.next }) ∧
       (u.now.core c).sram = (s.now.core c).sram ∧
       { id := s.now.next, dest := .s w f.d.toNat, val := 0, land := none, kind := .held, lanes := ls } ∈
         (u.now.core c).flights) ∧
    ((∀ p ∈ k.jigBusy, p.2 ≤ clock) →
      (jigLegal (getR k.jigs (n % 8)) = false ∨ jigLegal (getR k.jigs (n / 8 % 8)) = false) →
      exec (.jop h f) s = .next { s with issue := some (turned x t ts true (pairs w ls) fun _ => some 0x10) }) ∧
    ∀ u, (n % 8, u) ∈ k.jigBusy ∨ (n / 8 % 8, u) ∈ k.jigBusy → clock < u →
      exec (.jop h f) s = .next { s with issue := some { past x t ts with hold := true } }) ∧
  (∀ (s : State) (c w : Nat) (sw : Sweep) (k : Warp) (b : Block), Canonical s.now → NoStores s.now → NoViews s.now c →
    (s.now.core c).sweeps.find? (fun g => g.warp == w) = some sw → ((s.now.core c).sweeps.map (·.id)).Nodup →
    (s.now.core c).warpOrEnded? w = some k → s.now.block? c sw.block = some b →
    s.now.frozen (s.now.asidOf b.launch) = false → sw.taint = [] → sw.again = false → sw.after ≤ s.now.clock →
    s.now.allPerformed sw.deps = true →
    let X := jigOf (getR k.jigs sw.x)
    let Y := jigOf (getR k.jigs sw.y)
    let Z := jigOf (getR k.jigs sw.z)
    let uses := sw.op ≠ 0 ∧ sw.op ≠ 7
    let size := (s.now.recOfBlock b).scratch
    let count := X.count
    let at_ := fun (j : JigRec) (i : Nat) => b.at_ (j.addr (unLin i X.ext)).toNat
    let scale := fun (j : JigRec) => if j.gen then (gaugeOf ((s.now.recOfBlock b).gauges.getD j.gauge 0)).scale else 0
    let value := fun (j : JigRec) (i : Nat) => (readNum j.type (poolWord s.now c (at_ j i) j.bytes)).scale (scale j)
    let apart := fun (j : JigRec) => (X.base = j.base ∧ X.st = j.st ∧ X.bytes = j.bytes) ∨
      ∀ i < count, ∀ l < count, at_ X i + X.bytes ≤ at_ j l ∨ at_ j l + j.bytes ≤ at_ X i
    let elems := (List.range count).map fun i => ((X.addr (unLin i X.ext)).toNat,
      leBytes X.bytes (writeNum X.type ((sweptValue sw.op (value Y i) (value Z i) sw.scalar).scale (-(scale X)))))
    (sw.part = none → jigLegal (getR k.jigs sw.x) = true → jigLegal (getR k.jigs sw.y) = true →
      (uses → jigLegal (getR k.jigs sw.z) = true) →
      linIndex X.ctr X.ext = 0 → count ≤ 64 → TileInside X X.ext count size → TileInside Y X.ext count size →
      (uses → TileInside Z X.ext count size) → apart Y → (uses → apart Z) →
      (∀ i < count, ∀ l < count, i ≠ l → at_ X i + X.bytes ≤ at_ X l ∨ at_ X l + X.bytes ≤ at_ X i) →
      ∃ u, exec (.jigSweepChunk c w) s = .next u ∧ u.issue = s.issue ∧
        beyond u.now = { beyond s.now with free := u.now.free } ∧
        (u.now.core c).sweeps.find? (fun g => g.id == sw.id) = some { sw with part := some (elems, count, none) } ∧
        (∃ k', (u.now.core c).warpOrEnded? w = some k' ∧ k'.s = k.s ∧ k'.jigs = k.jigs) ∧
        (u.now.core c).flights = (s.now.core c).flights ∧
        (∀ e ∈ elems, ∀ i < X.bytes, (u.now.core c).sram.read (b.at_ (e.1 + i)) = e.2.getD i 0 ∨
          (u.now.core c).sram.read (b.at_ (e.1 + i)) = (s.now.core c).sram.read (b.at_ (e.1 + i))) ∧
        (∀ a, (∀ i < count, a < at_ X i ∨ at_ X i + X.bytes ≤ a) →
          (u.now.core c).sram.read a = (s.now.core c).sram.read a) ∧
        ∀ d, d ≠ c → (u.now.core d).sram = (s.now.core d).sram) ∧
    ∀ es i e, sw.part = some (es, i, e) → ∃ u, exec (.jigSweepChunk c w) s = .next u ∧ u.issue = s.issue ∧
      beyond u.now = beyond s.now ∧ (∀ d, d ≠ c → (u.now.core d).sram = (s.now.core d).sram) ∧
      (∀ a, (u.now.core c).sram.read a =
        afterStores (es.map fun e => (b.at_ e.1, e.2)) (fun a => (s.now.core c).sram.read a) a) ∧
      (∃ k', (u.now.core c).warpOrEnded? w = some k' ∧ k'.s = k.s ∧ (∀ n, n ≠ sw.x → getR k'.jigs n = getR k.jigs n) ∧
        getR k'.jigs sw.x = if count ≤ i then clearedCounters (getR k.jigs sw.x)
          else setCounters (getR k.jigs sw.x) (unLin i X.ext)) ∧
      (i < count → e = none → (u.now.core c).flights = (s.now.core c).flights ∧
        (u.now.core c).sweeps.find? (fun g => g.id == sw.id) = some { sw with part := none }) ∧
      (count ≤ i ∨ e ≠ none →
        (∀ l ∈ sw.lanes, ∀ th, s.now.thread? c w l = some th → th.run = .busy sw.id →
          u.now.thread? c w l = some { th with
            notBefore := max th.notBefore (max sw.readyAt s.now.clock)
            run := .gap (max th.notBefore (max sw.readyAt s.now.clock)) }) ∧
        (∀ g ∈ (u.now.core c).sweeps, g.id ≠ sw.id) ∧
        ∀ f ∈ (s.now.core c).flights, f.id = sw.id → f.kind = .held →
          { f with val := BitVec.ofNat 64 (e.getD 0), land := some (max sw.readyAt s.now.clock) } ∈
            (u.now.core c).flights)) ∧
  (∀ (s : State) (c w : Nat) (sw : Sweep) (k : Warp) (b : Block), s.now.warp? c w = some k →
    (s.now.core c).sweeps.find? (fun g => g.warp == w) = some sw → s.now.block? c sw.block = some b →
    s.now.frozen (s.now.asidOf b.launch) = false → sw.again = true →
    let pending := ∃ f ∈ (s.now.core c).flights, f.kind ≠ .fixed ∧ f.id ≠ sw.id ∧ f.dest = .s w sw.a
    (pending → exec (.jigSweepChunk c w) s = .next s) ∧
    (¬pending → jopOk sw.op k sw.x sw.y sw.z (s.now.gaugeIn b) = true → exec (.jigSweepChunk c w) s = .next { s with
      now := s.now.onCore c fun y => { y with sweeps := alterFirst (fun g => g.id == sw.id) (fun g => { g with again := false, scalar := (s.now.readS c w sw.lanes sw.a).extractLsb' 0 32, readyAt := s.now.clock + jopCycles (jigOf (getR k.jigs sw.x)), after := y.portFree, deps := s.now.selfWrites c }) y.sweeps } })) ∧
  (∀ (s : State) (c w : Nat),
    (((s.now.core c).sweeps.find? fun g => g.warp == w) = none → exec (.jigSweepChunk c w) s = .next s) ∧
    ∀ sw b, (s.now.core c).sweeps.find? (fun g => g.warp == w) = some sw → s.now.block? c sw.block = some b →
      (s.now.frozen (s.now.asidOf b.launch) = true ∨
        (sw.again = false ∧ (s.now.clock < sw.after ∨ s.now.allPerformed sw.deps = false))) →
      exec (.jigSweepChunk c w) s = .next s)

/-! ### The matrix unit -/

/-- `mopf` brings a legal block toward its warp's staging entry; `mma`, `mld` and `mst` enqueue a staged block of their kind,
and `mzero` its range, with the next ticket, which their register receives 2 c after issue; a full queue or a block that is
still on its way holds the bundle, as an access of an earlier bundle to the block does that is not performed; behind earlier
accesses of the bundle `mopf` takes a pass of its own; `mwait` receives a known status 2 c after issue, whose landing is the
acquire (its bookkeeping is the model's own), and waits for an outstanding operation's. After parts of R39, R122, R187, R192,
R193, R196, R197, R296. Completes: `mma`, `mopf`, `mwait`, `mzero`, `mld`, `mst`. It rests on choices of the model: logs 29, 32,
35, 77 and 78. -/
def Obligations.MatrixInstructionEffects : Prop :=
  ∀ (h : Hdr) (f : FmtE) (s : State) (x : Issue) (t : BSlot) (ts : List BSlot) (w : Nat) (ls : List Nat) (k : Warp)
    (b : Block), AtSlot s x t ts → ActsFor x h w ls → NoStores s.now → s.now.warp? x.core w = some k →
    s.now.blockOf x.core w = some b →
    let c := x.core
    let m := s.now
    let hold : State := { s with issue := some { past x t ts with hold := true } }
    let fault := fun (n : Nat) => ({ s with issue := some (turned x t ts true (pairs w ls) fun _ => some n) } : State)
    let full := 4 ≤ (m.core c).mq.length
    let ticket := (m.core c).mTicket
    let off := (x.s w f.a.toNat).toNat
    (let kind := if f.cmd = 0 then MKind.product else if f.cmd = 1 then .load else .store
     let ws := words64 8 (leBytes 64 ((m.afterPasses c).sreadOf c w ls off 64))
     let free := Settled x.before c (pairs w ls) fun p => [(m.poolAt c p.1 off, 64)]
     let own := fun (z : Mod) (what : PassOp) => if x.passes = 0 then z else latePass z c w x.passes (b.at_ off) what
     ((m.core c).passes = [] → Known m c (pairs w ls) → ws = blockWords m c (b.at_ off)) ∧
     (causeAt off 64 (m.scratchOf c w) = none → ¬free → exec (.mopf h f) s = .next hold) ∧
     (∀ n, causeAt off 64 (m.scratchOf c w) = some n → exec (.mopf h f) s = .next (fault n)) ∧
     (causeAt off 64 (m.scratchOf c w) = none → free → m.paramOk c w kind ws = false → exec (.mopf h f) s = .next (fault 0x0D)) ∧
     (causeAt off 64 (m.scratchOf c w) = none → free → m.paramOk c w kind ws = true → ∃ spans, exec (.mopf h f) s = .next
       { now := afterPort (own (withWarp { m with next := m.next + 1 } c w fun y =>
           { y with mstage := some (staged m c w off kind ws spans) }) (.stage w ls m.next)) c (x.passes + 1),
         issue := some (Taken (past x t ts) 1) })) ∧
    (∀ row ∈ [(Instr.mma h f, MKind.product), (.mld h f, .load), (.mst h f, .store)],
      (k.mstage = none → exec row.1 s = .next (fault 0x0E)) ∧
      ∀ g, k.mstage = some g → (g.readyAt ≠ 0 → exec row.1 s = .next hold) ∧
        (g.readyAt = 0 → g.kind ≠ row.2 → exec row.1 s = .next (fault 0x0E)) ∧
        (g.readyAt = 0 → g.kind = row.2 → full → exec row.1 s = .next hold) ∧
        (g.readyAt = 0 → g.kind = row.2 → ¬full → ∃ u, exec row.1 s = .next u ∧
          GivesOver s (withWarp (matrixQueued m c b row.2 g) c w fun y => { y with mstage := none }) (past x t ts) 0
            [inS x w f.d.toNat (ticket.setWidth 64) 2] u)) ∧
    (let n := (x.s w f.b.toNat).toNat
     let ok := off % 8 = 0 ∧ n % 8 = 0 ∧ n ≠ 0 ∧ off + n ≤ ((m.recOf c w).accsize + 767) / 768 * 768
     (¬ok → exec (.mzero h f) s = .next (fault 0x0F)) ∧ (ok → full → exec (.mzero h f) s = .next hold) ∧
     (ok → ¬full → ∃ u, exec (.mzero h f) s = .next u ∧
       GivesOver s (matrixQueued m c b .zero (zeroStage m [x.s w f.a.toNat, x.s w f.b.toNat])) (past x t ts) 0
         [inS x w f.d.toNat (ticket.setWidth 64) 2] u)) ∧
    let t0 := (x.s w f.a.toNat).extractLsb' 0 32
    let age := (ticket - t0).toNat
    let pending := fun (v : W64) (land : Option Nat) => onItsWay m.next (.s w f.d.toNat) v land ls
    (∀ st, (if age = 0 ∨ 2 ^ 31 < age then st = 3
        else (∀ o ∈ (m.core c).mq ++ m.setAside c, o.ticket ≠ t0) ∧
          if 65536 < age then st = 0
          else ((m.core c).mStatus.find? fun p => p.1 == t0) = some (t0, st) ∨
            (((m.core c).mStatus.find? fun p => p.1 == t0) = none ∧ st = 0)) →
      let late := fun (d : MDone) => if d.ticket = t0 ∧ st = 0 then { d with waiters := d.waiters ++ [m.next] } else d
      exec (.mwait h f) s = .next (ran x t ts ((Mod.onCore { m with next := m.next + 1 } c fun y => { y with
        flights := y.flights ++ [pending (BitVec.ofNat 64 st) (some (m.clock + 2))]
        mdone := y.mdone.map late }).onSavedCore c fun k => { k with mdone := k.mdone.map late }))) ∧
    (let wait := fun (o : MOp) => if o.ticket = t0 then { o with waiters := o.waiters ++ [m.next] } else o
     age ≠ 0 → age ≤ 65536 → (∃ o ∈ (m.core c).mq ++ m.setAside c, o.ticket = t0) → exec (.mwait h f) s = .next (ran x t ts
      ((Mod.onCore { m with next := m.next + 1 } c fun y => { y with
        flights := y.flights ++ [pending 0 none]
        mq := y.mq.map wait }).onSavedCore c fun k => { k with mq := k.mq.map wait })))

/-- `mrd` gives each thread its accumulator element, rounded or saturated to the type, 10 c after issue; `mwr` writes the
thread's value widened to 64 bits and its kind; a misaligned offset and one outside the allocation fault. No other element
changes. After parts of R194, R199. Completes: `mrd`, `mwr`. -/
def Obligations.AccumulatorAccess : Prop :=
  ∀ (h : Hdr) (f : FmtM) (s : State) (x : Issue) (t : BSlot) (ts : List BSlot), AtSlot s x t ts → x.group.Nodup →
    Canonical s.now → (s.now.core x.core).mq = [] → (∀ k ∈ (s.now.core x.core).warps, k.mstage = none) →
    (∀ p ∈ x.group, ∃ b, s.now.blockOf x.core p.1 = some b ∧
      ∀ d ∈ (s.now.core x.core).mdone, s.now.afterDone d (x.core, p.1, p.2) = true) →
    let c := x.core
    let ty := f.minor.toNat % 16
    let ps := threadsOf x h
    let cause := fun (p : Nat × Nat) =>
      if x.ea f p.1 p.2 % 8 ≠ 0 then some 0x07
      else if ((s.now.recOf c p.1).accsize + 767) / 768 * 768 < x.ea f p.1 p.2 + 8 then some 0x0F else none
    let ok := passing ps cause
    let at_ := fun (p : Nat × Nat) => ((s.now.blockOf c p.1).map fun b => b.accRow * 768 + x.ea f p.1 p.2).getD 0
    let word := fun (p : Nat × Nat) => BitVec.ofNat 64 (poolWord s.now c (at_ p) 8)
    let clamp := fun (v : Int) =>
      let lo : Int := if signed ty then -(2 ^ (tyWidth ty - 1) : Nat) else 0
      let hi : Int := if signed ty then (2 ^ (tyWidth ty - 1) : Nat) - 1 else (2 ^ tyWidth ty : Nat) - 1
      if v < lo then lo else if hi < v then hi else v
    ((Instr.mrd h f).wf = true → ∃ u, exec (.mrd h f) s = .next u ∧
      GivesOver s s.now (turned x t ts false ps cause) 0 (ok.flatMap fun p => written p f.d.toNat ty 10
        (if ty = 10 then (round32 (unF f64 (word p).toNat)).setWidth _
          else if tyWidth ty = 64 then (word p).setWidth _ else BitVec.ofInt _ (clamp (word p).toInt))) u) ∧
    ((Instr.mwr h f).wf = true →
      let bytes := fun (p : Nat × Nat) => leBytes 8 (if ty = 10 then
          roundNe f64 (num32 (x.v p.1 p.2 f.d.toNat)) else (widen ty 64 (operand x p ty f.d.toNat)).toNat)
      ∃ sram ints, exec (.mwr h f) s = .next
        { now := if ok = [] then s.now else s.now.onCore c fun k => { k with sram := sram, int64s := ints },
          issue := some (turned x t ts false ps cause) } ∧
        (∀ a, Memory.read sram a = afterStores (ok.map fun p => (at_ p, bytes p)) (fun a => (s.now.core c).sram.read a) a) ∧
        ∀ a, a ∈ ints ↔ (if ∃ p ∈ ok, at_ p = a then ty < 8 else a ∈ (s.now.core c).int64s))

/-- A block that `mopf` read 10 c ago is staged; the oldest operation of a queue begins, for the cycles of R190 at the least,
which is for a product progress for the waits on its status (R394); else nothing changes. A matrix operation that was left
alone completes when its cycles are over: a product leaves in Z the group sums of its operands, a load the elements of C and
`mzero` zeros; a scalar store leaves in C the elements of Z, rounded once. It leaves the queue, its waiting results land with
status 0, its weir is credited, and no other byte of a pool changes; with an operand that has become unreachable its status is 1.
After parts of R180 to R184, R190, R192 to R194, R196. Completes: `matrixOpStart`, `matrixOpComplete`, `mopfStaged`. It rests
on choices of the model: log 8. -/
def Obligations.MatrixEngineSteps : Prop :=
  (∀ (s : State) (c : Nat),
    (∀ w k g, s.now.warp? c w = some k → k.mstage = some g → g.readyAt ≠ 0 → g.readyAt ≤ s.now.clock →
      exec (.mopfStaged c w) s = .next { s with now := withWarp s.now c w fun y =>
        { y with mstage := some { g with readyAt := 0 } } }) ∧
    (∀ w, (∀ k g, s.now.warp? c w = some k → k.mstage = some g → g.readyAt = 0 ∨ s.now.clock < g.readyAt) →
      exec (.mopfStaged c w) s = .next s) ∧
    (∀ o os, (s.now.core c).mq = o :: os → o.readyAt = none → s.now.frozen (s.now.asidOf o.launch) = false →
      ∃ n, OperationCycles s.now o n ∧ exec (.matrixOpStart c) s = .next { s with now := s.now.onCore c fun k =>
        { k with
          mq := { o with readyAt := some (s.now.clock + n) } :: os
          waits := if o.kind = .product then k.waits.map fun g => if k.flights.any fun f => o.waiters.contains f.id && g.awaits f
            then g.restart s.now.tick else g else k.waits } }) ∧
    ((∀ o, (s.now.core c).mq.head? = some o → o.readyAt ≠ none ∨ s.now.frozen (s.now.asidOf o.launch) = true) →
      exec (.matrixOpStart c) s = .next s) ∧
    ((∀ o, (s.now.core c).mq.head? = some o → ∀ v, o.readyAt = some v →
        s.now.clock < v ∨ (o.kind = .product ∧ s.now.frozen (s.now.asidOf o.launch) = true)) →
      exec (.matrixOpComplete c) s = .next s)) ∧
  (∀ (s : State) (c : Nat) (o : MOp) (os : List MOp) (b : Block) (v : Nat), Canonical s.now →
    (s.now.core c).mq = o :: os → o.readyAt = some v → v ≤ s.now.clock → s.now.block? c o.block = some b →
    s.now.frozen (s.now.asidOf o.launch) = false → Untouched o → o.kdone = 0 → o.wild = false → NoViews s.now c →
    let m := s.now
    let M := pM o.words
    let N := pN o.words
    let K := pK o.words
    let ga := m.opGauge o 0
    let gb := m.opGauge o 1
    let gc := m.opGauge o 2
    let bytes := fun (p : Nat × Nat × Nat) (n : Nat) => (m.operandMem c p n).2
    let inZ := fun (a : Nat) => zAt b o 0 0 ≤ a ∧ a < zAt b o M 0
    let others := fun (u : State) (c : Nat) => ∀ d, d ≠ c → (u.now.core d).sram = (m.core d).sram
    let quietZ := fun (u : State) => others u c ∧ ∀ a, ¬inZ a → (u.now.core c).sram.read a = (m.core c).sram.read a
    (o.kind = .product → ∀ pa pb path g, m.opPlace o 0 = some pa → m.opPlace o 1 = some pb →
      productPath ga gb = some (path, g) → ∃ u, exec (.matrixOpComplete c) s = .next u ∧ Retired m u.now c o ∧ quietZ u ∧
      ∀ i < M, ∀ j < N, poolWord u.now c (zAt b o i j) 8 =
        productSteps path (elemOf ga K (bytes pa (panelBytes ga M K)) i) (elemOf gb K (bytes pb (panelBytes gb N K)) j) g
          (K / g) 0 (if pAcc o.words then poolWord m c (zAt b o i j) 8 else if path = .integer then 0 else 2 ^ 63)) ∧
    (o.kind = .load → ∀ pc, m.opPlace o 2 = some pc → ∃ u, exec (.matrixOpComplete c) s = .next u ∧
      Retired m u.now c o ∧ quietZ u ∧ ∀ i < M, ∀ j < N,
        let v := elemOf gc N (bytes pc (panelBytes gc M N)) i j
        poolWord u.now c (zAt b o i j) 8 = if gc.fmt < 8 then writeNum 3 v else roundNe f64 v) ∧
    (o.kind = .zero → ∃ u, exec (.matrixOpComplete c) s = .next u ∧ Retired m u.now c o ∧ others u c ∧
      let lo := b.accRow * 768 + pword o.words 0
      ∀ a, (u.now.core c).sram.read a =
        if lo ≤ a ∧ a < lo + pword o.words 1 then 0 else (m.core c).sram.read a) ∧
    (o.kind = .store → ∀ pc y, m.opPlace o 2 = some pc → m.block? pc.1 pc.2.1 = some y → gc.fmt < 14 →
      NoViews m pc.1 →
      let n := tyWidth gc.fmt / 8
      let at_ := fun (i j : Nat) => y.at_ pc.2.2 + panelOff n N i j
      M % 16 = 0 → N % 32 = 0 → ∃ u, exec (.matrixOpComplete c) s = .next u ∧ Retired m u.now c o ∧ others u pc.1 ∧
      (∀ i < M, ∀ j < N, poolWord u.now pc.1 (at_ i j) n = gaugeWrite gc ((m.core c).accNum (zAt b o i j))) ∧
      ∀ a, (∀ i < M, ∀ j < N, a < at_ i j ∨ at_ i j + n ≤ a) → (u.now.core pc.1).sram.read a = (m.core pc.1).sram.read a) ∧
    (m.reachable o = false → ∃ u, exec (.matrixOpComplete c) s = .next u ∧
      (u.now.core c).mq = (m.core c).mq.filter (fun x => x.ticket != o.ticket) ∧ (o.ticket, 1) ∈ (u.now.core c).mStatus ∧
      ∀ f ∈ (m.core c).flights, o.waiters.contains f.id = true →
        { f with val := 1, land := some m.clock } ∈ (u.now.core c).flights))

/-! ### The sluice -/

/-- `sl.a` to `sl.d` stage a word; `sl.go` and `sl.arm` check the staged request, enter it under the core's counter and empty
the set, or hold the bundle while queue or table is full; a request armed on a word that meets its threshold enters the queue
at once; `sl.st` reads a handle's status, and `sl.kill` ends a request of the launch with code 5, once the chunks that it has
begun have landed. After parts of R211 to R213, R215 to R217. Completes: `slA`, `slB`, `slC`, `slD`, `slGo`, `slArm`, `slSt`,
`slKill`. It rests on choices of the model: logs 31, 35, 101 and 103. -/
def Obligations.SluiceInstructionEffects : Prop :=
  ∀ (h : Hdr) (f : FmtE) (s : State) (x : Issue) (t : BSlot) (ts : List BSlot) (w : Nat) (ls : List Nat) (k : Warp)
    (b : Block), AtSlot s x t ts → ActsFor x h w ls → s.now.warp? x.core w = some k →
    s.now.blockOf x.core w = some b →
    let c := x.core
    let m := s.now
    let core := m.core c
    let starts := [Instr.slGo h f, .slArm h f]
    let a := (x.s w f.a.toNat).toNat
    let hd := (x.s w f.a.toNat).extractLsb' 0 32
    let counter := core.slCounter.setWidth 64
    (∀ row ∈ [(Instr.slA h f, 0), (.slB h f, 1), (.slC h f, 2), (.slD h f, 3)],
      exec row.1 s = .next (ran x t ts (withWarp m c w fun y =>
        { y with slStage := y.slStage.set row.2 (some (x.s w f.a.toNat)) }))) ∧
    ((∀ w0 w1 w2 w3, k.slStage ≠ [some w0, some w1, some w2, some w3]) → ∀ i ∈ starts,
      exec i s = .next (faultAt s x t ts w ls 0x12)) ∧
    (∀ w0 w1 w2 w3, k.slStage = [some w0, some w1, some w2, some w3] →
      let r := requestOf m c w ls b [w0, w1, w2, w3]
      (¬LegalRequest m c w b w0 w1 w2 w3 → ∀ i ∈ starts, exec i s = .next (faultAt s x t ts w ls 0x11)) ∧
      (LegalRequest m c w b w0 w1 w2 w3 →
        (64 ≤ core.slq.length → exec (.slGo h f) s = .next (heldAt s x t ts)) ∧
        (core.slq.length < 64 → ∃ u, exec (.slGo h f) s = .next u ∧
          GivesOver s (entered m c w fun k => { k with slq := k.slq ++ [r] }) (past x t ts) 0
            [inS x w f.d.toNat counter 2] u) ∧
        (∀ n, causeAt a 4 (m.scratchOf c w) = some n → exec (.slArm h f) s = .next (faultAt s x t ts w ls n)) ∧
        (causeAt a 4 (m.scratchOf c w) = none →
          (32 ≤ core.arms.length → exec (.slArm h f) s = .next (heldAt s x t ts)) ∧
          (core.arms.length < 32 →
            (∀ y ∈ core.arms, ∀ b', m.block? c y.req.block = some b' → poolWord m c (b'.at_ y.word) 4 < y.thr.toNat) →
            let thr := (x.s w f.b.toNat).extractLsb' 0 32
            (poolWord m c (b.at_ a) 4 < thr.toNat → ∃ u, exec (.slArm h f) s = .next u ∧
              GivesOver s (entered m c w fun k => { k with arms := k.arms ++ [{ req := r, word := a, thr := thr }] })
                (past x t ts) 0 [inS x w f.d.toNat counter 2] u) ∧
            (thr.toNat ≤ poolWord m c (b.at_ a) 4 → ∃ u, exec (.slArm h f) s = .next u ∧
              GivesOver s (entered m c w fun k => { k with slq := k.slq ++ [{ r with deps := r.deps ++ m.coreWrites c }] })
                (past x t ts) 0 [inS x w f.d.toNat counter 2] u))))) ∧
    (∃ u v, exec (.slSt h f) s = .next u ∧ Gives s x t ts [inS x w f.d.toNat v 4] u ∧
      SluiceStatus core (m.slAside c) hd v) ∧
    (let own := fun (r : SReq) => r.handle = hd ∧ r.launch = b.launch
     ((∀ r ∈ core.slq, ¬own r) → (∀ y ∈ core.arms, ¬own y.req) → exec (.slKill h f) s = .next (idle s x t ts)) ∧
     ∀ r, own r → (r ∈ core.slq ∨ ∃ y ∈ core.arms, y.req = r) →
       (∀ q, (q ∈ core.slq ∨ ∃ y ∈ core.arms, y.req = q) → q.handle = hd → q = r) →
       ∃ u, exec (.slKill h f) s = .next u ∧ u.issue = some (past x t ts) ∧
         (r.begun = [] → outside u.now = outside m ∧ (∀ d, d ≠ c → u.now.core d = m.core d) ∧
           RequestOver core (u.now.core c) hd 5 r.landed) ∧
         let z := m.landBegun c r
         (∀ r', (z.core c).request? hd = some r' → u.now = z.onCore c fun k => k.slEnd hd 5 r'.landed) ∧
         ((z.core c).request? hd = none → u.now = z))

/-- The oldest queued request begins once fewer than four run and the writes before it are performed; a chunk that lands, the
last one too, writes its bytes and no other byte of memory, credits its weir by their number and is counted; before that it may
be in flight, with the device addresses and the generation that it has found (R421), some of its bytes written and the others
not (R295); the last one of a request without a checksum writes its signal word and ends it with code 2; a source byte that
cannot be reached ends it with that code; without such a request nothing changes. After parts of R213, R214, R216, R295, R421.
Completes: `sluiceRequestStart`, `sluiceChunkLanded`. It rests on choices of the model: logs 1, 20 and 102. -/
def Obligations.SluiceSteps : Prop :=
  ∀ (s : State) (c : Nat) (r : SReq) (l1 l2 : List SReq), (s.now.core c).slq = l1 ++ r :: l2 →
    c < 1024 → ((s.now.core c).slq.map (·.handle)).Nodup → Canonical s.now → NoStores s.now → (∀ d, NoViews s.now d) →
    let m := s.now
    let k := m.core c
    let run := (k.slq.filter fun y => y.code == 1).length
    (r.code = 0 → (∀ y ∈ l1, y.code ≠ 0) →
      (run < 4 → m.allPerformed r.deps = true → exec (.sluiceRequestStart c) s = .next { s with
        now := m.onCore c fun k => { k with slq := l1 ++ { r with code := 1 } :: l2 } }) ∧
      (4 ≤ run ∨ m.allPerformed r.deps = false → exec (.sluiceRequestStart c) s = .next s)) ∧
    ((∀ y ∈ k.slq, y.code ≠ 0) → exec (.sluiceRequestStart c) s = .next s) ∧
    (∀ n i, (∀ y ∈ k.slq, y.handle.toNat = n → y.code ≠ 1 ∨ i ∉ y.chunks) → exec (.sluiceChunkLanded c n i) s = .next s) ∧
    ∀ w0 w1 w2 w3 i, r.words = [w0, w1, w2, w3] → r.code = 1 → i ∈ r.chunks → r.chunks.Nodup →
      m.frozen (m.asidOf r.launch) = false → 256 * i < payloadOf w2 →
      let n := min 256 (payloadOf w2 - 256 * i)
      let last := r.chunks = [i]
      let step := Instr.sluiceChunkLanded c r.handle.toNat i
      let flies := r.flight? i
      let whole := flies ≠ none ∨ Config.order m.free % 2 ≠ 1
      let reach := fun (a : W64) (dst : Bool) (held : List Nat) (p : Nat → BytePlace) =>
        if addrKind a = 0 ∧ held ≠ [] then held.length = n ∧ ∀ j < n, p j = .dev (held.getD j 0)
        else ∀ j < n, m.slByteAt c r a (sideAt w2 dst (256 * i + j)) dst = (.ok (p j), m)
      (∀ e m', flies = none → m.slByteAt c r w0 (sideAt w2 false (256 * i)) false = (.error e, m') →
        ∃ u, exec step s = .next u ∧ RequestOver k (u.now.core c) r.handle e r.landed) ∧
      ∀ src dst : Nat → BytePlace, reach w0 false ((flies.map (·.src)).getD []) src →
        reach w1 true ((flies.map (·.dst)).getD []) dst →
        let apart := (∀ i < n, ∀ j < n, dst i = dst j → i = j) ∧
          ∀ j < n, slClash (m.slHull c r w0 (sideSpan w2 false)) (m.slHull c r w1 (sideSpan w2 true))
            (sideAt w2 false (256 * i + j)) (sideAt w2 true (256 * i + j)) = false
        let signal := fun (p : BytePlace) => last ∧ w3.getLsbD 12 = true ∧
          ∃ b, m.block? c r.block = some b ∧ ∃ o < 4, p = .pool c (b.at_ (part w3 16 21) + o)
        (¬whole → ∃ u, exec step s = .next u ∧
          (∃ r' ∈ (u.now.core c).slq, r' = { r with begun := { chunk := i, gen := m.gen, src := deviceAddrs ((List.range n).map src), dst := deviceAddrs ((List.range n).map dst) } :: r.begun }) ∧
          (apart → ∀ j < n, u.now.byteRead (dst j) = m.byteRead (src j) ∨ u.now.byteRead (dst j) = m.byteRead (dst j)) ∧
          ∀ p, (∀ j < n, p ≠ dst j) → u.now.byteRead p = m.byteRead p) ∧
        (whole → ∃ u, exec step s = .next u ∧
          (¬last → ∃ r' ∈ (u.now.core c).slq, r'.handle = r.handle ∧ r'.code = 1 ∧ r'.landed = r.landed + n ∧
            r'.chunks = r.chunks.erase i ∧ r'.flight? i = none) ∧
          (apart → ∀ j < n, ¬signal (dst j) → u.now.byteRead (dst j) = m.byteRead (src j)) ∧
          (∀ p, (∀ j < n, p ≠ dst j) → ¬signal p → u.now.byteRead p = m.byteRead p) ∧
          (w3.getLsbD 8 = true → ∀ b y, m.block? c r.block = some b → b.weirs[part w3 0 8]? = some y → y.t ≠ 0 →
            ∃ b', u.now.block? c r.block = some b' ∧ b'.weirs[part w3 0 8]? = some (stepped y n)) ∧
          (last → w3.getLsbD 14 = false → RequestOver k (u.now.core c) r.handle 2 (r.landed + n) ∧
            ∀ b, m.block? c r.block = some b → w3.getLsbD 12 = true →
              (∀ j < n, ¬signal (dst j)) →
              poolWord u.now c (b.at_ (part w3 16 21)) 4 = (part w3 48 16 +
                if w3.getLsbD 13 then poolWord m c (b.at_ (part w3 16 21)) 4 else 0) % 2 ^ 32))

/-! ### Fabric instructions -/

/-- The five operations of the fabric raise the expected field of their count word by the coordinates of the pattern, or by 1,
and leave with the port of their core as one operation each; a module without a grid, an illegal pattern, a count word out of
range and a count beyond the field are precise faults, in this order; a full queue holds the bundle, as an access of an earlier
bundle to the count word or the payload does that is not performed; the payload is read in a pass of its own. That `fcopy` checks
neither its landing offset nor the range of its source, and what it keeps of its source, is the model's choice. After parts of
R218 to R228, R296. Completes: `fst`, `fld`, `fatom`, `fred`, `fcopy`. It rests on choices of the model: logs 18, 19, 77, 78
and 100. -/
def Obligations.FabricOperationsIssued : Prop :=
  ∀ (h : Hdr) (f : FmtE) (s : State) (x : Issue) (t : BSlot) (ts : List BSlot) (w : Nat) (ls : List Nat) (la : Launch)
    (b : Block), AtSlot s x t ts → ActsFor x h w ls → Canonical s.now → NoStores s.now → NoViews s.now x.core →
    s.now.launchOf x.core w = some la → s.now.blockOf x.core w = some b →
    let c := x.core
    let m := s.now
    let lows := x.s w f.a.toNat
    let highs := x.s w (f.a.toNat + 1)
    let free := Settled x.before c (pairs w ls) fun p => [(m.poolAt c p.1 (8 * f.imm16.toNat), 8)]
    let word := (m.afterPasses c).sreadOf c w ls (8 * f.imm16.toNat) 8
    let five := [Instr.fst h f, .fld h f, .fatom h f, .fred h f, .fcopy h f]
    (m.gridOf c w = none → ∀ i ∈ five, exec i s = .next (faultAt s x t ts w ls 0x13)) ∧
    ∀ g, m.gridOf c w = some g →
      (¬LegalPattern g lows highs → ∀ i ∈ five, exec i s = .next (faultAt s x t ts w ls 0x13)) ∧
      (LegalPattern g lows highs → la.rec_.scratch < 8 * f.imm16.toNat + 8 →
        ∀ i ∈ five, exec i s = .next (faultAt s x t ts w ls 0x08)) ∧
      (LegalPattern g lows highs → 8 * f.imm16.toNat + 8 ≤ la.rec_.scratch →
        let i : Issuing := { m := m, c := c, w := w, ls := ls, g := g, la := la, b := b, n := f.imm16.toNat }
        let sum := fun (k : Nat) => word / 2 ^ 32 % 2 ^ 30 + k
        let full := 16 ≤ (m.fabOps.filter fun o => o.core == c && o.unsent).length
        (∀ row ∈ fabricRows h f x i, row.instr.wf = true → ¬row.legal → ∃ n, (n = 0x13 ∨ n = 0x07 ∨ n = 0x08) ∧
          exec row.instr s = .next (faultAt s x t ts w ls n)) ∧
        ((m.core c).passes = [] → Known m c (pairs w ls) → word = i.old) ∧
        ∀ row ∈ fabricRows h f x i, row.instr.wf = true → row.legal →
          (2 ^ 30 ≤ sum row.add → exec row.instr s = .next (faultAt s x t ts w ls 0x14)) ∧
          (sum row.add < 2 ^ 30 → full ∨ row.waits ∨ ¬free → exec row.instr s = .next (heldAt s x t ts)) ∧
          (sum row.add < 2 ^ 30 → ¬full → ¬row.waits → free → ∃ img u, (∀ bs, row.image = some bs → img = bs) ∧
            exec row.instr s = .next u ∧ u.issue = some (past x t ts) ∧
            u.now.fabOps.length = m.fabOps.length + 1 ∧ u.now.reqs = m.reqs ∧ u.now.dram = m.dram ∧
            ((m.core c).passes = [] → Known m c (pairs w ls) →
              Does s (row.base img) (past x t ts) 0 [] (i.raised row.add) u)))

/-- `fwait` on a count word that meets its threshold lands the word 10 c later and goes on, and blocks the group otherwise;
`fcnt` gives a pattern's expected count; `fcrd` reads a count word in one pass, and `fcrd.clr` clears it too, in a pass of their
own behind earlier accesses of the bundle; they all find it behind the bundle's earlier accesses, and an access of an earlier
bundle to the word that is not performed holds the bundle; a wait whose deadline has passed lands the word with the bit that says
so. Without a wait of that number whose deadline has passed, no timeout happens, of `cnl.wt` and `lt.wt` neither (theirs that
happen are in `CanalInstructionEffects` and `LeatInstructionEffects`). After parts of R39, R122, R230, R231, R277, R282, R296.
Completes: `fwaitTimeout`, `fwait`, `fcnt`, `fcrd`, `fcrdClr`. It rests on choices of the model: logs 29, 77 and 78. -/
def Obligations.CountWordAccess : Prop :=
  ((∀ (h : Hdr) (f : FmtE) (s : State) (x : Issue) (t : BSlot) (ts : List BSlot) (w : Nat) (ls : List Nat) (b : Block),
    AtSlot s x t ts → ActsFor x h w ls → Canonical s.now → NoStores s.now → NoViews s.now x.core →
    s.now.blockOf x.core w = some b → Known s.now x.core (pairs w ls) →
    let c := x.core
    let m := s.now
    let free := Settled x.before c (pairs w ls) fun p => [(m.poolAt c p.1 (8 * f.imm16.toNat), 8)]
    let seen := (m.afterPasses c).sreadOf c w ls (8 * f.imm16.toNat) 8
    let word := BitVec.ofNat 64 seen
    let base := fun (l : Rest) => afterPort (taking m c false [((w, 0), behind l)]) c (x.passes + 1)
    let three := [Instr.fwait h f, .fcrd h f, .fcrdClr h f]
    let at_ := b.at_ (8 * f.imm16.toNat)
    let v := poolWord m c at_ 8
    let thr := if f.cmd.getLsbD 0 then some ((x.s w f.a.toNat).extractLsb' 0 32) else none
    let us := ((x.s w f.b.toNat).extractLsb' 0 32).toNat
    (m.gridOf c w = none → ∀ i ∈ Instr.fcnt h f :: three, exec i s = .next (faultAt s x t ts w ls 0x13)) ∧
    ∀ g, m.gridOf c w = some g →
      (LegalPattern g (x.s w f.a.toNat) (x.s w (f.a.toNat + 1)) → ∃ u, exec (.fcnt h f) s = .next u ∧
        Gives s x t ts [inS x w f.d.toNat
          (BitVec.ofNat 64 (coordinates g (x.s w f.a.toNat) (x.s w (f.a.toNat + 1)))) 2] u) ∧
      (¬LegalPattern g (x.s w f.a.toNat) (x.s w (f.a.toNat + 1)) →
        exec (.fcnt h f) s = .next (faultAt s x t ts w ls 0x13)) ∧
      (m.scratchOf c w < 8 * f.imm16.toNat + 8 → ∀ i ∈ three, exec i s = .next (faultAt s x t ts w ls 0x08)) ∧
      (8 * f.imm16.toNat + 8 ≤ m.scratchOf c w →
        (free → Met thr seen → exec (.fwait h f) s = .next (ran x t ts (acquired
          (withPending m c w f.d.toNat (x.lanes w) .held 0 word (some (m.clock + 10))) c (pairs w ls)))) ∧
        (free → ¬Met thr seen → exec (.fwait h f) s = .next (ran x t ts (blocked
          (withPending m c w f.d.toNat (x.lanes w) .held m.next 0 none) x w ls (.count f.imm16.toNat thr f.d.toNat
            (if f.cmd.toNat / 2 = 1 then some (m.tick + us * 1000 * Config.ticksPerNs) else none))))) ∧
        (¬free → ∀ i ∈ three, exec i s = .next (heldAt s x t ts)) ∧
        ((m.core c).passes = [] → seen = v) ∧
        (free → let again := (x.passes, at_, PassOp.load 8 7 (.s w f.d.toNat) 0 64)
          let res := [inS x w f.d.toNat word 10]
          (∃ u, exec (.fcrd h f) s = .next u ∧ GivesOver s (base [again]) (Taken (past x t ts) 1) x.passes res u) ∧
          ∃ u, exec (.fcrdClr h f) s = .next u ∧ Does s (base [again, (x.passes, at_, .store (leBytes 8 0))])
            (Taken (past x t ts) 1) x.passes res
            (let pool := fun a => (m.core c).sram.read a
             if x.passes = 0 then storedAt pool at_ (List.replicate 8 0) else pool) u))) ∧
  ∀ (s : State) (c n d dl : Nat) (thr : Option W32) (g : GWait) (b : Block), NoStores s.now →
    (s.now.core c).waits.find? (fun y => y.id == g.id) = some g → g.wait = .count n thr d (some dl) → g.met = none →
    dl ≤ s.now.tick → s.now.blockOf c g.warp = some b → g.lanes.Nodup → Known s.now c (pairs g.warp g.lanes) →
    let v := BitVec.ofNat 64 (poolWord s.now c (b.at_ (8 * n)) 8)
    ∃ u, exec (.fwaitTimeout c g.id) s = .next u ∧ u.issue = s.issue ∧ (u.now.core c).sram = (s.now.core c).sram ∧
      WaitEnded s.now u.now c g s.now.clock [(d, v ||| 1#64 <<< 62)]) ∧
  (∀ (s : State) (c id : Nat),
    ((∀ g, (s.now.core c).waits.find? (fun g => g.id == id) = some g →
      ∀ n thr d dl, g.wait = .count n thr d (some dl) → s.now.tick < dl ∨ g.met ≠ none) →
      exec (.fwaitTimeout c id) s = .next s) ∧
    ((∀ g, (s.now.core c).waits.find? (fun g => g.id == id) = some g →
      ∀ j i n v d dl, g.wait = .canal j i n v d (some dl) → s.now.tick < dl) → exec (.canalWaitTimeout c id) s = .next s) ∧
    ((∀ g, (s.now.core c).waits.find? (fun g => g.id == id) = some g →
      ∀ hd d dl, g.wait = .leat hd d (some dl) → s.now.tick < dl) → exec (.leatWaitTimeout c id) s = .next s))

/-! ### Fabric ports and links -/

/-- A request packet with a broken header is discarded and counted; one whose context the module does not hold, or that is not
active, is answered with an error, that of a contribution on its tree link; one that the route table sends on waits on its link;
one for this module, leat data too, enters the inbound queue, as do the parts of its payload. The port then serves, in no fixed
order, the oldest operation that may leave or a queued request, the first of its source: some parts of a store's payload are
written before the rest, which is then completed, a load is answered with its bytes, an atomic leaves its new word. After parts
of R219, R221, R224 to R226, R244, R246 to R248. Completes: `fabricPacketArrival`, `leatMessageArrival`. It rests on choices of
the model: logs 1, 7, 19 and 29. -/
def Obligations.FabricRequestSteps : Prop :=
  (∀ (s : State) (p : Packet),
    let m := s.now
    let run := exec (.fabricPacketArrival (some p)) s
    let spread := (List.range 5).foldr (fun k n => (sideOf p.highs k - sideOf p.lows k + 1) * n) 1
    let ends := part p.opd0 0 32 + p.len = part p.opd0 32 32
    let err := fun (own : W64) => replyTo p 7 true (if p.op = 8 then 1 else if p.op = 1 ∧ ¬ends then 0 else spread) [] own
      (if p.op = 8 then 1 else 0)
    let treeErr := fun (own : W64) =>
      { p with op := 7, cls := true, hop := 1, err := true, tree := true, src := own, len := 1, pay := [] }
    (¬LegalHeader p ∨ p.op ∈ [3, 5, 7] → run = .next { s with now := { m with
      counters := { m.counters with protocol := m.counters.protocol + 1 } } }) ∧
    (LegalHeader p → p.op ∉ [3, 5, 7] →
      (p.op = 8 → run = exec (.leatMessageArrival (some p)) s) ∧
      (m.grid? p.ctx = none → run = .next { s with now := { m with outPkts := m.outPkts ++
        [(24, if p.op = 6 then treeErr 0 else { err 0 with hop := 1 })] } }) ∧
      ∀ g, m.grid? p.ctx = some g →
        (g.active = false → p.op ≠ 6 → ∃ u, run = .next u ∧ u.issue = s.issue ∧ Leaves m u.now g (err g.coord)) ∧
        (g.active = false → p.op = 6 → ∃ u, run = .next u ∧ u.issue = s.issue ∧
          (g.treeLink p.src < 24 → Queues m u.now (g.treeLink p.src) (treeErr g.coord)) ∧
          (24 ≤ g.treeLink p.src → u.now = m)) ∧
        (g.active = true → p.op = 8 →
          (∀ l q, m.expand g { p with lows := p.addr, highs := p.addr } = [.link l q] → ∃ u, run = .next u ∧
            u.issue = s.issue ∧ Queues m u.now l { q with lows := p.lows, highs := p.highs }) ∧
          ∀ q, m.expand g { p with lows := p.addr, highs := p.addr } = [.here q] → run =
            .next { s with now := { m with inQ := m.inQ ++ [{ pkt := p, left := [] }] } }) ∧
        (g.active = true → p.op ∈ [0, 1, 2, 4] →
          (∀ l q, m.expand g p = [.link l q] → ∃ u, run = .next u ∧ u.issue = s.issue ∧ Queues m u.now l q) ∧
          (∀ q, m.expand g p = [.here q] → ∃ left, run =
            .next { s with now := { m with inQ := m.inQ ++ [{ pkt := q, left := left }] } } ∧
            (1 < p.op → left = []) ∧
            (p.op ≤ 1 → targetAt q.addr % 8 = 0 → part q.addr 21 11 = 0 → q.pay.length % 8 = 0 →
              left = (List.range (q.pay.length / 8)).map fun i => (8 * i, 8)))))) ∧
  ∀ (s : State), Canonical s.now → NoStores s.now →
    let m := s.now
    let run := exec (.fabricPacketArrival none) s
    let ops := m.fabOps.filter fun o => m.injectable o
    let ins := firstOfSource m.inQ
    let k := Config.order m.free % (ops.length + ins.length)
    (ops = [] → m.inQ = [] → run = .next s) ∧
    (∀ i g c off b, ops.length ≤ k → ins[k - ops.length]? = some i → m.grid? i.pkt.ctx = some g → NoViews m c → i.pkt.err = false →
      i.held = none →
      (∀ y ∈ m.issuersOf i.pkt, ∀ k ∈ m.cores, ∀ z ∈ k.mdone, z.spans = [] ∨ m.afterDone z y = true) →
      let p := i.pkt
      let rest := m.inQ.erase i
      (p.op = 0 → NamesBlock m p p.pay.length c off b → (∀ q ∈ i.left, q.1 + q.2 ≤ p.pay.length) → ∃ u, run = .next u ∧
        u.issue = s.issue ∧
        ((∃ l, l.Sublist i.left ∧ l ≠ i.left ∧ Stores m u.now c (afterParts p.pay (b.at_ off) (byteAt m c) l) ∧ u.now.inQ =
            alterFirst (fun j => j == i) (fun j => { j with left := j.left.filter fun q => !l.contains q }) m.inQ) ∨
         (∃ n, Stores m n c (afterParts p.pay (b.at_ off) (byteAt m c) i.left) ∧ n.inQ = rest ∧
            Leaves n u.now g (replyTo p 7 false 1 [] g.coord 0)))) ∧
      (p.op = 2 → NamesBlock m p (tyWidth (part p.opd1 5 4) / 8) c off b → ∃ u n, run = .next u ∧ u.issue = s.issue ∧
        Stores m n c (byteAt m c) ∧ n.inQ = rest ∧ Leaves n u.now g (replyTo p 3 false (tyWidth (part p.opd1 5 4) / 8)
          ((List.range (tyWidth (part p.opd1 5 4) / 8)).map fun i => byteAt m c (b.at_ off + i)) g.coord 0)) ∧
      (p.op = 4 → (part p.opd1 5 4 ∈ [2, 3, 6, 7] ∨ (part p.opd1 5 4 = 10 ∧ part p.opd1 0 5 = 0)) → part p.opd1 0 5 < 8 →
        let t := part p.opd1 5 4
        let n := tyWidth t / 8
        NamesBlock m p n c off b →
        let old := BitVec.ofNat (tyWidth t) (poolWord m c (b.at_ off) n)
        let v : BitVec (tyWidth t) := p.opd0.setWidth _
        let new := if part p.opd1 0 5 = 7 then (if old = v then BitVec.ofNat _ (leNat p.pay) else old)
          else atomWord (part p.opd1 0 5) t old v 0
        ∃ u z, run = .next u ∧ u.issue = s.issue ∧
          Stores m z c (storedAt (byteAt m c) (b.at_ off) (leBytes n new.toNat)) ∧ z.inQ = rest ∧
          Leaves z u.now g (if p.opd1.getLsbD 30 then replyTo p 5 false n (leBytes n old.toNat) g.coord 0
            else replyTo p 7 false 1 [] g.coord 0))) ∧
    ∀ o g, ops[k]? = some o → o.pkt.op ∈ [0, 2, 4] → (m.fabOps.map (·.id)).Nodup → m.grid? o.pkt.ctx = some g → g.active = true →
      ∃ u, run = .next u ∧ u.now.cores = m.cores ∧ u.now.dram = m.dram ∧
        u.now.fabOps = (m.fabOps.map fun y => if y.id = o.id then { y with unsent := false } else y) ∧
        (∀ l q k, m.expand g o.pkt = [.link l q] → m.link? l = some k → u.now.inQ = m.inQ ∧
          u.now.link? l = some { k with txq := k.txq ++ [q] }) ∧
        (∀ q, m.expand g o.pkt = [.here q] → u.now.links = m.links ∧ ∃ left, u.now.inQ = m.inQ ++ [{ pkt := q, left := left }])

/-- A response packet that the route table sends on waits on its link; one for an operation of this module raises done in the
operation's count word by its coordinates and sets err with an error, lands the value of a load or atomic, and ends the
operation with its last completion. The packets of the own port's queue count as well. After parts of R219, R221, R225, R226,
R244. Completes: `fabricCompletionArrival`. It rests on choices of the model: log 7. -/
def Obligations.FabricCompletionSteps : Prop :=
  (∀ s : State, (∀ q ∈ s.now.portQ, q.opd1 ≠ 0) → exec (.fabricCompletionArrival none) s = .next s) ∧
  ∀ (s : State) (p : Packet),
    let m := s.now
    let run := exec (.fabricCompletionArrival (some p)) s
    (¬LegalHeader p ∨ p.op ∉ [3, 5, 7] → run = .next { s with now := { m with
      counters := { m.counters with protocol := m.counters.protocol + 1 } } }) ∧
    (LegalHeader p → p.op ∈ [3, 5, 7] → m.grid? p.ctx = none → run = .next s) ∧
    ∀ g : GridCtx, Canonical m → NoStores m → LegalHeader p → p.op ∈ [3, 5, 7] → m.grid? p.ctx = some g → p.tree = false →
    (∀ l q, m.expand g p = [.link l q] → ∃ u, run = .next u ∧ u.issue = s.issue ∧ Queues m u.now l q) ∧
    ∀ o b i, m.fabOps.find? (fun o => o.id % 2 ^ 32 == p.tag && o.pkt.op != 6 && o.pkt.ctx == p.ctx) = some o →
      (m.fabOps.map (·.id)).Nodup → o.core < 1024 → m.block? o.core o.block = some b → NoViews m o.core →
      (o.pkt.op = 1 → o.taint = []) →
      (i = some p ∧ m.expand g p = [.here p]) ∨ (i = none ∧ p.opd1 = 0 ∧ m.portQ.find? (fun q => q.opd1 == 0) = some p) →
      let n := if p.op = 7 then p.len else 1
      let at_ := b.at_ (8 * o.pkt.cnt)
      let word := BitVec.ofNat 64 (poolWord m o.core at_ 8)
      let known := if p.err = true ∨ p.len = 0 then [] else [(p.src, 0, o.span)]
      let plain := fun (l : List FabOp) => l.map fun y => { y with taint := [], newer := [] }
      ∃ u, exec (.fabricCompletionArrival i) s = .next u ∧ u.issue = s.issue ∧
        (∀ a, byteAt u.now o.core a = storedAt (byteAt m o.core) at_ (leBytes 8 (credited word n p.err).toNat) a) ∧
        plain u.now.fabOps = plain (if o.left ≤ n then m.fabOps.filter fun y => y.id != o.id
          else m.fabOps.map fun y => if y.id = o.id then { y with left := y.left - n, done := y.done ++ known } else y) ∧
        (u.now.portQ = if i = none then m.portQ.erase p else m.portQ) ∧
        ∀ f ∈ (m.core o.core).flights, f.kind = .fabric → f.id = o.id → o.dest.isSome → o.fwd = [] →
          p.pay.length = tyWidth (tyCode o.ty) / 8 → tyCode o.ty < 8 →
          { f with land := some m.clock, val := if p.err then 0
              else widen (tyCode o.ty) 64 (BitVec.ofNat (tyWidth (tyCode o.ty)) (leNat p.pay)) } ∈ (u.now.core o.core).flights

/-- A link trains on the working lanes at the version that both sides have, or is down; stop masks, replays and a failed lane
change their link and no other; the Canal port agrees its version as link 24; a backwater flit marks its peer for 16 µs, a
mark whose time is over lapses, and backwater flits are repeated after 4 µs, on links whose channel 7 is not stopped; a flit that
this side receives with another check value has the peer asked for what it sent from that flit on. That the queues are told by
flits of 64 bytes, that what a dead link held is dropped, and the polynomial of the check value are the model's choices. After
parts of R251 to R253, R257, R264, R265, R336. Completes: `flitCrcReplay`, `laneFailureRetrain`, `linkTraining`, `vcStopGo`,
`backwaterFlit`, `backwaterLapse`, `backwaterRepeat`. It rests on choices of the model: logs 25, 37, 52, 89, 90 and 99. -/
def Obligations.LinkEventEffects : Prop :=
  ∀ (s : State) (l : Nat) (o : Offer),
    let m := s.now
    let major := min 2 o.hiMajor
    let agreed := 1 ≤ major ∧ o.loMajor ≤ major
    let minor := if o.hiMajor = 2 then min 1 o.hiMinor else if o.hiMajor < 2 then o.hiMinor else 1
    let caps := 0xF#32 &&& o.caps
    let waiting := ((m.link? l).map (·.txq)).getD []
    let aside := fun (k : Option Link) => k.map fun k => { k with txq := [] }
    (l < 24 → agreed → o.roundTripNs ≤ 100 → lanesFor caps o.lanes ≠ [] → ∃ u, exec (.linkTraining l o) s = .next u ∧
      u.issue = s.issue ∧ LinkBecomes m u.now l (trained l o major minor caps waiting)) ∧
    (l < 24 → ¬agreed ∨ 100 < o.roundTripNs ∨ lanesFor caps o.lanes = [] → ∃ u k, exec (.linkTraining l o) s = .next u ∧
      u.now.link? l = some k ∧ k.up = false ∧ k.txq = [] ∧ ∀ j, j ≠ l → aside (u.now.link? j) = aside (m.link? j)) ∧
    (l = 24 → ∃ u, exec (.linkTraining l o) s = .next u ∧ u.now.canal.version =
      if 1 ≤ o.hiMajor ∧ o.loMajor ≤ 1 then some (1, if o.hiMajor = 1 then min 0 o.hiMinor else 0) else none) ∧
    (24 < l → exec (.linkTraining l o) s = .next s) ∧
    (∀ mask, (∀ k, m.link? l = some k → ∃ u, exec (.vcStopGo l mask) s = .next u ∧ u.issue = s.issue ∧
        LinkBecomes m u.now l { k with stop := mask }) ∧
      (m.link? l = none → exec (.vcStopGo l mask) s = .next s)) ∧
    (∀ flit crc, (∀ k f fs, m.link? l = some k → k.up = true → k.sent.drop flit = f :: fs → crc32c f ≠ crc →
        ∃ u, exec (.flitCrcReplay ⟨l, flit, crc, none⟩) s = .next u ∧ u.issue = s.issue ∧
          LinkBecomes m u.now l { k with replays := k.replays + 1, again := f :: fs }) ∧
      ((∀ k, m.link? l = some k → k.up = false ∨ ∀ f, k.sent[flit]? = some f → crc32c f = crc) →
        exec (.flitCrcReplay ⟨l, flit, crc, none⟩) s = .next s)) ∧
    (∀ flit crc d, (∀ k, m.link? l = some k → k.up = true → crc32c d ≠ crc →
        ∃ u, exec (.flitCrcReplay ⟨l, flit, crc, some d⟩) s = .next u ∧ u.issue = s.issue ∧
          LinkBecomes m u.now l { k with asked := k.asked ++ [flit] }) ∧
      ((∀ k, m.link? l = some k → k.up = false ∨ crc32c d = crc) →
        exec (.flitCrcReplay ⟨l, flit, crc, some d⟩) s = .next s)) ∧
    (∀ lane, (∀ k, m.link? l = some k → k.up = true → lane ∈ k.working →
        let working := k.working.filter fun x => x != lane
        let lanes := lanesFor k.caps working
        let k' := { k with working := working, lanes := lanes, replays := k.replays + 1, again := k.sent }
        ∃ u, exec (.laneFailureRetrain l lane) s = .next u ∧ u.issue = s.issue ∧ (lanes ≠ [] → LinkBecomes m u.now l k') ∧
          (lanes = [] → u.now.link? l = some { k' with up := false, txq := [] } ∧
            ∀ j, j ≠ l → aside (u.now.link? j) = aside (m.link? j))) ∧
      ((∀ k, m.link? l = some k → k.up = false ∨ lane ∉ k.working) → exec (.laneFailureRetrain l lane) s = .next s)) ∧
    (∀ peer, (∀ k, m.link? l = some k → k.up = true → k.caps.getLsbD 2 = true → ∃ u, exec (.backwaterFlit ⟨l, peer⟩) s = .next u ∧
        u.issue = s.issue ∧ { u.now with marks := m.marks } = m ∧
        (∃ k ∈ u.now.marks, k.peer = peer ∧ k.until_ = m.tick + 16000 * Config.ticksPerNs) ∧
        ∀ k ∈ u.now.marks, k.peer ≠ peer → k ∈ m.marks) ∧
      ((∀ k, m.link? l = some k → k.up = false ∨ k.caps.getLsbD 2 = false) → exec (.backwaterFlit ⟨l, peer⟩) s = .next s)) ∧
    (∀ peer, ∃ u, exec (.backwaterLapse peer) s = .next u ∧ u.issue = s.issue ∧ { u.now with marks := m.marks } = m ∧
      ∀ k, k ∈ u.now.marks ↔ k ∈ m.marks ∧ ¬(k.peer = peer ∧ k.until_ ≤ m.tick)) ∧
    let queued := (m.inQ.map fun i => 64 * (1 + (i.pkt.pay.length + 63) / 64)).sum
    let source := fun (ctx : Nat) (a : W64) => (∃ p ∈ m.leat.refused, p.ctx = ctx ∧ p.src = a) ∨
      (2 ^ 20 < queued ∧ ∃ i ∈ m.inQ, i.pkt.ctx = ctx ∧ i.pkt.src = a)
    let reached := fun (ctx : Nat) (a : W64) => ∃ g r k, m.grid? ctx = some g ∧ g.rule? false a = some r ∧
      m.link? r.link = some k ∧ k.up = true ∧ k.caps.getLsbD 2 = true ∧ k.stop.getLsbD 7 = false
    ((∃ ctx a, source ctx a) → m.flitAt + 4000 * Config.ticksPerNs ≤ m.tick → ∃ u, exec .backwaterRepeat s = .next u ∧
      u.issue = s.issue ∧ u.now.flitAt = m.tick ∧ { u.now with flits := m.flits, flitAt := m.flitAt } = m ∧
      ∃ l, u.now.flits = m.flits ++ l ∧ ∀ a, a ∈ l ↔ ∃ ctx, source ctx a ∧ reached ctx a) ∧
    ((∀ ctx a, ¬source ctx a) ∨ m.tick < m.flitAt + 4000 * Config.ticksPerNs → exec .backwaterRepeat s = .next s)

/-! ### The Canal -/

/-- `cnl.post` and `cnl.rel` of a member queue a frame of one entry, the latter held back until the writes before it are
performed; a full queue holds the bundle; `cnl.wt` on a word that meets its condition lands the word and status 0 after 10 c,
and blocks otherwise; a module that is no member, and a word or member that is not there, are the Canal fault. A wait whose
deadline has passed ends with status 1. Which writes a release covers, and what a wait has acquired, is kept as the model
chooses. After parts of R274 to R277. Completes: `canalWaitTimeout`, `cnlPost`, `cnlWt`, `cnlRel`. It rests on choices of the
model: log 29. -/
def Obligations.CanalInstructionEffects : Prop :=
  (∀ (s : State) (c id : Nat), (∀ g ∈ (s.now.core c).waits, g.id = id → ∀ j i cond cmp d dl,
    g.wait = .canal j i cond cmp d (some dl) → s.now.tick < dl) → exec (.canalWaitTimeout c id) s = .next s) ∧
  (∀ (h : Hdr) (f : FmtE) (s : State) (x : Issue) (t : BSlot) (ts : List BSlot) (w : Nat) (ls : List Nat) (b : Block),
    AtSlot s x t ts → ActsFor x h w ls → s.now.blockOf x.core w = some b →
    let c := x.core
    let m := s.now
    let a := x.s w f.a.toNat
    let posts := [(Instr.cnlPost h f, 0, ([] : List Nat)), (.cnlRel h f, 1, m.releaseSet c w ls)]
    let fault := faultAt s x t ts w ls 0x15
    (∀ row ∈ posts,
      (¬Member m.canal ∨ 256 ≤ a.toNat → exec row.1 s = .next fault) ∧
      (Member m.canal → a.toNat < 256 → 64 ≤ m.canal.q.length → exec row.1 s = .next (heldAt s x t ts)) ∧
      (Member m.canal → a.toNat < 256 → m.canal.q.length < 64 → ∃ q,
        QueuedFrame m.canal.q q (postedFrame m c b row.2.1 a.toNat (f.cmd.getLsbD 0) (x.s w f.b.toNat) row.2.2) ∧
        exec row.1 s = .next (ran x t ts { m with canal := { m.canal with q := q } }))) ∧
    (¬Member m.canal ∨ 2 ^ 14 ≤ a.toNat ∨ m.canal.n ≤ part a 8 6 → exec (.cnlWt h f) s = .next fault) ∧
    (Member m.canal → a.toNat < 2 ^ 14 → part a 8 6 < m.canal.n →
      let v := m.canal.word (part a 8 6) (part a 0 8)
      let cond := f.cmd.toNat % 8
      let cmp := x.s w f.b.toNat
      let us := part (x.s w f.c.toNat) 0 32
      let pending := fun (id : Nat) (v : W64) (land : Option Nat) => withPending
        (withPending m c w f.d.toNat (x.lanes w) .held id v land) c w (f.d.toNat + 1) (x.lanes w) .held id 0 land
      (Meets cond v cmp → exec (.cnlWt h f) s =
        .next (ran x t ts (acquired (pending 0 v (some (m.clock + 10))) c (pairs w ls)))) ∧
      (¬Meets cond v cmp → exec (.cnlWt h f) s = .next (ran x t ts (blocked (pending m.next 0 none) x w ls
        (.canal (part a 8 6) (part a 0 8) cond cmp f.d.toNat
          (if f.cmd.toNat / 8 = 1 then some (m.tick + us * 1000 * Config.ticksPerNs) else none)))))) ) ∧
  ∀ (s : State) (c member word cond d dl : Nat) (cmp : W64) (g : GWait),
    (s.now.core c).waits.find? (fun y => y.id == g.id) = some g → g.wait = .canal member word cond cmp d (some dl) →
    dl ≤ s.now.tick → g.lanes.Nodup → ∃ u, exec (.canalWaitTimeout c g.id) s = .next u ∧ u.issue = s.issue ∧
      WaitEnded s.now u.now c g s.now.clock [(d, s.now.canal.word member word), (d + 1, 1)]

/-- Frames of the group are applied in sequence order, an entry overwriting its sender's word or adding to it; the waits that a
frame satisfies, those of saved contexts too, end 2 c later with the word and status 0, and the others stay; the barge takes the
oldest frame that may go, under its number, with the frames asked for again, and a barge that stayed away for 20 µs is made anew;
a release becomes eligible once its writes are performed; a module that cannot recover a frame leaves, drops its replica and its
prepared switches, and its waits end 2 c later with status 2; a group forms with no number applied, and member 0 makes the first
barge, with number 0, or 1 where it sends its first frame. The bookkeeping of an acquire and the polynomial of the check value are
the model's choices. After parts of R258 to R263, R276, R277. Completes: `bargeArrival`, `canalFrameApply`,
`canalReleaseEligible`, `bargeRegenerate`, `canalMemberLeave`, `canalGroupForm`. It rests on choices of the model: logs 21, 29,
47 and 90. -/
def Obligations.CanalPortSteps : Prop :=
  ∀ (s : State),
    let m := s.now
    let k := m.canal
    (∀ f : Frame, (¬Member k ∨ k.group ≠ some f.group → exec (.canalFrameApply f) s = .next s) ∧ (Member k → k.group = some f.group →
      (frameCrc f ≠ f.crc ∨ f.seq < k.next ∨ (∃ y ∈ k.held, y.seq = f.seq) → exec (.canalFrameApply f) s = .next s) ∧
      (frameCrc f = f.crc → k.next < f.seq → (∀ y ∈ k.held, y.seq ≠ f.seq ∧ y.seq ≠ k.next) → exec (.canalFrameApply f) s =
        .next { s with now := { m with canal := { k with held := k.held ++ [f] } } }) ∧
      (frameCrc f = f.crc → f.seq = k.next → k.held = [] → f.resv ≠ 0 ∨ k.n ≤ f.sender ∨ 240 < f.len → ∃ u,
        exec (.canalFrameApply f) s = .next u ∧ u.now.canal = { k with next := k.next + 1 } ∧ u.now.dram = m.dram) ∧
      (frameCrc f = f.crc → f.seq = k.next → k.held = [] → f.resv = 0 → f.sender < k.n → f.len ≤ 240 → f.kind ≤ 1 →
        let pay := f.pay.take f.len
        pay.length % 16 = 0 → ∃ u, exec (.canalFrameApply f) s = .next u ∧ u.now.canal.next = k.next + 1 ∧
          u.now.canal.held = [] ∧ u.now.dram = m.dram ∧
          (∀ j idx, idx < 256 → u.now.canal.word j idx = (List.range (pay.length / 16)).foldl
            (afterEntry f.sender pay j idx) (k.word j idx)) ∧
          (let n : Mod := { m with canal := u.now.canal }; u.now.saved = (n.wakeSaved fun _ g => n.canalMet g).saved) ∧
          ((m.cores.map (·.num)).Nodup → (∀ c, ((m.core c).waits.map (·.id)).Nodup) →
            ∀ c, ∀ g ∈ (m.core c).waits, ∀ j idx cond cmp d dl, g.wait = .canal j idx cond cmp d dl →
              (Meets cond (u.now.canal.word j idx) cmp →
                WaitsEnd m u.now c g [(d, u.now.canal.word j idx), (d + 1, 0)] (some m.next)) ∧
              (¬Meets cond (u.now.canal.word j idx) cmp → g ∈ (u.now.core c).waits))))) ∧
    (∀ b : Barge, (¬Member k ∨ k.group ≠ some b.group → exec (.bargeArrival b) s = .next s) ∧ (Member k → k.group = some b.group →
      let again := k.sent.filter fun f =>
        f.seq < b.seq && (b.seq - 1 - f.seq < 64 && b.retrans.getLsbD (b.seq - 1 - f.seq))
      (∀ f q, k.q = f :: q → f.held = false → ∃ u e, exec (.bargeArrival b) s = .next u ∧
        u.now.canal.out = k.out ++ again ++ [stamped b k.index f] ∧ u.now.canal.bargeAt = m.tick ∧ u.now.canal.barge = some e ∧
        e.group = b.group ∧ e.seq = b.seq + 1) ∧
      ((∀ f, k.q.head? = some f → f.held = true) → ∃ u e, exec (.bargeArrival b) s = .next u ∧
        { u.now with canal := k } = m ∧ u.now.canal = { k with out := k.out ++ again, bargeAt := m.tick, barge := some e } ∧
        e.group = b.group ∧ e.seq = b.seq ∧ ∀ j < 64, e.retrans.getLsbD j = (decide (j < b.seq) &&
          ((b.retrans.getLsbD j && !again.any fun f => f.seq == b.seq - 1 - j) ||
           (decide (k.next ≤ b.seq - 1 - j) && !k.held.any fun f => f.seq == b.seq - 1 - j)))))) ∧
    (let gone := Member k ∧ k.bargeAt + 20000 * Config.ticksPerNs ≤ m.tick ∧
        (k.index = 0 ∨ Config.lowerLeft k.index m.tick = true);
      (∀ gr, gone → k.group = some gr →
        exec .bargeRegenerate s = exec (.bargeArrival { group := gr, seq := k.next, retrans := 0 }) s) ∧
      (¬gone → exec .bargeRegenerate s = .next s)) ∧
    (∀ i f, (k.q[i]? = some f → f.held = true → m.allPerformed f.deps = true → exec (.canalReleaseEligible i) s =
        .next { s with now := { m with canal := { k with q := k.q.set i { f with held := false } } } }) ∧
      (k.q[i]? = some f → f.held = false ∨ m.allPerformed f.deps = false → exec (.canalReleaseEligible i) s = .next s) ∧
      (k.q[i]? = none → k.orphans[i - k.q.length]? = some f → m.allPerformed f.deps = true → ∃ u e,
        exec (.canalReleaseEligible i) s = .next u ∧ u.now.canal = { k with orphans := k.orphans.eraseIdx (i - k.q.length) } ∧
        u.now.cores = m.cores ∧ u.now.events.getLast? = some e ∧ e.type = 9 ∧ e.asid = f.asid ∧ e.payload = 1) ∧
      (k.q[i]? = none → (∀ y, k.orphans[i - k.q.length]? = some y → m.allPerformed y.deps = false) →
        exec (.canalReleaseEligible i) s = .next s)) ∧
    (let reach := (k.held.map fun f => f.seq + 1) ++ (k.barge.map fun e => e.seq).toList;
      ((∃ n ∈ reach, Member k ∧ k.next + 64 < n) → ∃ u, exec .canalMemberLeave s = .next u ∧ u.now.canal.left = true ∧
        u.now.canal.words = [] ∧ u.now.canal.held = [] ∧ u.now.canal.barge = none ∧ u.now.canal.q = [] ∧
        u.now.canal.orphans = k.orphans ++ k.q.filter (·.held) ∧ u.now.preps = [] ∧
        ((m.cores.map (·.num)).Nodup → (∀ c, ((m.core c).waits.map (·.id)).Nodup) →
          ∀ c, ∀ g ∈ (m.core c).waits, ∀ j idx cond cmp d dl, g.wait = .canal j idx cond cmp d dl →
            WaitsEnd m u.now c g [(d, k.word j idx), (d + 1, 2)] none)) ∧
      ((∀ n ∈ reach, ¬Member k ∨ n ≤ k.next + 64) → exec .canalMemberLeave s = .next s)) ∧
    (k.group = none ∨ k.formed = true ∨ k.version = none → exec .canalGroupForm s = .next s) ∧
    ∀ gr v, k.group = some gr → k.formed = false → k.version = some v → ∃ u, exec .canalGroupForm s = .next u ∧
      u.now.canal.formed = true ∧ u.now.canal.left = false ∧ u.now.canal.bargeAt = m.tick ∧
      (k.index ≠ 0 → u.now = { m with canal := { k with formed := true, left := false, next := 0, bargeAt := m.tick },
                                       leat := { m.leat with admitted := [] } }) ∧
      (k.index = 0 → ∃ e, u.now.canal.barge = some e ∧ e.group = gr ∧
        (∀ f q, k.q = f :: q → f.held = false → e.seq = 1 ∧ u.now.canal.out = k.out ++
          [stamped { group := gr, seq := 0, retrans := 0 } k.index f]) ∧
        ((∀ f, k.q.head? = some f → f.held = true) → e.seq = 0 ∧ u.now.canal.out = k.out))

/-! ### Leat -/

/-- `lt.run` and `lt.run.cn` read the run block behind the bundle's earlier accesses, hold the bundle while an access of an earlier
bundle to it is not performed, check it (the pattern first), begin a run under the die's counter, or hold the bundle while the
engine has 32 contexts, the latter with a frame that asks for its admission; `lt.wt` on a run that has ended lands its status after
10 c and blocks otherwise; `lt.st` reads a status; a wait whose deadline has passed lands the status with bit 8. After parts of
R278 to R282, R296. Completes: `leatWaitTimeout`, `ltRun`, `ltRunCn`, `ltWt`, `ltSt`. It rests on choices of the model: log 29 (an
acquire), 77 (the hold), 81 (die c/256), 91 (a run's regions), 110 (the order of its faults) and 111 (a status beyond 65,536 and
that of a saved run). -/
def Obligations.LeatInstructionEffects : Prop :=
  (∀ (s : State) (c id : Nat), (∀ g ∈ (s.now.core c).waits, g.id = id → ∀ hd d dl, g.wait = .leat hd d (some dl) →
    s.now.tick < dl) → exec (.leatWaitTimeout c id) s = .next s) ∧
  (∀ (h : Hdr) (f : FmtE) (s : State) (x : Issue) (t : BSlot) (ts : List BSlot) (w : Nat) (ls : List Nat) (b : Block)
    (la : Launch), AtSlot s x t ts → ActsFor x h w ls → s.now.blockOf x.core w = some b →
    s.now.launchOf x.core w = some la →
    let c := x.core
    let m := s.now
    let off := (x.s w f.a.toNat).toNat
    let free := Settled x.before c (pairs w ls) fun p => [(m.poolAt c p.1 off, 64)]
    let bad := causeAt off 64 la.rec_.scratch
    let runs := [(Instr.ltRun h f, True), (.ltRunCn h f, Member m.canal)]
    let hd := x.s w f.a.toNat
    let us := part (x.s w f.b.toNat) 0 32
    let ws := words64 8 (leBytes 64 ((m.afterPasses c).sreadOf c w ls off 64))
    let full := 32 ≤ (m.leat.ctxs.filter fun y => y.die == c / 256).length
    let n := m.leat.counters.getD (c / 256) 0
    ((m.core c).passes = [] → Steady m c (pairs w ls) (b.at_ off) 64 → ws = blockWords m c (b.at_ off)) ∧
    (¬Member m.canal → exec (.ltRunCn h f) s = .next (faultAt s x t ts w ls 0x15)) ∧
    (∀ row ∈ runs, row.2 →
      let i := row.1
      (∀ k, bad = some k → exec i s = .next (faultAt s x t ts w ls k)) ∧
      (bad = none → m.gridOf c w = none → exec i s = .next (faultAt s x t ts w ls 0x13)) ∧
      ∀ g, bad = none → m.gridOf c w = some g →
        (¬free → exec i s = .next (heldAt s x t ts)) ∧
        (free → ¬LegalPattern g (getR ws 1) (getR ws 2) → exec i s = .next (faultAt s x t ts w ls 0x13)) ∧
        (free → LegalPattern g (getR ws 1) (getR ws 2) → ¬LegalRun m b la g ws → exec i s = .next (faultAt s x t ts w ls 0x16)) ∧
        (free → LegalPattern g (getR ws 1) (getR ws 2) → LegalRun m b la g ws → full → exec i s = .next (heldAt s x t ts)) ∧
        (free → LegalPattern g (getR ws 1) (getR ws 2) → LegalRun m b la g ws → Member m.canal →
          64 ≤ m.canal.q.length → exec (.ltRunCn h f) s = .next (heldAt s x t ts))) ∧
    (∀ g, bad = none → m.gridOf c w = some g → free → LegalPattern g (getR ws 1) (getR ws 2) → LegalRun m b la g ws → ¬full →
      (∃ u, exec (.ltRun h f) s = .next u ∧ GivesOver s (begun m (newRun m c w ls b la g ws) w) (past x t ts) 0
        [inS x w f.d.toNat (BitVec.ofNat 64 (n.toNat + 2 ^ 32 * (c / 256))) 2] u) ∧
      (Member m.canal → m.canal.q.length < 64 → ∃ u y, exec (.ltRunCn h f) s = .next u ∧ y ∈ u.now.leat.ctxs ∧
        { y with cn := false, kth := 0, admitted := true } = newRun m c w ls b la g ws ∧ y.cn = true ∧
        u.now.leat.counters = m.leat.counters.set (c / 256) (n + 1) ∧
        ∃ q ∈ u.now.canal.q, q.kind = 4 ∧ q.core = c ∧ q.pay = leBytes 8 (getR ws 1).toNat ++ leBytes 8 (getR ws 2).toNat ++
          leBytes 4 (y.key.toNat) ++ leBytes 4 g.num)) ∧
    ∃ st, LeatStatus m (c / 256) hd st ∧
      (∃ u, exec (.ltSt h f) s = .next u ∧ Gives s x t ts [inS x w f.d.toNat (BitVec.ofNat 64 st) 4] u) ∧
      (st ≠ 0 → let m1 := withPending m c w f.d.toNat (x.lanes w) .held 0 (BitVec.ofNat 64 st) (some (m.clock + 10))
        exec (.ltWt h f) s = .next (ran x t ts (if st ≤ 2 then (acquired m1 c (pairs w ls)).coolHandle c w (c / 256) (hd.extractLsb' 0 32) else m1))) ∧
      (st = 0 → exec (.ltWt h f) s = .next (ran x t ts (blocked
        (withPending m c w f.d.toNat (x.lanes w) .held m.next 0 none) x w ls (.leat hd f.d.toNat
          (if f.cmd = 1 then some (m.tick + us * 1000 * Config.ticksPerNs) else none)))))) ∧
  ∀ (s : State) (c d dl : Nat) (hd : W64) (g : GWait),
    (s.now.core c).waits.find? (fun y => y.id == g.id) = some g → g.wait = .leat hd d (some dl) → dl ≤ s.now.tick →
    g.lanes.Nodup → ∃ u st, exec (.leatWaitTimeout c g.id) s = .next u ∧ u.issue = s.issue ∧
      LeatStatus s.now (c / 256) hd st ∧ WaitEnded s.now u.now c g s.now.clock [(d, BitVec.ofNat 64 (2 ^ 8 + st))]

/-- The engine of a die serves its next context: an end step ends the run with status 1 or 2 once its deliveries are accepted; a
`wait` goes on when its word has come, or its deliveries are accepted; a `loop` sets or advances its counter; `send`, `recv`, `rrs`
and `copy` read, combine, store and deliver the elements of their buffers, or wait for a message or for one of four deliveries; an
illegal step ends the run with status 3. The first piece of a message for a run is placed in its store or its launch's pool, or
refused with a backwater flit, a further one joins it, and the message is accepted with its last one; an accepted delivery is over,
a refused one parks, and a go notice starts it anew. After parts of R282 to R284, R323 to R330, R332, R412, R417, R439. Completes:
`leatStep`, `leatMessageArrival`, `leatGoNotice`. It rests on choices of the model: logs 17, 66, 72 and 73. -/
def Obligations.LeatEngineSteps : Prop :=
  (∀ (s : State) (die : Nat), (∀ x ∈ s.now.leat.ctxs, x.die = die → ¬MayStep s.now x) → exec (.leatStep die) s = .next s) ∧
  (∀ (s : State) (x : LtCtx) (rest : List LtCtx) (b : Block), Canonical s.now → NoMatrixStores s.now →
    s.now.leat.ctxs.filter (fun y => y.die == x.die) = x :: rest → MayStep s.now x →
    s.now.block? x.core x.block = some b → (∀ k ∈ s.now.cores, ∀ y ∈ k.blocks, y.viewsUsed = []) → s.now.leat.refused = [] →
    let m := s.now
    let run := exec (.leatStep x.die) s
    let v := stepWord m x b
    let op := part v 0 3
    let ends := fun (st : Nat) => ∃ u, run = .next u ∧ RunOver u.now x st
    let goes := fun (y : LtCtx) => run = .next { s with now := servedAs m x { y with met := false } }
    let waits := rest = [] → run = .next s
    let pm := part v 8 3
    let d := part v 11 12
    let off := chunkAt x v (part v 33 18)
    let dst := chunkAt x v (part v 11 18)
    let ls := elementsAt m x b v off
    let narrow := v.getLsbD 3 = false ∧ elementSize v = 2
    let done := fun (y : LtCtx) (off : Nat) (bs : List Byte) (pool : List (Nat × LtMsg)) =>
      ∃ u, run = .next u ∧ u.issue = s.issue ∧ StepOver m u.now x y b off bs pool
    (m.ltScratch x < x.prog + 8 * x.step + 8 → ends 3) ∧
    (x.prog + 8 * x.step + 8 ≤ m.ltScratch x →
      (v = 0 → x.out = [] → ends (if x.err then 2 else 1)) ∧
      (v = 0 → x.out ≠ [] → waits) ∧
      (op = 7 ∨ (op = 0 ∧ v ≠ 0) → ends 3) ∧
      (op = 5 → part v 4 29 ≠ 0 ∨ m.ltScratch x < 8 * part v 33 18 + 4 → ends 3) ∧
      (op = 5 → part v 4 29 = 0 → 8 * part v 33 18 + 4 ≤ m.ltScratch x →
        let word := poolWord m x.core (b.at_ (8 * part v 33 18)) 4
        let come := if v.getLsbD 3 then x.met = true ∨ part v 51 13 ≤ word else x.out = []
        (come → goes { x with step := x.step + 1 }) ∧ (¬come → waits)) ∧
      (op = 6 → BadLoop x v → ends 3) ∧
      (op = 6 → ¬BadLoop x v →
        let c := part v 4 2
        let own := m.ownCoord x.grid
        let rank := if pm < 5 then sideOf own pm - sideOf x.lows pm else m.ltRank x
        let n := loopSize x v
        (v.getLsbD 3 = false → goes { x with
          values := x.values.set c ((rank + d) % n), trips := x.trips.set c (part v 51 13), step := x.step + 1 }) ∧
        (v.getLsbD 3 = true → goes { x with
          values := x.values.set c ((x.values.getD c 0 + d) % n), trips := x.trips.set c (x.trips.getD c 0 - 1),
          step := if 1 < x.trips.getD c 0 then part v 33 18 else x.step + 1 })) ∧
      (1 ≤ op → op ≤ 4 → BadData m x v → ends 3) ∧
      (op = 1 → ¬BadData m x v → ∀ peer, m.ltPeer x pm d = some peer →
        (4 ≤ x.out.length → m.peerGone x peer = false → waits) ∧
        (x.out.length < 4 ∨ m.peerGone x peer = true → done (handedOver m x peer ls) 0 [] m.leat.pool)) ∧
      (op = 2 ∨ op = 3 → ¬BadData m x v → ∀ peer to_, m.ltPeer x pm d = some peer →
        (op = 3 → m.ltPeer x pm (part v 23 8) = some to_) →
        let full := op = 3 ∧ 4 ≤ x.out.length ∧ m.peerGone x to_ = false
        (full → waits) ∧
        (m.peerGone x peer = false → (∀ g x0 pool, ¬FindsMessage m x peer g x0 pool) → waits) ∧
        (¬full → m.peerGone x peer = false → ∀ g x0 pool, FindsMessage m x peer g x0 pool →
          g.pay.length ≠ 4 * ls.length → ends 3) ∧
        ∀ x1 pool vals, ¬full → Takes m x v peer ls x1 pool vals →
          let rs := combined v ls vals
          (op = 2 → narrow → ends 3) ∧
          (op = 2 → ¬narrow → done (counted v x1 rs) off (storedBytes v rs) pool) ∧
          (op = 3 → done (handedOver m (counted v x1 rs) to_ rs) off (storedBytes v rs) pool)) ∧
      (op = 4 → ¬BadData m x v →
        let rs := combined v (elementsAt m x b v dst) ls
        done (counted v x rs) dst (storedBytes v rs) m.leat.pool))) ∧
  (∀ (s : State) (i : Inbound) (g : GridCtx), i.pkt.op = 8 → s.now.grid? i.pkt.ctx = some g →
    s.now.inQ = [i] → (∀ o ∈ s.now.fabOps, s.now.injectable o = false) →
    let m := s.now
    let p := i.pkt
    let run := exec (.fabricPacketArrival none) s
    let told := fun (fn : W64) => { replyTo p 7 false 0 [] g.coord fn with opd0 := p.opd0 }
    let first : LtMsg := { asid := p.asid, ctx := p.ctx, lows := p.lows, highs := p.highs, key := p.opd0.extractLsb' 0 32, src := p.src,
                           rank := part p.opd0 32 12, num := part p.opd0 44 20, total := part p.opd1 32 32, pay := p.pay, inStep := false }
    let size := max 1 ((first.total + 4095) / 4096)
    -- the module n but for its leat unit, and what is told once a message has all its pieces
    let took := fun (n : Mod) (u : State) (y : LtMsg) => { n with leat := m.leat, inQ := m.inQ, free := m.free } = m ∧
      n.inQ = [] ∧ n.leat.refused = m.leat.refused ∧ (y.total ≤ y.pay.length → Leaves n u.now g (told 1)) ∧
      (y.pay.length < y.total → u.now = n)
    (m.asid? p.asid = none → ∃ u n, run = .next u ∧ { n with inQ := m.inQ, free := m.free } = m ∧ n.inQ = [] ∧
      Leaves n u.now g (replyTo p 7 true 1 [] g.coord 1)) ∧
    ((m.asid? p.asid).isSome → part p.opd1 0 32 = 0 →
      (∀ x, m.leat.ctxs.find? (fun y => y.isFor p && !y.hasHad p.src first.num) = some x → x.admitted = true → x.store = [] →
        size ≤ 8 → ∃ u n y, run = .next u ∧ took n u first ∧ { x with store := [y] } ∈ n.leat.ctxs ∧
          { y with inStep := false } = first) ∧
      ((∀ y ∈ m.leat.ctxs, y.isFor p = false) →
        (∀ l ∈ m.launches, l.asid = p.asid → l.rec_.axes ≠ 0 → l.rec_.grid = p.ctx → l.status = 4 → size ≤ l.rec_.leatpool →
          m.leat.pool = [] → ∃ u n h, run = .next u ∧ took n u first ∧ n.leat.ctxs = m.leat.ctxs ∧
            n.leat.pool = [(h, first)] ∧ ∃ l' ∈ m.launches, l'.handle = h ∧ size ≤ l'.rec_.leatpool) ∧
        ((∀ l ∈ m.launches, l.rec_.leatpool = 0) → ∃ u n, run = .next u ∧
          n.leat = { m.leat with refused := m.leat.refused ++ [{ p with pay := [] }] } ∧
          { n with leat := m.leat, inQ := m.inQ, free := m.free, flits := m.flits, flitAt := m.flitAt, marks := m.marks } = m ∧
          (∃ k ∈ n.marks, k.peer = p.src) ∧ (n.flits = m.flits ∨ n.flits = m.flits ++ [p.src]) ∧
          Leaves n u.now g (told 2)))) ∧
    ((m.asid? p.asid).isSome → part p.opd1 0 32 ≠ 0 →
      let wants := fun (y : LtMsg) => { y with src := p.src, total := first.total, pay := p.pay, inStep := false } = first ∧
        y.pay.length = part p.opd1 0 32 ∧ y.pay.length < y.total
      (∀ x y, m.leat.ctxs = [x] → x.store = [y] → wants y → ∃ u n, run = .next u ∧
        took n u { y with pay := y.pay ++ p.pay } ∧ n.leat.ctxs = [{ x with store := [{ y with pay := y.pay ++ p.pay }] }]) ∧
      ((∀ x ∈ m.leat.ctxs ++ m.saved.flatMap (·.leat), ∀ y ∈ x.store, ¬wants y) → (∀ z ∈ m.leat.pool, ¬wants z.2) →
        ∃ u, run = .next u ∧ { u.now with inQ := m.inQ, free := m.free } = m ∧ u.now.inQ = []))) ∧
  (∀ s : State,
    let m := s.now
    ((∀ x ∈ m.leat.ctxs, ∀ d ∈ x.out, d.parked = true ∨ d.pay.length ≤ d.sent) →
      exec (.leatMessageArrival none) s = .next s) ∧
    ∀ x d g l q k, m.leat.ctxs = [x] → x.out = [d] → d.parked = false → d.sent < d.pay.length → m.frozen x.asid = false →
      m.backwaterOpen d.peer d.peer = true → m.grid? x.grid = some g → g.active = true →
      m.expand g { m.ltPiece x d with lows := d.peer, highs := d.peer } = [.link l q] → m.link? l = some k →
      ∃ u p, exec (.leatMessageArrival none) s = .next u ∧
        u.now.leat.ctxs = [{ x with out := [{ d with sent := min (d.sent + 4096) d.pay.length }] }] ∧
        u.now.link? l = some { k with txq := k.txq ++ [p] } ∧ p.op = 8 ∧ p.addr = d.peer ∧ p.pay = (d.pay.drop d.sent).take 4096 ∧
        p.opd1 = BitVec.ofNat 64 (d.sent + 2 ^ 32 * d.pay.length) ∧ p.tag = d.id % 2 ^ 32) ∧
  (∀ s : State, (∀ q ∈ s.now.portQ, q.op ≠ 7 ∨ q.tree = true ∨ q.opd1 = 0) → exec (.leatGoNotice none) s = .next s) ∧
  (∀ (s : State) (p : Packet), LegalHeader p → p.op = 7 → p.tree = false → p.opd1 ≠ 0 → s.now.grid? p.ctx = none →
    exec (.leatGoNotice (some p)) s = .next s) ∧
  ∀ (s : State) (p : Packet) (g : GridCtx) (x : LtCtx) (d : Delivery) (i : Option Packet), LegalHeader p → p.op = 7 →
    p.tree = false → p.opd1 ≠ 0 → s.now.grid? p.ctx = some g →
    (i = some p ∧ s.now.expand g p = [.here p]) ∨
      (i = none ∧ s.now.portQ.find? (fun q => q.op == 7 && !q.tree && q.opd1 != 0) = some p) →
    (∀ y ∈ s.now.leat.ctxs, (∃ e ∈ y.out, e.id % 2 ^ 32 = p.tag) → y = x) → x ∈ s.now.leat.ctxs →
    (s.now.leat.ctxs.map fun y => (y.die, y.handle)).Nodup → x.out = [d] → d.id % 2 ^ 32 = p.tag →
    ∃ u, exec (.leatGoNotice i) s = .next u ∧ { u.now with leat := s.now.leat, portQ := s.now.portQ } = s.now ∧
      (p.err = true → { x with err := true, out := [] } ∈ u.now.leat.ctxs) ∧
      (p.err = false → p.opd1 = 1 → { x with out := [] } ∈ u.now.leat.ctxs) ∧
      (p.err = false → p.opd1 = 2 → { x with out := [{ d with parked := true }] } ∈ u.now.leat.ctxs) ∧
      (p.err = false → p.opd1 = 3 → { x with out := [{ d with parked := false, sent := 0 }] } ∈ u.now.leat.ctxs)

/-! ### Tasks and flumes -/

/-- `spn` gives every active thread one task, with its payload, and raises the join counter: the records enter the millrace in
lane order while it has room and the cistern is empty, the cistern otherwise, or go to the thief of the oldest request; an
illegal mask and a count beyond the counter are the spawn fault; `dove` ends the task threads of a group as `exit` does, and is a
fault for each other thread; `jwait` on counters that are done lands their poison, cleared, after 4 c, and blocks otherwise. After
parts of R82, R348, R349, R358, R361. Completes: `spn`, `jwait`, `dove`. It rests on a choice of the model: log 29 (the acquire of
`jwait`). -/
def Obligations.TaskInstructionEffects : Prop :=
  ∀ (h : Hdr) (f : FmtE) (s : State) (x : Issue) (t : BSlot) (ts : List BSlot), AtSlot s x t ts → x.group.Nodup →
    let c := x.core
    let m := s.now
    (∀ w ls b la, ActsFor x h w ls → m.blockOf c w = some b → m.launchOf c w = some la → Canonical m →
      let n := f.cmd.toNat
      let mask := x.s w f.b.toNat
      let j := b.joins.getD n { count := 0, poison := 0 }
      let plain := fun (l : List TaskRec) => l.map fun y => { y with wild := false }
      let places := (if b.cistern = [] then 32 - (m.core c).millrace.length else 0) +
        (la.rec_.cistlen - b.cistern.length - b.reserved);
      (¬LegalTiles m c w ls la.rec_ mask ∨ 2 ^ 32 ≤ j.count.toNat + ls.length ∨ (b.mailbox = [] ∧ places < ls.length) →
        exec (.spn h f) s = .next (faultAt s x t ts w ls 0x17)) ∧
      (LegalTiles m c w ls la.rec_ mask → j.count.toNat + ls.length < 2 ^ 32 →
        (b.mailbox = [] → b.cistern = [] → (m.core c).millrace.length + ls.length ≤ 32 → ∃ u, exec (.spn h f) s = .next u ∧
          u.issue = some (past x t ts) ∧ outside u.now = { outside m with next := u.now.next, kids := u.now.kids } ∧
          (u.now.core c).millrace = (m.core c).millrace ++ ls.zipIdx.map (fun p => spawned x b f w p.1 (m.next + p.2)) ∧
          u.now.kids = m.kids ++ ls.zipIdx.map (fun p => child m c w p.1 n (m.next + p.2) b (mask.extractLsb' 0 8)) ∧
          u.now.block? c b.uid = some (risen b n ls.length) ∧ (u.now.core c).sram = (m.core c).sram ∧
          (u.now.core c).warps = (m.core c).warps) ∧
        (∀ l, ls = [l] → b.mailbox = [] → (b.cistern ≠ [] ∨ 32 ≤ (m.core c).millrace.length) → NoViews m c →
          b.cistern.length + b.reserved < la.rec_.cistlen → ∃ u b' r, exec (.spn h f) s = .next u ∧
          u.issue = some (past x t ts) ∧ (u.now.core c).millrace = (m.core c).millrace ∧
          u.now.block? c b.uid = some b' ∧ b'.cistern = b.cistern ++ [r] ∧ b'.joins = (risen b n 1).joins ∧
          r = spawned x b f w l m.next ∧
          (List.range 40).map (fun i => byteAt u.now c (cisternEntry b la.rec_ b.cistern.length + i)) =
            r.pay.flatMap (fun v => leBytes 4 v.toNat) ++ leBytes 8 r.entry.toNat) ∧
        (∀ l q qs b2, ls = [l] → b.mailbox = q :: qs → q.at_ < m.clock → m.block? q.core q.block = some b2 → q.block ≠ b.uid →
          ∃ u b' r, exec (.spn h f) s = .next u ∧ u.now.block? q.core q.block = some b' ∧ b'.reserved = b2.reserved - 1 ∧
          plain b'.cistern = plain b2.cistern ++ [r] ∧ r.id = m.next ∧ r.block = q.block ∧ r.pay = (spawned x b f w l m.next).pay ∧
          r.entry = x.s w f.a.toNat ∧ ∃ b0, u.now.block? c b.uid = some b0 ∧ b0.mailbox = qs)) ∧
      (Joined m c w ls b n → exec (.jwait h f) s = .next (ran x t ts (acquired (withPending
        (m.onBlock c b.uid fun y => { y with joins := y.joins.set n { j with poison := 0 } }) c w f.d.toNat (x.lanes w) .held 0
        (j.poison ++ if j.poison = 0 then 0#32 else 1#32) (some (m.clock + 4))) c (pairs w ls)))) ∧
      (¬Joined m c w ls b n → exec (.jwait h f) s = .next (ran x t ts (blocked
        (withPending m c w f.d.toNat (x.lanes w) .held m.next 0 none) x w ls (.join n f.d.toNat))))) ∧
    (let ps := x.active true h
     ((∀ p ∈ ps, ∃ th, x.before.thread? c p.1 p.2 = some th ∧ th.task = none) → exec (.dove h f) s = .next { s with
       issue := some (turned x t ts true ps fun _ => some 0x19) }) ∧
     ((∀ p ∈ ps, (x.before.thread? c p.1 p.2).isSome) → (∀ p ∈ ps, (m.thread? c p.1 p.2).isSome) →
      let cause := fun (p : Nat × Nat) => if ((x.before.thread? c p.1 p.2).bind (·.task)).isSome then none else some 0x19
      ∃ u, exec (.dove h f) s = .next u ∧ u.issue = some (turned x t ts true ps cause) ∧
       ThreadsOnly m u.now c (passing ps cause) ∧ ∀ p ∈ passing ps cause, u.now.thread? c p.1 p.2 =
         (m.thread? c p.1 p.2).map fun th => { th with doved := true, run := .ending (m.clock + max x.stall 1) }))

/-- `vnr.upd` combines each lane's operand into the element that it names, in lane order, and `vnr.get` reads it, one pass a
lane and the veneer fault for a lane without one; `stl.req` posts a request to a good victim and reserves an entry, its status
landing after 24 c; `cut.next` gives the next entry of the cutting list, read in its own pass, or bit 63 once it is used up; an
access of an earlier bundle to what they read that is not performed holds the bundle. After parts of R122, R296, R356, R357, R362,
R364. Completes: `vnrUpd`, `vnrGet`, `stlReq`, `cutNext`. It rests on choices of the model: logs 77 (the hold) and 78 (the passes). -/
def Obligations.VeneerStealAndCutEffects : Prop :=
  (∀ (h : Hdr) (f : FmtV) (s : State) (x : Issue) (t : BSlot) (ts : List BSlot) (la : Launch), AtSlot s x t ts →
    x.group.Nodup → Canonical s.now → NoStores s.now →
    (∀ p ∈ x.group, s.now.launchOf x.core p.1 = some la ∧ ∃ b, s.now.blockOf x.core p.1 = some b) →
    (∀ p ∈ x.group, ∀ a, elementAt s.now x f la.rec_ p = some a → s.now.poolAt x.core p.1 0 ≤ a) →
    let c := x.core
    let ps := actsOn x h f
    let r := la.rec_
    let op := ((r.tiles.getD f.aux.toNat 0).extractLsb' 24 8).toNat
    let place := fun (p : Nat × Nat) => elementAt s.now x f r p
    let at_ := fun (p : Nat × Nat) => (place p).getD 0
    let whole := f.bk == 0b01
    let noGet := fun (p : Nat × Nat) => if (place p).isSome then none else some 0x18
    let noUpd := fun (p : Nat × Nat) => if (place p).isSome && f.minor.toNat == op then none else some 0x18
    let got := passing ps noGet
    let upd := passing ps noUpd
    let n := fun (l : List (Nat × Nat)) => passesEach (l.flatMap fun p => wordsOf (at_ p) 4)
    let qs := fun (l : List (Nat × Nat)) => eachPass x.passes 4 at_ l []
    let settled := fun (l : List (Nat × Nat)) => Settled x.before c l fun p => [(at_ p, 4)]
    let reads := (qs got).map fun q => (q.1, behind [(q.2, at_ q.1, .load 4 6 (.v q.1.1 q.1.2 f.d.toNat) 0 32)])
    let combs := (qs upd).map fun q => (q.1, behind [(q.2, at_ q.1, .comb op (operandB x q.1 f 6))])
    (got ≠ [] → settled got → ∃ u, exec (.vnrGet h f) s = .next u ∧ GivesOver s (afterPort (taking s.now c false reads) c (x.passes + n got))
      (Taken (turned x t ts whole ps noGet) (n got)) (x.passes + n got - 1)
      (got.map fun p => inV p f.d.toNat (BitVec.ofNat 32 (poolWord s.now c (at_ p) 4)) 10) u) ∧
    (got = [] → exec (.vnrGet h f) s = .next { s with issue := some (turned x t ts whole ps noGet) }) ∧
    (upd = [] → exec (.vnrUpd h f) s = .next { s with issue := some (turned x t ts whole ps noUpd) }) ∧
    (¬settled got → exec (.vnrGet h f) s = .next { s with issue := some { turned x t ts whole ps noGet with hold := true } }) ∧
    (¬settled upd → exec (.vnrUpd h f) s = .next { s with issue := some { turned x t ts whole ps noUpd with hold := true } }) ∧
    (upd ≠ [] → settled upd → (Instr.vnrUpd h f).wf = true → ∃ u, exec (.vnrUpd h f) s = .next u ∧
      Does s (afterPort (taking s.now c false combs) c (x.passes + n upd)) (Taken (turned x t ts whole ps noUpd) (n upd)) 0 []
        (((qs upd).filter fun q => q.2 == 0).foldl (fun mem q => storedAt mem (at_ q.1) (leBytes 4 (combine (op / 16) (op % 16)
          (BitVec.ofNat 32 (wordAt mem (at_ q.1) 4)) (operandB x q.1 f 6)).toNat)) (byteAt s.now c)) u)) ∧
  ∀ (h : Hdr) (f : FmtE) (s : State) (x : Issue) (t : BSlot) (ts : List BSlot) (w : Nat) (ls : List Nat) (b : Block)
    (la : Launch), AtSlot s x t ts → ActsFor x h w ls → s.now.blockOf x.core w = some b →
    s.now.launchOf x.core w = some la → NoStores s.now →
    let c := x.core
    let m := s.now
    let a := x.s w f.a.toNat
    let at_ := fun (off : Nat) => (m.afterPasses c).sreadOf c w ls off 4
    let open_ := fun (off : Nat) => Settled x.before c (pairs w ls) fun p => [(m.poolAt c p.1 off, 4)]
    let told := fun (m' : Mod) (st : W64) => (Host.Outcome.next (ran x t ts (each
      (withPending m' c w f.d.toNat (x.lanes w) .held 0 st (some (m.clock + 24))) c (pairs w (x.lanes w))
      fun _ => heldTill (m.clock + 24))) : Out)
    let space := b.cistern.length + b.reserved < la.rec_.cistlen
    ((∀ tc v, ¬VictimAt m c b a tc v) → exec (.stlReq h f) s = told m 2) ∧
    (∀ tc v, VictimAt m c b a tc v →
      (8 ≤ v.mailbox.length ∨ ¬space → exec (.stlReq h f) s = told m 1) ∧
      (v.mailbox.length < 8 → space → exec (.stlReq h f) s = told
        ((m.onBlock c b.uid fun y => { y with reserved := y.reserved + 1 }).onBlock tc v.uid fun y =>
          { y with mailbox := y.mailbox ++ [{ core := c, block := b.uid, at_ := m.clock }] }) 0)) ∧
    let r := la.rec_
    let count := at_ r.cutoff
    let next_ := r.cutoff + 4 * (b.cursor + 1)
    let free := open_ r.cutoff ∧ (b.cursor < count → open_ next_)
    ((m.core c).passes = [] → Known m c (pairs w ls) → ∀ off, at_ off = poolWord m c (b.at_ off) 4) ∧
    (r.scratch < r.cutoff + 4 → exec (.cutNext h f) s = .next (faultAt s x t ts w ls 0x08)) ∧
    (r.cutoff + 4 ≤ r.scratch → ¬free → exec (.cutNext h f) s = .next (heldAt s x t ts)) ∧
    (r.cutoff + 4 ≤ r.scratch → free → count ≤ b.cursor → ∃ u, exec (.cutNext h f) s = .next u ∧
      GivesOver s (afterPort m c (x.passes + 1)) (Taken (past x t ts) 1) x.passes
        [inS x w f.d.toNat (BitVec.ofNat 64 (2 ^ 63)) 10] u) ∧
    (r.cutoff + 4 ≤ r.scratch → free → b.cursor < count → r.scratch < next_ + 4 →
      exec (.cutNext h f) s = .next (faultAt s x t ts w ls 0x08)) ∧
    (r.cutoff + 4 ≤ r.scratch → free → b.cursor < count → next_ + 4 ≤ r.scratch → ∃ u, exec (.cutNext h f) s = .next u ∧
      let m1 := taking m c false [((w, 0), behind [(x.passes, b.at_ next_, PassOp.load 4 6 (.s w f.d.toNat) 0 64)])]
      GivesOver s (afterPort (m1.onBlock c b.uid fun y => { y with cursor := y.cursor + 1 }) c (x.passes + 1))
        (Taken (past x t ts) 1) x.passes [inS x w f.d.toNat (BitVec.ofNat 64 (at_ next_)) 10] u)

/-- Records of one entry form a wave, a warp with a thread for each, whose first registers are the payload, and each task has a view
of the pool for each tile of its mask, set to the tile operator's identity; the oldest head of a cistern moves into the millrace;
the first child of a parent that lets it folds its view of a tile into the parent's, word by word, frees its views, and is gone, a
poisoned one without its values; in a saved context none folds. After parts of R347, R350 to R352, R355, R359, R360, R411.
Completes: `taskWaveForm`, `cisternRefill`, `veneerFold`. -/
def Obligations.TaskEngineSteps : Prop :=
  (∀ (s : State) (c : Nat),
    let k := s.now.core c
    let none_ := ∀ b ∈ k.blocks, b.cistern = [];
    (s.now.clock < k.taskAt ∨ 32 ≤ k.millrace.length ∨ none_ → exec (.cisternRefill c) s = .next s) ∧
    (s.now.clock < k.taskAt ∨ (k.millrace = [] ∧ none_) → exec (.taskWaveForm c) s = .next s) ∧
    ∀ r b, s.now.clock ≥ k.taskAt → k.millrace.length < 32 → k.blocks = [b] → b.cistern = [r] → r.wild = true →
      ∃ u r', exec (.cisternRefill c) s = .next u ∧ (u.now.core c).millrace = k.millrace ++ [r'] ∧
        r' = { r with pay := r'.pay, entry := r'.entry } ∧ r'.pay.length = 8) ∧
  (∀ (s : State) (id : Nat), (∀ k, s.now.kid? id = some k → k.counted = false ∨ s.now.foldAllowed k = false ∨
    s.now.block? k.core k.block = none) → exec (.veneerFold id) s = .next s) ∧
  (∀ (s : State) (c : Nat) (b : Block) (la : Launch) (e : W64), (s.now.core c).taskAt ≤ s.now.clock →
    s.now.block? c b.uid = some b → s.now.launch? b.launch = some la → s.now.frozen la.asid = false →
    let m := s.now
    let k := m.core c
    (∀ rs, k.millrace = rs → rs ≠ [] → (∀ r ∈ rs, r.block = b.uid ∧ r.entry = e ∧ r.mask = 0 ∧ r.deps = []) →
      (rs.map (·.id)).Nodup → rs.length ≤ la.rec_.width → (∀ y ∈ k.blocks, y.cistern = []) →
      m.waveRoom c la.rec_ = true → ∃ u k' b', exec (.taskWaveForm c) s = .next u ∧ u.issue = s.issue ∧
        (u.now.core c).millrace = [] ∧ (u.now.core c).taskAt = m.clock + 1 ∧ (u.now.core c).warps = k.warps ++ [k'] ∧
        k'.block = b.uid ∧ k'.width = la.rec_.width ∧ k'.wid = BitVec.ofNat 32 (2 ^ 31 + b.waves % 2 ^ 31) ∧
        k'.threads.map (fun th => (th.pc, th.v, th.task, th.run)) = rs.map (fun r => (e, r.pay, some r.id, Run.ready)) ∧
        u.now.block? c b.uid = some b' ∧ b' = { b with waves := b.waves + 1 } ∧ (u.now.core c).sram = k.sram) ∧
    (∀ rs, k.millrace = rs → rs ≠ [] → (∀ r ∈ rs, r.block = b.uid ∧ r.entry = e ∧ r.deps = []) → (rs.map (·.id)).Nodup →
      rs.length ≤ la.rec_.width → (∀ y ∈ k.blocks, y.cistern = []) → m.waveRoom c la.rec_ = true → Canonical m →
      (m.kids.map (·.id)).Nodup → (∀ r ∈ rs, ∃ y ∈ m.kids, y.id = r.id) →
      let asked := rs.flatMap fun r => (maskTiles r.mask).map fun t => (r.id, t)
      let gives := asked.zip (freeViews la.rec_ b)
      let own := fun (id : Nat) => (gives.filter fun g => g.1.1 == id).map fun g => (g.1.2, g.2)
      asked.length ≤ (freeViews la.rec_ b).length → ∃ u k' b', exec (.taskWaveForm c) s = .next u ∧ u.issue = s.issue ∧
        (u.now.core c).millrace = [] ∧ (u.now.core c).warps = k.warps ++ [k'] ∧
        k'.threads.map (fun th => (th.pc, th.v, th.task, th.run)) = rs.map (fun r => (e, r.pay, some r.id, Run.ready)) ∧
        u.now.block? c b.uid = some b' ∧ b'.viewsUsed = b.viewsUsed ++ gives.map (·.2) ∧
        (∀ y ∈ m.kids, own y.id = [] → y ∈ u.now.kids) ∧
        (∀ y ∈ m.kids, own y.id ≠ [] →
          { y with views := y.views ++ own y.id, viewCore := c, viewBlock := b.uid } ∈ u.now.kids) ∧
        (∀ g ∈ gives, ∀ i < la.rec_.vnrwords, poolWord u.now c (viewAt la.rec_ b g.2 + 4 * i) 4 =
          (vnrIdentity ((la.rec_.tiles.getD g.1.2 0).extractLsb' 24 8).toNat).toNat) ∧
        ∀ a, (∀ g ∈ gives, a < viewAt la.rec_ b g.2 ∨ viewAt la.rec_ b g.2 + 4 * la.rec_.vnrwords ≤ a) →
          byteAt u.now c a = byteAt m c a) ∧
    ∀ r rest, r.wild = false → b.cistern = r :: rest → k.millrace.length < 32 → (∀ y ∈ k.blocks, ∀ q, y.cistern.head? = some q → r.id < q.id ∨ y.uid = b.uid) →
      (k.blocks.map (·.uid)).Nodup →
      ∃ u, exec (.cisternRefill c) s = .next u ∧ u.issue = s.issue ∧ outside u.now = outside m ∧
        (u.now.core c).millrace = k.millrace ++ [r] ∧ (u.now.core c).taskAt = m.clock + 1 ∧
        u.now.block? c b.uid = some { b with cistern := rest, cistHead := (b.cistHead + 1) % la.rec_.cistlen } ∧
        (u.now.core c).sram = k.sram) ∧
  ∀ (s : State) (k : Child) (rest : List Child) (b : Block) (la : Launch), Canonical s.now → NoMatrixStores s.now →
    s.now.kid? k.id = some k → s.now.kids.filter (fun y => y.parent == k.parent) = k :: rest → k.counted = true →
    s.now.foldAllowed k = true → s.now.block? k.core k.block = some b → s.now.launch? b.launch = some la →
    ∃ u, exec (.veneerFold k.id) s = .next u ∧ (∀ y ∈ u.now.kids, y.id ≠ k.id) ∧
      (∀ bv, s.now.block? k.viewCore k.viewBlock = some bv → ∃ bw, u.now.block? k.viewCore k.viewBlock = some bw ∧
        bw.viewsUsed = bv.viewsUsed.filter fun v => !(k.views.map (·.2)).contains v) ∧
      (k.poisoned = true → ∀ c a, byteAt u.now c a = byteAt s.now c a) ∧
      ∀ t cv pv, (List.range 8).filter (fun i => k.mask.getLsbD i) = [t] → k.poisoned = false → k.wild = false →
        s.now.kidView k t = some cv → s.now.parentView k t = some pv →
        (cv.1 ≠ pv.1 ∨ cv.2 + 4 * la.rec_.vnrwords ≤ pv.2 ∨ pv.2 + 4 * la.rec_.vnrwords ≤ cv.2) →
        let op := ((la.rec_.tiles.getD t 0).extractLsb' 24 8).toNat
        op / 16 ∈ [0, 1, 2, 5, 6, 7] → op % 16 ∈ [2, 6, 10] → (op % 16 = 10 → op / 16 ≤ 2) →
        (∀ i < la.rec_.vnrwords, poolWord u.now pv.1 (pv.2 + 4 * i) 4 = (combine (op / 16) (op % 16)
          (BitVec.ofNat 32 (poolWord s.now pv.1 (pv.2 + 4 * i) 4))
          (BitVec.ofNat 32 (poolWord s.now cv.1 (cv.2 + 4 * i) 4))).toNat) ∧
        ∀ c a, (c ≠ pv.1 ∨ a < pv.2 ∨ pv.2 + 4 * la.rec_.vnrwords ≤ a) → byteAt u.now c a = byteAt s.now c a

/-- `flm.cfg` gives a flume a legal descriptor, empty; `flm.push` writes its word at the tail, or blocks while the flume holds
its limit; `flm.pop` takes the word at the head, landing after 10 c, or blocks while it is empty; `flm.try` takes it or gives
bit 63; an index that the block has not, an illegal descriptor, a flume in use and one unconfigured are the flume fault. After
parts of R365 to R369. Completes: `flmCfg`, `flmPush`, `flmPop`, `flmTry`. It rests on choices of the model: logs 29 (the acquire of
a word taken) and 36. -/
def Obligations.FlumeInstructionEffects : Prop :=
  ∀ (h : Hdr) (f : FmtE) (s : State) (x : Issue) (t : BSlot) (ts : List BSlot) (w : Nat) (ls : List Nat) (b : Block),
    AtSlot s x t ts → ActsFor x h w ls → s.now.blockOf x.core w = some b → Canonical s.now → NoStores s.now →
    NoViews s.now x.core → NoFlumeWaits s.now x.core →
    let c := x.core
    let m := s.now
    let n := f.cmd.toNat % 32
    let a := x.s w f.a.toNat
    let fault := faultAt s x t ts w ls 0x1A
    let runs := [Instr.flmPush h f, .flmPop h f, .flmTry h f]
    let passed := fun (m' : Mod) => ({ now := afterPort m' c (x.passes + 1), issue := some (Taken (past x t ts) 1) } : State)
    (b.flumes[n]? = none → ∀ i ∈ Instr.flmCfg h f :: runs, exec i s = .next fault) ∧
    ∀ y, b.flumes[n]? = some y →
      (¬LegalFlume a (m.scratchOf c w) ∨ y.count ≠ 0 → exec (.flmCfg h f) s = .next fault) ∧
      (LegalFlume a (m.scratchOf c w) → y.count = 0 → exec (.flmCfg h f) s = .next (ran x t ts (withFlumeAt m c b n
        { base := part a 0 21, e := part a 32 9, a := part a 48 9, head := 0, tail := 0, count := 0 }))) ∧
      (y.e = 0 → ∀ i ∈ runs, exec i s = .next fault) ∧
      (y.e ≠ 0 →
        let taken := withFlumeAt m c b n { y with head := (y.head + 1) % y.e, count := y.count - 1 }
        let v := BitVec.ofNat 64 (poolWord m c (b.at_ (y.base + 4 * y.head)) 4)
        (y.a ≤ y.count → exec (.flmPush h f) s = .next (passed (blocked m x w ls (.flmPush n (a.extractLsb' 0 32))))) ∧
        (y.count < y.a → ∃ u, exec (.flmPush h f) s = .next u ∧ Does s
          (afterPort (withFlumeAt m c b n { y with tail := (y.tail + 1) % y.e, count := y.count + 1 }) c (x.passes + 1))
          (Taken (past x t ts) 1) 0 []
          (storedAt (byteAt m c) (b.at_ (y.base + 4 * y.tail)) (leBytes 4 (part a 0 32))) u) ∧
        (y.count = 0 → exec (.flmPop h f) s = .next (passed (blocked
          (withPending m c w f.d.toNat (x.lanes w) .held m.next 0 none) x w ls (.flmPop n f.d.toNat)))) ∧
        (y.count ≠ 0 → exec (.flmPop h f) s = .next (passed (acquired (withPending taken c w f.d.toNat (x.lanes w) .held 0 v
          (some (m.clock + 10 + x.passes))) c (pairs w ls)))) ∧
        (y.count = 0 → ∃ u, exec (.flmTry h f) s = .next u ∧ GivesOver s (afterPort m c (x.passes + 1))
          (Taken (past x t ts) 1) x.passes [inS x w f.d.toNat (BitVec.ofNat 64 (2 ^ 63)) 10] u) ∧
        (y.count ≠ 0 → ∃ u, exec (.flmTry h f) s = .next u ∧
          GivesOver s (afterPort (acquired taken c (pairs w ls)) c (x.passes + 1)) (Taken (past x t ts) 1) x.passes
            [inS x w f.d.toNat v 10] u))

/-! ### The launch unit -/

/-- A post whose writes are performed is read: a record that is under way is a protocol error, one that fails a check gets
status 7, and a sound one becomes a launch that waits for its predecessors or enters its queue; the head of the queue that can
begin is admitted, or rejected with the status of the check that it fails; a launch that has nothing left to do is retired,
with its completion event. After parts of R376, R381 to R386, R388. Completes: `launchRetire`, `launchPost`,
`launchAdmission`. It rests on choices of the model: logs 38 to 42. -/
def Obligations.LaunchAdmissionSteps : Prop :=
  (∀ (s : State) (p : Post) (bs : List Byte) (pa : Nat) (r : Nat × Nat × Mod),
    s.now.posts.find? (fun p => s.now.allPerformed p.deps) = some p →
    Posted { s.now with posts := s.now.posts.erase p } p bs pa r → exec .launchPost s = .next { s with now := r.2.2 }) ∧
  (∀ (s : State) (l : Launch) (pa : Nat), s.now.queue = [l.handle] → s.now.launch? l.handle = some l →
    let m := s.now
    let r := l.rec_
    let refused := fun (st : Nat) =>
      (.next { s with now := dropped (noted m pa 0x180 4 st) l.handle } : Out)
    r.priority < 8 → m.canBegin l = true ∨ m.neverBegins l = true → l.status = 3 → r.weightBound = false → RecordAt m l.asid l.addr pa →
    let bound := ∀ b < 64, r.bind.getLsbD b = true → ∃ y, m.binding? l.asid b = some y
    (m.neverBegins l = true → exec .launchAdmission s = refused 11) ∧
    (m.neverBegins l = false → ¬bound → exec .launchAdmission s = refused 10) ∧
    (m.neverBegins l = false → bound → r.axes ≠ 0 → (∀ g, m.grid? r.grid = some g → g.active = false ∨
      g.asids.getLsbD l.asid = false ∨ r.axes ≠ g.n ∨ ∃ k < g.n, k < 5 ∧ r.ext.getD k 0 ≠ g.ext.getD k 0) →
      exec .launchAdmission s = refused 9) ∧
    (m.neverBegins l = false → bound → m.gridOk l = true → m.fitsEmpty r = false → exec .launchAdmission s = refused 11) ∧
    (m.neverBegins l = false → bound → m.gridOk l = true → m.fitsEmpty r = true → exec .launchAdmission s = .next { s with
      now := Mod.onLaunch { noted m pa 0x180 4 4 with queue := [], next := m.next + 1 } l.handle fun y =>
        { y with status := 4, order := m.next, evOpen := m.rings.any (fun z => z.num == r.evring),
                 bind := ((m.asid? l.asid).map Asid.selectors).getD 0 &&& r.bind } })) ∧
  ∀ (s : State) (l : Launch) (pa : Nat), s.now.launch? l.handle = some l →
    let m := s.now
    (¬LaunchOver m l → exec (.launchRetire l.handle) s = .next s) ∧
    (LaunchOver m l → l.rec_.nsucc = 0 → m.events.length < 4096 → RecordAt m l.asid l.addr pa → l.rec_.bind = 0 →
      l.told = (l.errc, l.dropped) →
      let st := if l.inError then 6 else 5
      let leat := { m.leat with pool := m.leat.pool.filter fun p => p.1 != l.handle }
      let m' : Mod := { dropped (noted m pa 0x180 4 st) l.handle with leat := leat }
      exec (.launchRetire l.handle) s = .next { s with now := queued m' [endNote l st] })

/-- The next block of the launch being placed starts on its core, on rows that no other block has, with warps that have a
thread for each lane; a block whose threads, tasks and engine commands are over leaves its core; the synchronised start lets a
launch's held blocks go, or ends the launch. After parts of R82, R137, R140, R142, R239, R240, R387. Completes: `blockEnd`,
`gridsyncStart`, `blockPlacement`. It rests on choices of the model: logs 86, 88 and 106 (the rows of register frames). -/
def Obligations.PlacementSteps : Prop :=
  (∀ (s : State) (l : Launch) (c : Nat), Canonical s.now → s.now.placing = some l → s.now.coreFor l = some c →
    l.rec_.preloadLen = 0 →
    let m := s.now
    let k := m.core c
    let r := l.rec_
    let regs := 64 * (r.partition.extractLsb' 0 8).toNat
    let units := regs + 64 * (r.partition.extractLsb' 8 8).toNat
    let rows := fun (n : Nat) => (n + 767) / 768
    ∃ u b ws, exec .blockPlacement s = .next u ∧ u.issue = s.issue ∧ (∀ d, d ≠ c → u.now.core d = m.core d) ∧
      outside u.now = outside (Mod.onLaunch { m with next := m.next + 1 + r.warps, free := u.now.free } l.handle fun y =>
        { y with placed := y.placed + 1 }) ∧
      (u.now.core c).blocks = k.blocks ++ [b] ∧ FreshBlock m l b ∧ (∀ y ∈ k.blocks, y.slot ≠ b.slot) ∧ b.slot < 16 ∧
      units ≤ b.row ∧ b.row + rows r.scratch ≤ 2048 ∧ regs ≤ b.accRow ∧ b.accRow + rows r.accsize ≤ units ∧
      (∀ y ∈ k.blocks, Apart b.row (rows r.scratch) y.row (rows (m.recOfBlock y).scratch) ∧
        Apart b.accRow (rows r.accsize) y.accRow (rows (m.recOfBlock y).accsize)) ∧
      (u.now.core c).warps = k.warps ++ ws ∧ FreshWarps r m.next ws ∧ (u.now.core c).partition = some r.partition ∧
      (∃ n, (n, l.handle) ∈ (u.now.core c).lslots) ∧
      ∀ a, (a < 768 * b.row ∨ 768 * (b.row + rows r.scratch) ≤ a) →
        (a < 768 * b.accRow ∨ 768 * (b.accRow + rows r.accsize) ≤ a) → byteAt u.now c a = byteAt m c a) ∧
  (∀ (s : State) (c slot : Nat) (b : Block), (s.now.core c).blockIn? slot = some b → BlockOver s.now c b →
    let m := s.now
    let other := fun (y : Block) => { y with mailbox := y.mailbox.filter fun q => !(q.core == c && q.block == b.uid) }
    ∃ u, exec (.blockEnd c slot) s = .next u ∧ u.issue = s.issue ∧
      outside u.now = outside (m.onLaunch b.launch fun l => { l with ended := l.ended + 1 }) ∧
      (∀ y ∈ (u.now.core c).blocks, y.uid ≠ b.uid) ∧
      (∀ d y, m.block? d y.uid = some y → d ≠ c ∨ y.uid ≠ b.uid → u.now.block? d y.uid = some (other y)) ∧
      (∀ d, (u.now.core d).warps = (m.core d).warps ∧ (u.now.core d).sram = (m.core d).sram) ∧
      ((∀ y ∈ (m.core c).blocks, y.uid = b.uid) → (u.now.core c).partition = none)) ∧
  ∀ (s : State) (l : Launch), s.now.launch? l.handle = some l →
    let m := s.now
    let waits := l.status = 4 ∧ l.rec_.gridsync = true ∧ l.go = false ∧ l.placed = l.rec_.blocks
    let alone := l.rec_.axes = 0 ∨ m.grid? l.rec_.grid = none
    let begins := ∃ u, exec (.gridsyncStart l.handle true) s = .next u ∧ u.issue = s.issue ∧
      outside u.now = outside (m.onLaunch l.handle fun y => { y with go := true }) ∧
      ∀ c y, m.block? c y.uid = some y → u.now.block? c y.uid = some (if y.launch = l.handle then { y with held := false } else y)
    (¬waits → ∀ ok, exec (.gridsyncStart l.handle ok) s = .next s) ∧
    (waits → alone → begins) ∧ (waits → alone ∨ l.sync ≤ 2 → exec (.gridsyncStart l.handle false) s = .next s) ∧
    (waits → ¬alone → (l.sync = 2 → begins) ∧ (l.sync = 1 ∨ l.sync = 3 → exec (.gridsyncStart l.handle true) s = .next s) ∧
      (∀ g, m.grid? l.rec_.grid = some g → l.sync = 0 →
        let p := g.startPacket l.asid
        let sent := m.onLaunch l.handle fun y => { y with sync := 1 }
        (p.op = 6 ∧ p.tree = true ∧ p.lows = 0 ∧ p.pay = leBytes 4 1 ∧ p.opd0 = g.startRoot ∧
          (g.n ≤ 5 → (∀ k < g.n, 1 ≤ g.ext.getD k 1 ∧ g.ext.getD k 1 ≤ 4096) →
            ∀ k < 5, sideOf p.highs k = if k < g.n then g.ext.getD k 1 - 1 else 0)) ∧
        exec (.gridsyncStart l.handle true) s = .next { s with now := sent.fredArrive g p true }) ∧
      (l.sync = 3 → ∃ u, exec (.gridsyncStart l.handle false) s = .next u ∧ u.issue = s.issue ∧ u.now.launch? l.handle = none ∧
        ∀ c, ∀ y ∈ (u.now.core c).blocks, y.launch ≠ l.handle))

/-- A warp that a core evicts is one whose threads are all blocked, and leaves its slot and frame after the time of its save,
which fills its save area; it comes back to the lowest free slot when it is first in line; each thread of a wait that is not
for another module is reported once when its timer reaches the limit; the pages of the oldest generation leave the pond when
no request of it is in flight; and an event is written to a ring with room, its record under the ring's number and then the tail
word. After parts of R142, R390 to R395, R418, R421, R422, R429. Completes: `warpEvict`, `warpRestore`, `watchdogExpiry`,
`pondRelease`, `eventRingDrain`. It rests on choices of the model: logs 43, 49, 67 (the writes to the host), 86, 87, 104 (what is
in flight) and 106 (the rows of a frame). -/
def Obligations.EvictionAndEventSteps : Prop :=
  ∀ (s : State) (c : Nat), let m := s.now
    (∀ w, m.toEvict c = some w → w ∈ (m.core c).warps ∧ w.evicted = false ∧
      (∀ t ∈ w.threads, t.run = .exited ∨ (t.handler = false ∧ ∃ i, t.run = .blocked i)) ∧
      ((m.core c).warps.filter fun y => y.evicted && y.block == w.block).length < (m.recOf c w.uid).saves ∧
      let r := m.recOf c w.uid
      let bytes := r.width * r.vregs * 4 + r.uregs * 8
      ∃ (runs : List (Nat × Nat)) (bs : List (List Byte)), FreeRuns m runs (bytes + 2048) ∧
        bs.map (·.length) = runs.map (·.2) ∧
        let dram := (runs.zip bs).foldl (fun d y => d.writeN (m.saveBase + y.1.1) y.2) m.dram
        exec (.warpEvict c) s = .next { s with
          now := withWarp { m with free := m.free + 1, dram := dram } c w.uid fun y =>
            { y with evicted := true, freeAt := m.clock + 40 + (bytes + 255) / 256, condAt := none, area := some runs } }) ∧
    (m.toEvict c = none → exec (.warpEvict c) s = .next s) ∧
    (∀ w x t k, m.warp? c w = some x → x.evicted = true → x.condAt = some t → x.freeAt ≤ m.clock →
      m.backRoom c ((((m.core c).partition.getD 0).extractLsb' 0 8).toNat) (m.recOf c w) x = true →
      (∀ y ∈ (m.core c).warps, y.evicted = true → y.uid ≠ w → ∀ v, y.condAt = some v → t ≤ v) →
      let stays := fun (y : Warp) => y.evicted = false ∨ m.clock < y.freeAt
      let here := fun (i : Nat) => ∃ y ∈ (m.core c).warps, y.slot = i ∧ stays y
      k < 256 → ¬here k → (∀ i < k, here i) → ∃ rows,
        (∀ n ∈ rows, n < 64 * part (((m.recOf c w).partition).setWidth 64) 0 8 ∧
          ∀ y ∈ (m.core c).warps, stays y → n ∉ y.frame) ∧
        let m1 := m.onCore c fun z => z.giveFrame rows (((m.launchOf c w).map (·.asid)).getD 0)
        exec (.warpRestore c w) s = .next { s with now := withWarp m1 c w fun y =>
          { y with evicted := false, slot := k, freeAt := 0, condAt := none, area := none, frame := rows,
                   threads := y.threads.map (returned m.clock) } }) ∧
    (∀ g la y, (m.core c).waits.find? (fun z => z.id == g.id) = some g → m.launchOf c g.warp = some la →
      m.warp? c g.warp = some y → m.events.length + g.timers.length ≤ 4096 →
      let steps := (m.core c).stepping g
      (m.external c g = true ∨ steps = true ∨ late m c g = [] → exec (.watchdogExpiry c g.id) s = .next s) ∧
      (m.external c g = false → steps = false → late m c g ≠ [] →
        let told := fun (z : GWait) => if z.id = g.id then { z with told := z.told ++ late m c g } else z
        let m' := m.onCore c fun k => { k with waits := k.waits.map told }
        let note := fun (l : Nat) => threadNote 3 la c y.slot l g.point g.pc 0 []
        exec (.watchdogExpiry c g.id) s = .next { s with now := queued m' ((late m c g).map note) })) ∧
    (∀ p ∈ m.pond, (∀ y ∈ m.pond, p.gen ≤ y.gen) → m.events.length < 4096 →
      let done := p.gen < m.gen ∧ (∀ r ∈ m.reqs, ∀ pa, r.place = .device pa → p.gen < r.gen) ∧
        (∀ k ∈ m.cores, ∀ r ∈ k.slq, ∀ y ∈ r.begun, p.gen < y.gen) ∧ (∀ i ∈ m.inQ, ∀ h, i.held = some h → p.gen < h.1) ∧
        ∀ k ∈ m.walks, k.failed = false → p.gen < k.gen
      (¬done → exec .pondRelease s = .next s) ∧
      let gone := fun (x : Shard) => if x.freed = some p.gen then
        { x with word := 0, deadline := 0, chunks := [], freed := none } else x
      let m' : Mod := { m with pond := m.pond.filter (fun y => y.gen != p.gen), shards := m.shards.map gone }
      (done → ∃ y ∈ m.pond, y.gen = p.gen ∧ exec .pondRelease s = .next { s with
        now := queued m' [plainNote 13 y.asid 0 0 (BitVec.ofNat 64 p.gen)] })) ∧
    ∀ r e, m.rings = [r] → m.events.find? (fun e => e.ring == r.num) = some e → m.allPerformed e.deps = true →
      let e' := { e with seq := r.tail % 2 ^ 32 }
      let put := { r with tail := r.tail + 1, written := r.written ++ [e'] }
      let told := fun (a : W64) (bs : List Byte) => ({ qp := r.qp, key := r.key, addr := a, bytes := bs } : HostWrite)
      let m' : Mod := { m with
        events := m.events.erase e, rings := [put]
        hostWrites := m.hostWrites ++ [told (r.entries + BitVec.ofNat 64 (64 * (r.tail % 2 ^ r.k))) (recordOfEvent e'),
                                       told r.tailAddr (leBytes 8 (r.tail + 1))] }
      (r.tail - r.head < 2 ^ r.k → exec .eventRingDrain s = .next { s with now := m' }) ∧
      (2 ^ r.k ≤ r.tail - r.head → exec .eventRingDrain s = .next s)

/-! ### Saves, the ports and the board -/

/-- A save waits for its save point, every weir of its blocks at C = 0 or the deadline; when the pipes and engines of its
blocks stand still, the blocks and warps leave their cores with their bytes kept, the image is written and the host is told; a
restore puts a block back in its slot with its bytes, and its runs back into the engine. After parts of R408 to R414. Completes:
`savePoint`, `saveComplete`, `restoreStart`. It rests on choices of the model: logs 50 and 51. -/
def Obligations.SaveAndRestoreSteps : Prop :=
  ∀ (s : State) (y : Asid), s.now.asid? y.num = some y → let m := s.now
    let mine := fun (b : Block) => m.asidOf b.launch == y.num
    let rows := fun (n : Nat) => (n + 767) / 768 * 768
    (∀ dl img size, y.save = .pending dl img size →
      let quiet := ∀ k ∈ m.cores, ∀ b ∈ k.blocks, mine b = true → ∀ w ∈ b.weirs, w.c = 0
      (quiet → exec (.savePoint y.num) s = .next { s with now := withSave m y (.stopped false img size) }) ∧
      (¬quiet → dl ≤ m.tick → exec (.savePoint y.num) s = .next { s with now := withSave m y (.stopped true img size) }) ∧
      (¬quiet → m.tick < dl → exec (.savePoint y.num) s = .next s)) ∧
    (∀ forced img size, y.save = .stopped forced img size → Canonical m → m.events.length < 4096 →
      (∀ k ∈ m.cores, k.flights = [] ∧ k.mq = [] ∧ k.slq = [] ∧ k.passes = [] ∧ ∀ z ∈ k.sweeps, z.part = none) → ∃ u v, exec (.saveComplete y.num) s = .next u ∧
        u.issue = s.issue ∧ u.now.asids = (withSave m y (.saved img)).asids ∧
        u.now.events = (queued m [plainNote 5 y.num (if forced then 1 else 0) 0 0]).events ∧
        (∀ a, a < img.toNat ∨ img.toNat + max size 8 ≤ a → u.now.dram.read a = m.dram.read a) ∧
        (8 ≤ size → imageCrcOk (u.now.dram.readN img.toNat size) = true) ∧
        u.now.saved = m.saved.filter (fun (z : Saved) => z.asid != y.num) ++ [v] ∧ v.asid = y.num ∧ v.img = img ∧
        v.size = size ∧ v.leat = m.leat.ctxs.filter (fun z => z.asid == y.num) ∧
        ∀ c, ((m.core c).blocks.map (·.uid)).Nodup → (u.now.core c).sram = (m.core c).sram ∧
          (u.now.core c).blocks = (m.core c).blocks.filter (fun b => !mine b) ∧
          ∀ b ∈ (m.core c).blocks, mine b = true → (∀ w ∈ (u.now.core c).warps, w.block ≠ b.uid) ∧
            ∃ k ∈ v.cores, k.core = c ∧ b ∈ k.blocks ∧
              (∀ w ∈ (m.core c).warps, w.block = b.uid → { w with mstage := none } ∈ k.warps) ∧
              ∃ p ∈ k.scratch, p.1 = b.uid ∧
                ∀ i < rows (m.recOfBlock b).scratch, p.2.read i = byteAt m c (b.at_ i)) ∧
    ∀ img v, y.save = .restoring img → m.saved.find? (fun z => z.asid == y.num) = some v → m.leatRoom v.leat = true →
      (m.unsaveAll v.cores = none → exec (.restoreStart y.num) s = .next s) ∧
      ∀ m1, m.unsaveAll v.cores = some m1 → m.events.length < 4096 → ∃ u, exec (.restoreStart y.num) s = .next u ∧
        u.issue = s.issue ∧ u.now.asids = (withSave m y .none).asids ∧ u.now.dram = m.dram ∧
        u.now.saved = m.saved.filter (fun z => z.asid != y.num) ∧
        u.now.events = (queued m [plainNote 6 y.num 0 0 0]).events ∧
        (m.canal.kind4 = [] → u.now.leat = { m.leat with ctxs := m.leat.ctxs ++ v.leat }) ∧
        (u.now.leat.ctxs.map fun z => { z with admitted := true }) = (m.leat.ctxs ++ v.leat).map (fun z => { z with admitted := true }) ∧
        ∀ k b sc ac, v.cores = [k] → k.blocks = [b] → k.scratch = [(b.uid, sc)] → k.acc = [(b.uid, ac, [])] → Canonical m →
          Within sc (rows (m.recOfBlock b).scratch) → Within ac (rows (m.recOfBlock b).accsize) →
          ∃ row acc, (u.now.core k.core).blocks = (m.core k.core).blocks ++ [{ b with row := row, accRow := acc }] ∧
            (∀ i < rows (m.recOfBlock b).scratch, byteAt u.now k.core (768 * row + i) = sc.read i) ∧
            (∀ i < rows (m.recOfBlock b).accsize, byteAt u.now k.core (768 * acc + i) = ac.read i) ∧
            ∀ w ∈ k.warps, ∃ w' ∈ (u.now.core k.core).warps, w'.uid = w.uid ∧ w'.s = w.s ∧
              w'.threads.map (fun t => (t.lane, t.pc, t.v, t.q)) = w.threads.map (fun t => (t.lane, t.pc, t.v, t.q))

/-- A shard that has not become ready by its deadline reads the error; a session without a datagram for 30 s closes; a write
and a read over RoCE that lie in their region reach device memory through translation, with an answer, and get a NAK otherwise;
frames above the MTU are not accepted, unused traffic and protocol datagrams of a wrong length are discarded and counted, marked
RoCEv2 packets are answered with a notification, and pauses and addresses are taken. The clock steps by 100 MHz between 1.2 and
2.4 GHz, down at 95 °C or above the power cap and up else, a step in 10 µs; a thermal trip ends every launch, drops the links and
removes power; a module reset boots the newer valid firmware, or the other, and leaves the module as R435 says, halted at step 1
without a valid one, held at step 2 by a failing memory stack, with its failing cores disabled; board management reads the clock,
the step and the disabled cores, resets, and writes the operator's key digest once. After parts of R342, R423 to R425, R429, R431,
R432, R435 to R437. Completes: `shardDeadlineExpiry`, `sessionIdleTimeout`, `roceWrite`, `roceRead`, `thermalThrottle`,
`boardMgmtRequest`, `unusedTrafficDiscard`, `thermalTrip`, `moduleReset`, `roceInvalidRequest`. It rests on choices of the model:
logs 4, 68 to 70, 75 and 109 (what a frame, a request and a reading tell; the tests of a bring-up). -/
def Obligations.PortTimerAndBoardEvents : Prop :=
  (∀ (s : State), let m := s.now
    (∀ x, m.shards.find? (fun z => z.num == x.num) = some x →
      let late := x.word = 0 ∧ x.deadline ≠ 0 ∧ x.deadline ≤ m.tick
      let failed := fun (z : Shard) => { z with word := 0xFFFFFFFC, chunks := [], kept := [], deadline := 0 }
      let after_ := { m with shards := m.shards.map fun z => if z.num = x.num then failed z else z }
      (late → exec (.shardDeadlineExpiry x.num) s = .next { s with now := after_ }) ∧
      (¬late → exec (.shardDeadlineExpiry x.num) s = .next s)) ∧
    (∀ x, m.sessions.find? (fun z => z.num == x.num) = some x →
      let idle := x.last + 30 * 1000000000 * Config.ticksPerNs ≤ m.tick
      let after_ := { m with sessions := m.sessions.filter fun z => z.num != x.num }
      (idle → exec (.sessionIdleTimeout x.num) s = .next { s with now := after_ }) ∧
      (¬idle → exec (.sessionIdleTimeout x.num) s = .next s)) ∧
    (∀ (q : RoceReq) (va : W64) (bs : List Byte), let m1 := registered m q
      ((∀ asid, ¬InRegion m1 q va.toNat bs.length asid) → exec (.roceWrite q va bs) s =
        .next { s with now := roceAnswered m1 false [] }) ∧
      ∀ asid, InRegion m1 q va.toNat bs.length asid → bs ≠ [] → va.toNat % 4096 + bs.length ≤ 4096 →
        (∀ pa m', m1.xlate .port asid va.toNat true = (.ok pa, m') → exec (.roceWrite q va bs) s =
          .next { s with now := roceAnswered (m'.dramWrite pa bs) true [] }) ∧
        ∀ e m', m1.xlate .port asid va.toNat true = (.error e, m') → exec (.roceWrite q va bs) s =
          .next { s with now := roceAnswered m' false [] }) ∧
    (∀ (q : RoceReq) (va : W64) n, let m1 := registered m q
      ((∀ asid, ¬InRegion m1 q va.toNat n asid) → exec (.roceRead q va n) s = .next { s with now := roceAnswered m1 false [] }) ∧
      ∀ asid, InRegion m1 q va.toNat n asid → 0 < n → va.toNat % 4096 + n ≤ 4096 →
        (∀ pa m', m1.xlate .port asid va.toNat false = (.ok pa, m') → exec (.roceRead q va n) s =
          .next { s with now := roceAnswered m' true (m'.dram.readN pa n) }) ∧
        ∀ e m', m1.xlate .port asid va.toNat false = (.error e, m') → exec (.roceRead q va n) s =
          .next { s with now := roceAnswered m' false [] }) ∧
    exec .roceInvalidRequest s = .next { s with now := roceAnswered m false [] } ∧
    (∀ len ip6 dst port marked,
      let run := exec (.unusedTrafficDiscard (.datagram len ip6 dst port marked)) s
      let used := ip6 = true ∧ (port = 4791 ∨ port = 5187)
      let noticed := marked = true ∧ port = 4791 ∧ (dst = Config.linkLocal ∨ dst ∈ m.hostPort.globals)
      (9000 < len → run = .next s) ∧
      (len ≤ 9000 → ¬used → run = .next { s with now := portCounted m }) ∧
      (len ≤ 9000 → used → noticed → run = .next { s with
        now := { m with hostPort := { m.hostPort with notices := m.hostPort.notices + 1 } } }) ∧
      (len ≤ 9000 → used → ¬noticed → run = .next s)) ∧
    (∀ bs : List Byte, let run := exec (.unusedTrafficDiscard (.nhp bs)) s
      let len := leNat ((bs.drop 16).take 4)
      (bs.length < 32 ∨ leNat (bs.take 2) ≠ 0x4E48 → run = .next s) ∧
      (32 ≤ bs.length → leNat (bs.take 2) = 0x4E48 → len ≠ bs.length - 32 ∨ 8192 < len → run = .next { s with now := portCounted m }) ∧
      (32 ≤ bs.length → leNat (bs.take 2) = 0x4E48 → len = bs.length - 32 → len ≤ 8192 → ∃ i, decodeDatagram bs = .ok i ∧
        run = .next { s with now := { m with turn := m.turn ++ [i] } })) ∧
    (∀ cls on, let others := m.hostPort.paused.filter fun y => y != cls
      (cls = 0 ∨ cls = 3 → exec (.unusedTrafficDiscard (.pause cls on)) s = .next { s with
        now := { m with hostPort := { m.hostPort with paused := if on then cls :: others else others } } }) ∧
      (cls ≠ 0 → cls ≠ 3 → exec (.unusedTrafficDiscard (.pause cls on)) s = .next s)) ∧
    ∀ a, (m.hostPort.globals.length < 4 → exec (.unusedTrafficDiscard (.assign a)) s = .next { s with
        now := { m with hostPort := { m.hostPort with globals := m.hostPort.globals ++ [a] } } }) ∧
      (4 ≤ m.hostPort.globals.length → exec (.unusedTrafficDiscard (.assign a)) s = .next s)) ∧
  (∀ (s : State), let m := s.now
    let answers := fun (l : List Nat) => ({ m with boardOut := m.boardOut ++ [l], free := m.free + 1 } : Mod)
    (∀ r : Thermal, let b := m.board
      let cap := (r.cap.filter fun c => decide (1000 ≤ c ∧ c ≤ 2800)).getD b.cap
      let hot := (∃ t ∈ r.temps, 95 ≤ t) ∨ cap < r.power
      let ran := fun (k : Nat) => exec (.thermalThrottle r) s = .next { s with now := { m with board := { b with
        cap := cap, clk := k, stepFrom := if k = b.clk then b.stepFrom else m.tick + 10000 * Config.ticksPerNs } } }
      (m.tick < b.stepFrom → ran b.clk) ∧
      (b.stepFrom ≤ m.tick → hot → ran (max 12 (b.clk - 1))) ∧
      (b.stepFrom ≤ m.tick → ¬hot → ran (min 24 (b.clk + 1)))) ∧
    (∃ u, exec .thermalTrip s = .next u ∧ u.issue = none ∧ u.now.board = { m.board with powered := false } ∧
      u.now.launches = [] ∧ u.now.cores = [] ∧ u.now.queue = [] ∧ (∀ k ∈ u.now.links, k.up = false) ∧
      u.now.boardOut = m.boardOut ++ [[110]] ∧ u.now.sessions = m.sessions ∧ u.now.security = m.security) ∧
    let up := fun (n : Nat) (l : List Nat) =>
      { m.board with step := n, clk := 24, powered := true, disabled := l, stepFrom := m.tick }
    (∀ slot img, Boots m.security slot img → ∃ u, exec .moduleReset s = .next u ∧ u.issue = none ∧
      let sec := { m.security with running := slot, fused := max m.security.fused (min img.index 64) }
      (Config.stacksPass m.free = true → ResetModule m u.now (up 6 ((List.range 1024).filter (Config.coreFails m.free))) sec ∧
        u.now.hostPort.lanes = if Config.fourLanes m.free then 4 else 8) ∧
      (Config.stacksPass m.free = false → ResetModule m u.now (up 2 []) sec)) ∧
    ((∀ slot img, ¬Boots m.security slot img) → ∃ u, exec .moduleReset s = .next u ∧ u.issue = none ∧
      ResetModule m u.now (up 1 []) m.security) ∧
    (∀ row ∈ [(BoardReq.readClock, m.board.clk * 100), (.readStep, m.board.step), (.readDisabled, m.board.disabled.length)],
      exec (.boardMgmtRequest row.1) s = .next { s with now := answers [row.2] }) ∧
    (∃ l, l.length = 14 ∧ (∀ t ∈ l, t < 256) ∧ exec (.boardMgmtRequest .readTemps) s = .next { s with now := answers l }) ∧
    (∃ w, exec (.boardMgmtRequest .readPower) s = .next { s with now := answers [w] }) ∧
    (∀ d, exec (.boardMgmtRequest (.writeOperatorDigest d)) s = .next { s with now :=
      { answers [if m.security.operator = none then 1 else 0] with
        security := { m.security with operator := some (m.security.operator.getD d) } } }) ∧
    exec (.boardMgmtRequest .resetRequest) s = exec .moduleReset { s with now := answers [] })

/-! ### The host protocol -/

/-- A command in its turn, permitted and well formed, has its effect, and its reply is sent and remembered; opening a session
agrees the version and capabilities, a repeated one is answered again, and the proof admits it or closes it. After parts of R424
to R429, R434. Completes: `sessionOpen`, `sessionClose`, `sessionProof`, `postLaunch`, `readRecordStatus`, `resumeBrkThread`, `readShardReady`,
`unknownCommand`, `asidConfigure`, `savePoolConfigure`, `tenantGrant`, `bindingLoad`, `switchPrepare`, `switchRequest`,
`save`, `restore`, `ringOpen`, `ringClose`, `ringHeadUpdate`, `attestationRequest`, `firmwareUpdate`, `readCounters`. It rests
on choices of the model: logs 3 (the first numbers), 50 (an image), 53, 58 (a binding's checks), 59 to 65 and 76 (a stopped thread
that another wait holds). -/
def Obligations.HostCommandEffects : Prop :=
  ∀ (s : State) (c : Cmd), let m := s.now
    let f := fun (lo n : Nat) => leNat ((c.pay.drop lo).take n)
    let a := f 0 1
    let refused := fun (st : Nat) => (.next { s with now := replied m 1 2 0 c.seq 1 st [] } : Out)
    (AllAwake m → cmdPlain c = true → c.session = 0 → FieldsOnly 16 [(0, 16)] c.pay → (f 3 1 = 1 ∨ (f 3 1 = 0 ∧ f 8 8 = 0)) →
      (∀ y, m.sessions.find? (fun y => y.opening == some c) = some y → exec (.sessionOpen c) s =
        .next { s with now := replied m y.major y.minor y.num c.seq 1 0 (openPay y) }) ∧
      ((∀ y ∈ m.sessions, y.opening ≠ some c) → ¬(1 ≤ f 0 1 ∧ f 2 1 ≤ 1) → exec (.sessionOpen c) s = refused 2) ∧
      ((∀ y ∈ m.sessions, y.opening ≠ some c) → 1 ≤ f 0 1 → f 2 1 ≤ 1 →
        64 ≤ m.sessions.length ∨ (f 3 1 = 1 ∧ ∀ g ∈ m.grants, g.1 ≠ f 8 8) → exec (.sessionOpen c) s = refused 1) ∧
      ((∀ y ∈ m.sessions, y.opening ≠ some c) → 1 ≤ f 0 1 → f 2 1 ≤ 1 → m.sessions.length < 64 →
        let joins := fun (x : Session) => (.next { s with now := { replied m x.major x.minor x.num c.seq 1 0 (openPay x) with
          sessions := m.sessions ++ [x], sessionNum := m.sessionNum + 1 } } : Out)
        (∀ g, f 3 1 = 1 → m.grants.find? (fun g => g.1 == f 8 8) = some g →
          exec (.sessionOpen c) s = joins (opened m c true g.2)) ∧
        (f 3 1 = 0 → f 8 8 = 0 → (∀ x ∈ m.sessions, x.tenant = true) →
          exec (.sessionOpen c) s = joins (opened m c false 0)) ∧
        (f 3 1 = 0 → f 8 8 = 0 → (∃ x ∈ m.sessions, x.tenant = false) →
          exec (.sessionOpen c) s = refused 1))) ∧
    ∀ x, InTurn m x c →
      let tells := fun (i : Instr) (op st : Nat) (pay : List Byte) (m' : Mod) =>
        exec i s = .next { s with now := answered m m' x c op st pay }
      let closed := fun (op st : Nat) => replied { m with sessions := m.sessions.filter fun y => y.num != x.num }
        x.major x.minor x.num c.seq op st []
      let mine := ActsForAsid x a
      (∀ row ∈ hostRows m x c, row.may → FieldsOnly row.need row.fields c.pay → row.ok →
        tells row.instr row.op row.status row.pay row.after) ∧
      (FieldsOnly 0 [] c.pay → exec (.sessionClose c) s = .next { s with now := closed 2 0 }) ∧
      (x.tenant = false → x.proved = false → FieldsOnly 512 [(0, 512)] c.pay →
        let good := ∃ d, m.security.operator = some d ∧
          Config.pssVerify d (leBytes 64 x.challenge.toNat) (c.pay.take 512) = true
        let proved := withSession (answered m m x c 3 0 []) x fun y => { y with proved := true }
        (good → exec (.sessionProof c) s = .next { s with now := proved }) ∧
        (¬good → exec (.sessionProof c) s = .next { s with now := closed 3 1 })) ∧
      (mine → FieldsOnly 16 [(0, 1), (8, 8)] c.pay →
        (f 8 8 % 512 ≠ 0 → tells (.postLaunch c) 0x10 16 [] m) ∧
        (∀ bs pa r, f 8 8 % 512 = 0 → Posted m { deps := [], asid := a, addr := BitVec.ofNat 64 (f 8 8) } bs pa r →
          tells (.postLaunch c) 0x10 r.1 (leBytes 8 r.2.1) r.2.2) ∧
        (∀ bs, m.devRead .launch a (f 8 8) 512 = (.ok bs, m) → tells (.readRecordStatus c) 0x11 0
          ((bs.drop 0x180).take 4 ++ (bs.drop 0x1D4).take 4 ++ (bs.drop 0x1D8).take 8) m) ∧
        ∀ e, m.devRead .launch a (f 8 8) 512 = (.error e, m) → tells (.readRecordStatus c) 0x11 1 [] m) ∧
      (mine → FieldsOnly 6 [(0, 1), (2, 4)] c.pay → ∀ k t,
        (m.core (f 2 2)).warps.find? (fun k => k.slot == f 4 1 && !k.evicted &&
          ((m.launchOf (f 2 2) k.uid).map (·.asid)) == some a) = some k → k.thread? (f 5 1) = some t →
        let again := fun (g : GWait) => if g.warp = k.uid then
          { g with timers := g.timers.map fun p => if p.1 = f 5 1 then (p.1, m.tick) else p } else g
        let timed := m.onCore (f 2 2) fun y => { y with waits := y.waits.map again }
        (t.run = .stopped → tells (.resumeBrkThread c) 0x12 0 [] (timed.onThread (f 2 2) k.uid (f 5 1) fun t =>
          { t with run := ((m.core (f 2 2)).heldBy k.uid (f 5 1)).getD .ready, stamp := m.clock })) ∧
        (t.run ≠ .stopped → tells (.resumeBrkThread c) 0x12 16 [] m)) ∧
      (mine → FieldsOnly 8 [(0, 1), (4, 4)] c.pay →
        (∀ y, m.shards.find? (fun z => z.num == f 4 4 && z.asid == a) = some y →
          tells (.readShardReady c) 0x34 0 (leBytes 4 y.word.toNat) m) ∧
        ((∀ z ∈ m.shards, ¬(z.num = f 4 4 ∧ z.asid = a)) → tells (.readShardReady c) 0x34 16 [] m)) ∧
      ∀ op, ((Manages x ∧ op ≠ 3) ∨ x.tenant = true) → c.pay.length ≤ 8192 → tells (.unknownCommand op c) op 3 [] m

/-- A grid context image is loaded as its bytes say and made active by a commit that finds its tables sound; a Canal group, a
shard, whose source lies in a region of its address space, the reset of an address space and an `inval` have their effects. After
parts of R238, R241, R242, R262, R337, R341, R342, R417, R421, R422, R428, R429. Completes: `gridContextLoad`,
`gridContextCommit`, `canalGroupConfigure`, `shardLoad`, `reset`, `inval`. It rests on choices of the model: logs 44 (the copy of a
shard), 47, 55 to 61 and 66. -/
def Obligations.ContextCommandEffects : Prop :=
  ∀ (s : State) (c : Cmd) (x : Session), InTurn s.now x c → let m := s.now
    let f := fun (lo n : Nat) => leNat ((c.pay.drop lo).take n)
    let a := f 0 1
    let tells := fun (i : Instr) (op st : Nat) (pay : List Byte) (m' : Mod) =>
      exec i s = .next { s with now := answered m m' x c op st pay }
    (∀ bs g, gridImage a bs = .ok g → ImageOf bs a g ∧ 1 ≤ g.n ∧ g.n ≤ 5 ∧ (∀ k < g.n, 1 ≤ g.ext.getD k 0) ∧
      (∀ k < g.n, (part g.coord (12 * k) 12) < g.ext.getD k 0) ∧ g.allowance ≠ 0 ∧ g.rules.length ≤ 4096) ∧
    (Manages x → FieldsOnly 20 [(0, 1), (1, 1), (8, 8), (16, 4)] c.pay → Config.dramBytes ≤ f 8 8 ∨
      Config.dramBytes < f 8 8 + f 16 4 → tells (.gridContextLoad c) 0x20 1 [] m) ∧
    (Manages x → FieldsOnly 20 [(0, 1), (1, 1), (8, 8), (16, 4)] c.pay → a < 8 → f 1 1 = 0 →
      f 8 8 < Config.dramBytes → f 8 8 + f 16 4 ≤ Config.dramBytes → m.gridBusy a = false → ∀ g, gridImage a (m.dram.readN (f 8 8) (f 16 4)) = .ok g →
      let others := m.grids.filter fun y => y.num != a
      let rules := (others.map fun y => y.rules.length).sum + g.rules.length
      (rules ≤ 4096 → tells (.gridContextLoad c) 0x20 0 [] { m with grids := others ++ [g] }) ∧
      (4096 < rules → tells (.gridContextLoad c) 0x20 1 [] m)) ∧
    (Manages x → FieldsOnly 16 [(0, 1), (1, 1), (8, 8)] c.pay → ∀ g, m.grid? a = some g →
      (Config.dramBytes ≤ f 8 8 → tells (.gridContextCommit c) 0x20 1 [] m) ∧
      (f 8 8 < Config.dramBytes → m.gridBusy a = true → tells (.gridContextCommit c) 0x20 16 [] m) ∧
      (f 8 8 < Config.dramBytes → m.gridBusy a = false →
      let sound := m.tableOk g false = true ∧ m.tableOk g true = true
      let live := fun (y : GridCtx) => { y with active := true }
      (sound → tells (.gridContextCommit c) 0x20 0 [] { m with grids := alterFirst (fun y => y.num == a) live m.grids }) ∧
      (¬sound → tells (.gridContextCommit c) 0x20 1 [] m))) ∧
    (Manages x → FieldsOnly 4 [(0, 2), (2, 1), (3, 1)] c.pay → 2 ≤ f 2 1 → f 2 1 ≤ 64 → f 3 1 < f 2 1 →
      (∀ g, m.canal.group = some g → g ≠ f 0 2 → m.canal.left = false → tells (.canalGroupConfigure c) 0x21 16 [] m) ∧
      (m.canal.group = none ∨ m.canal.group = some (f 0 2) ∨ m.canal.left = true → m.canal.q = [] → m.leat.ctxs = [] →
        m.saved = [] → (∀ l ∈ m.launches, l.status ≠ 2) → ∃ m', tells (.canalGroupConfigure c) 0x21 0 [] m' ∧
        m'.preps = (if m.canal.group = none then m.preps else []) ∧
        ((m.cores.map (·.num)).Nodup → (∀ c, ((m.core c).waits.map (·.id)).Nodup) →
          ∀ c, ∀ g ∈ (m.core c).waits, ∀ j idx cond cmp d dl, g.wait = .canal j idx cond cmp d dl →
            WaitsEnd m m' c g [(d, m.canal.word j idx), (d + 1, 2)] none) ∧
        m'.canal = { Canal.idle with group := some (f 0 2), n := f 2 1, index := f 3 1, bargeAt := m.tick,
                                       orphans := m.canal.orphans } ∧
        m'.leat.admitted = [] ∧ m'.dram = m.dram ∧ m'.grids = m.grids ∧ m'.asids = m.asids)) ∧
    (ActsForAsid x a → FieldsOnly 56 [(0, 1), (1, 1), (2, 1), (3, 1), (4, 4), (8, 8), (16, 8), (24, 8), (32, 4), (36, 1),
        (40, 8), (48, 8)] c.pay → ∀ b g, m.binding? a (f 1 1) = some b → m.grid? (f 36 1) = some g → f 2 1 ≤ 1 →
      (m.copyInUse a b (f 2 1 == 1) = true → tells (.shardLoad c) 0x31 1 [] m) ∧
      (m.copyInUse a b (f 2 1 == 1) = false → f 3 1 = 1 → f 8 8 % 64 = 0 → f 16 8 % 64 = 0 → 0 < f 16 8 →
        f 8 8 + f 16 8 ≤ b.size → f 16 8 + 8 < 2 ^ 32 → f 24 8 + f 16 8 + 8 < 2 ^ 56 →
        (∀ y ∈ m.shards, y.num ≠ m.next ∧ ¬(y.asid = a ∧ y.binding = f 1 1 ∧ y.off = f 8 8)) →
        (∀ o ∈ m.fabOps, ¬(o.core = 1024 ∧ o.block = m.next)) →
        tells (.shardLoad c) 0x31 0 (leBytes 4 m.next) { m with next := m.next + 1, shards := m.shards ++ [newShard m f] }) ∧
      let lows := BitVec.ofNat 64 (f 40 8)
      let highs := BitVec.ofNat 64 (f 48 8)
      let held := ∃ r ∈ m.regions, r.key = f 32 4 ∧ r.asid = a ∧ r.base ≤ f 24 8 ∧ f 24 8 + (f 16 8 + 8) ≤ r.base + r.size
      (f 3 1 = 0 → ¬held → tells (.shardLoad c) 0x31 1 [] m) ∧
      (m.copyInUse a b (f 2 1 == 1) = false → f 3 1 = 0 → f 8 8 % 64 = 0 → f 16 8 % 64 = 0 → 0 < f 16 8 →
        f 8 8 + f 16 8 ≤ b.size → f 16 8 + 8 < 2 ^ 32 → f 24 8 + f 16 8 + 8 < 2 ^ 56 → g.active = true →
        g.asids.getLsbD a = true → LegalPattern g lows highs → held →
        (∀ y ∈ m.shards, y.num ≠ m.next ∧ ¬(y.asid = a ∧ y.binding = f 1 1 ∧ y.off = f 8 8)) →
        (∀ o ∈ m.fabOps, ¬(o.core = 1024 ∧ o.block = m.next)) →
        ∃ o, tells (.shardLoad c) 0x31 0 (leBytes 4 m.next) { m with
            next := m.next + 2, shards := m.shards ++ [newShard m f], fabOps := m.fabOps ++ [o] } ∧
          o.core = 1024 ∧ o.block = m.next ∧ o.len = f 16 8 + 8 ∧ o.left = coordinates g lows highs ∧ o.unsent = true ∧
          o.pkt.op = 1 ∧ o.pkt.ctx = g.num ∧ o.pkt.asid = a ∧ o.pkt.lows = lows ∧ o.pkt.highs = highs ∧
          o.src = BitVec.ofNat 64 (f 24 8) ∧ o.pkt.addr = o.src)) ∧
    (Manages x → FieldsOnly 1 [(0, 1)] c.pay → (m.launches.map (·.handle)).Nodup → ∃ m', tells (.reset c) 0x42 0 [] m' ∧
      m'.launches = m.launches.filter (fun l => l.asid != a) ∧ m'.asids = m.asids.filter (fun y => y.num != a) ∧
      (∀ k, ∀ y ∈ (m'.core k).blocks, ∀ l ∈ m.launches, l.asid = a → y.launch ≠ l.handle) ∧
      (∀ h ∈ m'.queue, ∀ l ∈ m.launches, l.asid = a → h ≠ l.handle) ∧ (∀ v ∈ m'.saved, v.asid ≠ a) ∧
      (∀ e ∈ m'.tlb, e.asid = a → e.va + e.size = 0 ∨ 2 ^ 56 ≤ e.va) ∧ m.gen < m'.gen ∧ ∃ e, m'.events.getLast? = some e ∧ e.type = 7 ∧ e.asid = a) ∧
    (Manages x → FieldsOnly 40 [(0, 1), (1, 1), (8, 8), (16, 8), (24, 4), (32, 8)] c.pay → f 1 1 ≤ 1 →
      f 32 8 < Config.dramBytes → f 32 8 + 8 * f 24 4 ≤ Config.dramBytes →
      let page := fun (i : Nat) => leNat (m.dram.readN (f 32 8 + 8 * i) 8)
      (∀ i < f 24 4, page i % 4096 = 0 ∧ page i < Config.dramBytes) → ∃ m', tells (.inval c) 0x50 0 (leBytes 8 m.gen) m' ∧
        m'.gen = m.gen + 1 ∧ m'.dram = m.dram ∧
        m'.pond = m.pond ++ (List.range (f 24 4)).map (fun i => { pa := page i, size := 4096, gen := m.gen, asid := a }) ∧
        ∀ e, e ∈ m'.tlb ↔ e ∈ m.tlb ∧ (e.asid = a → f 1 1 = 0 ∧ (e.va + e.size ≤ f 8 8 ∨ f 8 8 + f 16 8 ≤ e.va) ∨
          f 1 1 = 1 ∧ 2 ^ 56 ≤ e.va ∨ f 1 1 = 1 ∧ e.va + e.size = 0))

/-- A command of no open session gets status 5; in its turn it is checked for the session's version (2), a plain header (4),
permission (6) and its payload (4), in this order; a repeated one is answered again without effect, one up to 64 ahead is held
and taken up in its turn, and any other is discarded; sessions without a datagram for 30 s are closed first. After parts of R424 to
R426, R428. It rests on choices of the model: logs 53 and 54. -/
def Obligations.HostCommandOrder : Prop :=
  ∀ (s : State) (c : Cmd), let m := s.now
    ∀ io ∈ hostOps c, let i := io.1
    let op := io.2
    let awake := { m with sessions := m.sessions.filter fun y => decide (m.tick < y.last + 30000000000 * Config.ticksPerNs) }
    exec i s = exec i { s with now := awake } ∧
    (AllAwake m → (∀ y ∈ m.sessions, y.num ≠ c.session) →
      exec i s = .next { s with now := replied m 1 2 c.session c.seq op 5 [] }) ∧
    ∀ x ∈ m.sessions, AllAwake m → x.num = c.session → (m.sessions.map (·.num)).Nodup →
      let said := fun (st : Nat) => (.next { s with now := answered m m x c op st [] } : Out)
      let same := x.major = c.major ∧ x.minor = c.minor
      let plain := c.flags < 4 ∧ c.status = 0 ∧ c.resv = 0
      let ahead := (c.seq + 2 ^ 32 - x.next) % 2 ^ 32
      (x.next = c.seq → x.held = [] →
        (¬same → exec i s = said 2) ∧ (same → ¬plain → exec i s = said 4) ∧
        (same → plain → NotPermitted x op c.pay → exec i s = said 6) ∧
        (∀ row ∈ hostRows m x c, row.instr = i → same → plain → row.may → ¬FieldsOnly row.need row.fields c.pay →
          exec i s = said 4)) ∧
      (∀ j, x.next = c.seq → x.held = [((c.seq + 1) % 2 ^ 32, j)] → ¬same →
        let taken := withSession (answered m m x c op 2 []) x fun y => { y with held := [] }
        exec i s = .next { s with now := { taken with turn := m.turn ++ [j] } }) ∧
      (ahead ≠ 0 →
        (∀ r, x.replies.find? (fun r => r.1 == c.seq) = some r →
          exec i s = .next { s with now := replied (heard m x) x.major x.minor x.num c.seq op r.2.1 r.2.2 }) ∧
        ((∀ r ∈ x.replies, r.1 ≠ c.seq) →
          let room := ahead ≤ 64 ∧ x.held.length < 64 ∧ ∀ h ∈ x.held, h.1 ≠ c.seq
          let kept := withSession (heard m x) x fun y => { y with held := y.held ++ [(c.seq, i)] }
          (room → exec i s = .next { s with now := kept }) ∧
          (¬room → exec i s = .next { s with now := heard m x })))

/-! ### Encodings -/

/-- Decoding the word of a well-formed slot instruction gives it back, with every field, and leaves the bytes that follow; a
word that decodes is the word of what it decodes to, which is well formed; and the datagram of a host command is read back as
that command. After parts of R18 to R27, R424. -/
def Obligations.EncodingRoundTrip : Prop :=
  (∀ i w, i.wf = true → encodeSlot i = some w → decodeSlot w = .ok i ∧
    ∀ rest, decode (leBytes 12 w.toNat ++ rest) = .ok (i, rest)) ∧
  (∀ w i, decodeSlot w = .ok i → encodeSlot i = some w ∧ i.wf = true) ∧
  ∀ i op c, opOf i = some (op, c) → commandOf op c = i → op < 2 ^ 16 → c.major < 2 ^ 8 → c.minor < 2 ^ 8 →
    c.flags < 2 ^ 16 → c.session < 2 ^ 32 → c.seq < 2 ^ 32 → c.status < 2 ^ 32 → c.resv < 2 ^ 64 → c.pay.length ≤ 8192 →
    decodeDatagram (encode i) = .ok i

/-- The worked encodings of the spec for eight families: each word decodes to the instruction that its text names. -/
def Obligations.WorkedWordsDecode : Prop :=
  let v : FmtV := { minor := 0, d := 0, a := 0, b := 0, c := 0, bk := 0, qd := 0, aux := 0, imm16 := 0 }
  let e : FmtE := { minor := 0, d := 0, a := 0, b := 0, c := 0, cmd := 0, weir := 0, imm16 := 0 }
  let mem : FmtM := { minor := 0, d := 0, base := 0, bk := false, qd := 0, aux := 0, off := 0 }
  let sys : FmtS := { minor := 0, d := 0, a := 0, dk := false, sr := 0, aux := 0, imm32 := 0 }
  let plain := fun (n : Nat) => ({ stall := BitVec.ofNat 4 n, gneg := false, guard := 0 } : Hdr)
  ∀ row ∈ [(0x404002010203000000000000, Instr.vadd (plain 4) { v with minor := 2, d := 1, a := 2, b := 3 }),
      (0x404B0205060000080000FFF8, .vadd { plain 4 with gneg := true, guard := 3 }
        { v with minor := 2, d := 5, a := 6, bk := 2, imm16 := 0xFFF8 }),
      (0x0120032C0200008800000001, .sadd (plain 2) { v with minor := 3, d := 300, a := 2, bk := 2, imm16 := 1 }),
      (0x534002070300000001080000, .vbfe (plain 4) { v with minor := 2, d := 7, a := 3, aux := 0x108 }),
      (0x90A000080200000600000040, .vld (plain 10) { mem with d := 8, base := 2, aux := 6, off := 0x40 }),
      (0xA02400140000000000000000, .mma { plain 2 with guard := 4 } { e with d := 20 }),
      (0xC81006001416180001000003, .fst (plain 1) { e with minor := 6, a := 20, b := 22, c := 24, cmd := 1, imm16 := 3 }),
      (0xE81006060A20014700000008, .atom (plain 1) { mem with minor := 6, d := 6, base := 10, bk := true, aux := 0x147, off := 8 }),
      (0xF01000000405000003000800, .spn (plain 1) { e with a := 4, b := 5, cmd := 3, imm16 := 0x0800 }),
      (0x324000280000400000000000, .mfsr (plain 4) { sys with d := 40, sr := 0x020 }),
      (0x311000000000000000000000, .tret (plain 1) sys)],
    decodeSlot (BitVec.ofNat 96 row.1) = .ok row.2 ∧ decodeTableWord 96 row.1 = some row.2

/-! ### The whole machine -/

/-- A step of a module that has come up runs the instruction that the next slot's word decodes to, and what follows from it at
once; a word that no encoding has is the illegal-instruction fault of the whole group (R21, R32). Between bundles a command
whose turn has come (R426) goes first; else a step that is due; at the beginning of a cycle the save points, then the issue cycle of
each core that has not had its own, then the increments of completed releases and the waves (R88, R144, R151, R410); where there is
none of these, an external object that has come, a step that can happen, or the end of the cycle, in an order that the model leaves
open, after which no core issues in the cycle. It rests on choices of the model: logs 1 (the order), 2 (a slot in a step) and 54 (a
command held). -/
def Obligations.StepRunsDecoded : Prop :=
  ∀ (s : State), s.now.board.powered = true → s.now.board.step = 6 →
    (∀ x t ts, AtSlot s x t ts →
      (∀ i, decodeSlot t.word = .ok i → step s = settleOut (exec i s)) ∧
      (∀ e, decodeSlot t.word = .error e → step s = .next (settle { s with issue := some (badWord x t) }))) ∧
    ((∀ x, s.issue = some x → x.todo = []) →
      (∀ i l, s.now.turn = i :: l → step s = settleOut (exec i { s with now := { s.now with turn := l } })) ∧
      (s.now.turn = [] →
        let m := s.now
        let runs := fun (i : Instr) => step s = settleOut (exec i s)
        let first := fun (l : List Instr) (i : Instr) => l.find? (canHappen s) = some i
        let quiet := fun (l : List Instr) => ∀ i ∈ l, canHappen s i = false
        let waits := fun (k : Core) => k.issuedAt ≠ m.clock
        let begun := m.opened = m.clock + 1
        let soon := m.cores.flatMap Core.increments
        let after := m.cores.flatMap fun k => k.increments ++ k.must
        (∀ i, first (m.cores.flatMap Core.due) i → runs i) ∧
        (quiet (m.cores.flatMap Core.due) →
          (¬begun → (∀ k ∈ m.cores, waits k) → ∀ i, first m.savePoints i → runs i) ∧
          (¬begun → (∃ k ∈ m.cores, ¬waits k) ∨ quiet m.savePoints → ∀ l k r, m.cores = l ++ k :: r → waits k →
            (∀ y ∈ l, ¬waits y) → runs (.issueCycle k.num)) ∧
          (¬begun → m.cores ≠ [] → (∀ k ∈ m.cores, ¬waits k) → ∀ i, first after i → runs i) ∧
          (begun → ∀ i, first soon i → runs i) ∧
          ((begun ∧ quiet soon) ∨ (¬begun ∧ (∀ k ∈ m.cores, ¬waits k) ∧ (m.cores = [] → quiet m.savePoints) ∧ quiet after) →
            let t : State := { s with now := { m with free := m.free + 1, opened := m.clock + 1 } }
            (∃ i l, m.agenda = i :: l ∧ step s = settleOut (exec i { t with now := { t.now with agenda := l } })) ∨
            (∃ i ∈ m.mayDo ++ m.cores.flatMap Core.mayDo, canHappen t i = true ∧ step s = settleOut (exec i t)) ∨
            step s = .next { t with now := t.now.cycle }))))

/-- After reset every counter is zero and the generation 1, no grid context, ASID, binding, ring, session or save pool is
there, pools are zero, the Canal port is idle and bring-up is complete; every memory is in canonical form and no bundle is
under way. After parts of R421, R435. It rests on choices of the model: logs 3, 4 and 6. -/
def Obligations.ResetState : Prop :=
  let m := State.reset.now
  m.clock = 0 ∧ m.gen = 1 ∧ m.leat.counters = [0, 0, 0, 0] ∧
  m.counters = { port := 0, droppedEvents := 0, overruns := 0, protocol := 0 } ∧ m.grids = [] ∧ m.asids = [] ∧
  m.rings = [] ∧ m.sessions = [] ∧ m.savePool = none ∧ m.regions = [] ∧ m.launches = [] ∧ m.canal.group = none ∧ m.board.step = 6 ∧
  (∀ c, let k := m.core c
    k.mTicket = 0 ∧ k.slCounter = 0 ∧ k.blocks = [] ∧ k.warps = [] ∧ k.partition = none ∧ ∀ a, k.sram.read a = 0) ∧
  Kept State.reset

/-- Every step keeps the canonical form of every memory (device memory, the pools, the saved contexts), and a bundle under way
keeps one to five slots (R16) with the slots still to run at its end. -/
def Obligations.InvariantKept : Prop := ∀ s t, Kept s → step s = .next t → Kept t

/-- Every instruction answers a next state, from every state; a step of the machine answers none only when its dies have lost
power and nothing is left that could reach it (R435, R436). -/
def Obligations.StepsGoOn : Prop :=
  (∀ i s, ∃ t, exec i s = .next t) ∧
  ∀ s, (∃ t, step s = .next t) ∨ (step s = .fault .noPower ∧ s.now.board.powered = false ∧ s.now.agenda = [])

/-- An instruction whose guard is false for every thread of its group has no effect: the bundle goes on behind it, and nothing
else changes. After parts of R19. -/
def Obligations.FalseGuardHasNoEffect : Prop :=
  ∀ (s : State) (x : Issue) (t : BSlot) (ts : List BSlot) (i : Instr) (w : Slot), AtSlot s x t ts →
    encodeSlot i = some w → (∀ p ∈ x.group, x.guardOn (Hdr.of w) p.1 p.2 = false) → exec i s = .next (idle s x t ts)
end

