-- ==== Sys2Proof/Laws/Memory.lean ====
section
/-! SUPPORT. Byte memories: a read after a write, the bytes that a write leaves alone, and that every operation keeps the
canonical form. -/

namespace Sys2Proof.Machine

/-! ### The canonical form -/

/-- Every listed address lies at or above a bound. -/
def Memory.above (n : Nat) (m : Memory) : Prop := ∀ e ∈ m, n ≤ e.1

@[simp] theorem Memory.wf_nil : Memory.wf [] = true := rfl

/-- The canonical form, entry by entry. -/
theorem Memory.wf_cons (a : Nat) (b : Byte) (m : Memory) :
    Memory.wf ((a, b) :: m) = true ↔ b ≠ 0 ∧ Memory.above (a + 1) m ∧ Memory.wf m = true := by
  induction m generalizing a b with
  | nil => simp [Memory.wf, Memory.above]
  | cons e m ih =>
    obtain ⟨a', b'⟩ := e
    have step : Memory.wf ((a, b) :: (a', b') :: m) = true ↔ b ≠ 0 ∧ a < a' ∧ Memory.wf ((a', b') :: m) = true := by
      simp [Memory.wf, and_assoc]
    rw [step]
    constructor
    · rintro ⟨h1, h2, h3⟩
      refine ⟨h1, ?_, h3⟩
      intro e he
      rcases List.mem_cons.1 he with rfl | he
      · exact h2
      · have := ((ih a' b').1 h3).2.1 e he; omega
    · rintro ⟨h1, h2, h3⟩
      exact ⟨h1, h2 (a', b') (by simp), h3⟩

theorem Memory.above_mono {m : Memory} {i j : Nat} (h : Memory.above j m) (hij : i ≤ j) : Memory.above i m :=
  fun e he => Nat.le_trans hij (h e he)

theorem Memory.above_write {m : Memory} {n x : Nat} {v : Byte} (h : Memory.above n m) (hx : n ≤ x) :
    Memory.above n (m.write x v) := by
  induction m with
  | nil => unfold Memory.write; split <;> simp [Memory.above, hx]
  | cons e m ih =>
    obtain ⟨a, b⟩ := e
    have ha : n ≤ a := h (a, b) (by simp)
    have hm : Memory.above n m := fun e he => h e (by simp [he])
    have cons : ∀ {k : Nat} {c : Byte} {l : Memory}, n ≤ k → Memory.above n l → Memory.above n ((k, c) :: l) := by
      intro k c l hk hl e he
      rcases List.mem_cons.1 he with rfl | he
      · exact hk
      · exact hl e he
    unfold Memory.write
    split
    · split
      · exact h
      · exact cons hx h
    · split
      · split
        · exact hm
        · exact cons hx hm
      · exact cons ha (ih hm)

/-- A write keeps the canonical form. -/
theorem Memory.wf_write {m : Memory} (h : m.wf = true) (x : Nat) (v : Byte) : (m.write x v).wf = true := by
  induction m with
  | nil => unfold Memory.write; split <;> simp_all [Memory.wf]
  | cons e m ih =>
    obtain ⟨a, b⟩ := e
    have hc := (Memory.wf_cons a b m).1 h
    unfold Memory.write
    split
    · split
      · exact h
      · next hx hv =>
        refine (Memory.wf_cons x v _).2 ⟨hv, ?_, h⟩
        intro e he
        rcases List.mem_cons.1 he with rfl | he
        · exact hx
        · have := hc.2.1 e he; omega
    · split
      · next hx =>
        subst hx
        split
        · exact hc.2.2
        · next hv => exact (Memory.wf_cons x v m).2 ⟨hv, hc.2.1, hc.2.2⟩
      · next hx hne =>
        exact (Memory.wf_cons a b _).2 ⟨hc.1, Memory.above_write hc.2.1 (by omega), ih hc.2.2⟩

/-- A run of writes keeps the canonical form. -/
theorem Memory.wf_writeN {m : Memory} (h : m.wf = true) (a : Nat) (bs : List Byte) : (m.writeN a bs).wf = true := by
  induction bs generalizing m a with
  | nil => exact h
  | cons b bs ih => exact ih (Memory.wf_write h a b) (a + 1)

theorem Memory.wf_paste {m : Memory} (h : m.wf = true) (lo : Nat) (p : Memory) : (m.paste lo p).wf = true := by
  induction p generalizing m with
  | nil => exact h
  | cons e p ih => exact ih (Memory.wf_write h _ _)

theorem Memory.above_below {m : Memory} {n : Nat} (h : Memory.above n m) (hi : Nat) : Memory.above n (m.below hi) := by
  induction m with
  | nil => exact h
  | cons e m ih =>
    have hm : Memory.above n m := fun e he => h e (by simp [he])
    unfold Memory.below
    split
    · intro x hx
      rcases List.mem_cons.1 hx with rfl | hx
      · exact h _ (by simp)
      · exact ih hm x hx
    · intro x hx; simp at hx

theorem Memory.wf_below {m : Memory} (h : m.wf = true) (hi : Nat) : (m.below hi).wf = true := by
  induction m with
  | nil => rfl
  | cons e m ih =>
    obtain ⟨a, b⟩ := e
    have hc := (Memory.wf_cons a b m).1 h
    unfold Memory.below
    split
    · exact (Memory.wf_cons a b _).2 ⟨hc.1, Memory.above_below hc.2.1 hi, ih hc.2.2⟩
    · rfl

theorem Memory.below_lt (m : Memory) (hi : Nat) : ∀ e ∈ m.below hi, e.1 < hi := by
  induction m with
  | nil => intro e he; simp [Memory.below] at he
  | cons x m ih =>
    unfold Memory.below
    split
    · next h =>
      intro e he
      rcases List.mem_cons.1 he with rfl | he
      · exact h
      · exact ih e he
    · intro e he; simp at he

theorem Memory.wf_from {m : Memory} (h : m.wf = true) (lo : Nat) : (m.from lo).wf = true := by
  induction m with
  | nil => rfl
  | cons e m ih =>
    obtain ⟨a, b⟩ := e
    unfold Memory.from
    split
    · exact ih ((Memory.wf_cons a b m).1 h).2.2
    · exact h

theorem Memory.from_above {m : Memory} (h : m.wf = true) (lo : Nat) : Memory.above lo (m.from lo) := by
  induction m with
  | nil => intro e he; simp [Memory.from] at he
  | cons x m ih =>
    obtain ⟨a, b⟩ := x
    have hc := (Memory.wf_cons a b m).1 h
    unfold Memory.from
    split
    · exact ih hc.2.2
    · next ha =>
      intro e he
      rcases List.mem_cons.1 he with rfl | he
      · simpa using ha
      · have := hc.2.1 e he; simp at ha; omega

theorem Memory.wf_append {m p : Memory} (hm : m.wf = true) (hp : p.wf = true) (h : ∀ e ∈ m, Memory.above (e.1 + 1) p) :
    Memory.wf (m ++ p) = true := by
  induction m with
  | nil => exact hp
  | cons e m ih =>
    obtain ⟨a, b⟩ := e
    have hc := (Memory.wf_cons a b m).1 hm
    refine (Memory.wf_cons a b _).2 ⟨hc.1, ?_, ih hc.2.2 fun e he => h e (by simp [he])⟩
    intro e he
    rcases List.mem_append.1 he with he | he
    · exact hc.2.1 e he
    · exact h (a, b) (by simp) e he

/-- A stretch made zero keeps the canonical form. -/
theorem Memory.wf_clear {m : Memory} (h : m.wf = true) (lo hi : Nat) : (m.clear lo hi).wf = true := by
  refine Memory.wf_append (Memory.wf_below h lo) (Memory.wf_from h _) fun e he => ?_
  have := Memory.below_lt m lo e he
  exact Memory.above_mono (Memory.from_above h _) (by omega)

theorem Memory.wf_shift {m : Memory} (h : m.wf = true) (lo : Nat) (ha : Memory.above lo m) :
    Memory.wf (m.map fun e => (e.1 - lo, e.2)) = true := by
  induction m with
  | nil => rfl
  | cons e m ih =>
    obtain ⟨a, b⟩ := e
    have hc := (Memory.wf_cons a b m).1 h
    have h0 : lo ≤ a := ha (a, b) (by simp)
    refine (Memory.wf_cons _ _ _).2 ⟨hc.1, ?_, ih hc.2.2 fun e he => ha e (by simp [he])⟩
    intro e he
    obtain ⟨x, hx, rfl⟩ := List.mem_map.1 he
    have := hc.2.1 x hx
    simp; omega

/-- A stretch cut out is in canonical form. -/
theorem Memory.wf_cut {m : Memory} (h : m.wf = true) (lo hi : Nat) : (m.cut lo hi).wf = true := by
  unfold Memory.cut
  exact Memory.wf_shift (Memory.wf_below (Memory.wf_from h lo) hi) lo (Memory.above_below (Memory.from_above h lo) hi)

/-! ### Reads -/

/-- A read below every listed address gives zero. -/
theorem Memory.read_above {m : Memory} {n x : Nat} (h : Memory.above n m) (hx : x < n) : m.read x = 0 := by
  cases m with
  | nil => rfl
  | cons e m =>
    obtain ⟨a, b⟩ := e
    have : n ≤ a := h (a, b) (by simp)
    unfold Memory.read
    rw [if_neg (by omega), if_pos (by omega)]

/-- A byte written reads as written. -/
theorem Memory.read_write_same {m : Memory} (h : m.wf = true) (x : Nat) (v : Byte) : (m.write x v).read x = v := by
  induction m with
  | nil => unfold Memory.write; split <;> simp_all [Memory.read]
  | cons e m ih =>
    obtain ⟨a, b⟩ := e
    have hc := (Memory.wf_cons a b m).1 h
    unfold Memory.write
    split
    · split
      · next hx hv => unfold Memory.read; rw [if_neg (by omega), if_pos hx, hv]
      · simp [Memory.read]
    · split
      · next hx =>
        subst hx
        split
        · next hv => rw [Memory.read_above hc.2.1 (Nat.lt_succ_self x), hv]
        · simp [Memory.read]
      · next hx hne => unfold Memory.read; rw [if_neg (by omega), if_neg (by omega)]; exact ih hc.2.2

/-- A write leaves every other byte alone. -/
theorem Memory.read_write_ne {m : Memory} (h : m.wf = true) {x y : Nat} (v : Byte) (n : y ≠ x) :
    (m.write x v).read y = m.read y := by
  induction m with
  | nil => unfold Memory.write; split <;> simp [Memory.read]; omega
  | cons e m ih =>
    obtain ⟨a, b⟩ := e
    have hc := (Memory.wf_cons a b m).1 h
    unfold Memory.write
    split
    · split
      · rfl
      · next hx _ =>
        rw [Memory.read, if_neg (Ne.symm n)]
        split
        · next hy => rw [Memory.read, if_neg (by omega), if_pos (by omega)]
        · rfl
    · split
      · next hx =>
        subst hx
        split
        · rw [Memory.read, if_neg (Ne.symm n)]
          split
          · next hy => exact Memory.read_above hc.2.1 (by omega)
          · rfl
        · simp [Memory.read, Ne.symm n]
      · rw [Memory.read, Memory.read, ih hc.2.2]

/-- A run of writes leaves the bytes outside it alone. -/
theorem Memory.read_writeN_out {m : Memory} (h : m.wf = true) {a y : Nat} (bs : List Byte)
    (n : y < a ∨ a + bs.length ≤ y) : (m.writeN a bs).read y = m.read y := by
  induction bs generalizing m a with
  | nil => rfl
  | cons b bs ih =>
    simp only [List.length_cons] at n
    rw [Memory.writeN, ih (Memory.wf_write h a b) (by omega), Memory.read_write_ne h b (by omega)]

/-- A run of writes puts its bytes in place. -/
theorem Memory.read_writeN_in {m : Memory} (h : m.wf = true) (a : Nat) (bs : List Byte) {i : Nat} (hi : i < bs.length) :
    (m.writeN a bs).read (a + i) = bs[i] := by
  induction bs generalizing m a i with
  | nil => simp at hi
  | cons b bs ih =>
    cases i with
    | zero =>
      rw [Memory.writeN, Memory.read_writeN_out (Memory.wf_write h a b) bs (by omega)]
      exact Memory.read_write_same h a b
    | succ i =>
      have := ih (Memory.wf_write h a b) (a + 1) (i := i) (by simpa using hi)
      rw [Memory.writeN, show a + (i + 1) = a + 1 + i by omega, this]
      rfl

end Sys2Proof.Machine
end

