-- ==== Sys2Proof/Laws/PerInstr.lean ====
section
/-! SUPPORT. Per-instruction families: one lemma for every constructor of `Instr`. -/

namespace Sys2Proof.Laws

/-- An instruction has one written form at most: the word of a slot (R18) or the datagram of a host command (R424). -/
def OneForm.Statement (i : Instr) : Prop := encodeSlot i = none ∨ opOf i = none

theorem OneForm.issueCycle : ∀ core, OneForm.Statement (.issueCycle core) := fun _ => .inl rfl
theorem OneForm.lineFetchComplete : ∀ core flip, OneForm.Statement (.lineFetchComplete core flip) := fun _ _ => .inl rfl
theorem OneForm.fixedResultLanding : ∀ core, OneForm.Statement (.fixedResultLanding core) := fun _ => .inl rfl
theorem OneForm.deferredResultLanding : ∀ core id, OneForm.Statement (.deferredResultLanding core id) := fun _ _ => .inl rfl
theorem OneForm.handlerEntry : ∀ core warp lane, OneForm.Statement (.handlerEntry core warp lane) := fun _ _ _ => .inl rfl
theorem OneForm.threadEnd : ∀ core warp lane, OneForm.Statement (.threadEnd core warp lane) := fun _ _ _ => .inl rfl
theorem OneForm.blockEnd : ∀ core slot, OneForm.Statement (.blockEnd core slot) := fun _ _ => .inl rfl
theorem OneForm.weirDeferredIncrement : ∀ core k, OneForm.Statement (.weirDeferredIncrement core k) := fun _ _ => .inl rfl
theorem OneForm.clusterWritePerform : ∀ id, OneForm.Statement (.clusterWritePerform id) := fun _ => .inl rfl
theorem OneForm.remoteAccessServe : ∀ id, OneForm.Statement (.remoteAccessServe id) := fun _ => .inl rfl
theorem OneForm.homeSliceAccess : ∀ id, OneForm.Statement (.homeSliceAccess id) := fun _ => .inl rfl
theorem OneForm.matrixOpStart : ∀ core, OneForm.Statement (.matrixOpStart core) := fun _ => .inl rfl
theorem OneForm.matrixOpComplete : ∀ core, OneForm.Statement (.matrixOpComplete core) := fun _ => .inl rfl
theorem OneForm.mopfStaged : ∀ core warp, OneForm.Statement (.mopfStaged core warp) := fun _ _ => .inl rfl
theorem OneForm.jigSweepChunk : ∀ core warp, OneForm.Statement (.jigSweepChunk core warp) := fun _ _ => .inl rfl
theorem OneForm.sluiceRequestStart : ∀ core, OneForm.Statement (.sluiceRequestStart core) := fun _ => .inl rfl
theorem OneForm.sluiceChunkLanded : ∀ core handle chunk, OneForm.Statement (.sluiceChunkLanded core handle chunk) := fun _ _ _ => .inl rfl
theorem OneForm.fabricPacketArrival : ∀ p, OneForm.Statement (.fabricPacketArrival p) := fun _ => .inl rfl
theorem OneForm.fabricCompletionArrival : ∀ p, OneForm.Statement (.fabricCompletionArrival p) := fun _ => .inl rfl
theorem OneForm.fwaitTimeout : ∀ core wait, OneForm.Statement (.fwaitTimeout core wait) := fun _ _ => .inl rfl
theorem OneForm.flitCrcReplay : ∀ check, OneForm.Statement (.flitCrcReplay check) := fun _ => .inl rfl
theorem OneForm.laneFailureRetrain : ∀ link lane, OneForm.Statement (.laneFailureRetrain link lane) := fun _ _ => .inl rfl
theorem OneForm.linkTraining : ∀ link o, OneForm.Statement (.linkTraining link o) := fun _ _ => .inl rfl
theorem OneForm.vcStopGo : ∀ link mask, OneForm.Statement (.vcStopGo link mask) := fun _ _ => .inl rfl
theorem OneForm.backwaterFlit : ∀ flit, OneForm.Statement (.backwaterFlit flit) := fun _ => .inl rfl
theorem OneForm.backwaterLapse : ∀ peer, OneForm.Statement (.backwaterLapse peer) := fun _ => .inl rfl
theorem OneForm.bargeArrival : ∀ b, OneForm.Statement (.bargeArrival b) := fun _ => .inl rfl
theorem OneForm.canalFrameApply : ∀ f, OneForm.Statement (.canalFrameApply f) := fun _ => .inl rfl
theorem OneForm.canalReleaseEligible : ∀ k, OneForm.Statement (.canalReleaseEligible k) := fun _ => .inl rfl
theorem OneForm.canalWaitTimeout : ∀ core wait, OneForm.Statement (.canalWaitTimeout core wait) := fun _ _ => .inl rfl
theorem OneForm.leatStep : ∀ die, OneForm.Statement (.leatStep die) := fun _ => .inl rfl
theorem OneForm.leatMessageArrival : ∀ p, OneForm.Statement (.leatMessageArrival p) := fun _ => .inl rfl
theorem OneForm.leatGoNotice : ∀ p, OneForm.Statement (.leatGoNotice p) := fun _ => .inl rfl
theorem OneForm.leatWaitTimeout : ∀ core wait, OneForm.Statement (.leatWaitTimeout core wait) := fun _ _ => .inl rfl
theorem OneForm.taskWaveForm : ∀ core, OneForm.Statement (.taskWaveForm core) := fun _ => .inl rfl
theorem OneForm.cisternRefill : ∀ core, OneForm.Statement (.cisternRefill core) := fun _ => .inl rfl
theorem OneForm.veneerFold : ∀ id, OneForm.Statement (.veneerFold id) := fun _ => .inl rfl
theorem OneForm.gridsyncStart : ∀ handle ok, OneForm.Statement (.gridsyncStart handle ok) := fun _ _ => .inl rfl
theorem OneForm.launchRetire : ∀ handle, OneForm.Statement (.launchRetire handle) := fun _ => .inl rfl
theorem OneForm.warpEvict : ∀ core, OneForm.Statement (.warpEvict core) := fun _ => .inl rfl
theorem OneForm.warpRestore : ∀ core warp, OneForm.Statement (.warpRestore core warp) := fun _ _ => .inl rfl
theorem OneForm.watchdogExpiry : ∀ core wait, OneForm.Statement (.watchdogExpiry core wait) := fun _ _ => .inl rfl
theorem OneForm.savePoint : ∀ asid, OneForm.Statement (.savePoint asid) := fun _ => .inl rfl
theorem OneForm.saveComplete : ∀ asid, OneForm.Statement (.saveComplete asid) := fun _ => .inl rfl
theorem OneForm.restoreStart : ∀ asid, OneForm.Statement (.restoreStart asid) := fun _ => .inl rfl
theorem OneForm.shardDeadlineExpiry : ∀ shard, OneForm.Statement (.shardDeadlineExpiry shard) := fun _ => .inl rfl
theorem OneForm.sessionIdleTimeout : ∀ session, OneForm.Statement (.sessionIdleTimeout session) := fun _ => .inl rfl
theorem OneForm.roceWrite : ∀ asid va bytes, OneForm.Statement (.roceWrite asid va bytes) := fun _ _ _ => .inl rfl
theorem OneForm.roceRead : ∀ asid va len, OneForm.Statement (.roceRead asid va len) := fun _ _ _ => .inl rfl
theorem OneForm.thermalThrottle : ∀ hot, OneForm.Statement (.thermalThrottle hot) := fun _ => .inl rfl
theorem OneForm.boardMgmtRequest : ∀ r, OneForm.Statement (.boardMgmtRequest r) := fun _ => .inl rfl
theorem OneForm.sessionOpen : ∀ c, OneForm.Statement (.sessionOpen c) := fun _ => .inl rfl
theorem OneForm.sessionClose : ∀ c, OneForm.Statement (.sessionClose c) := fun _ => .inl rfl
theorem OneForm.sessionProof : ∀ c, OneForm.Statement (.sessionProof c) := fun _ => .inl rfl
theorem OneForm.postLaunch : ∀ c, OneForm.Statement (.postLaunch c) := fun _ => .inl rfl
theorem OneForm.readRecordStatus : ∀ c, OneForm.Statement (.readRecordStatus c) := fun _ => .inl rfl
theorem OneForm.resumeBrkThread : ∀ c, OneForm.Statement (.resumeBrkThread c) := fun _ => .inl rfl
theorem OneForm.gridContextLoad : ∀ c, OneForm.Statement (.gridContextLoad c) := fun _ => .inl rfl
theorem OneForm.gridContextCommit : ∀ c, OneForm.Statement (.gridContextCommit c) := fun _ => .inl rfl
theorem OneForm.canalGroupConfigure : ∀ c, OneForm.Statement (.canalGroupConfigure c) := fun _ => .inl rfl
theorem OneForm.asidConfigure : ∀ c, OneForm.Statement (.asidConfigure c) := fun _ => .inl rfl
theorem OneForm.savePoolConfigure : ∀ c, OneForm.Statement (.savePoolConfigure c) := fun _ => .inl rfl
theorem OneForm.tenantGrant : ∀ c, OneForm.Statement (.tenantGrant c) := fun _ => .inl rfl
theorem OneForm.bindingLoad : ∀ c, OneForm.Statement (.bindingLoad c) := fun _ => .inl rfl
theorem OneForm.shardLoad : ∀ c, OneForm.Statement (.shardLoad c) := fun _ => .inl rfl
theorem OneForm.switchPrepare : ∀ c, OneForm.Statement (.switchPrepare c) := fun _ => .inl rfl
theorem OneForm.switchRequest : ∀ c, OneForm.Statement (.switchRequest c) := fun _ => .inl rfl
theorem OneForm.readShardReady : ∀ c, OneForm.Statement (.readShardReady c) := fun _ => .inl rfl
theorem OneForm.save : ∀ c, OneForm.Statement (.save c) := fun _ => .inl rfl
theorem OneForm.restore : ∀ c, OneForm.Statement (.restore c) := fun _ => .inl rfl
theorem OneForm.reset : ∀ c, OneForm.Statement (.reset c) := fun _ => .inl rfl
theorem OneForm.inval : ∀ c, OneForm.Statement (.inval c) := fun _ => .inl rfl
theorem OneForm.ringOpen : ∀ c, OneForm.Statement (.ringOpen c) := fun _ => .inl rfl
theorem OneForm.ringClose : ∀ c, OneForm.Statement (.ringClose c) := fun _ => .inl rfl
theorem OneForm.ringHeadUpdate : ∀ c, OneForm.Statement (.ringHeadUpdate c) := fun _ => .inl rfl
theorem OneForm.attestationRequest : ∀ c, OneForm.Statement (.attestationRequest c) := fun _ => .inl rfl
theorem OneForm.firmwareUpdate : ∀ c, OneForm.Statement (.firmwareUpdate c) := fun _ => .inl rfl
theorem OneForm.readCounters : ∀ c, OneForm.Statement (.readCounters c) := fun _ => .inl rfl
theorem OneForm.sadd : ∀ h f, OneForm.Statement (.sadd h f) := fun _ _ => .inr rfl
theorem OneForm.ssub : ∀ h f, OneForm.Statement (.ssub h f) := fun _ _ => .inr rfl
theorem OneForm.smul : ∀ h f, OneForm.Statement (.smul h f) := fun _ _ => .inr rfl
theorem OneForm.smulh : ∀ h f, OneForm.Statement (.smulh h f) := fun _ _ => .inr rfl
theorem OneForm.sdiv : ∀ h f, OneForm.Statement (.sdiv h f) := fun _ _ => .inr rfl
theorem OneForm.srem : ∀ h f, OneForm.Statement (.srem h f) := fun _ _ => .inr rfl
theorem OneForm.sand : ∀ h f, OneForm.Statement (.sand h f) := fun _ _ => .inr rfl
theorem OneForm.sor : ∀ h f, OneForm.Statement (.sor h f) := fun _ _ => .inr rfl
theorem OneForm.sxor : ∀ h f, OneForm.Statement (.sxor h f) := fun _ _ => .inr rfl
theorem OneForm.sshl : ∀ h f, OneForm.Statement (.sshl h f) := fun _ _ => .inr rfl
theorem OneForm.sshr : ∀ h f, OneForm.Statement (.sshr h f) := fun _ _ => .inr rfl
theorem OneForm.ssra : ∀ h f, OneForm.Statement (.ssra h f) := fun _ _ => .inr rfl
theorem OneForm.smin : ∀ h f, OneForm.Statement (.smin h f) := fun _ _ => .inr rfl
theorem OneForm.smax : ∀ h f, OneForm.Statement (.smax h f) := fun _ _ => .inr rfl
theorem OneForm.sli : ∀ h f, OneForm.Statement (.sli h f) := fun _ _ => .inr rfl
theorem OneForm.slih : ∀ h f, OneForm.Statement (.slih h f) := fun _ _ => .inr rfl
theorem OneForm.smov : ∀ h f, OneForm.Statement (.smov h f) := fun _ _ => .inr rfl
theorem OneForm.scmp : ∀ h f, OneForm.Statement (.scmp h f) := fun _ _ => .inr rfl
theorem OneForm.ssel : ∀ h f, OneForm.Statement (.ssel h f) := fun _ _ => .inr rfl
theorem OneForm.sld : ∀ h f, OneForm.Statement (.sld h f) := fun _ _ => .inr rfl
theorem OneForm.sst : ∀ h f, OneForm.Statement (.sst h f) := fun _ _ => .inr rfl
theorem OneForm.nop : ∀ h f, OneForm.Statement (.nop h f) := fun _ _ => .inr rfl
theorem OneForm.bra : ∀ h f, OneForm.Statement (.bra h f) := fun _ _ => .inr rfl
theorem OneForm.brc : ∀ h f, OneForm.Statement (.brc h f) := fun _ _ => .inr rfl
theorem OneForm.call : ∀ h f, OneForm.Statement (.call h f) := fun _ _ => .inr rfl
theorem OneForm.ret : ∀ h f, OneForm.Statement (.ret h f) := fun _ _ => .inr rfl
theorem OneForm.jmpi : ∀ h f, OneForm.Statement (.jmpi h f) := fun _ _ => .inr rfl
theorem OneForm.wsync : ∀ h f, OneForm.Statement (.wsync h f) := fun _ _ => .inr rfl
theorem OneForm.exit : ∀ h f, OneForm.Statement (.exit h f) := fun _ _ => .inr rfl
theorem OneForm.yield : ∀ h f, OneForm.Statement (.yield h f) := fun _ _ => .inr rfl
theorem OneForm.elect : ∀ h f, OneForm.Statement (.elect h f) := fun _ _ => .inr rfl
theorem OneForm.trap : ∀ h f, OneForm.Statement (.trap h f) := fun _ _ => .inr rfl
theorem OneForm.tret : ∀ h f, OneForm.Statement (.tret h f) := fun _ _ => .inr rfl
theorem OneForm.mfsr : ∀ h f, OneForm.Statement (.mfsr h f) := fun _ _ => .inr rfl
theorem OneForm.mtsr : ∀ h f, OneForm.Statement (.mtsr h f) := fun _ _ => .inr rfl
theorem OneForm.lnch : ∀ h f, OneForm.Statement (.lnch h f) := fun _ _ => .inr rfl
theorem OneForm.evnt : ∀ h f, OneForm.Statement (.evnt h f) := fun _ _ => .inr rfl
theorem OneForm.brk : ∀ h f, OneForm.Statement (.brk h f) := fun _ _ => .inr rfl
theorem OneForm.vadd : ∀ h f, OneForm.Statement (.vadd h f) := fun _ _ => .inr rfl
theorem OneForm.vsub : ∀ h f, OneForm.Statement (.vsub h f) := fun _ _ => .inr rfl
theorem OneForm.vmulLo : ∀ h f, OneForm.Statement (.vmulLo h f) := fun _ _ => .inr rfl
theorem OneForm.vmulHi : ∀ h f, OneForm.Statement (.vmulHi h f) := fun _ _ => .inr rfl
theorem OneForm.vmad : ∀ h f, OneForm.Statement (.vmad h f) := fun _ _ => .inr rfl
theorem OneForm.vand : ∀ h f, OneForm.Statement (.vand h f) := fun _ _ => .inr rfl
theorem OneForm.vor : ∀ h f, OneForm.Statement (.vor h f) := fun _ _ => .inr rfl
theorem OneForm.vxor : ∀ h f, OneForm.Statement (.vxor h f) := fun _ _ => .inr rfl
theorem OneForm.vnot : ∀ h f, OneForm.Statement (.vnot h f) := fun _ _ => .inr rfl
theorem OneForm.vshl : ∀ h f, OneForm.Statement (.vshl h f) := fun _ _ => .inr rfl
theorem OneForm.vshr : ∀ h f, OneForm.Statement (.vshr h f) := fun _ _ => .inr rfl
theorem OneForm.vsra : ∀ h f, OneForm.Statement (.vsra h f) := fun _ _ => .inr rfl
theorem OneForm.vmin : ∀ h f, OneForm.Statement (.vmin h f) := fun _ _ => .inr rfl
theorem OneForm.vmax : ∀ h f, OneForm.Statement (.vmax h f) := fun _ _ => .inr rfl
theorem OneForm.vabs : ∀ h f, OneForm.Statement (.vabs h f) := fun _ _ => .inr rfl
theorem OneForm.vneg : ∀ h f, OneForm.Statement (.vneg h f) := fun _ _ => .inr rfl
theorem OneForm.vpopc : ∀ h f, OneForm.Statement (.vpopc h f) := fun _ _ => .inr rfl
theorem OneForm.vclz : ∀ h f, OneForm.Statement (.vclz h f) := fun _ _ => .inr rfl
theorem OneForm.vbrev : ∀ h f, OneForm.Statement (.vbrev h f) := fun _ _ => .inr rfl
theorem OneForm.vbfe : ∀ h f, OneForm.Statement (.vbfe h f) := fun _ _ => .inr rfl
theorem OneForm.vbfi : ∀ h f, OneForm.Statement (.vbfi h f) := fun _ _ => .inr rfl
theorem OneForm.vsel : ∀ h f, OneForm.Statement (.vsel h f) := fun _ _ => .inr rfl
theorem OneForm.vmov : ∀ h f, OneForm.Statement (.vmov h f) := fun _ _ => .inr rfl
theorem OneForm.vli : ∀ h f, OneForm.Statement (.vli h f) := fun _ _ => .inr rfl
theorem OneForm.vcmp : ∀ h f, OneForm.Statement (.vcmp h f) := fun _ _ => .inr rfl
theorem OneForm.vfadd : ∀ h f, OneForm.Statement (.vfadd h f) := fun _ _ => .inr rfl
theorem OneForm.vfsub : ∀ h f, OneForm.Statement (.vfsub h f) := fun _ _ => .inr rfl
theorem OneForm.vfmul : ∀ h f, OneForm.Statement (.vfmul h f) := fun _ _ => .inr rfl
theorem OneForm.vffma : ∀ h f, OneForm.Statement (.vffma h f) := fun _ _ => .inr rfl
theorem OneForm.vfmin : ∀ h f, OneForm.Statement (.vfmin h f) := fun _ _ => .inr rfl
theorem OneForm.vfmax : ∀ h f, OneForm.Statement (.vfmax h f) := fun _ _ => .inr rfl
theorem OneForm.vfabs : ∀ h f, OneForm.Statement (.vfabs h f) := fun _ _ => .inr rfl
theorem OneForm.vfneg : ∀ h f, OneForm.Statement (.vfneg h f) := fun _ _ => .inr rfl
theorem OneForm.vfcmp : ∀ h f, OneForm.Statement (.vfcmp h f) := fun _ _ => .inr rfl
theorem OneForm.vdadd : ∀ h f, OneForm.Statement (.vdadd h f) := fun _ _ => .inr rfl
theorem OneForm.vdmul : ∀ h f, OneForm.Statement (.vdmul h f) := fun _ _ => .inr rfl
theorem OneForm.vdffma : ∀ h f, OneForm.Statement (.vdffma h f) := fun _ _ => .inr rfl
theorem OneForm.vcvt : ∀ h f, OneForm.Statement (.vcvt h f) := fun _ _ => .inr rfl
theorem OneForm.vpack : ∀ h f, OneForm.Statement (.vpack h f) := fun _ _ => .inr rfl
theorem OneForm.vunpk : ∀ h f, OneForm.Statement (.vunpk h f) := fun _ _ => .inr rfl
theorem OneForm.vhfmaBf16x2 : ∀ h f, OneForm.Statement (.vhfmaBf16x2 h f) := fun _ _ => .inr rfl
theorem OneForm.vhfmaF16x2 : ∀ h f, OneForm.Statement (.vhfmaF16x2 h f) := fun _ _ => .inr rfl
theorem OneForm.vrcp : ∀ h f, OneForm.Statement (.vrcp h f) := fun _ _ => .inr rfl
theorem OneForm.vrsq : ∀ h f, OneForm.Statement (.vrsq h f) := fun _ _ => .inr rfl
theorem OneForm.vsqrt : ∀ h f, OneForm.Statement (.vsqrt h f) := fun _ _ => .inr rfl
theorem OneForm.vdiv : ∀ h f, OneForm.Statement (.vdiv h f) := fun _ _ => .inr rfl
theorem OneForm.vexp2 : ∀ h f, OneForm.Statement (.vexp2 h f) := fun _ _ => .inr rfl
theorem OneForm.vlog2 : ∀ h f, OneForm.Statement (.vlog2 h f) := fun _ _ => .inr rfl
theorem OneForm.vsin : ∀ h f, OneForm.Statement (.vsin h f) := fun _ _ => .inr rfl
theorem OneForm.vcos : ∀ h f, OneForm.Statement (.vcos h f) := fun _ _ => .inr rfl
theorem OneForm.vshflIdx : ∀ h f, OneForm.Statement (.vshflIdx h f) := fun _ _ => .inr rfl
theorem OneForm.vshflUp : ∀ h f, OneForm.Statement (.vshflUp h f) := fun _ _ => .inr rfl
theorem OneForm.vshflDown : ∀ h f, OneForm.Statement (.vshflDown h f) := fun _ _ => .inr rfl
theorem OneForm.vshflXor : ∀ h f, OneForm.Statement (.vshflXor h f) := fun _ _ => .inr rfl
theorem OneForm.vbcast : ∀ h f, OneForm.Statement (.vbcast h f) := fun _ _ => .inr rfl
theorem OneForm.vred : ∀ h f, OneForm.Statement (.vred h f) := fun _ _ => .inr rfl
theorem OneForm.vscan : ∀ h f, OneForm.Statement (.vscan h f) := fun _ _ => .inr rfl
theorem OneForm.vballot : ∀ h f, OneForm.Statement (.vballot h f) := fun _ _ => .inr rfl
theorem OneForm.vany : ∀ h f, OneForm.Statement (.vany h f) := fun _ _ => .inr rfl
theorem OneForm.vall : ∀ h f, OneForm.Statement (.vall h f) := fun _ _ => .inr rfl
theorem OneForm.vld : ∀ h f, OneForm.Statement (.vld h f) := fun _ _ => .inr rfl
theorem OneForm.vst : ∀ h f, OneForm.Statement (.vst h f) := fun _ _ => .inr rfl
theorem OneForm.vstCw : ∀ h f, OneForm.Statement (.vstCw h f) := fun _ _ => .inr rfl
theorem OneForm.vldt : ∀ h f, OneForm.Statement (.vldt h f) := fun _ _ => .inr rfl
theorem OneForm.vldc : ∀ h f, OneForm.Statement (.vldc h f) := fun _ _ => .inr rfl
theorem OneForm.vatom : ∀ h f, OneForm.Statement (.vatom h f) := fun _ _ => .inr rfl
theorem OneForm.mma : ∀ h f, OneForm.Statement (.mma h f) := fun _ _ => .inr rfl
theorem OneForm.mopf : ∀ h f, OneForm.Statement (.mopf h f) := fun _ _ => .inr rfl
theorem OneForm.mwait : ∀ h f, OneForm.Statement (.mwait h f) := fun _ _ => .inr rfl
theorem OneForm.mzero : ∀ h f, OneForm.Statement (.mzero h f) := fun _ _ => .inr rfl
theorem OneForm.mrd : ∀ h f, OneForm.Statement (.mrd h f) := fun _ _ => .inr rfl
theorem OneForm.mwr : ∀ h f, OneForm.Statement (.mwr h f) := fun _ _ => .inr rfl
theorem OneForm.mld : ∀ h f, OneForm.Statement (.mld h f) := fun _ _ => .inr rfl
theorem OneForm.mst : ∀ h f, OneForm.Statement (.mst h f) := fun _ _ => .inr rfl
theorem OneForm.jigSet : ∀ h f, OneForm.Statement (.jigSet h f) := fun _ _ => .inr rfl
theorem OneForm.jigSetSv : ∀ h f, OneForm.Statement (.jigSetSv h f) := fun _ _ => .inr rfl
theorem OneForm.jigSetClr : ∀ h f, OneForm.Statement (.jigSetClr h f) := fun _ _ => .inr rfl
theorem OneForm.jop : ∀ h f, OneForm.Statement (.jop h f) := fun _ _ => .inr rfl
theorem OneForm.gcvtTo : ∀ h f, OneForm.Statement (.gcvtTo h f) := fun _ _ => .inr rfl
theorem OneForm.gcvtFrom : ∀ h f, OneForm.Statement (.gcvtFrom h f) := fun _ _ => .inr rfl
theorem OneForm.gpack : ∀ h f, OneForm.Statement (.gpack h f) := fun _ _ => .inr rfl
theorem OneForm.gunpk : ∀ h f, OneForm.Statement (.gunpk h f) := fun _ _ => .inr rfl
theorem OneForm.slA : ∀ h f, OneForm.Statement (.slA h f) := fun _ _ => .inr rfl
theorem OneForm.slB : ∀ h f, OneForm.Statement (.slB h f) := fun _ _ => .inr rfl
theorem OneForm.slC : ∀ h f, OneForm.Statement (.slC h f) := fun _ _ => .inr rfl
theorem OneForm.slD : ∀ h f, OneForm.Statement (.slD h f) := fun _ _ => .inr rfl
theorem OneForm.slGo : ∀ h f, OneForm.Statement (.slGo h f) := fun _ _ => .inr rfl
theorem OneForm.slArm : ∀ h f, OneForm.Statement (.slArm h f) := fun _ _ => .inr rfl
theorem OneForm.slSt : ∀ h f, OneForm.Statement (.slSt h f) := fun _ _ => .inr rfl
theorem OneForm.slKill : ∀ h f, OneForm.Statement (.slKill h f) := fun _ _ => .inr rfl
theorem OneForm.fst : ∀ h f, OneForm.Statement (.fst h f) := fun _ _ => .inr rfl
theorem OneForm.fld : ∀ h f, OneForm.Statement (.fld h f) := fun _ _ => .inr rfl
theorem OneForm.fatom : ∀ h f, OneForm.Statement (.fatom h f) := fun _ _ => .inr rfl
theorem OneForm.fred : ∀ h f, OneForm.Statement (.fred h f) := fun _ _ => .inr rfl
theorem OneForm.fcopy : ∀ h f, OneForm.Statement (.fcopy h f) := fun _ _ => .inr rfl
theorem OneForm.fwait : ∀ h f, OneForm.Statement (.fwait h f) := fun _ _ => .inr rfl
theorem OneForm.fcnt : ∀ h f, OneForm.Statement (.fcnt h f) := fun _ _ => .inr rfl
theorem OneForm.fcrd : ∀ h f, OneForm.Statement (.fcrd h f) := fun _ _ => .inr rfl
theorem OneForm.fcrdClr : ∀ h f, OneForm.Statement (.fcrdClr h f) := fun _ _ => .inr rfl
theorem OneForm.cnlPost : ∀ h f, OneForm.Statement (.cnlPost h f) := fun _ _ => .inr rfl
theorem OneForm.cnlWt : ∀ h f, OneForm.Statement (.cnlWt h f) := fun _ _ => .inr rfl
theorem OneForm.cnlRel : ∀ h f, OneForm.Statement (.cnlRel h f) := fun _ _ => .inr rfl
theorem OneForm.ltRun : ∀ h f, OneForm.Statement (.ltRun h f) := fun _ _ => .inr rfl
theorem OneForm.ltRunCn : ∀ h f, OneForm.Statement (.ltRunCn h f) := fun _ _ => .inr rfl
theorem OneForm.ltWt : ∀ h f, OneForm.Statement (.ltWt h f) := fun _ _ => .inr rfl
theorem OneForm.ltSt : ∀ h f, OneForm.Statement (.ltSt h f) := fun _ _ => .inr rfl
theorem OneForm.weirSet : ∀ h f, OneForm.Statement (.weirSet h f) := fun _ _ => .inr rfl
theorem OneForm.weirArv : ∀ h f, OneForm.Statement (.weirArv h f) := fun _ _ => .inr rfl
theorem OneForm.weirWt : ∀ h f, OneForm.Statement (.weirWt h f) := fun _ _ => .inr rfl
theorem OneForm.weirAw : ∀ h f, OneForm.Statement (.weirAw h f) := fun _ _ => .inr rfl
theorem OneForm.weirTst : ∀ h f, OneForm.Statement (.weirTst h f) := fun _ _ => .inr rfl
theorem OneForm.wfa : ∀ h f, OneForm.Statement (.wfa h f) := fun _ _ => .inr rfl
theorem OneForm.atom : ∀ h f, OneForm.Statement (.atom h f) := fun _ _ => .inr rfl
theorem OneForm.fence : ∀ h f, OneForm.Statement (.fence h f) := fun _ _ => .inr rfl
theorem OneForm.ldAcq : ∀ h f, OneForm.Statement (.ldAcq h f) := fun _ _ => .inr rfl
theorem OneForm.stRel : ∀ h f, OneForm.Statement (.stRel h f) := fun _ _ => .inr rfl
theorem OneForm.spn : ∀ h f, OneForm.Statement (.spn h f) := fun _ _ => .inr rfl
theorem OneForm.jwait : ∀ h f, OneForm.Statement (.jwait h f) := fun _ _ => .inr rfl
theorem OneForm.dove : ∀ h f, OneForm.Statement (.dove h f) := fun _ _ => .inr rfl
theorem OneForm.vnrUpd : ∀ h f, OneForm.Statement (.vnrUpd h f) := fun _ _ => .inr rfl
theorem OneForm.vnrGet : ∀ h f, OneForm.Statement (.vnrGet h f) := fun _ _ => .inr rfl
theorem OneForm.stlReq : ∀ h f, OneForm.Statement (.stlReq h f) := fun _ _ => .inr rfl
theorem OneForm.cutNext : ∀ h f, OneForm.Statement (.cutNext h f) := fun _ _ => .inr rfl
theorem OneForm.flmCfg : ∀ h f, OneForm.Statement (.flmCfg h f) := fun _ _ => .inr rfl
theorem OneForm.flmPush : ∀ h f, OneForm.Statement (.flmPush h f) := fun _ _ => .inr rfl
theorem OneForm.flmPop : ∀ h f, OneForm.Statement (.flmPop h f) := fun _ _ => .inr rfl
theorem OneForm.flmTry : ∀ h f, OneForm.Statement (.flmTry h f) := fun _ _ => .inr rfl
theorem OneForm.unknownCommand : ∀ op c, OneForm.Statement (.unknownCommand op c) := fun _ _ => .inl rfl
theorem OneForm.unusedTrafficDiscard : ∀ bytes, OneForm.Statement (.unusedTrafficDiscard bytes) := fun _ => .inl rfl
theorem OneForm.translationWalkComplete : OneForm.Statement .translationWalkComplete := .inl rfl
theorem OneForm.backwaterRepeat : OneForm.Statement .backwaterRepeat := .inl rfl
theorem OneForm.bargeRegenerate : OneForm.Statement .bargeRegenerate := .inl rfl
theorem OneForm.canalMemberLeave : OneForm.Statement .canalMemberLeave := .inl rfl
theorem OneForm.canalGroupForm : OneForm.Statement .canalGroupForm := .inl rfl
theorem OneForm.launchPost : OneForm.Statement .launchPost := .inl rfl
theorem OneForm.launchAdmission : OneForm.Statement .launchAdmission := .inl rfl
theorem OneForm.blockPlacement : OneForm.Statement .blockPlacement := .inl rfl
theorem OneForm.pondRelease : OneForm.Statement .pondRelease := .inl rfl
theorem OneForm.eventRingDrain : OneForm.Statement .eventRingDrain := .inl rfl
theorem OneForm.thermalTrip : OneForm.Statement .thermalTrip := .inl rfl
theorem OneForm.moduleReset : OneForm.Statement .moduleReset := .inl rfl
theorem OneForm.roceInvalidRequest : OneForm.Statement .roceInvalidRequest := .inl rfl

end Sys2Proof.Laws
end

