-- ==== Sys2Proof/Laws/State.lean ====
section
/-! SUPPORT. One lemma for each field of the module under each update of its parts (true by definition), and what a core,
warp, block, thread or launch reads as after an update of it or of another. -/

namespace Sys2Proof.Machine

/-! ### Fields of the module -/

@[simp] theorem Mod.setCore_agenda (m : Mod) (k : Core) : (m.setCore k).agenda = m.agenda := rfl
@[simp] theorem Mod.setCore_turn (m : Mod) (k : Core) : (m.setCore k).turn = m.turn := rfl
@[simp] theorem Mod.setCore_free (m : Mod) (k : Core) : (m.setCore k).free = m.free := rfl
@[simp] theorem Mod.setCore_next (m : Mod) (k : Core) : (m.setCore k).next = m.next := rfl
@[simp] theorem Mod.setCore_opened (m : Mod) (k : Core) : (m.setCore k).opened = m.opened := rfl
@[simp] theorem Mod.setCore_clock (m : Mod) (k : Core) : (m.setCore k).clock = m.clock := rfl
@[simp] theorem Mod.setCore_tick (m : Mod) (k : Core) : (m.setCore k).tick = m.tick := rfl
@[simp] theorem Mod.setCore_dram (m : Mod) (k : Core) : (m.setCore k).dram = m.dram := rfl
@[simp] theorem Mod.setCore_reqs (m : Mod) (k : Core) : (m.setCore k).reqs = m.reqs := rfl
@[simp] theorem Mod.setCore_kids (m : Mod) (k : Core) : (m.setCore k).kids = m.kids := rfl
@[simp] theorem Mod.setCore_walks (m : Mod) (k : Core) : (m.setCore k).walks = m.walks := rfl
@[simp] theorem Mod.setCore_tlb (m : Mod) (k : Core) : (m.setCore k).tlb = m.tlb := rfl
@[simp] theorem Mod.setCore_gen (m : Mod) (k : Core) : (m.setCore k).gen = m.gen := rfl
@[simp] theorem Mod.setCore_pond (m : Mod) (k : Core) : (m.setCore k).pond = m.pond := rfl
@[simp] theorem Mod.setCore_grids (m : Mod) (k : Core) : (m.setCore k).grids = m.grids := rfl
@[simp] theorem Mod.setCore_links (m : Mod) (k : Core) : (m.setCore k).links = m.links := rfl
@[simp] theorem Mod.setCore_portQ (m : Mod) (k : Core) : (m.setCore k).portQ = m.portQ := rfl
@[simp] theorem Mod.setCore_inQ (m : Mod) (k : Core) : (m.setCore k).inQ = m.inQ := rfl
@[simp] theorem Mod.setCore_outPkts (m : Mod) (k : Core) : (m.setCore k).outPkts = m.outPkts := rfl
@[simp] theorem Mod.setCore_flits (m : Mod) (k : Core) : (m.setCore k).flits = m.flits := rfl
@[simp] theorem Mod.setCore_flitAt (m : Mod) (k : Core) : (m.setCore k).flitAt = m.flitAt := rfl
@[simp] theorem Mod.setCore_fabOps (m : Mod) (k : Core) : (m.setCore k).fabOps = m.fabOps := rfl
@[simp] theorem Mod.setCore_freds (m : Mod) (k : Core) : (m.setCore k).freds = m.freds := rfl
@[simp] theorem Mod.setCore_marks (m : Mod) (k : Core) : (m.setCore k).marks = m.marks := rfl
@[simp] theorem Mod.setCore_canal (m : Mod) (k : Core) : (m.setCore k).canal = m.canal := rfl
@[simp] theorem Mod.setCore_leat (m : Mod) (k : Core) : (m.setCore k).leat = m.leat := rfl
@[simp] theorem Mod.setCore_posts (m : Mod) (k : Core) : (m.setCore k).posts = m.posts := rfl
@[simp] theorem Mod.setCore_queue (m : Mod) (k : Core) : (m.setCore k).queue = m.queue := rfl
@[simp] theorem Mod.setCore_launches (m : Mod) (k : Core) : (m.setCore k).launches = m.launches := rfl
@[simp] theorem Mod.setCore_handles (m : Mod) (k : Core) : (m.setCore k).handles = m.handles := rfl
@[simp] theorem Mod.setCore_savePool (m : Mod) (k : Core) : (m.setCore k).savePool = m.savePool := rfl
@[simp] theorem Mod.setCore_saveBase (m : Mod) (k : Core) : (m.setCore k).saveBase = m.saveBase := rfl
@[simp] theorem Mod.setCore_asids (m : Mod) (k : Core) : (m.setCore k).asids = m.asids := rfl
@[simp] theorem Mod.setCore_saved (m : Mod) (k : Core) : (m.setCore k).saved = m.saved := rfl
@[simp] theorem Mod.setCore_shards (m : Mod) (k : Core) : (m.setCore k).shards = m.shards := rfl
@[simp] theorem Mod.setCore_preps (m : Mod) (k : Core) : (m.setCore k).preps = m.preps := rfl
@[simp] theorem Mod.setCore_sessions (m : Mod) (k : Core) : (m.setCore k).sessions = m.sessions := rfl
@[simp] theorem Mod.setCore_sessionNum (m : Mod) (k : Core) : (m.setCore k).sessionNum = m.sessionNum := rfl
@[simp] theorem Mod.setCore_grants (m : Mod) (k : Core) : (m.setCore k).grants = m.grants := rfl
@[simp] theorem Mod.setCore_rings (m : Mod) (k : Core) : (m.setCore k).rings = m.rings := rfl
@[simp] theorem Mod.setCore_events (m : Mod) (k : Core) : (m.setCore k).events = m.events := rfl
@[simp] theorem Mod.setCore_eventSeq (m : Mod) (k : Core) : (m.setCore k).eventSeq = m.eventSeq := rfl
@[simp] theorem Mod.setCore_replies (m : Mod) (k : Core) : (m.setCore k).replies = m.replies := rfl
@[simp] theorem Mod.setCore_roceOut (m : Mod) (k : Core) : (m.setCore k).roceOut = m.roceOut := rfl
@[simp] theorem Mod.setCore_hostPort (m : Mod) (k : Core) : (m.setCore k).hostPort = m.hostPort := rfl
@[simp] theorem Mod.setCore_regions (m : Mod) (k : Core) : (m.setCore k).regions = m.regions := rfl
@[simp] theorem Mod.setCore_hostWrites (m : Mod) (k : Core) : (m.setCore k).hostWrites = m.hostWrites := rfl
@[simp] theorem Mod.setCore_boardOut (m : Mod) (k : Core) : (m.setCore k).boardOut = m.boardOut := rfl
@[simp] theorem Mod.setCore_counters (m : Mod) (k : Core) : (m.setCore k).counters = m.counters := rfl
@[simp] theorem Mod.setCore_security (m : Mod) (k : Core) : (m.setCore k).security = m.security := rfl
@[simp] theorem Mod.setCore_board (m : Mod) (k : Core) : (m.setCore k).board = m.board := rfl

@[simp] theorem Mod.onCore_agenda (m : Mod) (c : Nat) (f : Core → Core) : (m.onCore c f).agenda = m.agenda := rfl
@[simp] theorem Mod.onCore_turn (m : Mod) (c : Nat) (f : Core → Core) : (m.onCore c f).turn = m.turn := rfl
@[simp] theorem Mod.onCore_free (m : Mod) (c : Nat) (f : Core → Core) : (m.onCore c f).free = m.free := rfl
@[simp] theorem Mod.onCore_next (m : Mod) (c : Nat) (f : Core → Core) : (m.onCore c f).next = m.next := rfl
@[simp] theorem Mod.onCore_opened (m : Mod) (c : Nat) (f : Core → Core) : (m.onCore c f).opened = m.opened := rfl
@[simp] theorem Mod.onCore_clock (m : Mod) (c : Nat) (f : Core → Core) : (m.onCore c f).clock = m.clock := rfl
@[simp] theorem Mod.onCore_tick (m : Mod) (c : Nat) (f : Core → Core) : (m.onCore c f).tick = m.tick := rfl
@[simp] theorem Mod.onCore_dram (m : Mod) (c : Nat) (f : Core → Core) : (m.onCore c f).dram = m.dram := rfl
@[simp] theorem Mod.onCore_reqs (m : Mod) (c : Nat) (f : Core → Core) : (m.onCore c f).reqs = m.reqs := rfl
@[simp] theorem Mod.onCore_kids (m : Mod) (c : Nat) (f : Core → Core) : (m.onCore c f).kids = m.kids := rfl
@[simp] theorem Mod.onCore_walks (m : Mod) (c : Nat) (f : Core → Core) : (m.onCore c f).walks = m.walks := rfl
@[simp] theorem Mod.onCore_tlb (m : Mod) (c : Nat) (f : Core → Core) : (m.onCore c f).tlb = m.tlb := rfl
@[simp] theorem Mod.onCore_gen (m : Mod) (c : Nat) (f : Core → Core) : (m.onCore c f).gen = m.gen := rfl
@[simp] theorem Mod.onCore_pond (m : Mod) (c : Nat) (f : Core → Core) : (m.onCore c f).pond = m.pond := rfl
@[simp] theorem Mod.onCore_grids (m : Mod) (c : Nat) (f : Core → Core) : (m.onCore c f).grids = m.grids := rfl
@[simp] theorem Mod.onCore_links (m : Mod) (c : Nat) (f : Core → Core) : (m.onCore c f).links = m.links := rfl
@[simp] theorem Mod.onCore_portQ (m : Mod) (c : Nat) (f : Core → Core) : (m.onCore c f).portQ = m.portQ := rfl
@[simp] theorem Mod.onCore_inQ (m : Mod) (c : Nat) (f : Core → Core) : (m.onCore c f).inQ = m.inQ := rfl
@[simp] theorem Mod.onCore_outPkts (m : Mod) (c : Nat) (f : Core → Core) : (m.onCore c f).outPkts = m.outPkts := rfl
@[simp] theorem Mod.onCore_flits (m : Mod) (c : Nat) (f : Core → Core) : (m.onCore c f).flits = m.flits := rfl
@[simp] theorem Mod.onCore_flitAt (m : Mod) (c : Nat) (f : Core → Core) : (m.onCore c f).flitAt = m.flitAt := rfl
@[simp] theorem Mod.onCore_fabOps (m : Mod) (c : Nat) (f : Core → Core) : (m.onCore c f).fabOps = m.fabOps := rfl
@[simp] theorem Mod.onCore_freds (m : Mod) (c : Nat) (f : Core → Core) : (m.onCore c f).freds = m.freds := rfl
@[simp] theorem Mod.onCore_marks (m : Mod) (c : Nat) (f : Core → Core) : (m.onCore c f).marks = m.marks := rfl
@[simp] theorem Mod.onCore_canal (m : Mod) (c : Nat) (f : Core → Core) : (m.onCore c f).canal = m.canal := rfl
@[simp] theorem Mod.onCore_leat (m : Mod) (c : Nat) (f : Core → Core) : (m.onCore c f).leat = m.leat := rfl
@[simp] theorem Mod.onCore_posts (m : Mod) (c : Nat) (f : Core → Core) : (m.onCore c f).posts = m.posts := rfl
@[simp] theorem Mod.onCore_queue (m : Mod) (c : Nat) (f : Core → Core) : (m.onCore c f).queue = m.queue := rfl
@[simp] theorem Mod.onCore_launches (m : Mod) (c : Nat) (f : Core → Core) : (m.onCore c f).launches = m.launches := rfl
@[simp] theorem Mod.onCore_handles (m : Mod) (c : Nat) (f : Core → Core) : (m.onCore c f).handles = m.handles := rfl
@[simp] theorem Mod.onCore_savePool (m : Mod) (c : Nat) (f : Core → Core) : (m.onCore c f).savePool = m.savePool := rfl
@[simp] theorem Mod.onCore_saveBase (m : Mod) (c : Nat) (f : Core → Core) : (m.onCore c f).saveBase = m.saveBase := rfl
@[simp] theorem Mod.onCore_asids (m : Mod) (c : Nat) (f : Core → Core) : (m.onCore c f).asids = m.asids := rfl
@[simp] theorem Mod.onCore_saved (m : Mod) (c : Nat) (f : Core → Core) : (m.onCore c f).saved = m.saved := rfl
@[simp] theorem Mod.onCore_shards (m : Mod) (c : Nat) (f : Core → Core) : (m.onCore c f).shards = m.shards := rfl
@[simp] theorem Mod.onCore_preps (m : Mod) (c : Nat) (f : Core → Core) : (m.onCore c f).preps = m.preps := rfl
@[simp] theorem Mod.onCore_sessions (m : Mod) (c : Nat) (f : Core → Core) : (m.onCore c f).sessions = m.sessions := rfl
@[simp] theorem Mod.onCore_sessionNum (m : Mod) (c : Nat) (f : Core → Core) : (m.onCore c f).sessionNum = m.sessionNum := rfl
@[simp] theorem Mod.onCore_grants (m : Mod) (c : Nat) (f : Core → Core) : (m.onCore c f).grants = m.grants := rfl
@[simp] theorem Mod.onCore_rings (m : Mod) (c : Nat) (f : Core → Core) : (m.onCore c f).rings = m.rings := rfl
@[simp] theorem Mod.onCore_events (m : Mod) (c : Nat) (f : Core → Core) : (m.onCore c f).events = m.events := rfl
@[simp] theorem Mod.onCore_eventSeq (m : Mod) (c : Nat) (f : Core → Core) : (m.onCore c f).eventSeq = m.eventSeq := rfl
@[simp] theorem Mod.onCore_replies (m : Mod) (c : Nat) (f : Core → Core) : (m.onCore c f).replies = m.replies := rfl
@[simp] theorem Mod.onCore_roceOut (m : Mod) (c : Nat) (f : Core → Core) : (m.onCore c f).roceOut = m.roceOut := rfl
@[simp] theorem Mod.onCore_hostPort (m : Mod) (c : Nat) (f : Core → Core) : (m.onCore c f).hostPort = m.hostPort := rfl
@[simp] theorem Mod.onCore_regions (m : Mod) (c : Nat) (f : Core → Core) : (m.onCore c f).regions = m.regions := rfl
@[simp] theorem Mod.onCore_hostWrites (m : Mod) (c : Nat) (f : Core → Core) : (m.onCore c f).hostWrites = m.hostWrites := rfl
@[simp] theorem Mod.onCore_boardOut (m : Mod) (c : Nat) (f : Core → Core) : (m.onCore c f).boardOut = m.boardOut := rfl
@[simp] theorem Mod.onCore_counters (m : Mod) (c : Nat) (f : Core → Core) : (m.onCore c f).counters = m.counters := rfl
@[simp] theorem Mod.onCore_security (m : Mod) (c : Nat) (f : Core → Core) : (m.onCore c f).security = m.security := rfl
@[simp] theorem Mod.onCore_board (m : Mod) (c : Nat) (f : Core → Core) : (m.onCore c f).board = m.board := rfl

@[simp] theorem Mod.onWarp_agenda (m : Mod) (c w : Nat) (f : Warp → Warp) : (m.onWarp c w f).agenda = m.agenda := rfl
@[simp] theorem Mod.onWarp_turn (m : Mod) (c w : Nat) (f : Warp → Warp) : (m.onWarp c w f).turn = m.turn := rfl
@[simp] theorem Mod.onWarp_free (m : Mod) (c w : Nat) (f : Warp → Warp) : (m.onWarp c w f).free = m.free := rfl
@[simp] theorem Mod.onWarp_next (m : Mod) (c w : Nat) (f : Warp → Warp) : (m.onWarp c w f).next = m.next := rfl
@[simp] theorem Mod.onWarp_opened (m : Mod) (c w : Nat) (f : Warp → Warp) : (m.onWarp c w f).opened = m.opened := rfl
@[simp] theorem Mod.onWarp_clock (m : Mod) (c w : Nat) (f : Warp → Warp) : (m.onWarp c w f).clock = m.clock := rfl
@[simp] theorem Mod.onWarp_tick (m : Mod) (c w : Nat) (f : Warp → Warp) : (m.onWarp c w f).tick = m.tick := rfl
@[simp] theorem Mod.onWarp_dram (m : Mod) (c w : Nat) (f : Warp → Warp) : (m.onWarp c w f).dram = m.dram := rfl
@[simp] theorem Mod.onWarp_reqs (m : Mod) (c w : Nat) (f : Warp → Warp) : (m.onWarp c w f).reqs = m.reqs := rfl
@[simp] theorem Mod.onWarp_kids (m : Mod) (c w : Nat) (f : Warp → Warp) : (m.onWarp c w f).kids = m.kids := rfl
@[simp] theorem Mod.onWarp_walks (m : Mod) (c w : Nat) (f : Warp → Warp) : (m.onWarp c w f).walks = m.walks := rfl
@[simp] theorem Mod.onWarp_tlb (m : Mod) (c w : Nat) (f : Warp → Warp) : (m.onWarp c w f).tlb = m.tlb := rfl
@[simp] theorem Mod.onWarp_gen (m : Mod) (c w : Nat) (f : Warp → Warp) : (m.onWarp c w f).gen = m.gen := rfl
@[simp] theorem Mod.onWarp_pond (m : Mod) (c w : Nat) (f : Warp → Warp) : (m.onWarp c w f).pond = m.pond := rfl
@[simp] theorem Mod.onWarp_grids (m : Mod) (c w : Nat) (f : Warp → Warp) : (m.onWarp c w f).grids = m.grids := rfl
@[simp] theorem Mod.onWarp_links (m : Mod) (c w : Nat) (f : Warp → Warp) : (m.onWarp c w f).links = m.links := rfl
@[simp] theorem Mod.onWarp_portQ (m : Mod) (c w : Nat) (f : Warp → Warp) : (m.onWarp c w f).portQ = m.portQ := rfl
@[simp] theorem Mod.onWarp_inQ (m : Mod) (c w : Nat) (f : Warp → Warp) : (m.onWarp c w f).inQ = m.inQ := rfl
@[simp] theorem Mod.onWarp_outPkts (m : Mod) (c w : Nat) (f : Warp → Warp) : (m.onWarp c w f).outPkts = m.outPkts := rfl
@[simp] theorem Mod.onWarp_flits (m : Mod) (c w : Nat) (f : Warp → Warp) : (m.onWarp c w f).flits = m.flits := rfl
@[simp] theorem Mod.onWarp_flitAt (m : Mod) (c w : Nat) (f : Warp → Warp) : (m.onWarp c w f).flitAt = m.flitAt := rfl
@[simp] theorem Mod.onWarp_fabOps (m : Mod) (c w : Nat) (f : Warp → Warp) : (m.onWarp c w f).fabOps = m.fabOps := rfl
@[simp] theorem Mod.onWarp_freds (m : Mod) (c w : Nat) (f : Warp → Warp) : (m.onWarp c w f).freds = m.freds := rfl
@[simp] theorem Mod.onWarp_marks (m : Mod) (c w : Nat) (f : Warp → Warp) : (m.onWarp c w f).marks = m.marks := rfl
@[simp] theorem Mod.onWarp_canal (m : Mod) (c w : Nat) (f : Warp → Warp) : (m.onWarp c w f).canal = m.canal := rfl
@[simp] theorem Mod.onWarp_leat (m : Mod) (c w : Nat) (f : Warp → Warp) : (m.onWarp c w f).leat = m.leat := rfl
@[simp] theorem Mod.onWarp_posts (m : Mod) (c w : Nat) (f : Warp → Warp) : (m.onWarp c w f).posts = m.posts := rfl
@[simp] theorem Mod.onWarp_queue (m : Mod) (c w : Nat) (f : Warp → Warp) : (m.onWarp c w f).queue = m.queue := rfl
@[simp] theorem Mod.onWarp_launches (m : Mod) (c w : Nat) (f : Warp → Warp) : (m.onWarp c w f).launches = m.launches := rfl
@[simp] theorem Mod.onWarp_handles (m : Mod) (c w : Nat) (f : Warp → Warp) : (m.onWarp c w f).handles = m.handles := rfl
@[simp] theorem Mod.onWarp_savePool (m : Mod) (c w : Nat) (f : Warp → Warp) : (m.onWarp c w f).savePool = m.savePool := rfl
@[simp] theorem Mod.onWarp_saveBase (m : Mod) (c w : Nat) (f : Warp → Warp) : (m.onWarp c w f).saveBase = m.saveBase := rfl
@[simp] theorem Mod.onWarp_asids (m : Mod) (c w : Nat) (f : Warp → Warp) : (m.onWarp c w f).asids = m.asids := rfl
@[simp] theorem Mod.onWarp_saved (m : Mod) (c w : Nat) (f : Warp → Warp) : (m.onWarp c w f).saved = m.saved := rfl
@[simp] theorem Mod.onWarp_shards (m : Mod) (c w : Nat) (f : Warp → Warp) : (m.onWarp c w f).shards = m.shards := rfl
@[simp] theorem Mod.onWarp_preps (m : Mod) (c w : Nat) (f : Warp → Warp) : (m.onWarp c w f).preps = m.preps := rfl
@[simp] theorem Mod.onWarp_sessions (m : Mod) (c w : Nat) (f : Warp → Warp) : (m.onWarp c w f).sessions = m.sessions := rfl
@[simp] theorem Mod.onWarp_sessionNum (m : Mod) (c w : Nat) (f : Warp → Warp) : (m.onWarp c w f).sessionNum = m.sessionNum := rfl
@[simp] theorem Mod.onWarp_grants (m : Mod) (c w : Nat) (f : Warp → Warp) : (m.onWarp c w f).grants = m.grants := rfl
@[simp] theorem Mod.onWarp_rings (m : Mod) (c w : Nat) (f : Warp → Warp) : (m.onWarp c w f).rings = m.rings := rfl
@[simp] theorem Mod.onWarp_events (m : Mod) (c w : Nat) (f : Warp → Warp) : (m.onWarp c w f).events = m.events := rfl
@[simp] theorem Mod.onWarp_eventSeq (m : Mod) (c w : Nat) (f : Warp → Warp) : (m.onWarp c w f).eventSeq = m.eventSeq := rfl
@[simp] theorem Mod.onWarp_replies (m : Mod) (c w : Nat) (f : Warp → Warp) : (m.onWarp c w f).replies = m.replies := rfl
@[simp] theorem Mod.onWarp_roceOut (m : Mod) (c w : Nat) (f : Warp → Warp) : (m.onWarp c w f).roceOut = m.roceOut := rfl
@[simp] theorem Mod.onWarp_hostPort (m : Mod) (c w : Nat) (f : Warp → Warp) : (m.onWarp c w f).hostPort = m.hostPort := rfl
@[simp] theorem Mod.onWarp_regions (m : Mod) (c w : Nat) (f : Warp → Warp) : (m.onWarp c w f).regions = m.regions := rfl
@[simp] theorem Mod.onWarp_hostWrites (m : Mod) (c w : Nat) (f : Warp → Warp) : (m.onWarp c w f).hostWrites = m.hostWrites := rfl
@[simp] theorem Mod.onWarp_boardOut (m : Mod) (c w : Nat) (f : Warp → Warp) : (m.onWarp c w f).boardOut = m.boardOut := rfl
@[simp] theorem Mod.onWarp_counters (m : Mod) (c w : Nat) (f : Warp → Warp) : (m.onWarp c w f).counters = m.counters := rfl
@[simp] theorem Mod.onWarp_security (m : Mod) (c w : Nat) (f : Warp → Warp) : (m.onWarp c w f).security = m.security := rfl
@[simp] theorem Mod.onWarp_board (m : Mod) (c w : Nat) (f : Warp → Warp) : (m.onWarp c w f).board = m.board := rfl

@[simp] theorem Mod.onBlock_agenda (m : Mod) (c b : Nat) (f : Block → Block) : (m.onBlock c b f).agenda = m.agenda := rfl
@[simp] theorem Mod.onBlock_turn (m : Mod) (c b : Nat) (f : Block → Block) : (m.onBlock c b f).turn = m.turn := rfl
@[simp] theorem Mod.onBlock_free (m : Mod) (c b : Nat) (f : Block → Block) : (m.onBlock c b f).free = m.free := rfl
@[simp] theorem Mod.onBlock_next (m : Mod) (c b : Nat) (f : Block → Block) : (m.onBlock c b f).next = m.next := rfl
@[simp] theorem Mod.onBlock_opened (m : Mod) (c b : Nat) (f : Block → Block) : (m.onBlock c b f).opened = m.opened := rfl
@[simp] theorem Mod.onBlock_clock (m : Mod) (c b : Nat) (f : Block → Block) : (m.onBlock c b f).clock = m.clock := rfl
@[simp] theorem Mod.onBlock_tick (m : Mod) (c b : Nat) (f : Block → Block) : (m.onBlock c b f).tick = m.tick := rfl
@[simp] theorem Mod.onBlock_dram (m : Mod) (c b : Nat) (f : Block → Block) : (m.onBlock c b f).dram = m.dram := rfl
@[simp] theorem Mod.onBlock_reqs (m : Mod) (c b : Nat) (f : Block → Block) : (m.onBlock c b f).reqs = m.reqs := rfl
@[simp] theorem Mod.onBlock_kids (m : Mod) (c b : Nat) (f : Block → Block) : (m.onBlock c b f).kids = m.kids := rfl
@[simp] theorem Mod.onBlock_walks (m : Mod) (c b : Nat) (f : Block → Block) : (m.onBlock c b f).walks = m.walks := rfl
@[simp] theorem Mod.onBlock_tlb (m : Mod) (c b : Nat) (f : Block → Block) : (m.onBlock c b f).tlb = m.tlb := rfl
@[simp] theorem Mod.onBlock_gen (m : Mod) (c b : Nat) (f : Block → Block) : (m.onBlock c b f).gen = m.gen := rfl
@[simp] theorem Mod.onBlock_pond (m : Mod) (c b : Nat) (f : Block → Block) : (m.onBlock c b f).pond = m.pond := rfl
@[simp] theorem Mod.onBlock_grids (m : Mod) (c b : Nat) (f : Block → Block) : (m.onBlock c b f).grids = m.grids := rfl
@[simp] theorem Mod.onBlock_links (m : Mod) (c b : Nat) (f : Block → Block) : (m.onBlock c b f).links = m.links := rfl
@[simp] theorem Mod.onBlock_portQ (m : Mod) (c b : Nat) (f : Block → Block) : (m.onBlock c b f).portQ = m.portQ := rfl
@[simp] theorem Mod.onBlock_inQ (m : Mod) (c b : Nat) (f : Block → Block) : (m.onBlock c b f).inQ = m.inQ := rfl
@[simp] theorem Mod.onBlock_outPkts (m : Mod) (c b : Nat) (f : Block → Block) : (m.onBlock c b f).outPkts = m.outPkts := rfl
@[simp] theorem Mod.onBlock_flits (m : Mod) (c b : Nat) (f : Block → Block) : (m.onBlock c b f).flits = m.flits := rfl
@[simp] theorem Mod.onBlock_flitAt (m : Mod) (c b : Nat) (f : Block → Block) : (m.onBlock c b f).flitAt = m.flitAt := rfl
@[simp] theorem Mod.onBlock_fabOps (m : Mod) (c b : Nat) (f : Block → Block) : (m.onBlock c b f).fabOps = m.fabOps := rfl
@[simp] theorem Mod.onBlock_freds (m : Mod) (c b : Nat) (f : Block → Block) : (m.onBlock c b f).freds = m.freds := rfl
@[simp] theorem Mod.onBlock_marks (m : Mod) (c b : Nat) (f : Block → Block) : (m.onBlock c b f).marks = m.marks := rfl
@[simp] theorem Mod.onBlock_canal (m : Mod) (c b : Nat) (f : Block → Block) : (m.onBlock c b f).canal = m.canal := rfl
@[simp] theorem Mod.onBlock_leat (m : Mod) (c b : Nat) (f : Block → Block) : (m.onBlock c b f).leat = m.leat := rfl
@[simp] theorem Mod.onBlock_posts (m : Mod) (c b : Nat) (f : Block → Block) : (m.onBlock c b f).posts = m.posts := rfl
@[simp] theorem Mod.onBlock_queue (m : Mod) (c b : Nat) (f : Block → Block) : (m.onBlock c b f).queue = m.queue := rfl
@[simp] theorem Mod.onBlock_launches (m : Mod) (c b : Nat) (f : Block → Block) : (m.onBlock c b f).launches = m.launches := rfl
@[simp] theorem Mod.onBlock_handles (m : Mod) (c b : Nat) (f : Block → Block) : (m.onBlock c b f).handles = m.handles := rfl
@[simp] theorem Mod.onBlock_savePool (m : Mod) (c b : Nat) (f : Block → Block) : (m.onBlock c b f).savePool = m.savePool := rfl
@[simp] theorem Mod.onBlock_saveBase (m : Mod) (c b : Nat) (f : Block → Block) : (m.onBlock c b f).saveBase = m.saveBase := rfl
@[simp] theorem Mod.onBlock_asids (m : Mod) (c b : Nat) (f : Block → Block) : (m.onBlock c b f).asids = m.asids := rfl
@[simp] theorem Mod.onBlock_saved (m : Mod) (c b : Nat) (f : Block → Block) : (m.onBlock c b f).saved = m.saved := rfl
@[simp] theorem Mod.onBlock_shards (m : Mod) (c b : Nat) (f : Block → Block) : (m.onBlock c b f).shards = m.shards := rfl
@[simp] theorem Mod.onBlock_preps (m : Mod) (c b : Nat) (f : Block → Block) : (m.onBlock c b f).preps = m.preps := rfl
@[simp] theorem Mod.onBlock_sessions (m : Mod) (c b : Nat) (f : Block → Block) : (m.onBlock c b f).sessions = m.sessions := rfl
@[simp] theorem Mod.onBlock_sessionNum (m : Mod) (c b : Nat) (f : Block → Block) : (m.onBlock c b f).sessionNum = m.sessionNum := rfl
@[simp] theorem Mod.onBlock_grants (m : Mod) (c b : Nat) (f : Block → Block) : (m.onBlock c b f).grants = m.grants := rfl
@[simp] theorem Mod.onBlock_rings (m : Mod) (c b : Nat) (f : Block → Block) : (m.onBlock c b f).rings = m.rings := rfl
@[simp] theorem Mod.onBlock_events (m : Mod) (c b : Nat) (f : Block → Block) : (m.onBlock c b f).events = m.events := rfl
@[simp] theorem Mod.onBlock_eventSeq (m : Mod) (c b : Nat) (f : Block → Block) : (m.onBlock c b f).eventSeq = m.eventSeq := rfl
@[simp] theorem Mod.onBlock_replies (m : Mod) (c b : Nat) (f : Block → Block) : (m.onBlock c b f).replies = m.replies := rfl
@[simp] theorem Mod.onBlock_roceOut (m : Mod) (c b : Nat) (f : Block → Block) : (m.onBlock c b f).roceOut = m.roceOut := rfl
@[simp] theorem Mod.onBlock_hostPort (m : Mod) (c b : Nat) (f : Block → Block) : (m.onBlock c b f).hostPort = m.hostPort := rfl
@[simp] theorem Mod.onBlock_regions (m : Mod) (c b : Nat) (f : Block → Block) : (m.onBlock c b f).regions = m.regions := rfl
@[simp] theorem Mod.onBlock_hostWrites (m : Mod) (c b : Nat) (f : Block → Block) : (m.onBlock c b f).hostWrites = m.hostWrites := rfl
@[simp] theorem Mod.onBlock_boardOut (m : Mod) (c b : Nat) (f : Block → Block) : (m.onBlock c b f).boardOut = m.boardOut := rfl
@[simp] theorem Mod.onBlock_counters (m : Mod) (c b : Nat) (f : Block → Block) : (m.onBlock c b f).counters = m.counters := rfl
@[simp] theorem Mod.onBlock_security (m : Mod) (c b : Nat) (f : Block → Block) : (m.onBlock c b f).security = m.security := rfl
@[simp] theorem Mod.onBlock_board (m : Mod) (c b : Nat) (f : Block → Block) : (m.onBlock c b f).board = m.board := rfl

@[simp] theorem Mod.onThread_agenda (m : Mod) (c w l : Nat) (f : Thread → Thread) : (m.onThread c w l f).agenda = m.agenda := rfl
@[simp] theorem Mod.onThread_turn (m : Mod) (c w l : Nat) (f : Thread → Thread) : (m.onThread c w l f).turn = m.turn := rfl
@[simp] theorem Mod.onThread_free (m : Mod) (c w l : Nat) (f : Thread → Thread) : (m.onThread c w l f).free = m.free := rfl
@[simp] theorem Mod.onThread_next (m : Mod) (c w l : Nat) (f : Thread → Thread) : (m.onThread c w l f).next = m.next := rfl
@[simp] theorem Mod.onThread_opened (m : Mod) (c w l : Nat) (f : Thread → Thread) : (m.onThread c w l f).opened = m.opened := rfl
@[simp] theorem Mod.onThread_clock (m : Mod) (c w l : Nat) (f : Thread → Thread) : (m.onThread c w l f).clock = m.clock := rfl
@[simp] theorem Mod.onThread_tick (m : Mod) (c w l : Nat) (f : Thread → Thread) : (m.onThread c w l f).tick = m.tick := rfl
@[simp] theorem Mod.onThread_dram (m : Mod) (c w l : Nat) (f : Thread → Thread) : (m.onThread c w l f).dram = m.dram := rfl
@[simp] theorem Mod.onThread_reqs (m : Mod) (c w l : Nat) (f : Thread → Thread) : (m.onThread c w l f).reqs = m.reqs := rfl
@[simp] theorem Mod.onThread_kids (m : Mod) (c w l : Nat) (f : Thread → Thread) : (m.onThread c w l f).kids = m.kids := rfl
@[simp] theorem Mod.onThread_walks (m : Mod) (c w l : Nat) (f : Thread → Thread) : (m.onThread c w l f).walks = m.walks := rfl
@[simp] theorem Mod.onThread_tlb (m : Mod) (c w l : Nat) (f : Thread → Thread) : (m.onThread c w l f).tlb = m.tlb := rfl
@[simp] theorem Mod.onThread_gen (m : Mod) (c w l : Nat) (f : Thread → Thread) : (m.onThread c w l f).gen = m.gen := rfl
@[simp] theorem Mod.onThread_pond (m : Mod) (c w l : Nat) (f : Thread → Thread) : (m.onThread c w l f).pond = m.pond := rfl
@[simp] theorem Mod.onThread_grids (m : Mod) (c w l : Nat) (f : Thread → Thread) : (m.onThread c w l f).grids = m.grids := rfl
@[simp] theorem Mod.onThread_links (m : Mod) (c w l : Nat) (f : Thread → Thread) : (m.onThread c w l f).links = m.links := rfl
@[simp] theorem Mod.onThread_portQ (m : Mod) (c w l : Nat) (f : Thread → Thread) : (m.onThread c w l f).portQ = m.portQ := rfl
@[simp] theorem Mod.onThread_inQ (m : Mod) (c w l : Nat) (f : Thread → Thread) : (m.onThread c w l f).inQ = m.inQ := rfl
@[simp] theorem Mod.onThread_outPkts (m : Mod) (c w l : Nat) (f : Thread → Thread) : (m.onThread c w l f).outPkts = m.outPkts := rfl
@[simp] theorem Mod.onThread_flits (m : Mod) (c w l : Nat) (f : Thread → Thread) : (m.onThread c w l f).flits = m.flits := rfl
@[simp] theorem Mod.onThread_flitAt (m : Mod) (c w l : Nat) (f : Thread → Thread) : (m.onThread c w l f).flitAt = m.flitAt := rfl
@[simp] theorem Mod.onThread_fabOps (m : Mod) (c w l : Nat) (f : Thread → Thread) : (m.onThread c w l f).fabOps = m.fabOps := rfl
@[simp] theorem Mod.onThread_freds (m : Mod) (c w l : Nat) (f : Thread → Thread) : (m.onThread c w l f).freds = m.freds := rfl
@[simp] theorem Mod.onThread_marks (m : Mod) (c w l : Nat) (f : Thread → Thread) : (m.onThread c w l f).marks = m.marks := rfl
@[simp] theorem Mod.onThread_canal (m : Mod) (c w l : Nat) (f : Thread → Thread) : (m.onThread c w l f).canal = m.canal := rfl
@[simp] theorem Mod.onThread_leat (m : Mod) (c w l : Nat) (f : Thread → Thread) : (m.onThread c w l f).leat = m.leat := rfl
@[simp] theorem Mod.onThread_posts (m : Mod) (c w l : Nat) (f : Thread → Thread) : (m.onThread c w l f).posts = m.posts := rfl
@[simp] theorem Mod.onThread_queue (m : Mod) (c w l : Nat) (f : Thread → Thread) : (m.onThread c w l f).queue = m.queue := rfl
@[simp] theorem Mod.onThread_launches (m : Mod) (c w l : Nat) (f : Thread → Thread) : (m.onThread c w l f).launches = m.launches := rfl
@[simp] theorem Mod.onThread_handles (m : Mod) (c w l : Nat) (f : Thread → Thread) : (m.onThread c w l f).handles = m.handles := rfl
@[simp] theorem Mod.onThread_savePool (m : Mod) (c w l : Nat) (f : Thread → Thread) : (m.onThread c w l f).savePool = m.savePool := rfl
@[simp] theorem Mod.onThread_saveBase (m : Mod) (c w l : Nat) (f : Thread → Thread) : (m.onThread c w l f).saveBase = m.saveBase := rfl
@[simp] theorem Mod.onThread_asids (m : Mod) (c w l : Nat) (f : Thread → Thread) : (m.onThread c w l f).asids = m.asids := rfl
@[simp] theorem Mod.onThread_saved (m : Mod) (c w l : Nat) (f : Thread → Thread) : (m.onThread c w l f).saved = m.saved := rfl
@[simp] theorem Mod.onThread_shards (m : Mod) (c w l : Nat) (f : Thread → Thread) : (m.onThread c w l f).shards = m.shards := rfl
@[simp] theorem Mod.onThread_preps (m : Mod) (c w l : Nat) (f : Thread → Thread) : (m.onThread c w l f).preps = m.preps := rfl
@[simp] theorem Mod.onThread_sessions (m : Mod) (c w l : Nat) (f : Thread → Thread) : (m.onThread c w l f).sessions = m.sessions := rfl
@[simp] theorem Mod.onThread_sessionNum (m : Mod) (c w l : Nat) (f : Thread → Thread) : (m.onThread c w l f).sessionNum = m.sessionNum := rfl
@[simp] theorem Mod.onThread_grants (m : Mod) (c w l : Nat) (f : Thread → Thread) : (m.onThread c w l f).grants = m.grants := rfl
@[simp] theorem Mod.onThread_rings (m : Mod) (c w l : Nat) (f : Thread → Thread) : (m.onThread c w l f).rings = m.rings := rfl
@[simp] theorem Mod.onThread_events (m : Mod) (c w l : Nat) (f : Thread → Thread) : (m.onThread c w l f).events = m.events := rfl
@[simp] theorem Mod.onThread_eventSeq (m : Mod) (c w l : Nat) (f : Thread → Thread) : (m.onThread c w l f).eventSeq = m.eventSeq := rfl
@[simp] theorem Mod.onThread_replies (m : Mod) (c w l : Nat) (f : Thread → Thread) : (m.onThread c w l f).replies = m.replies := rfl
@[simp] theorem Mod.onThread_roceOut (m : Mod) (c w l : Nat) (f : Thread → Thread) : (m.onThread c w l f).roceOut = m.roceOut := rfl
@[simp] theorem Mod.onThread_hostPort (m : Mod) (c w l : Nat) (f : Thread → Thread) : (m.onThread c w l f).hostPort = m.hostPort := rfl
@[simp] theorem Mod.onThread_regions (m : Mod) (c w l : Nat) (f : Thread → Thread) : (m.onThread c w l f).regions = m.regions := rfl
@[simp] theorem Mod.onThread_hostWrites (m : Mod) (c w l : Nat) (f : Thread → Thread) : (m.onThread c w l f).hostWrites = m.hostWrites := rfl
@[simp] theorem Mod.onThread_boardOut (m : Mod) (c w l : Nat) (f : Thread → Thread) : (m.onThread c w l f).boardOut = m.boardOut := rfl
@[simp] theorem Mod.onThread_counters (m : Mod) (c w l : Nat) (f : Thread → Thread) : (m.onThread c w l f).counters = m.counters := rfl
@[simp] theorem Mod.onThread_security (m : Mod) (c w l : Nat) (f : Thread → Thread) : (m.onThread c w l f).security = m.security := rfl
@[simp] theorem Mod.onThread_board (m : Mod) (c w l : Nat) (f : Thread → Thread) : (m.onThread c w l f).board = m.board := rfl

@[simp] theorem Mod.onLaunch_agenda (m : Mod) (h : Nat) (f : Launch → Launch) : (m.onLaunch h f).agenda = m.agenda := rfl
@[simp] theorem Mod.onLaunch_turn (m : Mod) (h : Nat) (f : Launch → Launch) : (m.onLaunch h f).turn = m.turn := rfl
@[simp] theorem Mod.onLaunch_free (m : Mod) (h : Nat) (f : Launch → Launch) : (m.onLaunch h f).free = m.free := rfl
@[simp] theorem Mod.onLaunch_next (m : Mod) (h : Nat) (f : Launch → Launch) : (m.onLaunch h f).next = m.next := rfl
@[simp] theorem Mod.onLaunch_opened (m : Mod) (h : Nat) (f : Launch → Launch) : (m.onLaunch h f).opened = m.opened := rfl
@[simp] theorem Mod.onLaunch_clock (m : Mod) (h : Nat) (f : Launch → Launch) : (m.onLaunch h f).clock = m.clock := rfl
@[simp] theorem Mod.onLaunch_tick (m : Mod) (h : Nat) (f : Launch → Launch) : (m.onLaunch h f).tick = m.tick := rfl
@[simp] theorem Mod.onLaunch_cores (m : Mod) (h : Nat) (f : Launch → Launch) : (m.onLaunch h f).cores = m.cores := rfl
@[simp] theorem Mod.onLaunch_dram (m : Mod) (h : Nat) (f : Launch → Launch) : (m.onLaunch h f).dram = m.dram := rfl
@[simp] theorem Mod.onLaunch_reqs (m : Mod) (h : Nat) (f : Launch → Launch) : (m.onLaunch h f).reqs = m.reqs := rfl
@[simp] theorem Mod.onLaunch_kids (m : Mod) (h : Nat) (f : Launch → Launch) : (m.onLaunch h f).kids = m.kids := rfl
@[simp] theorem Mod.onLaunch_walks (m : Mod) (h : Nat) (f : Launch → Launch) : (m.onLaunch h f).walks = m.walks := rfl
@[simp] theorem Mod.onLaunch_tlb (m : Mod) (h : Nat) (f : Launch → Launch) : (m.onLaunch h f).tlb = m.tlb := rfl
@[simp] theorem Mod.onLaunch_gen (m : Mod) (h : Nat) (f : Launch → Launch) : (m.onLaunch h f).gen = m.gen := rfl
@[simp] theorem Mod.onLaunch_pond (m : Mod) (h : Nat) (f : Launch → Launch) : (m.onLaunch h f).pond = m.pond := rfl
@[simp] theorem Mod.onLaunch_grids (m : Mod) (h : Nat) (f : Launch → Launch) : (m.onLaunch h f).grids = m.grids := rfl
@[simp] theorem Mod.onLaunch_links (m : Mod) (h : Nat) (f : Launch → Launch) : (m.onLaunch h f).links = m.links := rfl
@[simp] theorem Mod.onLaunch_portQ (m : Mod) (h : Nat) (f : Launch → Launch) : (m.onLaunch h f).portQ = m.portQ := rfl
@[simp] theorem Mod.onLaunch_inQ (m : Mod) (h : Nat) (f : Launch → Launch) : (m.onLaunch h f).inQ = m.inQ := rfl
@[simp] theorem Mod.onLaunch_outPkts (m : Mod) (h : Nat) (f : Launch → Launch) : (m.onLaunch h f).outPkts = m.outPkts := rfl
@[simp] theorem Mod.onLaunch_flits (m : Mod) (h : Nat) (f : Launch → Launch) : (m.onLaunch h f).flits = m.flits := rfl
@[simp] theorem Mod.onLaunch_flitAt (m : Mod) (h : Nat) (f : Launch → Launch) : (m.onLaunch h f).flitAt = m.flitAt := rfl
@[simp] theorem Mod.onLaunch_fabOps (m : Mod) (h : Nat) (f : Launch → Launch) : (m.onLaunch h f).fabOps = m.fabOps := rfl
@[simp] theorem Mod.onLaunch_freds (m : Mod) (h : Nat) (f : Launch → Launch) : (m.onLaunch h f).freds = m.freds := rfl
@[simp] theorem Mod.onLaunch_marks (m : Mod) (h : Nat) (f : Launch → Launch) : (m.onLaunch h f).marks = m.marks := rfl
@[simp] theorem Mod.onLaunch_canal (m : Mod) (h : Nat) (f : Launch → Launch) : (m.onLaunch h f).canal = m.canal := rfl
@[simp] theorem Mod.onLaunch_leat (m : Mod) (h : Nat) (f : Launch → Launch) : (m.onLaunch h f).leat = m.leat := rfl
@[simp] theorem Mod.onLaunch_posts (m : Mod) (h : Nat) (f : Launch → Launch) : (m.onLaunch h f).posts = m.posts := rfl
@[simp] theorem Mod.onLaunch_queue (m : Mod) (h : Nat) (f : Launch → Launch) : (m.onLaunch h f).queue = m.queue := rfl
@[simp] theorem Mod.onLaunch_handles (m : Mod) (h : Nat) (f : Launch → Launch) : (m.onLaunch h f).handles = m.handles := rfl
@[simp] theorem Mod.onLaunch_savePool (m : Mod) (h : Nat) (f : Launch → Launch) : (m.onLaunch h f).savePool = m.savePool := rfl
@[simp] theorem Mod.onLaunch_saveBase (m : Mod) (h : Nat) (f : Launch → Launch) : (m.onLaunch h f).saveBase = m.saveBase := rfl
@[simp] theorem Mod.onLaunch_asids (m : Mod) (h : Nat) (f : Launch → Launch) : (m.onLaunch h f).asids = m.asids := rfl
@[simp] theorem Mod.onLaunch_saved (m : Mod) (h : Nat) (f : Launch → Launch) : (m.onLaunch h f).saved = m.saved := rfl
@[simp] theorem Mod.onLaunch_shards (m : Mod) (h : Nat) (f : Launch → Launch) : (m.onLaunch h f).shards = m.shards := rfl
@[simp] theorem Mod.onLaunch_preps (m : Mod) (h : Nat) (f : Launch → Launch) : (m.onLaunch h f).preps = m.preps := rfl
@[simp] theorem Mod.onLaunch_sessions (m : Mod) (h : Nat) (f : Launch → Launch) : (m.onLaunch h f).sessions = m.sessions := rfl
@[simp] theorem Mod.onLaunch_sessionNum (m : Mod) (h : Nat) (f : Launch → Launch) : (m.onLaunch h f).sessionNum = m.sessionNum := rfl
@[simp] theorem Mod.onLaunch_grants (m : Mod) (h : Nat) (f : Launch → Launch) : (m.onLaunch h f).grants = m.grants := rfl
@[simp] theorem Mod.onLaunch_rings (m : Mod) (h : Nat) (f : Launch → Launch) : (m.onLaunch h f).rings = m.rings := rfl
@[simp] theorem Mod.onLaunch_events (m : Mod) (h : Nat) (f : Launch → Launch) : (m.onLaunch h f).events = m.events := rfl
@[simp] theorem Mod.onLaunch_eventSeq (m : Mod) (h : Nat) (f : Launch → Launch) : (m.onLaunch h f).eventSeq = m.eventSeq := rfl
@[simp] theorem Mod.onLaunch_replies (m : Mod) (h : Nat) (f : Launch → Launch) : (m.onLaunch h f).replies = m.replies := rfl
@[simp] theorem Mod.onLaunch_roceOut (m : Mod) (h : Nat) (f : Launch → Launch) : (m.onLaunch h f).roceOut = m.roceOut := rfl
@[simp] theorem Mod.onLaunch_hostPort (m : Mod) (h : Nat) (f : Launch → Launch) : (m.onLaunch h f).hostPort = m.hostPort := rfl
@[simp] theorem Mod.onLaunch_regions (m : Mod) (h : Nat) (f : Launch → Launch) : (m.onLaunch h f).regions = m.regions := rfl
@[simp] theorem Mod.onLaunch_hostWrites (m : Mod) (h : Nat) (f : Launch → Launch) : (m.onLaunch h f).hostWrites = m.hostWrites := rfl
@[simp] theorem Mod.onLaunch_boardOut (m : Mod) (h : Nat) (f : Launch → Launch) : (m.onLaunch h f).boardOut = m.boardOut := rfl
@[simp] theorem Mod.onLaunch_counters (m : Mod) (h : Nat) (f : Launch → Launch) : (m.onLaunch h f).counters = m.counters := rfl
@[simp] theorem Mod.onLaunch_security (m : Mod) (h : Nat) (f : Launch → Launch) : (m.onLaunch h f).security = m.security := rfl
@[simp] theorem Mod.onLaunch_board (m : Mod) (h : Nat) (f : Launch → Launch) : (m.onLaunch h f).board = m.board := rfl

@[simp] theorem Mod.onAsid_agenda (m : Mod) (a : Nat) (f : Asid → Asid) : (m.onAsid a f).agenda = m.agenda := rfl
@[simp] theorem Mod.onAsid_turn (m : Mod) (a : Nat) (f : Asid → Asid) : (m.onAsid a f).turn = m.turn := rfl
@[simp] theorem Mod.onAsid_free (m : Mod) (a : Nat) (f : Asid → Asid) : (m.onAsid a f).free = m.free := rfl
@[simp] theorem Mod.onAsid_next (m : Mod) (a : Nat) (f : Asid → Asid) : (m.onAsid a f).next = m.next := rfl
@[simp] theorem Mod.onAsid_opened (m : Mod) (a : Nat) (f : Asid → Asid) : (m.onAsid a f).opened = m.opened := rfl
@[simp] theorem Mod.onAsid_clock (m : Mod) (a : Nat) (f : Asid → Asid) : (m.onAsid a f).clock = m.clock := rfl
@[simp] theorem Mod.onAsid_tick (m : Mod) (a : Nat) (f : Asid → Asid) : (m.onAsid a f).tick = m.tick := rfl
@[simp] theorem Mod.onAsid_cores (m : Mod) (a : Nat) (f : Asid → Asid) : (m.onAsid a f).cores = m.cores := rfl
@[simp] theorem Mod.onAsid_dram (m : Mod) (a : Nat) (f : Asid → Asid) : (m.onAsid a f).dram = m.dram := rfl
@[simp] theorem Mod.onAsid_reqs (m : Mod) (a : Nat) (f : Asid → Asid) : (m.onAsid a f).reqs = m.reqs := rfl
@[simp] theorem Mod.onAsid_kids (m : Mod) (a : Nat) (f : Asid → Asid) : (m.onAsid a f).kids = m.kids := rfl
@[simp] theorem Mod.onAsid_walks (m : Mod) (a : Nat) (f : Asid → Asid) : (m.onAsid a f).walks = m.walks := rfl
@[simp] theorem Mod.onAsid_tlb (m : Mod) (a : Nat) (f : Asid → Asid) : (m.onAsid a f).tlb = m.tlb := rfl
@[simp] theorem Mod.onAsid_gen (m : Mod) (a : Nat) (f : Asid → Asid) : (m.onAsid a f).gen = m.gen := rfl
@[simp] theorem Mod.onAsid_pond (m : Mod) (a : Nat) (f : Asid → Asid) : (m.onAsid a f).pond = m.pond := rfl
@[simp] theorem Mod.onAsid_grids (m : Mod) (a : Nat) (f : Asid → Asid) : (m.onAsid a f).grids = m.grids := rfl
@[simp] theorem Mod.onAsid_links (m : Mod) (a : Nat) (f : Asid → Asid) : (m.onAsid a f).links = m.links := rfl
@[simp] theorem Mod.onAsid_portQ (m : Mod) (a : Nat) (f : Asid → Asid) : (m.onAsid a f).portQ = m.portQ := rfl
@[simp] theorem Mod.onAsid_inQ (m : Mod) (a : Nat) (f : Asid → Asid) : (m.onAsid a f).inQ = m.inQ := rfl
@[simp] theorem Mod.onAsid_outPkts (m : Mod) (a : Nat) (f : Asid → Asid) : (m.onAsid a f).outPkts = m.outPkts := rfl
@[simp] theorem Mod.onAsid_flits (m : Mod) (a : Nat) (f : Asid → Asid) : (m.onAsid a f).flits = m.flits := rfl
@[simp] theorem Mod.onAsid_flitAt (m : Mod) (a : Nat) (f : Asid → Asid) : (m.onAsid a f).flitAt = m.flitAt := rfl
@[simp] theorem Mod.onAsid_fabOps (m : Mod) (a : Nat) (f : Asid → Asid) : (m.onAsid a f).fabOps = m.fabOps := rfl
@[simp] theorem Mod.onAsid_freds (m : Mod) (a : Nat) (f : Asid → Asid) : (m.onAsid a f).freds = m.freds := rfl
@[simp] theorem Mod.onAsid_marks (m : Mod) (a : Nat) (f : Asid → Asid) : (m.onAsid a f).marks = m.marks := rfl
@[simp] theorem Mod.onAsid_canal (m : Mod) (a : Nat) (f : Asid → Asid) : (m.onAsid a f).canal = m.canal := rfl
@[simp] theorem Mod.onAsid_leat (m : Mod) (a : Nat) (f : Asid → Asid) : (m.onAsid a f).leat = m.leat := rfl
@[simp] theorem Mod.onAsid_posts (m : Mod) (a : Nat) (f : Asid → Asid) : (m.onAsid a f).posts = m.posts := rfl
@[simp] theorem Mod.onAsid_queue (m : Mod) (a : Nat) (f : Asid → Asid) : (m.onAsid a f).queue = m.queue := rfl
@[simp] theorem Mod.onAsid_launches (m : Mod) (a : Nat) (f : Asid → Asid) : (m.onAsid a f).launches = m.launches := rfl
@[simp] theorem Mod.onAsid_handles (m : Mod) (a : Nat) (f : Asid → Asid) : (m.onAsid a f).handles = m.handles := rfl
@[simp] theorem Mod.onAsid_savePool (m : Mod) (a : Nat) (f : Asid → Asid) : (m.onAsid a f).savePool = m.savePool := rfl
@[simp] theorem Mod.onAsid_saveBase (m : Mod) (a : Nat) (f : Asid → Asid) : (m.onAsid a f).saveBase = m.saveBase := rfl
@[simp] theorem Mod.onAsid_saved (m : Mod) (a : Nat) (f : Asid → Asid) : (m.onAsid a f).saved = m.saved := rfl
@[simp] theorem Mod.onAsid_shards (m : Mod) (a : Nat) (f : Asid → Asid) : (m.onAsid a f).shards = m.shards := rfl
@[simp] theorem Mod.onAsid_preps (m : Mod) (a : Nat) (f : Asid → Asid) : (m.onAsid a f).preps = m.preps := rfl
@[simp] theorem Mod.onAsid_sessions (m : Mod) (a : Nat) (f : Asid → Asid) : (m.onAsid a f).sessions = m.sessions := rfl
@[simp] theorem Mod.onAsid_sessionNum (m : Mod) (a : Nat) (f : Asid → Asid) : (m.onAsid a f).sessionNum = m.sessionNum := rfl
@[simp] theorem Mod.onAsid_grants (m : Mod) (a : Nat) (f : Asid → Asid) : (m.onAsid a f).grants = m.grants := rfl
@[simp] theorem Mod.onAsid_rings (m : Mod) (a : Nat) (f : Asid → Asid) : (m.onAsid a f).rings = m.rings := rfl
@[simp] theorem Mod.onAsid_events (m : Mod) (a : Nat) (f : Asid → Asid) : (m.onAsid a f).events = m.events := rfl
@[simp] theorem Mod.onAsid_eventSeq (m : Mod) (a : Nat) (f : Asid → Asid) : (m.onAsid a f).eventSeq = m.eventSeq := rfl
@[simp] theorem Mod.onAsid_replies (m : Mod) (a : Nat) (f : Asid → Asid) : (m.onAsid a f).replies = m.replies := rfl
@[simp] theorem Mod.onAsid_roceOut (m : Mod) (a : Nat) (f : Asid → Asid) : (m.onAsid a f).roceOut = m.roceOut := rfl
@[simp] theorem Mod.onAsid_hostPort (m : Mod) (a : Nat) (f : Asid → Asid) : (m.onAsid a f).hostPort = m.hostPort := rfl
@[simp] theorem Mod.onAsid_regions (m : Mod) (a : Nat) (f : Asid → Asid) : (m.onAsid a f).regions = m.regions := rfl
@[simp] theorem Mod.onAsid_hostWrites (m : Mod) (a : Nat) (f : Asid → Asid) : (m.onAsid a f).hostWrites = m.hostWrites := rfl
@[simp] theorem Mod.onAsid_boardOut (m : Mod) (a : Nat) (f : Asid → Asid) : (m.onAsid a f).boardOut = m.boardOut := rfl
@[simp] theorem Mod.onAsid_counters (m : Mod) (a : Nat) (f : Asid → Asid) : (m.onAsid a f).counters = m.counters := rfl
@[simp] theorem Mod.onAsid_security (m : Mod) (a : Nat) (f : Asid → Asid) : (m.onAsid a f).security = m.security := rfl
@[simp] theorem Mod.onAsid_board (m : Mod) (a : Nat) (f : Asid → Asid) : (m.onAsid a f).board = m.board := rfl

/-! ### Fields of a core -/

@[simp] theorem Core.onWarp_num (k : Core) (w : Nat) (f : Warp → Warp) : (k.onWarp w f).num = k.num := rfl
@[simp] theorem Core.onWarp_partition (k : Core) (w : Nat) (f : Warp → Warp) : (k.onWarp w f).partition = k.partition := rfl
@[simp] theorem Core.onWarp_lslots (k : Core) (w : Nat) (f : Warp → Warp) : (k.onWarp w f).lslots = k.lslots := rfl
@[simp] theorem Core.onWarp_blocks (k : Core) (w : Nat) (f : Warp → Warp) : (k.onWarp w f).blocks = k.blocks := rfl
@[simp] theorem Core.onWarp_ended (k : Core) (w : Nat) (f : Warp → Warp) : (k.onWarp w f).ended = k.ended := rfl
@[simp] theorem Core.onWarp_sram (k : Core) (w : Nat) (f : Warp → Warp) : (k.onWarp w f).sram = k.sram := rfl
@[simp] theorem Core.onWarp_users (k : Core) (w : Nat) (f : Warp → Warp) : (k.onWarp w f).users = k.users := rfl
@[simp] theorem Core.onWarp_framed (k : Core) (w : Nat) (f : Warp → Warp) : (k.onWarp w f).framed = k.framed := rfl
@[simp] theorem Core.onWarp_int64s (k : Core) (w : Nat) (f : Warp → Warp) : (k.onWarp w f).int64s = k.int64s := rfl
@[simp] theorem Core.onWarp_flights (k : Core) (w : Nat) (f : Warp → Warp) : (k.onWarp w f).flights = k.flights := rfl
@[simp] theorem Core.onWarp_waits (k : Core) (w : Nat) (f : Warp → Warp) : (k.onWarp w f).waits = k.waits := rfl
@[simp] theorem Core.onWarp_mq (k : Core) (w : Nat) (f : Warp → Warp) : (k.onWarp w f).mq = k.mq := rfl
@[simp] theorem Core.onWarp_mTicket (k : Core) (w : Nat) (f : Warp → Warp) : (k.onWarp w f).mTicket = k.mTicket := rfl
@[simp] theorem Core.onWarp_mStatus (k : Core) (w : Nat) (f : Warp → Warp) : (k.onWarp w f).mStatus = k.mStatus := rfl
@[simp] theorem Core.onWarp_mdone (k : Core) (w : Nat) (f : Warp → Warp) : (k.onWarp w f).mdone = k.mdone := rfl
@[simp] theorem Core.onWarp_slq (k : Core) (w : Nat) (f : Warp → Warp) : (k.onWarp w f).slq = k.slq := rfl
@[simp] theorem Core.onWarp_slCounter (k : Core) (w : Nat) (f : Warp → Warp) : (k.onWarp w f).slCounter = k.slCounter := rfl
@[simp] theorem Core.onWarp_slDone (k : Core) (w : Nat) (f : Warp → Warp) : (k.onWarp w f).slDone = k.slDone := rfl
@[simp] theorem Core.onWarp_arms (k : Core) (w : Nat) (f : Warp → Warp) : (k.onWarp w f).arms = k.arms := rfl
@[simp] theorem Core.onWarp_late (k : Core) (w : Nat) (f : Warp → Warp) : (k.onWarp w f).late = k.late := rfl
@[simp] theorem Core.onWarp_sweeps (k : Core) (w : Nat) (f : Warp → Warp) : (k.onWarp w f).sweeps = k.sweeps := rfl
@[simp] theorem Core.onWarp_millrace (k : Core) (w : Nat) (f : Warp → Warp) : (k.onWarp w f).millrace = k.millrace := rfl
@[simp] theorem Core.onWarp_taskAt (k : Core) (w : Nat) (f : Warp → Warp) : (k.onWarp w f).taskAt = k.taskAt := rfl
@[simp] theorem Core.onWarp_ilines (k : Core) (w : Nat) (f : Warp → Warp) : (k.onWarp w f).ilines = k.ilines := rfl
@[simp] theorem Core.onWarp_lineReqs (k : Core) (w : Nat) (f : Warp → Warp) : (k.onWarp w f).lineReqs = k.lineReqs := rfl
@[simp] theorem Core.onWarp_groupTable (k : Core) (w : Nat) (f : Warp → Warp) : (k.onWarp w f).groupTable = k.groupTable := rfl
@[simp] theorem Core.onWarp_portFree (k : Core) (w : Nat) (f : Warp → Warp) : (k.onWarp w f).portFree = k.portFree := rfl
@[simp] theorem Core.onWarp_passes (k : Core) (w : Nat) (f : Warp → Warp) : (k.onWarp w f).passes = k.passes := rfl
@[simp] theorem Core.onWarp_reserve (k : Core) (w : Nat) (f : Warp → Warp) : (k.onWarp w f).reserve = k.reserve := rfl
@[simp] theorem Core.onWarp_reserveH (k : Core) (w : Nat) (f : Warp → Warp) : (k.onWarp w f).reserveH = k.reserveH := rfl
@[simp] theorem Core.onWarp_issuedAt (k : Core) (w : Nat) (f : Warp → Warp) : (k.onWarp w f).issuedAt = k.issuedAt := rfl
@[simp] theorem Core.onWarp_corrected (k : Core) (w : Nat) (f : Warp → Warp) : (k.onWarp w f).corrected = k.corrected := rfl

@[simp] theorem Core.onBlock_num (k : Core) (b : Nat) (f : Block → Block) : (k.onBlock b f).num = k.num := rfl
@[simp] theorem Core.onBlock_partition (k : Core) (b : Nat) (f : Block → Block) : (k.onBlock b f).partition = k.partition := rfl
@[simp] theorem Core.onBlock_lslots (k : Core) (b : Nat) (f : Block → Block) : (k.onBlock b f).lslots = k.lslots := rfl
@[simp] theorem Core.onBlock_warps (k : Core) (b : Nat) (f : Block → Block) : (k.onBlock b f).warps = k.warps := rfl
@[simp] theorem Core.onBlock_ended (k : Core) (b : Nat) (f : Block → Block) : (k.onBlock b f).ended = k.ended := rfl
@[simp] theorem Core.onBlock_sram (k : Core) (b : Nat) (f : Block → Block) : (k.onBlock b f).sram = k.sram := rfl
@[simp] theorem Core.onBlock_users (k : Core) (b : Nat) (f : Block → Block) : (k.onBlock b f).users = k.users := rfl
@[simp] theorem Core.onBlock_framed (k : Core) (b : Nat) (f : Block → Block) : (k.onBlock b f).framed = k.framed := rfl
@[simp] theorem Core.onBlock_int64s (k : Core) (b : Nat) (f : Block → Block) : (k.onBlock b f).int64s = k.int64s := rfl
@[simp] theorem Core.onBlock_flights (k : Core) (b : Nat) (f : Block → Block) : (k.onBlock b f).flights = k.flights := rfl
@[simp] theorem Core.onBlock_waits (k : Core) (b : Nat) (f : Block → Block) : (k.onBlock b f).waits = k.waits := rfl
@[simp] theorem Core.onBlock_mq (k : Core) (b : Nat) (f : Block → Block) : (k.onBlock b f).mq = k.mq := rfl
@[simp] theorem Core.onBlock_mTicket (k : Core) (b : Nat) (f : Block → Block) : (k.onBlock b f).mTicket = k.mTicket := rfl
@[simp] theorem Core.onBlock_mStatus (k : Core) (b : Nat) (f : Block → Block) : (k.onBlock b f).mStatus = k.mStatus := rfl
@[simp] theorem Core.onBlock_mdone (k : Core) (b : Nat) (f : Block → Block) : (k.onBlock b f).mdone = k.mdone := rfl
@[simp] theorem Core.onBlock_slq (k : Core) (b : Nat) (f : Block → Block) : (k.onBlock b f).slq = k.slq := rfl
@[simp] theorem Core.onBlock_slCounter (k : Core) (b : Nat) (f : Block → Block) : (k.onBlock b f).slCounter = k.slCounter := rfl
@[simp] theorem Core.onBlock_slDone (k : Core) (b : Nat) (f : Block → Block) : (k.onBlock b f).slDone = k.slDone := rfl
@[simp] theorem Core.onBlock_arms (k : Core) (b : Nat) (f : Block → Block) : (k.onBlock b f).arms = k.arms := rfl
@[simp] theorem Core.onBlock_late (k : Core) (b : Nat) (f : Block → Block) : (k.onBlock b f).late = k.late := rfl
@[simp] theorem Core.onBlock_sweeps (k : Core) (b : Nat) (f : Block → Block) : (k.onBlock b f).sweeps = k.sweeps := rfl
@[simp] theorem Core.onBlock_millrace (k : Core) (b : Nat) (f : Block → Block) : (k.onBlock b f).millrace = k.millrace := rfl
@[simp] theorem Core.onBlock_taskAt (k : Core) (b : Nat) (f : Block → Block) : (k.onBlock b f).taskAt = k.taskAt := rfl
@[simp] theorem Core.onBlock_ilines (k : Core) (b : Nat) (f : Block → Block) : (k.onBlock b f).ilines = k.ilines := rfl
@[simp] theorem Core.onBlock_lineReqs (k : Core) (b : Nat) (f : Block → Block) : (k.onBlock b f).lineReqs = k.lineReqs := rfl
@[simp] theorem Core.onBlock_groupTable (k : Core) (b : Nat) (f : Block → Block) : (k.onBlock b f).groupTable = k.groupTable := rfl
@[simp] theorem Core.onBlock_portFree (k : Core) (b : Nat) (f : Block → Block) : (k.onBlock b f).portFree = k.portFree := rfl
@[simp] theorem Core.onBlock_passes (k : Core) (b : Nat) (f : Block → Block) : (k.onBlock b f).passes = k.passes := rfl
@[simp] theorem Core.onBlock_reserve (k : Core) (b : Nat) (f : Block → Block) : (k.onBlock b f).reserve = k.reserve := rfl
@[simp] theorem Core.onBlock_reserveH (k : Core) (b : Nat) (f : Block → Block) : (k.onBlock b f).reserveH = k.reserveH := rfl
@[simp] theorem Core.onBlock_issuedAt (k : Core) (b : Nat) (f : Block → Block) : (k.onBlock b f).issuedAt = k.issuedAt := rfl
@[simp] theorem Core.onBlock_corrected (k : Core) (b : Nat) (f : Block → Block) : (k.onBlock b f).corrected = k.corrected := rfl

/-! ### Fields of a warp -/

@[simp] theorem Warp.onThread_uid (w : Warp) (l : Nat) (f : Thread → Thread) : (w.onThread l f).uid = w.uid := rfl
@[simp] theorem Warp.onThread_slot (w : Warp) (l : Nat) (f : Thread → Thread) : (w.onThread l f).slot = w.slot := rfl
@[simp] theorem Warp.onThread_block (w : Warp) (l : Nat) (f : Thread → Thread) : (w.onThread l f).block = w.block := rfl
@[simp] theorem Warp.onThread_wid (w : Warp) (l : Nat) (f : Thread → Thread) : (w.onThread l f).wid = w.wid := rfl
@[simp] theorem Warp.onThread_width (w : Warp) (l : Nat) (f : Thread → Thread) : (w.onThread l f).width = w.width := rfl
@[simp] theorem Warp.onThread_laneSet (w : Warp) (l : Nat) (f : Thread → Thread) : (w.onThread l f).laneSet = w.laneSet := rfl
@[simp] theorem Warp.onThread_s (w : Warp) (l : Nat) (f : Thread → Thread) : (w.onThread l f).s = w.s := rfl
@[simp] theorem Warp.onThread_jigs (w : Warp) (l : Nat) (f : Thread → Thread) : (w.onThread l f).jigs = w.jigs := rfl
@[simp] theorem Warp.onThread_jigBusy (w : Warp) (l : Nat) (f : Thread → Thread) : (w.onThread l f).jigBusy = w.jigBusy := rfl
@[simp] theorem Warp.onThread_mstage (w : Warp) (l : Nat) (f : Thread → Thread) : (w.onThread l f).mstage = w.mstage := rfl
@[simp] theorem Warp.onThread_slStage (w : Warp) (l : Nat) (f : Thread → Thread) : (w.onThread l f).slStage = w.slStage := rfl
@[simp] theorem Warp.onThread_expect (w : Warp) (l : Nat) (f : Thread → Thread) : (w.onThread l f).expect = w.expect := rfl
@[simp] theorem Warp.onThread_evicted (w : Warp) (l : Nat) (f : Thread → Thread) : (w.onThread l f).evicted = w.evicted := rfl
@[simp] theorem Warp.onThread_freeAt (w : Warp) (l : Nat) (f : Thread → Thread) : (w.onThread l f).freeAt = w.freeAt := rfl
@[simp] theorem Warp.onThread_condAt (w : Warp) (l : Nat) (f : Thread → Thread) : (w.onThread l f).condAt = w.condAt := rfl
@[simp] theorem Warp.onThread_area (w : Warp) (l : Nat) (f : Thread → Thread) : (w.onThread l f).area = w.area := rfl
@[simp] theorem Warp.onThread_frame (w : Warp) (l : Nat) (f : Thread → Thread) : (w.onThread l f).frame = w.frame := rfl

/-! ### Lists changed at one element -/

theorem find_upsert_self {α : Type} (p : α → Bool) (a : α) (h : p a = true) :
    ∀ l : List α, (upsert p a l).find? p = some a
  | [] => by simp [upsert, h]
  | x :: l => by
    by_cases hx : p x = true
    · simp [upsert, hx, h]
    · simp [upsert, hx, find_upsert_self p a h l]

theorem find_upsert_other {α : Type} (p q : α → Bool) (a : α) (ha : q a = false) (hd : ∀ x, p x = true → q x = false) :
    ∀ l : List α, (upsert p a l).find? q = l.find? q
  | [] => by simp [upsert, ha]
  | x :: l => by
    by_cases hx : p x = true
    · simp [upsert, hx, ha, hd x hx]
    · simp only [upsert, hx, Bool.false_eq_true, if_false, List.find?_cons]
      rw [find_upsert_other p q a ha hd l]

theorem find_alterFirst_self {α : Type} (p : α → Bool) (f : α → α) (h : ∀ x, p (f x) = p x) :
    ∀ l : List α, (alterFirst p f l).find? p = (l.find? p).map f
  | [] => rfl
  | x :: l => by
    by_cases hx : p x = true
    · simp [alterFirst, hx, h]
    · simp [alterFirst, hx, find_alterFirst_self p f h l]

theorem find_alterFirst_other {α : Type} (p q : α → Bool) (f : α → α) (hd : ∀ x, p x = true → q x = false)
    (h : ∀ x, p x = true → q (f x) = false) : ∀ l : List α, (alterFirst p f l).find? q = l.find? q
  | [] => rfl
  | x :: l => by
    by_cases hx : p x = true
    · simp [alterFirst, hx, h x hx, hd x hx]
    · simp only [alterFirst, hx, Bool.false_eq_true, if_false, List.find?_cons]
      rw [find_alterFirst_other p q f hd h l]

/-! ### Cores -/

/-- A core answers to its own number. -/
@[simp] theorem Mod.core_num (m : Mod) (c : Nat) : (m.core c).num = c := by
  unfold Mod.core
  cases h : m.cores.find? fun k => k.num == c with
  | none => rfl
  | some k => simpa using List.find?_some h

@[simp] theorem Mod.setCore_core_self (m : Mod) (k : Core) : (m.setCore k).core k.num = k := by
  simp [Mod.core, Mod.setCore, find_upsert_self (fun x : Core => x.num == k.num) k (by simp)]

theorem Mod.setCore_core_ne (m : Mod) (k : Core) {c : Nat} (h : c ≠ k.num) : (m.setCore k).core c = m.core c := by
  unfold Mod.core Mod.setCore
  rw [find_upsert_other]
  · simp [Ne.symm h]
  · intro x hx; simp at hx ⊢; omega

@[simp] theorem Mod.onCore_core_self (m : Mod) (c : Nat) (f : Core → Core) :
    (m.onCore c f).core c = { f (m.core c) with num := c } :=
  Mod.setCore_core_self m { f (m.core c) with num := c }

theorem Mod.onCore_core_ne (m : Mod) (f : Core → Core) {c d : Nat} (h : d ≠ c) : (m.onCore c f).core d = m.core d :=
  Mod.setCore_core_ne m _ h

/-- A core after an update that keeps its number. -/
theorem Mod.onCore_core_keep (m : Mod) (c : Nat) (f : Core → Core) (h : (f (m.core c)).num = (m.core c).num) :
    (m.onCore c f).core c = f (m.core c) := by
  rw [Mod.onCore_core_self]
  rw [Mod.core_num] at h
  generalize f (m.core c) = k at h ⊢
  cases k
  subst h
  rfl

/-- A core under an update of some core. -/
theorem Mod.onCore_core (m : Mod) (c d : Nat) (f : Core → Core) :
    (m.onCore c f).core d = if d = c then { f (m.core c) with num := c } else m.core d := by
  split
  · next h => subst h; simp
  · next h => exact Mod.onCore_core_ne m f h

/-! ### Warps, blocks, threads, launches -/

theorem Core.warp_onWarp_self (k : Core) (w : Nat) (f : Warp → Warp) (h : ∀ x, (f x).uid = x.uid) :
    (k.onWarp w f).warp? w = (k.warp? w).map f :=
  find_alterFirst_self _ f (fun x => by simp [h]) k.warps

theorem Core.warp_onWarp_ne (k : Core) {w v : Nat} (f : Warp → Warp) (h : ∀ x, (f x).uid = x.uid) (n : v ≠ w) :
    (k.onWarp w f).warp? v = k.warp? v :=
  find_alterFirst_other _ _ f (fun x hx => by simp at hx ⊢; omega) (fun x hx => by simp [h] at hx ⊢; omega) k.warps

theorem Core.block_onBlock_self (k : Core) (b : Nat) (f : Block → Block) (h : ∀ x, (f x).uid = x.uid) :
    (k.onBlock b f).block? b = (k.block? b).map f :=
  find_alterFirst_self _ f (fun x => by simp [h]) k.blocks

theorem Core.block_onBlock_ne (k : Core) {b d : Nat} (f : Block → Block) (h : ∀ x, (f x).uid = x.uid) (n : d ≠ b) :
    (k.onBlock b f).block? d = k.block? d :=
  find_alterFirst_other _ _ f (fun x hx => by simp at hx ⊢; omega) (fun x hx => by simp [h] at hx ⊢; omega) k.blocks

theorem Warp.thread_onThread_self (w : Warp) (l : Nat) (f : Thread → Thread) (h : ∀ t, (f t).lane = t.lane) :
    (w.onThread l f).thread? l = (w.thread? l).map f :=
  find_alterFirst_self _ f (fun x => by simp [h]) w.threads

theorem Warp.thread_onThread_ne (w : Warp) {l i : Nat} (f : Thread → Thread) (h : ∀ t, (f t).lane = t.lane)
    (n : i ≠ l) : (w.onThread l f).thread? i = w.thread? i :=
  find_alterFirst_other _ _ f (fun x hx => by simp at hx ⊢; omega) (fun x hx => by simp [h] at hx ⊢; omega) w.threads

theorem Mod.warp_onWarp_self (m : Mod) (c w : Nat) (f : Warp → Warp) (h : ∀ x, (f x).uid = x.uid) :
    (m.onWarp c w f).warp? c w = (m.warp? c w).map f := by
  unfold Mod.warp? Mod.onWarp
  rw [Mod.onCore_core_self]
  exact Core.warp_onWarp_self (m.core c) w f h

/-- A warp under an update of some warp. -/
theorem Mod.warp_onWarp (m : Mod) (c w d v : Nat) (f : Warp → Warp) (h : ∀ x, (f x).uid = x.uid) :
    (m.onWarp c w f).warp? d v = if d = c ∧ v = w then (m.warp? c w).map f else m.warp? d v := by
  by_cases hd : d = c
  · subst hd
    by_cases hv : v = w
    · subst hv; simp [Mod.warp_onWarp_self m d v f h]
    · simp only [hv, and_false, if_false]
      unfold Mod.warp? Mod.onWarp
      rw [Mod.onCore_core_self]
      exact Core.warp_onWarp_ne (m.core d) f h hv
  · simp only [hd, false_and, if_false]
    unfold Mod.warp? Mod.onWarp
    rw [Mod.onCore_core_ne m _ hd]

theorem Mod.thread_onThread_self (m : Mod) (c w l : Nat) (f : Thread → Thread) (h : ∀ t, (f t).lane = t.lane) :
    (m.onThread c w l f).thread? c w l = (m.thread? c w l).map f := by
  unfold Mod.thread? Mod.onThread
  rw [Mod.warp_onWarp_self m c w (fun x => x.onThread l f) (fun _ => rfl)]
  cases m.warp? c w with
  | none => rfl
  | some x => exact Warp.thread_onThread_self x l f h

/-- A thread under an update of some thread. -/
theorem Mod.thread_onThread (m : Mod) (c w l d v i : Nat) (f : Thread → Thread) (h : ∀ t, (f t).lane = t.lane) :
    (m.onThread c w l f).thread? d v i =
      if d = c ∧ v = w ∧ i = l then (m.thread? c w l).map f else m.thread? d v i := by
  by_cases hw : d = c ∧ v = w
  · obtain ⟨rfl, rfl⟩ := hw
    by_cases hi : i = l
    · subst hi; simp [Mod.thread_onThread_self m d v i f h]
    · simp only [hi, and_false, if_false]
      unfold Mod.thread? Mod.onThread
      rw [Mod.warp_onWarp_self m d v (fun x => x.onThread l f) (fun _ => rfl)]
      cases m.warp? d v with
      | none => rfl
      | some x => exact Warp.thread_onThread_ne x f h hi
  · unfold Mod.thread? Mod.onThread
    rw [Mod.warp_onWarp m c w d v (fun x => x.onThread l f) (fun _ => rfl), if_neg hw, if_neg (fun h => hw ⟨h.1, h.2.1⟩)]

theorem Mod.launch_onLaunch_self (m : Mod) (h : Nat) (f : Launch → Launch) (hf : ∀ l, (f l).handle = l.handle) :
    (m.onLaunch h f).launch? h = (m.launch? h).map f :=
  find_alterFirst_self _ f (fun x => by simp [hf]) m.launches

theorem Mod.launch_onLaunch_ne (m : Mod) {h g : Nat} (f : Launch → Launch) (hf : ∀ l, (f l).handle = l.handle)
    (n : g ≠ h) : (m.onLaunch h f).launch? g = m.launch? g :=
  find_alterFirst_other _ _ f (fun x hx => by simp at hx ⊢; omega) (fun x hx => by simp [hf] at hx ⊢; omega) m.launches

end Sys2Proof.Machine
end

