-- ==== Sys2Proof/Laws/Results.lean ====
section
/-! SUPPORT. What putting results on their way to registers does to a module, said once: the registers, memories and
engines stand, and each result that R35 does not leave open is the last one on its way to its register. -/

namespace Sys2Proof.Claims

open Machine

/-- The register of a result belongs to its threads and file. -/
def Result.Ok (r : Result) : Prop :=
  (∃ l, r.lanes = [l] ∧ r.file = 0 ∧ r.dest = .v r.warp l r.n) ∨
  (∃ l, r.lanes = [l] ∧ r.file = 1 ∧ r.dest = .q r.warp l r.n) ∨
  (r.file = 2 ∧ r.dest = .s r.warp r.n) ∨
  (∃ l, r.lanes = [l] ∧ r.file = 3 ∧
    r.dest = if r.n = 0 then .tcause r.warp l else if r.n = 1 then .tepcLo r.warp l else .tepcHi r.warp l)

theorem inV_ok (p : Nat × Nat) (n : Nat) (v : W32) (k : Nat) : (inV p n v k).Ok := .inl ⟨p.2, rfl, rfl, rfl⟩

theorem inQ_ok (p : Nat × Nat) (n : Nat) (v : Bool) (k : Nat) : (inQ p n v k).Ok := .inr (.inl ⟨p.2, rfl, rfl, rfl⟩)

theorem inS_ok (x : Issue) (w n : Nat) (v : W64) (k : Nat) : (inS x w n v k).Ok := .inr (.inr (.inl ⟨rfl, rfl⟩))

/-- Results of one thread for one register name one destination. -/
theorem Result.Ok.dest_eq {r q : Result} (hr : r.Ok) (hq : q.Ok) (hw : r.warp = q.warp) {l : Nat} (hl : l ∈ r.lanes)
    (hl' : l ∈ q.lanes) (hf : r.file = q.file) (hn : r.n = q.n) : r.dest = q.dest := by
  rcases hr with ⟨i, h1, h2, h3⟩ | ⟨i, h1, h2, h3⟩ | ⟨h2, h3⟩ | ⟨i, h1, h2, h3⟩ <;>
  rcases hq with ⟨j, k1, k2, k3⟩ | ⟨j, k1, k2, k3⟩ | ⟨k2, k3⟩ | ⟨j, k1, k2, k3⟩ <;>
  simp_all

/-- Between two modules, core c has taken the results rs into its pipes and nothing else has happened. -/
structure Puts (m m' : Mod) (c : Nat) (rs : List Result) : Prop where
  out : outside m' = outside m
  others : ∀ d, d ≠ c → m'.core d = m.core d
  same : bare (m'.core c) = bare (m.core c)
  flights : ∀ f, f.dest ∉ rs.map (·.dest) → (f ∈ (m'.core c).flights ↔ f ∈ (m.core c).flights)
  recents : ∀ w l t', m'.thread? c w l = some t' → ∃ t, m.thread? c w l = some t ∧ t'.sched = t.sched ∧
    ∀ e ∈ t'.recent, e ∈ t.recent ∨ ∃ r ∈ rs, r.warp = w ∧ l ∈ r.lanes ∧ e.file = r.file ∧ e.n = r.n
  pending : ∀ r ∈ rs, Unhurried m c r → Pending m' c r (m.clock + r.lat)

theorem Puts.clock {m m' : Mod} {c : Nat} {rs : List Result} (h : Puts m m' c rs) : m'.clock = m.clock := by
  simpa [outside] using congrArg Mod.clock h.out

theorem Puts.refl (m : Mod) (c : Nat) : Puts m m c [] :=
  ⟨rfl, fun _ _ => rfl, rfl, fun _ _ => Iff.rfl, fun _ _ t' h => ⟨t', h, rfl, fun _ he => .inl he⟩, by simp⟩

/-- `putFixed` of a result. -/
def putResult (m : Mod) (c : Nat) (r : Result) (old : W64) : Mod :=
  m.putFixed c r.warp r.lanes r.file r.n r.dest old r.val r.lat 0

theorem map_alterFirst {α β : Type} (p : α → Bool) (f : α → α) (g : α → β) (h : ∀ x, g (f x) = g x) :
    ∀ l : List α, (alterFirst p f l).map g = l.map g
  | [] => rfl
  | x :: l => by
    by_cases hx : p x = true
    · simp [alterFirst, hx, h]
    · simp [alterFirst, hx, map_alterFirst p f g h l]

/-- An update of a thread that `bareThread` does not see is not seen by `bare` either. -/
theorem bare_onThread (m : Mod) (c w l : Nat) (f : Thread → Thread) (h : ∀ t, bareThread (f t) = bareThread t) :
    bare ((m.onThread c w l f).core c) = bare (m.core c) := by
  have hw : ∀ x : Warp, bareWarp (x.onThread l f) = bareWarp x := fun x => by
    simp only [bareWarp, Warp.onThread, map_alterFirst _ f bareThread h]
  unfold Mod.onThread Mod.onWarp
  rw [Mod.onCore_core_keep m c (fun k => k.onWarp w fun x => x.onThread l f) rfl]
  simp only [bare, Core.onWarp, map_alterFirst _ _ bareWarp hw]

theorem flights_onThread (m : Mod) (c w l : Nat) (f : Thread → Thread) :
    ((m.onThread c w l f).core c).flights = (m.core c).flights := by
  unfold Mod.onThread Mod.onWarp
  rw [Mod.onCore_core_self]
  rfl

/-- Remembering a result changes nothing but what threads remember. -/
theorem remember_spec (c w file n lat : Nat) (old new : W64) (lanes : List Nat) : ∀ m m' : Mod,
    m' = lanes.foldl (fun m l => m.onThread c w l fun t => t.remember file n lat old new) m →
    outside m' = outside m ∧ (∀ d, d ≠ c → m'.core d = m.core d) ∧
    bare (m'.core c) = bare (m.core c) ∧ (m'.core c).flights = (m.core c).flights ∧
    ∀ v l t', m'.thread? c v l = some t' → ∃ t, m.thread? c v l = some t ∧ t'.sched = t.sched ∧
      ∀ r ∈ t'.recent, r ∈ t.recent ∨ (v = w ∧ l ∈ lanes ∧ r.file = file ∧ r.n = n) := by
  induction lanes with
  | nil => rintro m _ rfl; exact ⟨rfl, fun _ _ => rfl, rfl, rfl, fun v l t' h => ⟨t', h, rfl, fun r hr => .inl hr⟩⟩
  | cons l ls ih =>
    intro m m' hm
    let f : Thread → Thread := fun t => t.remember file n lat old new
    obtain ⟨h1, h2, h3, h4, h5⟩ := ih (m.onThread c w l f) m' hm
    refine ⟨h1, fun d hd => (h2 d hd).trans (Mod.onCore_core_ne m _ hd),
      h3.trans (bare_onThread m c w l f fun _ => rfl), h4.trans (flights_onThread m c w l f), ?_⟩
    intro v i t' ht'
    obtain ⟨t, ht, hs, hr⟩ := h5 v i t' ht'
    rw [Mod.thread_onThread m c w l c v i f (fun _ => rfl)] at ht
    split at ht
    · next hc =>
      obtain ⟨-, rfl, rfl⟩ := hc
      obtain ⟨t0, ht0, rfl⟩ := Option.map_eq_some_iff.1 ht
      refine ⟨t0, ht0, hs, fun r hrm => ?_⟩
      rcases hr r hrm with h | ⟨-, h, hf, hn⟩
      · rcases List.mem_append.1 h with h | h
        · exact .inl h
        · rw [List.mem_singleton] at h
          subst h
          exact .inr ⟨rfl, by simp, rfl, rfl⟩
      · exact .inr ⟨rfl, by simp [h], hf, hn⟩
    · exact ⟨t, ht, hs, fun r hrm => (hr r hrm).imp id fun ⟨a, b, d⟩ => ⟨a, by simp [b], d⟩⟩

/-- What a result that enters the pipes does to a core: nothing, where an earlier one stands; else it comes last, and of those of
its own register some may have given way (R35). -/
theorem send_cases (k : Core) (hs : List Nat) (e : Bool) (f : Flight) :
    k.send hs e f = k ∨
    ∃ p : Flight → Bool, (∀ g, g.dest ≠ f.dest ∨ g.kind ≠ .fixed → p g = true) ∧
      k.send hs e f = { k with flights := k.flights.filter p ++ [f] } := by
  unfold Core.send
  split
  · exact .inr ⟨fun _ => true, fun _ _ => rfl, by rw [List.filter_eq_self.2 fun _ _ => rfl]⟩
  · split
    · exact .inl rfl
    · refine .inr ⟨fun g => !g.yields hs f, fun g hg => ?_, rfl⟩
      rcases hg with hg | hg <;> simp [Flight.yields, hg]

theorem mem_send {k : Core} {hs : List Nat} {e : Bool} {f g : Flight} (h : g.dest ≠ f.dest) :
    g ∈ (k.send hs e f).flights ↔ g ∈ k.flights := by
  have hne : g ≠ f := fun e => h (by rw [e])
  rcases send_cases k hs e f with q | ⟨p, hp, q⟩
  · rw [q]
  · simp [q, hne, hp g (.inl h)]

theorem bare_send (k : Core) (hs : List Nat) (e : Bool) (f : Flight) (hf : f.kind = .fixed) : bare (k.send hs e f) = bare k := by
  rcases send_cases k hs e f with q | ⟨p, hp, q⟩
  · rw [q]
  · have hn : [f].filter (fun f => f.kind != .fixed) = [] := by simp [hf]
    rw [q]
    simp only [bare, List.filter_append, List.filter_filter, hn, List.append_nil]
    congr 1
    refine List.filter_congr fun g _ => ?_
    by_cases hg : g.kind = .fixed
    · simp [hg]
    · simp [hp g (.inr hg)]

/-- A result stands on where one for another register enters the pipes. -/
theorem Stands.send {k : Core} {q : Result} {y : Nat} (h : Stands k.flights q y) (hs : List Nat) (e : Bool) (f : Flight)
    (hd : f.dest ≠ q.dest) : Stands (k.send hs e f).flights q y := by
  obtain ⟨a, g, b, h0, h1, h2, h3, h4, h5, h6⟩ := h
  rcases send_cases k hs e f with r | ⟨p, hp, r⟩
  · exact ⟨a, g, b, by rw [r, h0], h1, h2, h3, h4, h5, h6⟩
  · refine ⟨a.filter p, g, b.filter p ++ [f], ?_, h1, h2, h3, h4, h5, fun x hx hxd hxk => ?_⟩
    · rw [r]
      simp only [h0]
      rw [List.filter_append, List.filter_cons_of_pos (hp g (.inl (by rw [h1]; exact hd.symm)))]
      simp
    · rcases List.mem_append.1 hx with hx | hx
      · exact h6 x (List.mem_filter.1 hx).1 hxd hxk
      · rw [List.mem_singleton.1 hx] at hxd
        exact absurd hxd hd

/-- A result put on its way joins those that stand. -/
theorem Puts.add {m m' : Mod} {c : Nat} {rs : List Result} (h : Puts m m' c rs) (hrs : ∀ q ∈ rs, q.Ok) (r : Result)
    (hr : r.Ok) (hd : r.dest ∉ rs.map (·.dest)) (old : W64) : Puts m (putResult m' c r old) c (rs ++ [r]) := by
  let f : Flight :=
    { id := 0, dest := r.dest, val := r.val, land := some (m'.clock + r.lat + 0), kind := .fixed, lanes := r.lanes }
  let hs := m'.hurried c r.warp r.lanes r.file r.n r.lat
  let m1 : Mod := m'.onCore c fun k => k.send hs (Config.earlierStands (m'.clock * 65536 + r.warp * 64 + r.n)) f
  have hc : m'.clock = m.clock := h.clock
  have hput : putResult m' c r old = r.lanes.foldl (fun m l => m.onThread c r.warp l fun t =>
      t.remember r.file r.n r.lat old r.val) m1 := rfl
  obtain ⟨p1, p2, p3, p4, p5⟩ := remember_spec c r.warp r.file r.n r.lat old r.val r.lanes m1 _ hput
  have hself : m1.core c = (m'.core c).send hs (Config.earlierStands (m'.clock * 65536 + r.warp * 64 + r.n)) f := by
    refine Mod.onCore_core_keep m' c _ ?_
    rcases send_cases (m'.core c) hs (Config.earlierStands (m'.clock * 65536 + r.warp * 64 + r.n)) f with q | ⟨p, -, q⟩ <;> rw [q]
  have t1 : ∀ w l, m1.thread? c w l = m'.thread? c w l := fun w l => by
    unfold Mod.thread? Mod.warp?
    rw [hself]
    rcases send_cases (m'.core c) hs (Config.earlierStands (m'.clock * 65536 + r.warp * 64 + r.n)) f with q | ⟨p, -, q⟩ <;> rw [q]
    rfl
  refine ⟨p1.trans h.out, fun d hne => (p2 d hne).trans ((Mod.onCore_core_ne m' _ hne).trans (h.others d hne)),
    p3.trans (by rw [hself, bare_send _ _ _ _ rfl, h.same]), fun g hg => ?_, fun w l t' ht' => ?_, fun q hq hu => ?_⟩
  · rw [p4, hself]
    simp only [List.map_append, List.map_cons, List.map_nil, List.mem_append, List.mem_singleton, not_or] at hg
    rw [mem_send hg.2, h.flights g hg.1]
  · obtain ⟨t, ht, hs, hrec⟩ := p5 w l t' ht'
    rw [t1] at ht
    obtain ⟨t0, ht0, hs0, hrec0⟩ := h.recents w l t ht
    refine ⟨t0, ht0, hs.trans hs0, fun e he => ?_⟩
    rcases hrec e he with he | ⟨rfl, hl, hf, hn⟩
    · rcases hrec0 e he with he | ⟨q, hq, h1⟩
      · exact .inl he
      · exact .inr ⟨q, by simp [hq], h1⟩
    · exact .inr ⟨r, by simp, rfl, hl, hf, hn⟩
  · unfold Pending
    rw [p4, hself]
    rcases List.mem_append.1 hq with hq | hq
    · exact (h.pending q hq hu).send _ _ _ fun e => hd ((show r.dest = q.dest from e) ▸ List.mem_map_of_mem hq)
    · rw [List.mem_singleton] at hq
      subst hq
      have hst : hs = [] := by
        simp only [hs, Mod.hurried, List.filter_eq_nil_iff]
        intro l hl
        cases ht : m'.thread? c q.warp l with
        | none => simp
        | some t =>
          obtain ⟨t0, ht0, hs0, hrec0⟩ := h.recents q.warp l t ht
          simp only [Thread.hurried, Bool.not_eq_true, List.any_eq_false, Bool.and_eq_true, beq_iff_eq, decide_eq_true_eq]
          rintro e he ⟨⟨h1, h2⟩, h3⟩
          rcases hrec0 e he with he | ⟨p, hp, hw, hl', hf, hn⟩
          · have := hu l hl t0 ht0 e he h1 h2
            omega
          · exact hd (by
              rw [hr.dest_eq (hrs p hp) hw.symm hl hl' (h1.symm.trans hf) (h2.symm.trans hn)]
              exact List.mem_map_of_mem hp)
      refine ⟨(m'.core c).flights, f, [], ?_, rfl, rfl, rfl, by simp [f, hc], rfl, by simp⟩
      rw [hst]
      simp [Core.send]

/-! ### Steps of a bundle that only put results on their way -/

/-- A step of bundle x that puts the results rs on their way, after whatever others stand, and does nothing else. -/
def Sends (x : Issue) (f : Bx → Bx) (rs : List Result) : Prop :=
  (∀ q ∈ rs, q.Ok) ∧ ∀ b : Bx, b.x = x → (f b).x = x ∧
    ∀ m acc, (∀ q ∈ acc, q.Ok) → ((acc ++ rs).map (·.dest)).Nodup → Puts m b.m x.core acc →
      Puts m (f b).m x.core (acc ++ rs)

theorem Sends.none (x : Issue) : Sends x (fun b => b) [] :=
  ⟨by simp, fun b hb => ⟨hb, fun m acc _ _ h => by simpa using h⟩⟩

/-- One result. -/
theorem Sends.one {x : Issue} {f : Bx → Bx} (r : Result) (hr : r.Ok) (old : Bx → W64)
    (h : ∀ b : Bx, b.x = x → f b = { b with m := putResult b.m x.core r (old b) }) : Sends x f [r] := by
  refine ⟨by simpa using hr, fun b hb => ?_⟩
  rw [h b hb]
  refine ⟨hb, fun m acc hok hn hp => hp.add hok r hr ?_ _⟩
  intro hmem
  rw [List.map_append, List.nodup_append] at hn
  exact hn.2.2 _ hmem _ (by simp) rfl

/-- One step after another. -/
theorem Sends.comp {x : Issue} {f g : Bx → Bx} {rs qs : List Result} (hf : Sends x f rs) (hg : Sends x g qs) :
    Sends x (fun b => g (f b)) (rs ++ qs) := by
  refine ⟨fun q hq => (List.mem_append.1 hq).elim (hf.1 q) (hg.1 q), fun b hb => ?_⟩
  obtain ⟨h1, h2⟩ := hf.2 b hb
  obtain ⟨h3, h4⟩ := hg.2 (f b) h1
  refine ⟨h3, fun m acc hok hn hp => ?_⟩
  rw [← List.append_assoc] at hn ⊢
  refine h4 m (acc ++ rs) (fun q hq => (List.mem_append.1 hq).elim (hok q) (hf.1 q)) hn (h2 m acc hok ?_ hp)
  rw [List.map_append] at hn
  exact (List.nodup_append.1 hn).1

/-- A step for each of a list. -/
theorem Sends.fold {α : Type} {x : Issue} {f : α → Bx → Bx} {rs : α → List Result} (ps : List α)
    (h : ∀ p ∈ ps, Sends x (f p) (rs p)) : Sends x (fun b => ps.foldl (fun b p => f p b) b) (ps.flatMap rs) := by
  induction ps with
  | nil => exact Sends.none x
  | cons p ps ih =>
    have := (h p (by simp)).comp (ih fun q hq => h q (by simp [hq]))
    simpa using this

theorem sends_putV (x : Issue) (w l n : Nat) (val : W32) (lat : Nat) :
    Sends x (fun b => b.putV w l n val lat) [inV (w, l) n val lat] :=
  Sends.one _ (inV_ok _ _ _ _) (fun b => (b.x.v w l n).setWidth 64) fun b hb => by subst hb; rfl

theorem sends_putS (x : Issue) (w n : Nat) (val : W64) (lat : Nat) :
    Sends x (fun b => b.putS w n val lat) [inS x w n val lat] :=
  Sends.one _ (inS_ok _ _ _ _ _) (fun b => b.x.s w n) fun b hb => by subst hb; rfl

theorem sends_putQ (x : Issue) (w l n : Nat) (val : Bool) (lat : Nat) :
    Sends x (fun b => b.putQ w l n val lat) (if n = 0 then [] else [inQ (w, l) n val lat]) := by
  by_cases hn : n = 0
  · simpa [Bx.putQ, hn] using Sends.none x
  · rw [if_neg hn]
    refine Sends.one _ (inQ_ok _ _ _ _) (fun b => if b.x.q w l n then 1 else 0) fun b hb => ?_
    subst hb
    simp only [Bx.putQ, hn, if_false]
    rfl

/-- The results that a value of type t gives: one register, or a pair, low word first (R100). -/
def inT (p : Nat × Nat) (n t r lat : Nat) : List Result :=
  if tyWidth t = 64 then [inV p n (BitVec.ofNat 32 r) lat, inV p (n + 1) (BitVec.ofNat 32 (r / 2 ^ 32)) lat]
  else [inV p n (BitVec.ofNat 32 (if t < 8 then extend t 32 r else r)) lat]

theorem sends_putT (x : Issue) (w l n t r lat : Nat) : Sends x (fun b => b.putT w l n t r lat) (inT (w, l) n t r lat) := by
  unfold inT
  by_cases h : tyWidth t = 64
  · have := (sends_putV x w l n (BitVec.ofNat 32 r) lat).comp
      (sends_putV x w l (n + 1) (BitVec.ofNat 32 (r / 2 ^ 32)) lat)
    simpa [Bx.putT, h] using this
  · have := sends_putV x w l n (BitVec.ofNat 32 (if t < 8 then extend t 32 r else r)) lat
    simpa [Bx.putT, h] using this

/-- A step that does the same in the bundle. -/
theorem Sends.congr {x : Issue} {f g : Bx → Bx} {rs : List Result} (h : Sends x g rs)
    (e : ∀ b : Bx, b.x = x → f b = g b) : Sends x f rs :=
  ⟨h.1, fun b hb => by rw [e b hb]; exact h.2 b hb⟩

/-- A predicate for each of some lanes; none for q0. -/
theorem sends_putQs (x : Issue) (w : Nat) (ls : List Nat) (q : BitVec 3) (r : Bool) (lat : Nat) :
    Sends x (fun b => ls.foldl (fun b l => b.putQ w l q.toNat r lat) b)
      (if q = 0 then [] else ls.map fun l => inQ (w, l) q.toNat r lat) := by
  have h := Sends.fold (x := x) ls (f := fun l b => b.putQ w l q.toNat r lat)
    fun l _ => sends_putQ x w l q.toNat r lat
  by_cases hq : q = 0
  · rw [if_pos hq]
    have e : (ls.flatMap fun l => if q.toNat = 0 then [] else [inQ (w, l) q.toNat r lat]) = [] := by simp [hq]
    rw [e] at h
    exact h
  · rw [if_neg hq]
    have hz : q.toNat ≠ 0 := fun e => hq (BitVec.eq_of_toNat_eq (by simpa using e))
    have e : (ls.flatMap fun l => if q.toNat = 0 then [] else [inQ (w, l) q.toNat r lat]) =
        ls.map fun l => inQ (w, l) q.toNat r lat := by simp [hz, ← List.map_eq_flatMap]
    rw [e] at h
    exact h

/-- Results for distinct registers of distinct threads have distinct destinations. -/
theorem nodup_dests {ps : List (Nat × Nat)} (hn : ps.Nodup) (rs : Nat × Nat → List Result)
    (h1 : ∀ p, ((rs p).map (·.dest)).Nodup)
    (h2 : ∀ p q, p ≠ q → ∀ r ∈ rs p, ∀ k ∈ rs q, r.dest ≠ k.dest) : ((ps.flatMap rs).map (·.dest)).Nodup := by
  induction ps with
  | nil => simp
  | cons p ps ih =>
    rw [List.nodup_cons] at hn
    rw [List.flatMap_cons, List.map_append, List.nodup_append]
    refine ⟨h1 p, ih hn.2, fun a ha b hb => ?_⟩
    obtain ⟨r, hr, rfl⟩ := List.mem_map.1 ha
    obtain ⟨k, hk, rfl⟩ := List.mem_map.1 hb
    obtain ⟨q, hq, hk⟩ := List.mem_flatMap.1 hk
    exact h2 p q (fun e => hn.1 (e ▸ hq)) r hr k hk

/-- The threads of a bundle on which an instruction acts are as distinct as its group. -/
theorem active_nodup {x : Issue} (hn : x.group.Nodup) (wl : Bool) (h : Hdr) : (x.active wl h).Nodup := hn.filter _

/-- A slot whose step only sends results runs, and gives them. -/
theorem gives_slotStep {s : State} {x : Issue} {t : BSlot} {ts : List BSlot} (hs : AtSlot s x t ts) {f : Bx → Bx}
    {rs : List Result} (hf : Sends (past x t ts) f rs) (hn : (rs.map (·.dest)).Nodup) :
    ∃ u, slotStep s f = .next u ∧ Gives s x t ts rs u := by
  obtain ⟨h1, h2⟩ := hs
  obtain ⟨h3, h4⟩ := hf.2 { m := s.now, x := past x t ts } rfl
  have h5 := h4 s.now [] (by simp) (by simpa using hn) (Puts.refl _ _)
  simp only [List.nil_append] at h5
  refine ⟨{ now := (f { m := s.now, x := past x t ts }).m, issue := some (past x t ts) }, ?_, rfl,
    ⟨h5.out, fun d => ?_, h5.others, h5.flights⟩, fun r hr hu => h5.pending r hr hu⟩
  · unfold slotStep
    rw [h1]
    simp only [h2]
    have e : (f { m := s.now, x := { x with todo := ts, cur := t.num } }).x = past x t ts := h3
    rw [e]
    rfl
  · by_cases hd : d = x.core
    · subst hd; exact h5.same
    · rw [h5.others d hd]

/-- A per-thread step that sends results for each thread on which it acts. -/
theorem gives_perThread {s : State} {x : Issue} {t : BSlot} {ts : List BSlot} (hs : AtSlot s x t ts) (wl : Bool) (h : Hdr)
    {f : Nat → Nat → Bx → Bx} {rs : Nat × Nat → List Result}
    (hf : ∀ p ∈ x.active wl h, Sends (past x t ts) (f p.1 p.2) (rs p))
    (hn : (((x.active wl h).flatMap rs).map (·.dest)).Nodup) :
    ∃ u, perThread wl h s f = .next u ∧ Gives s x t ts ((x.active wl h).flatMap rs) u := by
  refine gives_slotStep hs ⟨?_, ?_⟩ hn
  · intro q hq
    obtain ⟨p, hp, hq⟩ := List.mem_flatMap.1 hq
    exact (hf p hp).1 q hq
  · intro b hb
    have e : b.x.active wl h = x.active wl h := by rw [hb]; rfl
    have := (Sends.fold (x.active wl h) hf).2 b hb
    simp only [e]
    exact this

/-- A warp-level step that sends results for the lanes for which it acts. -/
theorem gives_perWarp {s : State} {x : Issue} {t : BSlot} {ts : List BSlot} (hs : AtSlot s x t ts) {h : Hdr} {w : Nat}
    {ls : List Nat} (ha : ActsFor x h w ls) {f : Nat → List Nat → Bx → Bx} {rs : List Result}
    (hf : Sends (past x t ts) (f w ls) rs) (hn : (rs.map (·.dest)).Nodup) :
    ∃ u, perWarp h s f = .next u ∧ Gives s x t ts rs u := by
  refine gives_slotStep hs ⟨hf.1, fun b hb => ?_⟩ hn
  have hx : b.x.active true h = ls.map fun l => (w, l) := by rw [hb]; exact ha.2
  cases hl : ls with
  | nil => exact absurd hl ha.1
  | cons l ls' =>
    have e : (fun b : Bx => match b.x.active true h with
        | [] => b
        | p :: ps => f p.1 ((p :: ps).map (·.2)) b) b = f w ls b := by
      simp [hx, hl, Function.comp_def]
    have := hf.2 b hb
    rw [← e] at this
    exact this

end Sys2Proof.Claims
end

