-- ==== Sys2Proof/Tests/Slice0.lean ====
section
/-! SUPPORT. Tests of the model on fixed values, and witnesses for the hypotheses of the statements. -/

open Sys2Proof Sys2Proof.Machine Sys2Proof.Claims

namespace Sys2Proof.Tests

set_option Elab.async false

/-! ### Terms that the field checks refuse (R21 to R27, R55) -/

/-- A header without a guard, stall 1. -/
def hd : Hdr := { stall := 1, gneg := false, guard := 0 }
/-- Format V with every field zero. -/
def fv : FmtV := { minor := 0, d := 0, a := 0, b := 0, c := 0, bk := 0, qd := 0, aux := 0, imm16 := 0 }
/-- Format I with every field zero. -/
def fi : FmtI := { minor := 0, d := 0, a := 0, qd := 0, aux := 0, imm32 := 0 }
/-- Format M with every field zero. -/
def fm : FmtM := { minor := 0, d := 0, base := 0, bk := true, qd := 0, aux := 0, off := 0 }
/-- Format B with every field zero. -/
def fb : FmtB := { minor := 0, l := 0, a := 0, aux := 0, disp := 0 }
/-- Format E with every field zero. -/
def fe : FmtE := { minor := 0, d := 0, a := 0, b := 0, c := 0, cmd := 0, weir := 0, imm16 := 0 }
/-- Format S with every field zero. -/
def fs : FmtS := { minor := 0, d := 0, a := 0, dk := false, sr := 0, aux := 0, imm32 := 0 }

/-- R22: an unused register, a vector index above 255, a kind of operand b, an immediate without its kind, qd, aux, a type
that the entry does not list, an odd register of a 64-bit value, a field that leaves its word. -/
theorem test_wf_refuses_v :
    ([.smov hd { fv with b := 1 }, .vadd hd { fv with minor := 2, a := 256 }, .sadd hd { fv with minor := 2, bk := 1 },
      .vfadd hd { fv with bk := 2 }, .sadd hd { fv with minor := 2, imm16 := 1 }, .vadd hd { fv with minor := 2, qd := 1 },
      .vfadd hd { fv with aux := 1 }, .sadd hd { fv with minor := 10 }, .vadd hd { fv with minor := 3, d := 1 },
      .vabs hd { fv with minor := 6 }, .vbfe hd { fv with minor := 2, aux := 0 }, .vbfe hd { fv with minor := 2, aux := 2063 },
      .vcmp hd { fv with minor := 0x62 }, .vcvt hd { fv with minor := 0x22 }, .vunpk hd { fv with minor := 0xEA, aux := 2 },
      .vred hd { fv with minor := 0x36, d := 1 }, .vscan hd { fv with minor := 0x36 }, .vnrUpd hd { fv with minor := 0x32 },
      .vnrGet hd { fv with minor := 2, aux := 8 }, .gunpk hd { fv with aux := 64 }, .elect hd { fv with aux := 2 },
      .nop hd { fv with minor := 1 }] : List Instr).all (fun i => !i.wf) = true := by decide

/-- R23 to R25: fields of immediates, memory accesses and transfers. -/
theorem test_wf_refuses_imb :
    ([.sli hd { fi with minor := 3 }, .slih hd { fi with qd := 1 }, .wsync hd { fi with aux := 1, imm32 := 1 },
      .vli hd { fi with minor := 2, a := 1 }, .sld hd { fm with minor := 2, bk := false }, .sst hd { fm with minor := 2, aux := 1 },
      .vld hd { fm with aux := 8 }, .vld hd { fm with aux := 0x22, d := 1 }, .vstCw hd { fm with aux := 2 },
      .vldt hd { fm with aux := 0x12 }, .vatom hd { fm with minor := 0x76, d := 1 }, .atom hd { fm with minor := 1, aux := 6 },
      .atom hd { fm with minor := 2, aux := 0x86 }, .wfa hd { fm with minor := 4 }, .ldAcq hd { fm with minor := 2, aux := 8 },
      .mrd hd { fm with minor := 0 }, .bra hd { fb with a := 1 }, .brc hd { fb with minor := 0x0A }, .call hd { fb with l := 1 },
      .ret hd { fb with disp := 1 }, .jmpi hd { fb with a := 256 }] : List Instr).all (fun i => !i.wf) = true := by decide

/-- R26, R27: fields of engine and system instructions. -/
theorem test_wf_refuses_es :
    ([.mma hd { fe with a := 1 }, .mopf hd { fe with cmd := 3 }, .jop hd { fe with minor := 8 }, .jigSet hd { fe with minor := 1 },
      .slGo hd { fe with weir := 1 }, .fst hd { fe with minor := 5 }, .fst hd { fe with minor := 6, a := 1 },
      .fred hd { fe with minor := 6, cmd := 3 }, .fatom hd { fe with minor := 0x1E, cmd := 2 }, .fwait hd { fe with a := 1 },
      .cnlWt hd { fe with cmd := 4 }, .cnlWt hd { fe with d := 1 }, .ltWt hd { fe with b := 1 }, .weirSet hd { fe with cmd := 1 },
      .weirArv hd { fe with minor := 7 }, .weirAw hd { fe with minor := 2, d := 1 }, .spn hd { fe with imm16 := 0x900 },
      .jwait hd { fe with cmd := 64 }, .flmPop hd { fe with cmd := 32 }, .fcrdClr hd fe, .trap hd { fs with imm32 := 0x10000 },
      .exit hd { fs with sr := 1 }, .mfsr hd { fs with sr := 5 }, .mfsr hd { fs with sr := 0x20, dk := true },
      .mtsr hd { fs with sr := 0x22 }, .lnch hd fs, .evnt hd { fs with dk := true, imm32 := 0x1000000 },
      .fence hd { fs with minor := 1 }] : List Instr).all (fun i => !i.wf) = true := by decide

/-! ### Words written out from the encodings of the spec -/

/-- A word reads as an instruction, and is that instruction's word. -/
def reads (w : Nat) (i : Instr) : Bool :=
  (match decodeSlot (BitVec.ofNat 96 w) with | .ok j => decide (j = i) | .error _ => false) &&
  encodeSlot i == some (BitVec.ofNat 96 w) && decodeTableWord 96 w == some i

/-- A header with a stall count and no guard. -/
def stall (n : BitVec 4) : Hdr := { hd with stall := n }

/-- Worked encodings of spec/02, 03 and 04. -/
theorem test_decode_uniform_vector :
    (reads 0x404002010203000000000000 (.vadd (stall 4) { fv with minor := 2, d := 1, a := 2, b := 3 }) &&
     reads 0x404B0205060000080000FFF8
       (.vadd { stall := 4, gneg := true, guard := 3 } { fv with minor := 2, d := 5, a := 6, bk := 2, imm16 := 0xFFF8 }) &&
     reads 0x0120032C0200008800000001 (.sadd (stall 2) { fv with minor := 3, d := 300, a := 2, bk := 2, imm16 := 1 }) &&
     reads 0x534002070300000001080000 (.vbfe (stall 4) { fv with minor := 2, d := 7, a := 3, aux := 0x108 }) &&
     reads 0x90A000080200000600000040 (.vld (stall 10) { fm with d := 8, base := 2, bk := false, aux := 6, off := 0x40 }) &&
     reads 0x85A00A0A0400000000000000 (.vred (stall 10) { fv with minor := 0x0A, d := 10, a := 4 }) &&
     reads 0x85A0360A0400000000000000 (.vred (stall 10) { fv with minor := 0x36, d := 10, a := 4 })) = true := by decide

/-- Worked encodings of spec/09, 10 and 20. -/
theorem test_decode_engines_system :
    (reads 0xA02400140000000000000000 (.mma { stall := 2, gneg := false, guard := 4 } { fe with d := 20 }) &&
     reads 0xB3E002280000000000000000 (.gpack (stall 14) { fv with minor := 2, d := 40 }) &&
     reads 0xC81006001416180001000003
       (.fst (stall 1) { fe with minor := 6, a := 20, b := 22, c := 24, cmd := 1, imm16 := 3 }) &&
     reads 0xC420001E0000000000000000 (.slGo (stall 2) { fe with d := 30 }) &&
     reads 0x324000280000400000000000 (.mfsr (stall 4) { fs with d := 40, sr := 0x20 }) &&
     reads 0x311000000000000000000000 (.tret (stall 1) fs)) = true := by decide

/-- Worked encodings of spec/13, 15 and 17. -/
theorem test_decode_memory_tasks :
    (reads 0xE81006060A20014700000008 (.atom (stall 1) { fm with minor := 6, d := 6, base := 10, aux := 0x147, off := 8 }) &&
     reads 0xE92005000000000000000000 (.fence (stall 2) { fs with minor := 5 }) &&
     reads 0xD01000000405000001000000 (.cnlPost (stall 1) { fe with a := 4, b := 5, cmd := 1 }) &&
     reads 0xD820011E0800000000000000 (.ltRunCn (stall 2) { fe with minor := 1, d := 30, a := 8 }) &&
     reads 0x911000010A20004600000000 (.vstCw (stall 1) { fm with d := 1, base := 10, aux := 0x46 }) &&
     reads 0x931000020B20000600000000 (.vldc (stall 1) { fm with d := 2, base := 11, aux := 6 }) &&
     reads 0xEB1003010B20000600000000 (.stRel (stall 1) { fm with minor := 3, d := 1, base := 11, aux := 6 }) &&
     reads 0xEA1003020A20000600000000 (.ldAcq (stall 1) { fm with minor := 3, d := 2, base := 10, aux := 6 }) &&
     reads 0xF01000000405000003000800 (.spn (stall 1) { fe with a := 4, b := 5, cmd := 3, imm16 := 0x0800 }) &&
     reads 0xF31002000200000800000001 (.vnrUpd (stall 1) { fv with minor := 2, a := 2, bk := 2, imm16 := 1 }) &&
     reads 0xF91000000700000002000000 (.flmPush (stall 1) { fe with a := 7, cmd := 2 })) = true := by decide

/-- R21, R56: a major code that no entry has, and an unused field that is not zero, are no instruction. -/
theorem test_decode_rejects :
    decodeTableWord 96 0xFF0000000000000000000000 = none ∧ decodeTableWord 96 0x311000010000000000000000 = none ∧
    decodeTableWord 95 0 = none := by decide

/-! ### Small states -/

/-- A bundle of one slot with a word, of sixteen threads of warp 2 on core 0, on a module just reset. -/
def at_ (w : Nat) : State := State.withWord State.reset 96 w

/-- The bundle under way in a state. -/
def issueOf (s : State) : Issue := s.issue.getD
  { before := Mod.reset, core := 0, pc := 0, nextPc := 0, stall := 0, slots := [], todo := [], cur := 0, group := [], dead := [],
    redo := false, faults := [], hold := false, passes := 0 }

/-- The slot of a word. -/
def slot0 (w : Nat) : BSlot := { num := 0, word := BitVec.ofNat 96 w }

/-- A change of the module, also of the one that the bundle began with. -/
def both (f : Mod → Mod) (s : State) : State :=
  { now := f s.now, issue := s.issue.map fun x => { x with before := f x.before } }

/-- Vector register n of lane l set. -/
def withV (l n : Nat) (v : W32) : State → State :=
  both fun m => m.onThread 0 2 l fun t => { t with v := setR t.v n v }

/-- Uniform register n set. -/
def withS (n : Nat) (v : W64) : State → State := both fun m => m.onWarp 0 2 fun w => { w with s := setR w.s n v }

/-- The state after an instruction. -/
def after (i : Instr) (s : State) : State := match exec i s with | .next t => t | _ => s

/-- The result on its way to a register, with its landing cycle. -/
def result (d : Dest) (s : State) : Option (W64 × Option Nat) :=
  ((s.now.core 0).flights.find? fun f => f.dest == d).map fun f => (f.val, f.land)

theorem test_bundle (w : Nat) : AtSlot (at_ w) (issueOf (at_ w)) (slot0 w) [] := ⟨rfl, rfl⟩

/-- spec/04, worked case of `vbfe`: bits 11 to 8 of 0x0000_0A5C are −6. -/
theorem test_vbfe : result (.v 2 0 7) (after (.vbfe (stall 4) { fv with minor := 2, d := 7, a := 3, aux := 0x108 })
    (withV 0 3 0x0A5C (at_ 0))) = some (0xFFFFFFFA, some 4) := by decide +kernel

/-! ### States and operands that meet the hypotheses of the statements -/

/-- The bundle of the small state. -/
def s0 : State := at_ 0
/-- Its bundle under way. -/
def x0 : Issue := issueOf s0
/-- Its group. -/
def group0 : List (Nat × Nat) := (List.range 16).map fun l => (2, l)

/-- Every element of a list that the test accepts has a value. -/
theorem some_of_all {α β : Type} {l : List α} {f : α → Option β} (h : (l.all fun a => (f a).isSome) = true) :
    ∀ a ∈ l, ∃ b, f a = some b := fun a ha => Option.isSome_iff_exists.mp (List.all_eq_true.mp h a ha)

/-- Forms V of every statement that asks for a legal term. -/
theorem witness_legal_v :
    (([.sadd, .ssub, .smul, .smulh, .sdiv, .srem, .sand, .sor, .sxor, .sshl, .sshr, .ssra, .smin, .smax, .scmp, .vadd, .vsub,
       .vmulLo, .vmulHi, .vand, .vor, .vxor, .vshl, .vshr, .vsra, .vmin, .vmax, .vnot, .vabs, .vneg, .vpopc, .vclz, .vbrev, .vmad,
       .vsel, .vmov, .vcmp, .vnrUpd, .vnrGet] : List (Hdr → FmtV → Instr)).all fun i => (i hd { fv with minor := 2 }).wf) = true ∧
    ([.vbfe hd { fv with minor := 2, aux := 0x108 }, .vbfi hd { fv with minor := 2, aux := 0x108 },
      .vfcmp hd { fv with minor := 0x0A }, .vcvt hd { fv with minor := 0xA2 }, .vpack hd { fv with minor := 0xAE },
      .vred hd { fv with minor := 0x0A }, .vred hd { fv with minor := 0x36, d := 10 }, .vred hd { fv with minor := 0x16 },
      .vscan hd { fv with minor := 0x16, aux := 1 }] : List Instr).all Instr.wf = true := by decide

/-- Forms M of every statement that asks for a legal term. -/
theorem witness_legal_m :
    ([.sld hd { fm with minor := 2 }, .sst hd { fm with minor := 2 }, .vld hd { fm with aux := 6 }, .vst hd { fm with aux := 6 },
      .vldt hd { fm with aux := 6 }, .vatom hd { fm with minor := 6, aux := 1 }, .vstCw hd { fm with aux := 0x46 },
      .vldc hd { fm with aux := 6 }, .atom hd { fm with minor := 2, aux := 0x46 }, .atom hd { fm with minor := 6, aux := 6 },
      .ldAcq hd { fm with minor := 2, aux := 6 }, .stRel hd { fm with minor := 2, aux := 6 }, .ldAcq hd { fm with minor := 3, aux := 6 },
      .stRel hd { fm with minor := 5, aux := 6 }, .wfa hd { fm with minor := 2 }, .mrd hd { fm with minor := 2 },
      .mwr hd { fm with minor := 2 }] : List Instr).all Instr.wf = true := by decide

/-- A warp-level instruction acts for the sixteen lanes, a per-thread one for the group, and each thread once. -/
theorem witness_slot (w : Nat) : AtSlot (at_ w) (issueOf (at_ w)) (slot0 w) [] := ⟨rfl, rfl⟩

theorem witness_acts : ActsFor x0 hd 2 (List.range 16) ∧ threadsOf x0 hd = group0 ∧ x0.active true hd = group0 ∧
    x0.group.Nodup ∧ (List.range 16).Nodup :=
  ⟨⟨by decide, by decide +kernel⟩, by decide +kernel, by decide +kernel, by decide +kernel, by decide⟩

theorem witness_width : x0.before.widthOf x0.core 2 = 16 ∧ ((List.range 16).map (relative 16)).Pairwise (· < ·) ∧
    (∀ l ∈ List.range 16, l < 64) ∧ (slot0 0).num < 8 := by decide +kernel

/-- The local scratchpad of the small state: steady, no view in use, and address 0 aligned, in range and settled. -/
theorem witness_scratchpad : NoStores s0.now ∧ NoViews s0.now x0.core ∧ Canonical s0.now ∧
    (∀ p ∈ x0.group, ∃ b, s0.now.blockOf x0.core p.1 = some b) ∧
    causeAt (x0.ea { fm with aux := 6 } 2 0) 4 (s0.now.scratchOf 0 2) = none ∧
    passing group0 (fun p => causeAt (x0.ea { fm with aux := 6 } p.1 p.2) 4 (s0.now.scratchOf 0 p.1)) = group0 ∧
    Settled x0.before 0 group0 (fun p => [(s0.now.poolAt 0 p.1 (x0.ea { fm with aux := 6 } p.1 p.2), 4)]) :=
  ⟨⟨by show ∀ k ∈ s0.now.cores, k.storing = []; decide +kernel, rfl⟩, ⟨by decide +kernel, rfl⟩,
    ⟨rfl, by decide +kernel, fun _ h => nomatch h⟩, some_of_all (by decide +kernel), by decide +kernel, by decide +kernel,
    by show ∀ p ∈ group0, ∀ r ∈ _, _ = false; decide +kernel⟩

/-- An address beyond the allocation faults in every thread, and so does a misaligned one. -/
theorem witness_faults :
    (∀ p ∈ group0, causeAt (x0.ea { fm with aux := 6, off := 0x2000 } p.1 p.2) 4 (s0.now.scratchOf 0 p.1) = some 0x08) ∧
    causeAt (x0.ea { fm with minor := 2, off := 1 } 2 0) 4 (s0.now.scratchOf 0 2) = some 0x07 := by decide +kernel


/-- An optional value with a property. -/
theorem some_with {α : Type} {o : Option α} {p : α → Bool} (h : o.any p = true) : ∃ a, o = some a ∧ p a = true := by
  cases o with
  | none => cases h
  | some a => exact ⟨a, rfl, h⟩

/-- What every thread of a core meets, every thread that a lookup finds meets. -/
theorem found_thread {m : Mod} {c : Nat} {p : Thread → Bool}
    (h : ((m.core c).warps.all fun k => k.threads.all p) = true) (w l : Nat) (t : Thread) (ht : m.thread? c w l = some t) :
    p t = true := by
  simp only [Mod.thread?, Mod.warp?, Core.warp?, Option.bind_eq_some_iff] at ht
  obtain ⟨k, hk, ht⟩ := ht
  exact List.all_eq_true.mp (List.all_eq_true.mp h k (List.mem_of_find?_eq_some hk)) t (List.mem_of_find?_eq_some ht)

/-- The module of a state changed. -/
def on (f : Mod → Mod) (s : State) : State := { s with now := f s.now }

/-- A core without waits has none on a flume. -/
theorem no_waits {m : Mod} {c : Nat} (h : (m.core c).waits = []) : NoFlumeWaits m c :=
  fun g hg => by rw [h] at hg; exact nomatch hg

/-- Warp, block and launch of the small group, on a core without views, stores and results. -/
theorem witness_group :
    (∃ k, s0.now.warp? 0 2 = some k ∧ (k.uid == 2 && k.width == 16 && k.expect.isNone && k.jigBusy.isEmpty && k.mstage.isNone) = true) ∧
    (∃ b, s0.now.blockOf 0 2 = some b ∧ (b.cistern.isEmpty && b.mailbox.isEmpty && b.cursor == 0) = true) ∧
    (∃ la, s0.now.launchOf 0 2 = some la ∧ (la.rec_.scratch == 4096 && la.rec_.handler == 0 && !la.rec_.debug) = true) ∧
    (∀ p ∈ x0.group, p.1 = 2 ∧ ∃ t, s0.now.thread? x0.core p.1 p.2 = some t) ∧
    NoStores s0.now ∧ NoViews s0.now 0 ∧ Canonical s0.now ∧ NoFlumeWaits s0.now 0 ∧ Steady s0.now 0 group0 0 64 :=
  ⟨some_with (by decide +kernel), some_with (by decide +kernel), some_with (by decide +kernel),
    fun p hp => ⟨(by decide +kernel : ∀ p ∈ x0.group, p.1 = 2) p hp, some_of_all (f := fun p : Nat × Nat => s0.now.thread? x0.core p.1 p.2) (by decide +kernel) p hp⟩,
    witness_scratchpad.1, ⟨by decide +kernel, rfl⟩, witness_scratchpad.2.2.1,
    no_waits (by decide +kernel), by unfold Steady; decide +kernel⟩

/-- A cluster store to the block's own scratchpad passes its checks; a misaligned one and one outside the range do not. -/
theorem witness_RemoteRequestsSent :
    (∀ w l th, s0.now.thread? 0 w l = some th → th.seen ≤ s0.now.next ∧ ∀ i ∈ th.fwd, i < s0.now.next) ∧
    (match (remotes hd { fm with aux := 0x46 } x0).head? with
      | some r => r.1.wf && r.2.scope == 3 && ((x0.active true hd).all fun p =>
          (r.2.why s0.now x0 { fm with aux := 0x46 } p).isNone &&
          r.2.why s0.now x0 { fm with aux := 0x46, off := 2 } p == some (0x07, 0) &&
          r.2.why s0.now x0 { fm with aux := 0x46, off := 4096 } p == some (0x08, 0))
      | none => false) = true :=
  ⟨fun w l t ht => by
      have h := found_thread (m := s0.now) (c := 0) (p := fun t => t.seen == 0 && t.fwd.isEmpty) (by decide +kernel) w l t ht
      simp only [Bool.and_eq_true, beq_iff_eq, List.isEmpty_iff] at h
      simp [h.1, h.2],
    by decide +kernel⟩

/-- An atomic at block scope; a wait on a word that differs from its register. -/
theorem witness_BlockScopeAndWaitEffects :
    ((Instr.atom hd { fm with minor := 2, aux := 0x46 }).wf && (Instr.wfa hd { fm with minor := 2 }).wf &&
      (Instr.fence hd { fs with minor := 2 }).wf) = true ∧
    (x0.active true hd).length = 16 ∧ Settled x0.before 0 group0 (fun _ => [(0, 4)]) := by
  refine ⟨by decide, by decide +kernel, ?_⟩
  show ∀ p ∈ group0, ∀ r ∈ _, _ = false
  decide +kernel

/-- A term of each transfer, a target outside the address space among them. -/
theorem witness_ControlTransferResults :
    ((Instr.brc hd { fb with minor := 2 }).wf && (Instr.call hd fb).wf) = true ∧
    targetFrom (linear (slotPc x0 (slot0 0))) 0 = some 0 ∧ targetFrom (linear (slotPc x0 (slot0 0))) (-1) = none := by
  decide +kernel

/-- The group of the small state as one of `wsync`: no expectation, and one of another PC, so that it mismatches. -/
theorem witness_WarpSyncEffects :
    ∃ k, s0.now.warp? 0 2 = some k ∧ (k.expect.isNone && (k.width == 16) && !k.threads.any (·.handler)) = true :=
  some_with (by decide +kernel)

/-- The small state with its threads in the handler state. -/
def s0handler : State := both (fun m => group0.foldl (fun m p => m.onThread 0 p.1 p.2 fun t => { t with handler := true }) m) s0

/-- Ordinary threads, threads of a handler, and a launch that may be debugged. -/
theorem witness_TrapInstructionEffects :
    (Instr.trap hd { fs with imm32 := 7 }).wf = true ∧
    (∀ p ∈ threadsOf x0 hd, ∃ t, s0.now.thread? 0 p.1 p.2 = some t ∧ (!t.handler && t.recent.isEmpty) = true) ∧
    (∀ p ∈ threadsOf x0 hd, ∃ t, s0handler.now.thread? 0 p.1 p.2 = some t ∧ t.handler = true) ∧
    (∀ p ∈ threadsOf x0 hd, (s0.now.recOf 0 p.1).debug = false) :=
  ⟨by decide, fun p hp => some_with (List.all_eq_true.mp (by decide +kernel : ((threadsOf x0 hd).all fun p =>
      (s0.now.thread? 0 p.1 p.2).any fun t => !t.handler && t.recent.isEmpty) = true) p hp),
    fun p hp => some_with (List.all_eq_true.mp (by decide +kernel : ((threadsOf x0 hd).all fun p =>
      (s0handler.now.thread? 0 p.1 p.2).any (·.handler)) = true) p hp), by decide +kernel⟩

/-- The small state with the thread of lane 3 changed. -/
def lane3 (f : Thread → Thread) : State := on (fun m => m.onThread 0 2 3 f) s0

/-- A parked thread of a launch without a handler, and a thread whose end has come. -/
theorem witness_HandlerEntryAndThreadEnd :
    (∃ t, (lane3 fun t => { t with run := .parked 0 }).now.thread? 0 2 3 = some t ∧ (t.run == .parked 0) = true) ∧
    (∃ la, (lane3 fun t => { t with run := .parked 0 }).now.launchOf 0 2 = some la ∧ (la.rec_.handler == 0) = true) ∧
    (∃ k, (lane3 fun t => { t with run := .ending 0 }).now.warp? 0 2 = some k ∧
      (((k.thread? 3).any fun t => t.run == .ending 0 && t.task.isNone) && decide (k.threads.map (·.lane)).Nodup) = true) ∧
    (((lane3 id).now.core 0).warps.map (·.uid)).Nodup :=
  ⟨some_with (by decide +kernel), some_with (by decide +kernel), some_with (by decide +kernel), by decide +kernel⟩

/-- A special register that every thread may read, the handler's registers, a level that is not declared, and `mtsr`. -/
theorem witness_SpecialRegisterAccess :
    ((Instr.mfsr hd { fs with sr := 0x002 }).wf && (Instr.mfsr hd { fs with sr := 0x040, dk := true }).wf &&
      (Instr.mfsr hd { fs with sr := 0x020 }).wf && (Instr.mfsr hd { fs with sr := 0x008 }).wf &&
      (Instr.mtsr hd { fs with sr := 0x021, aux := 1 }).wf) = true ∧
    (∃ k, x0.before.warp? 0 2 = some k ∧ (k.uid == 2) = true) ∧
    (∃ la, x0.before.launchOf 0 2 = some la ∧ ((la.rec_.levels.getD 0 0).getLsbD 6 == false) = true) ∧
    (∀ m c k la l, (0x002, BitVec.ofNat 64 c) ∈ plainSpecials m c k la l) ∧
    (∀ t : Thread, (0x020, t.tcause.setWidth 64) ∈ handlerSpecials t) :=
  ⟨by decide, some_with (by decide +kernel), some_with (by decide +kernel), fun _ _ _ _ _ => by simp [plainSpecials],
    fun _ => by simp [handlerSpecials]⟩

/-- A ring, and the launch of the small state with events in it. -/
def s0ring : State := on (fun m => { m with rings := [ringOf 0 4 0 0 0 0], launches := m.launches.map fun l => { l with evOpen := true } }) s0

/-- An aligned record and a queue with room; a ring with room. -/
theorem witness_LaunchAndEventEffects :
    (x0.s 2 0).toNat % 512 = 0 ∧ s0.now.posts.length ≤ Config.postQueueMore ∧
    (∃ la, s0ring.now.launchOf 0 2 = some la ∧ la.evOpen = true) ∧
    (∃ r, s0ring.now.rings.find? (fun r => r.num == 0) = some r ∧ decide (r.tail - r.head + 0 < 2 ^ r.k) = true) :=
  ⟨by decide +kernel, by rw [show s0.now.posts.length = 0 from by decide +kernel]; exact Nat.zero_le _,
    some_with (by decide +kernel), some_with (by decide +kernel)⟩

/-- A request of lane 0 of the small state. -/
def reqOf (place : Place) (what : ReqOp) : Req :=
  { id := 3, core := 0, warp := 2, lane := 0, launch := 1, place := place, what := what, d := 4, deps := [], seen := 0,
    readyAt := 0, gen := 1, acq := false, at_ := 0 }

/-- The small state with that request on its way. -/
def s0req (place : Place) (what : ReqOp) : State := on (fun m => { m with reqs := [reqOf place what], next := 4 }) s0

/-- Requests of each kind that nothing holds back. -/
theorem witness_RequestsPerformed :
    (∀ place ∈ [Place.cluster 0 1 8, .device 64], ∀ what ∈ [ReqOp.store [1, 2, 3, 4], .load .n32 1, .atom .add .n32 4 1 0 true],
      (s0req place what).now.reqs.all (fun r => (s0req place what).now.reqOpen r) = true ∧
      ((s0req place what).now.reqs.map (·.id)).Nodup) ∧
    (∃ b, (s0req (.cluster 0 1 8) (.store [1])).now.block? 0 1 = some b ∧ (b.viewsUsed.isEmpty) = true) :=
  ⟨by decide +kernel, some_with (by decide +kernel)⟩

/-- An address space whose four tables map page 0 to 0x6000. -/
def mapped : Mod := { Mod.reset with
  asids := [{ num := 0, root := 0x5000, wFabric := 16, wSluice := 16, wHome := 16, bindings := [], save := .none }],
  dram := ((((Memory.writeN [] 0x5000 (leBytes 8 0x4001)).writeN 0x4000 (leBytes 8 0x3001)).writeN 0x3000 (leBytes 8 0x2001)).writeN
    0x2000 (leBytes 8 0x1001)).writeN 0x1000 (leBytes 8 0x600F) }

/-- A walk that was asked for and finds its page; one that finds none; a page whose tables are well formed. -/
theorem witness_TranslationWalks :
    mapped.walk 0 0 = some (4096, 0x6000, true, true) ∧ Mod.reset.walk 0 0 = none ∧
    (∃ a, mapped.asid? 0 = some a ∧ (a.root == 0x5000) = true) ∧
    leNat (mapped.dram.readN 0x1000 8) = 0x6000 + 3 + 4 + 8 :=
  ⟨by decide +kernel, by decide +kernel, some_with (by decide +kernel), by decide +kernel⟩

/-- The line of one `nop` at its start, a target. -/
def nopLine : ILine := { asid := 0, va := 0, data := BitVec.ofNat 512 (0x1F + 2 ^ 5 + 2 ^ 32 * (((encodeSlot (.nop hd fv)).map (·.toNat)).getD 0)),
                         bad := none, tries := 0 }

/-- A block of sixteen ready threads at that line, before its issue cycle. -/
def s1 : State :=
  { now := { Mod.onCore (Mod.startBlock { Mod.reset with launches := [fetchLaunch 1], handles := 2 } 0 (fetchLaunch 1)) 0
      (fun k => { k with ilines := [nopLine] }) with clock := 1 }, issue := none }

/-- The bundle of that line. -/
def nopBundle : Bundle := bundleOf nopLine.data 0

/-- A sound and legal bundle that nothing holds. -/
theorem witness_IssueCycleStartsBundle :
    let m := s1.now.runPasses 0
    ((s1.now.core 0).issuedAt != s1.now.clock && ((m.readyThreads 0).length == 16) && pcLegal 0 &&
      ((m.readyThreads 0).all fun r => r.warp == 2 && decide (r.lane < 64) && r.tag == (0, false, false, 0)) &&
      decide ((m.readyThreads 0).map (·.lane)).Nodup && (m.core 0).line? 0 (lineVa 0) == some nopLine &&
      lineKindOk nopLine.data && lineStart nopLine.data 0 && lineTarget nopLine.data 0 && !nopBundle.port &&
      !nopBundle.faults 16 (m.gauge 0 2) && (nopBundle.illegal fetchRec (m.gauge 0 2)).isNone && (m.core 0).reserve.isNone &&
      (m.core 0).reserveH.isNone && (m.core 0).groupTable.isEmpty) = true ∧
    (∃ la, m.launchOf 0 2 = some la ∧ (la.asid == 0 && la.rec_ == fetchRec && !la.rec_.check) = true) ∧
    ∀ w l th, m.thread? 0 w l = some th → (th.fence.isNone &&
      ((m.core 0).heldUntil 1 2 th (nopBundle.accs 16 (m.gauge 0 2))).isNone &&
      ((m.core 0).deferredHits 2 th.lane (nopBundle.accs 16 (m.gauge 0 2))).isEmpty) = true :=
  ⟨by decide +kernel, some_with (by decide +kernel), fun w l t ht => found_thread (m := s1.now.runPasses 0) (c := 0)
    (p := fun th => th.fence.isNone && ((s1.now.runPasses 0).core 0 |>.heldUntil 1 2 th (nopBundle.accs 16 ((s1.now.runPasses 0).gauge 0 2))).isNone &&
      ((s1.now.runPasses 0).core 0 |>.deferredHits 2 th.lane (nopBundle.accs 16 ((s1.now.runPasses 0).gauge 0 2))).isEmpty)
    (by decide +kernel) w l t ht⟩

/-- The error of a translation. -/
def fails (r : Except Bool Nat) : Option Bool := match r with | .error e => some e | .ok _ => none

/-- A line asked for that no table maps, and one that is mapped. -/
theorem witness_LineFetchCompletes :
    let s := on (fun m => m.onCore 0 fun k => { k with lineReqs := [(0, 64)] }) s0
    (s.now.core 0).lineReqs = (0, 64) :: [] ∧ fails (s.now.xlate (.ifetch 0) 0 64 false).1 = some false ∧
    fails ((on (fun _ => mapped) s0).now.xlate (.ifetch 0) 0 64 false).1 = none := by
  refine ⟨?_, ?_, ?_⟩ <;> decide +kernel

/-- The small state with a weir of target 2 and a late arrival at it. -/
def s0weir : State := on (fun m => (m.onBlock 0 1 fun b => { b with weirs := [{ t := 2, c := 0, p := 0 }] }).onCore 0 fun k =>
  { k with late := [{ id := 9, block := 1, weir := 0, n := 1, deps := [] }] }) s0

/-- A weir with a target, an index that the block has not, and a late arrival whose writes are performed. -/
theorem witness_WeirInstructionEffects :
    (∃ b, s0weir.now.blockOf 0 2 = some b ∧ (b.weirs == [{ t := 2, c := 0, p := 0 }] && b.uid == 1) = true) ∧
    (∃ a, (s0weir.now.core 0).late.find? (fun a => a.id == 9) = some a ∧ (s0weir.now.allPerformed a.deps && a.block == 1) = true) ∧
    s0weir.now.allPerformed (s0weir.now.releaseSet 0 2 (List.range 16)) = true :=
  ⟨some_with (by decide +kernel), some_with (by decide +kernel), by decide +kernel⟩

/-- The gauges of the small launch store 8-bit integers. -/
theorem witness_GaugeConversionResults :
    ∀ p ∈ threadsOf x0 hd, (gaugeOf ((x0.before.recOf 0 p.1).gauges.getD 0 0)).fmt = 0 := by decide +kernel

/-- A record of one axis of one element of type .n32, at an offset. -/
def tile (base : Nat) : BitVec 512 := BitVec.ofNat 512 (base + 2 ^ 64 + 4 * 2 ^ 128 + 6 * 2 ^ 160 * 2 ^ 160)

/-- The sweep of a copy of tile 1 to tile 0. -/
def copySweep : Sweep :=
  { id := 9, block := 1, warp := 2, lanes := List.range 16, op := 0, x := 0, y := 1, z := 0, scalar := 0, d := 8, pc := 0,
    slot := 0, readyAt := 0, after := 0, deps := [], again := false, taint := [] }

/-- The small state with two tiles in its jig registers and that sweep. -/
def s0jig : State := on (fun m => (m.onWarp 0 2 fun w =>
  { w with jigs := setR (setR w.jigs 0 (tile 0)) 1 (tile 64) }).onCore 0 fun k => { k with sweeps := [copySweep] }) s0

/-- Legal tiles of one shape, apart and inside the scratchpad, and a sweep over them. -/
theorem witness_JigEffects :
    (∃ k, s0jig.now.warp? 0 2 = some k ∧ (k.jigBusy.isEmpty && jigLegal (getR k.jigs 0) && jigLegal (getR k.jigs 1) &&
      !(jigOf (getR k.jigs 0)).gen && linIndex (jigOf (getR k.jigs 0)).ctr (jigOf (getR k.jigs 0)).ext == 0 &&
      (jigOf (getR k.jigs 0)).count == 1 && (jigOf (getR k.jigs 1)).count == 1) = true) ∧
    (s0jig.now.core 0).warpOrEnded? 2 = s0jig.now.warp? 0 2 ∧ s0jig.now.frozen 0 = false ∧
    TileInside (jigOf (tile 0)) (jigOf (tile 0)).ext 1 4096 ∧ TileInside (jigOf (tile 64)) (jigOf (tile 0)).ext 1 4096 ∧
    jigLegal 0 = false :=
  ⟨some_with (by decide +kernel), by decide +kernel, by decide +kernel, by unfold TileInside; decide +kernel,
    by unfold TileInside; decide +kernel, by decide +kernel⟩

/-- The launch of the small state with its record changed. -/
def s0rec (f : LRec → LRec) : State := both (fun m => { m with launches := m.launches.map fun l => { l with rec_ := f l.rec_ } }) s0

/-- The words of a load of 16 rows and 32 columns of bytes from offset 0 of the block. -/
def loadWords : List W64 := [0, 0, 0, BitVec.ofNat 64 (16 + 32 * 2 ^ 16), 0, 0, 0, 0]

/-- A staged block of a kind. -/
def stageOf (kind : MKind) : MStage :=
  { id := 3, places := [none, none, some (0, 1, 0)], off := 0, kind := kind, words := loadWords, readyAt := 0, taint := [],
    ztaint := [], spans := [] }

/-- A block that `mopf` accepts, one that it does not, and a staged product. -/
theorem witness_MatrixInstructionEffects :
    (s0rec fun r => { r with accsize := 4096 }).now.paramOk 0 2 .load loadWords = true ∧
    s0.now.paramOk 0 2 .load loadWords = false ∧ (s0.now.core 0).mq.length < 4 ∧
    (∃ k, (on (fun m => m.onWarp 0 2 fun w => { w with mstage := some (stageOf .product) }) s0).now.warp? 0 2 = some k ∧
      (k.mstage == some (stageOf .product)) = true) := by
  refine ⟨?_, ?_, ?_, some_with ?_⟩ <;> decide +kernel

/-- An accumulator that no operation and no completion touches. -/
theorem witness_AccumulatorAccess :
    (s0.now.core 0).mq = [] ∧ (∀ k ∈ (s0.now.core 0).warps, k.mstage = none) ∧ (s0.now.core 0).mdone = [] ∧
    ((Instr.mrd hd { fm with minor := 2 }).wf && (Instr.mwr hd { fm with minor := 10 }).wf) = true := by
  refine ⟨?_, ?_, ?_, ?_⟩ <;> decide +kernel

/-- An operation of a kind whose cycles are over, alone in its queue. -/
def doneOp (kind : MKind) (places : List (Option (Nat × Nat × Nat))) (words : List W64) : MOp :=
  { id := 3, places := places, wild := false, ticket := 0, launch := 1, block := 1, kind := kind, off := 0, words := words,
    kdone := 0, readyAt := some 0, taint := [], ztaint := [], spans := [], waiters := [] }

/-- The small state with that operation. -/
def s0op (o : MOp) : State := on (fun m => m.onCore 0 fun k => { k with mq := [o] }) s0

/-- The words of a product of 16 by 32 by 16. -/
def productWords : List W64 := [0, 1024, 0, BitVec.ofNat 64 (16 + 16 * 2 ^ 16 + 32 * 2 ^ 32), 0, 0, 0, 0]

/-- Operations of each kind that were left alone, with their places; one of a block that cannot be reached. -/
theorem witness_MatrixEngineSteps :
    (∀ o ∈ [doneOp .product [some (0, 1, 0), some (0, 1, 1024), none] productWords, doneOp .load [none, none, some (0, 1, 0)] loadWords,
        doneOp .store [none, none, some (0, 1, 0)] loadWords, doneOp .zero [none, none, none] [0, 8]],
      (s0op o).now.frozen ((s0op o).now.asidOf o.launch) = false ∧ (o.kind = .zero ∨ (s0op o).now.reachable o = true) ∧
      ((s0op o).now.opGauge o 2).fmt < 14 ∧ (productPath ((s0op o).now.opGauge o 0) ((s0op o).now.opGauge o 1)).isSome) ∧
    (∃ b, (s0op (doneOp .zero [] [0, 8])).now.block? 0 1 = some b ∧ (b.uid == 1) = true) ∧
    (s0op (doneOp .load [none, none, some (0, 7, 0)] loadWords)).now.reachable (doneOp .load [none, none, some (0, 7, 0)] loadWords) = false := by
  refine ⟨?_, some_with ?_, ?_⟩ <;> decide +kernel

/-- Words of a sluice request: 4 bytes from offset 0 to offset 64 of the block's scratchpad. -/
def slWords : List W64 := [0x0100000000000000, 0x0100000000000040, 4, BitVec.ofNat 64 (2 * 2 ^ 9)]

/-- The small state with that request staged. -/
def s0sl : State := on (fun m => m.onWarp 0 2 fun w => { w with slStage := slWords.map some }) s0

/-- A staged request that every check lets through, with room in the queue, and a word to arm it on. -/
theorem witness_SluiceInstructionEffects :
    (∃ k, s0sl.now.warp? 0 2 = some k ∧ (k.slStage == slWords.map some) = true) ∧
    (∃ b, s0sl.now.blockOf 0 2 = some b ∧ (b.weirs.isEmpty) = true) ∧
    LegalShape (getR slWords 2) ∧ LegalCompletion (getR slWords 3) (getR slWords 2) 0 4096 ∧
    LegalPlace s0sl.now 0 2 (getR slWords 0) 4 ∧ LegalPlace s0sl.now 0 2 (getR slWords 1) 4 ∧ causeAt 0 4 4096 = none ∧ (s0.now.core 0).slq = [] ∧
    (s0.now.core 0).arms = [] :=
  ⟨some_with (by decide +kernel), some_with (by decide +kernel), by unfold LegalShape; decide +kernel,
    by unfold LegalCompletion; decide +kernel, ⟨by decide, .inr (.inl (by decide))⟩,
    ⟨by decide, .inr (.inl (by decide))⟩, by decide,
    by decide +kernel, by decide +kernel⟩

/-- That request, running. -/
def slReq : SReq :=
  { handle := 0, launch := 1, block := 1, words := slWords, code := 1, landed := 0, chunks := [0], begun := [], kept := [], far := [],
    deps := [] }

/-- The small state with it, or with the same waiting to begin. -/
def s0run (code : Nat) : State := on (fun m => m.onCore 0 fun k => { k with slq := [{ slReq with code := code }] }) s0

/-- The place of a byte of a request. -/
def placeOf (r : Except Nat BytePlace × Mod) : Option BytePlace := match r.1 with | .ok p => some p | .error _ => none

/-- A module none of whose blocks has a view in use. -/
theorem no_views {m : Mod} (h : ∀ k ∈ m.cores, ∀ b ∈ k.blocks, b.viewsUsed = []) (hl : m.leat.hot = []) (d : Nat) :
    NoViews m d := by
  refine ⟨?_, hl⟩
  cases hc : m.cores.find? (fun k => k.num == d) with
  | none => simp [Mod.core, hc, Core.idle]
  | some k => simpa [Mod.core, hc] using h k (List.mem_of_find?_eq_some hc)

/-- A running request whose one chunk can be reached on both sides, and one that waits to begin. -/
theorem witness_SluiceSteps :
    ((s0run 1).now.core 0).slq = [] ++ slReq :: [] ∧ (s0run 0).now.allPerformed slReq.deps = true ∧
    (∀ d, NoViews (s0run 1).now d) ∧ payloadOf 4 = 4 ∧
    (∀ j < 4, placeOf ((s0run 1).now.slByteAt 0 slReq 0x0100000000000000 (sideAt 4 false j) false) = some (.pool 0 j)) ∧
    (∀ j < 4, placeOf ((s0run 1).now.slByteAt 0 slReq 0x0100000000000040 (sideAt 4 true j) true) = some (.pool 0 (64 + j))) := by
  refine ⟨by decide +kernel, by decide +kernel, no_views (by decide +kernel) rfl, by decide, by decide +kernel, by decide +kernel⟩

/-- A grid context of two modules on one axis: this one is coordinate 0, the other is reached over link 0. -/
def grid0 : GridCtx :=
  { num := 0, n := 1, ext := [2, 0, 0, 0, 0], coord := 0, asids := 1, rules := [
      { w0 := 0, w1 := BitVec.ofNat 64 (31 * 2 ^ 12) }, { w0 := BitVec.ofNat 64 (2 ^ 48), w1 := BitVec.ofNat 64 (1 + 2 ^ 20) }],
    allowance := 4, verMajor := 1, verMinor := 0, active := true }

/-- Link 0 up, with every capability. -/
def link0 : Link :=
  { num := 0, up := true, working := [0, 1], lanes := [0, 1], major := 2, minor := 1, caps := 15, steps := (1, 0, 0), stop := 0,
    txq := [], sent := [[1]], again := [], replays := 0, asked := [] }

/-- The small state with its launch on that grid, of blocks that other modules may name. -/
def s0grid : State := both (fun m => { m with grids := [grid0], links := [link0], launches := m.launches.map fun l =>
  { l with rec_ := { l.rec_ with axes := 1, grid := 0 } } }) s0

/-- The instructions' rows at issue on that grid, with count word 0. -/
def rows0 (b : Block) (la : Launch) : List FabRow :=
  fabricRows hd { fe with minor := 6 } x0 { m := s0grid.now, c := 0, w := 2, ls := List.range 16, g := grid0, la := la, b := b, n := 0 }

/-- A launch on a grid, a legal pattern and one that is not, and a descriptor, target and count word in range. -/
theorem witness_FabricOperationsIssued :
    s0grid.now.gridOf 0 2 = some grid0 ∧ LegalPattern grid0 0 1 ∧ ¬LegalPattern grid0 1 0 ∧ coordinates grid0 0 1 = 2 ∧
    LegalTarget 0x0300000000000000 ∧ LegalDescriptor (BitVec.ofNat 64 (8 * 2 ^ 21)) 0x0300000000000000 false 4096 ∧
    (∃ la, s0grid.now.launchOf 0 2 = some la ∧ (la.rec_.scratch == 4096) = true) ∧ s0grid.now.fabOps = [] ∧
    ((Instr.fst hd { fe with minor := 6 }).wf && (Instr.fld hd { fe with minor := 6 }).wf && (Instr.fcopy hd { fe with minor := 6 }).wf &&
      (Instr.fatom hd { fe with minor := 6, cmd := 6 }).wf && (Instr.fred hd { fe with minor := 6, cmd := 6 }).wf) = true :=
  ⟨by decide +kernel, by unfold LegalPattern; decide +kernel, by unfold LegalPattern; decide +kernel, by decide +kernel,
    by unfold LegalTarget; decide, by unfold LegalDescriptor; decide +kernel, some_with (by decide +kernel), by decide +kernel,
    by decide +kernel⟩

/-- A group of the grid's state that waits on a count word until a deadline. -/
def wait0 (wait : Wait) : GWait :=
  { id := 9, warp := 2, lanes := [0], wait := wait, pc := 0, since := 0, timers := [], told := [], met := none }

/-- The small state with that wait. -/
def s0wait (wait : Wait) : State := on (fun m => m.onCore 0 fun k => { k with waits := [wait0 wait] }) s0grid

/-- A count word that meets its threshold, one that does not, and waits of each kind whose deadline has passed. -/
theorem witness_CountWordAccess :
    Met none 0 ∧ ¬Met (some 1) 0 ∧
    (∀ wait ∈ [Wait.count 0 (some 1) 8 (some 0), .canal 0 0 0 1 8 (some 0), .leat 0 8 (some 0)],
      ((s0wait wait).now.core 0).waits.find? (fun y => y.id == (wait0 wait).id) = some (wait0 wait)) ∧
    (∃ b, (s0wait (.count 0 (some 1) 8 (some 0))).now.blockOf 0 2 = some b ∧ (b.uid == 1) = true) ∧ s0grid.now.tick = 0 :=
  ⟨by unfold Met; decide, by unfold Met; decide, by decide +kernel, some_with (by decide +kernel), by decide +kernel⟩

/-- A request packet of context 0 that stores eight bytes at offset 16 of block slot 0 of core 0. -/
def store8 : Packet :=
  { op := 0, hop := 1, lnd := false, err := false, cn := false, tree := false, ctx := 0, asid := 0, lows := 0, highs := 0,
    addr := 0x0300000000000010, src := 1, core := 0, cnt := 0, len := 8, tag := 7, opd0 := 0, opd1 := 0, pay := List.replicate 8 1 }

/-- The completion of an operation. -/
def done8 : Packet := { store8 with op := 7, cls := true, len := 1, pay := [] }

/-- A header that is in order and one that is not; a packet for this module, one to send on, and one queued for the block that it
names; a store of this module's own that may leave. -/
theorem witness_FabricRequestSteps :
    LegalHeader store8 ∧ ¬LegalHeader { store8 with resv1 := 1 } ∧ s0grid.now.grid? 0 = some grid0 ∧ s0grid.now.grid? 1 = none ∧
    s0grid.now.expand grid0 store8 = [.here store8] ∧
    s0grid.now.expand grid0 { store8 with lows := 1, highs := 1 } = [.link 0 { store8 with lows := 1, highs := 1, hop := 2 }] ∧
    (∃ b, s0grid.now.block? 0 1 = some b ∧ (s0grid.now.gridSpot 0 0 0 0 == some (.live 0 b.uid, 4096)) = true) ∧
    firstOfSource [({ pkt := store8, left := [(0, 8)] } : Inbound)] = [{ pkt := store8, left := [(0, 8)] }] := by
  refine ⟨by unfold LegalHeader; decide, by unfold LegalHeader; decide, ?_, ?_, ?_, ?_, some_with ?_, ?_⟩ <;> decide +kernel

/-- A store of core 0 whose count word is word 0. -/
def fabOp0 : FabOp :=
  { id := 7, core := 0, block := 1, warp := 2, lanes := [0], launch := 1, pkt := store8, left := 1, dest := none, ty := .n64, deps := [],
    src := 0, len := 0, sent := 0, image := [], spans := [], dspans := [], newer := [], taint := [], seen := 0, unsent := false, fwd := [], done := [] }

/-- A completion that finds its operation. -/
theorem witness_FabricCompletionSteps :
    LegalHeader done8 ∧ s0grid.now.expand grid0 done8 = [.here done8] ∧
    [fabOp0].find? (fun o => o.id % 2 ^ 32 == done8.tag && o.pkt.op != 6 && o.pkt.ctx == done8.ctx) = some fabOp0 ∧
    s0grid.now.portQ = [] := by
  refine ⟨by unfold LegalHeader; decide, ?_, ?_, ?_⟩ <;> decide +kernel

/-- An offer that trains, and a link that takes what the other side does. -/
theorem witness_LinkEventEffects :
    s0grid.now.link? 0 = some link0 ∧ s0grid.now.link? 5 = none ∧ lanesFor 15 [0, 1, 2] = [0, 1, 2] ∧ lanesFor 14 [0, 1, 2] = [0, 1] ∧
    lanesFor 14 [1] = [] := by decide +kernel

/-- The small state in a formed Canal group of two. -/
def s0canal : State := both (fun m => { m with canal := { Canal.idle with group := some 3, n := 2, formed := true } }) s0

/-- A member and a module that is none; a word that meets its condition. -/
theorem witness_CanalInstructionEffects :
    Member s0canal.now.canal ∧ ¬Member s0.now.canal ∧ Meets 0 0 0 ∧ ¬Meets 0 0 1 ∧ s0canal.now.canal.q.length < 64 :=
  ⟨by unfold Member; decide +kernel, by unfold Member; decide +kernel, Nat.le_refl _,
    fun h => absurd (show (1#64).toNat ≤ (0#64).toNat from h) (by decide), by decide +kernel⟩

/-- A frame of member 1 with one entry. -/
def frame0 : Frame :=
  let f : Frame := { group := 3, sender := 1, resv := 0, kind := 0, seq := 0, len := 16, crc := 0, pay := leBytes 8 5 ++ leBytes 8 9 }
  { f with crc := frameCrc f }

/-- A frame whose turn it is, one ahead, one with a bad checksum, and one of a bad sender. -/
theorem witness_CanalPortSteps :
    frameCrc frame0 = frame0.crc ∧ frameCrc { frame0 with pay := [1] } ≠ frame0.crc ∧ frame0.seq = s0canal.now.canal.next ∧
    s0canal.now.canal.held = [] ∧ frame0.pay.length = 16 ∧ s0canal.now.canal.group = some 3 ∧
    afterEntry 1 frame0.pay 1 5 0 0 = 9 := by decide +kernel

/-- The words of a run block with its program at 0, over the whole grid, and its record at 64. -/
def runWords : List W64 := [0, 0, 1, 5, 64, 0, 0, 0]

/-- A run that the checks let through, with room for its context; handles known and not known. -/
theorem witness_LeatInstructionEffects :
    causeAt 0 64 4096 = none ∧ LegalPattern grid0 (getR runWords 1) (getR runWords 2) ∧
    (∀ b la, la.rec_.scratch = 4096 → LegalRun s0grid.now b la grid0 runWords) ∧ s0grid.now.leat.ctxs = [] ∧
    LeatStatus s0grid.now 0 0 6 := by
  refine ⟨by decide, by unfold LegalPattern; decide +kernel, fun b la h => ?_, by decide +kernel, ?_⟩
  · unfold LegalRun
    rw [h, show s0grid.now.leat.ctxs = [] from by decide +kernel]
    exact ⟨by decide, by decide, by decide, by decide, by decide, fun h => absurd h (by decide), by decide, by decide, by decide,
      by decide, by decide, by decide, by decide, fun y hx => nomatch (show y ∈ ([] : List LtCtx) from hx)⟩
  · have h : ¬1 ≤ (s0grid.now.leat.counters.getD 0 0 - (0#64).extractLsb' 0 32).toNat := by decide +kernel
    exact ⟨fun _ => rfl, fun k => absurd k.2.2.1 h, fun k => absurd k.2.2.1 h, fun k => absurd k.2.2.1 h⟩

/-- A context at its first step, of a run of the small state's block. -/
def run0 : LtCtx :=
  { die := 0, handle := 0, core := 0, block := 1, launch := 1, grid := 0, asid := 0, prog := 0, lows := 0, highs := 1, key := 5,
    weir := none, rec_ := 64, cn := false, kth := 0, admitted := true, step := 0, values := [0, 0, 0, 0], trips := [0, 0, 0, 0],
    store := [], out := [], sentNum := [], takenNum := [], sentB := 0, recvB := 0, zeros := 0, subn := 0, infs := 0, nans := 0,
    emax := 0, emin := 255, bins := [], err := false, met := false, deps := [] }

/-- The grid's state with that context, and a delivery of it. -/
def s0leat (out : List Delivery) : State := on (fun m => { m with leat := { m.leat with ctxs := [{ run0 with out := out }] } }) s0grid

/-- A delivery of eight bytes to coordinate 1. -/
def delivery0 : Delivery := { id := 4, peer := 1, num := 0, pay := List.replicate 8 1, sent := 0, parked := false }

/-- Leat data for that run, from coordinate 1. -/
def leat8 : Packet := { store8 with op := 8, opd0 := 5, opd1 := BitVec.ofNat 64 (8 * 2 ^ 32), lows := 0, highs := 1, addr := 0 }

/-- A context that may step, at an end step; a message for it; a delivery to send on, and its notice. -/
theorem witness_LeatEngineSteps :
    MayStep (s0leat []).now run0 ∧ (s0leat []).now.leat.ctxs.filter (fun y => y.die == run0.die) = run0 :: [] ∧
    run0.prog + 8 * run0.step + 8 ≤ (s0leat []).now.ltScratch run0 ∧
    (∃ b, (s0leat []).now.block? 0 1 = some b ∧ (stepWord (s0leat []).now run0 b == 0) = true) ∧
    LegalHeader leat8 ∧ run0.isFor leat8 = true ∧ part leat8.opd1 32 32 = leat8.pay.length ∧
    (s0leat []).now.expand grid0 { leat8 with lows := 0, highs := 0 } = [.here { leat8 with lows := 0, highs := 0 }] ∧
    (s0leat [delivery0]).now.backwaterOpen 1 1 = true ∧ LegalHeader { done8 with opd1 := 1, tag := 4 } ∧
    (s0leat [delivery0]).now.grid? 0 = some grid0 := by
  refine ⟨⟨rfl, ?_, ?_⟩, ?_, ?_, some_with ?_, by unfold LegalHeader; decide, ?_, ?_, ?_, ?_, by unfold LegalHeader; decide, ?_⟩ <;>
    decide +kernel

/-- The small state as one of a task: its launch has a tile, views and a cistern, and its threads spawn. -/
def s0task : State := both (fun m => (m.onBlock 0 1 fun b => { b with joins := [{ count := 0, poison := 0 }] })) (s0rec fun r =>
  { r with cistoff := 1024, cistlen := 4, vnrwords := 8, vnrpool := 2048, vnrviews := 2, tiles := [BitVec.ofNat 64 (2 ^ 32 + 6 * 2 ^ 24)] })

/-- A mask of one declared tile, a counter at zero, and room in the millrace; ordinary threads. -/
theorem witness_TaskInstructionEffects :
    (∀ l ∈ List.range 16, (s0task.now.threadView 0 2 l 0).isSome = true) ∧ (1#64).toNat < 256 ∧
    ((List.range 8).filter fun t => (1#64).getLsbD t).length ≤ 4 ∧
    (∃ la, s0task.now.launchOf 0 2 = some la ∧ ((la.rec_.tiles.getD 0 0).getLsbD 32) = true) ∧
    (∃ b, s0task.now.blockOf 0 2 = some b ∧ (b.mailbox.isEmpty && b.cistern.isEmpty && b.joins == [{ count := 0, poison := 0 }]) = true) ∧
    (s0task.now.core 0).millrace.length + 16 ≤ 32 ∧ s0task.now.kids = [] ∧
    (∀ p ∈ x0.active true hd, ∃ t, x0.before.thread? 0 p.1 p.2 = some t ∧ t.task.isNone = true) := by
  refine ⟨?_, by decide, by decide, some_with ?_, some_with ?_, ?_, ?_, fun p hp => some_with (List.all_eq_true.mp
    (?_ : ((x0.active true hd).all fun p => (x0.before.thread? 0 p.1 p.2).any (·.task.isNone)) = true) p hp)⟩ <;> decide +kernel

/-- An element of a thread's view; a victim's address that is none; a cutting list in range. -/
theorem witness_VeneerStealAndCutEffects :
    (∀ p ∈ group0, (elementAt s0task.now (issueOf s0task) { fv with minor := 2 } (s0task.now.recOf 0 2) p).any
      (fun a => decide (s0task.now.poolAt 0 p.1 0 ≤ a)) = true) ∧
    (Instr.vnrUpd hd { fv with minor := 2 }).wf = true ∧ (∀ b tc v, ¬VictimAt s0.now 0 b 0x1000 tc v) ∧
    (s0.now.recOf 0 2).cutoff + 4 ≤ 4096 := by
  refine ⟨?_, by decide, fun b tc v h => absurd h.1 (by decide), ?_⟩ <;> decide +kernel

/-- A record of the small state's block. -/
def task0 : TaskRec := { id := 3, block := 1, pay := [], entry := 0, mask := 0, deps := [], wild := false }

/-- A child of lane 0 that has ended, with a view of tile 0. -/
def kid0 : Child :=
  { id := 3, parent := .thread 2 0, core := 0, block := 1, counter := 0, mask := 1, views := [(0, 0)], viewCore := 0, viewBlock := 1,
    ended := true, poisoned := false, marked := false, counted := true, wild := false, deps := [] }

/-- A record in the millrace, or in a cistern. -/
def s0wave (mill cistern : List TaskRec) : State := on (fun m => (m.onCore 0 fun k => { k with millrace := mill }).onBlock 0 1 fun b =>
  { b with cistern := cistern }) s0task

/-- That child, whose parent waits for it. -/
def s0fold : State := on (fun m => Mod.onCore { m with kids := [kid0] } 0 fun k => { k with waits := [wait0 (.join 0 8)] }) s0task

/-- Records that form a wave, one that moves to the millrace, and a child that folds. -/
theorem witness_TaskEngineSteps :
    ((s0wave [task0] []).now.core 0).taskAt ≤ (s0wave [task0] []).now.clock ∧
    (s0wave [task0] []).now.waveRoom 0 { fetchRec with partition := 31 } = true ∧ (s0wave [task0] []).now.frozen 0 = false ∧
    (∃ b, (s0wave [] [task0]).now.block? 0 1 = some b ∧ (b.cistern == [task0]) = true) ∧
    s0fold.now.kid? 3 = some kid0 ∧ s0fold.now.foldAllowed kid0 = true ∧
    (s0fold.now.kidView kid0 0).isSome = true ∧ (s0fold.now.parentView kid0 0).isSome = true := by
  refine ⟨?_, ?_, ?_, some_with ?_, ?_, ?_, ?_, ?_⟩ <;> decide +kernel

/-- A flume of four entries with one word in it, and an empty one. -/
def s0flume : State := on (fun m => m.onBlock 0 1 fun b => { b with flumes := [
  { base := 0, e := 4, a := 2, head := 0, tail := 1, count := 1 }, { base := 64, e := 4, a := 4, head := 0, tail := 0, count := 0 }] }) s0

/-- A legal descriptor, and flumes that hold a word, hold none, and are not there. -/
theorem witness_FlumeInstructionEffects :
    LegalFlume (BitVec.ofNat 64 (4 * 2 ^ 32 + 4 * 2 ^ 48)) 4096 ∧ ¬LegalFlume 0 4096 ∧
    (∃ b, s0flume.now.blockOf 0 2 = some b ∧ (b.flumes.length == 2) = true) ∧ NoFlumeWaits s0flume.now 0 :=
  ⟨by unfold LegalFlume; decide, by unfold LegalFlume; decide, some_with (by decide +kernel), no_waits (by decide +kernel)⟩

/-- An address space whose page 0 the launch unit has walked to 0x6000. -/
def walked : Mod := { mapped with tlb := [{ who := .launch, asid := 0, va := 0, size := 4096, pa := 0x6000, rd := true, wr := true }] }

/-- A record on that page is in device memory. -/
theorem record_walked : RecordAt walked 0 0 0x6000 := by
  refine ⟨by decide, fun o ho => ?_⟩
  have hc : walked.cached .launch 0 o = some { who := .launch, asid := 0, va := 0, size := 4096, pa := 0x6000, rd := true, wr := true } := by
    have h : o < 4096 := by omega
    simp [Mod.cached, walked, h]
  simp [Mod.xlate, hc]

/-- A result that is decided to be a value. -/
theorem ok_of {α : Type} [DecidableEq α] {r : Except Bool α × Mod} {a : α} {m : Mod}
    (h : (match r.1 with | .ok b => decide (b = a) && decide (r.2 = m) | .error _ => false) = true) : r = (.ok a, m) := by
  obtain ⟨v, n⟩ := r
  cases v with
  | error e => cases h
  | ok b =>
    simp only [Bool.and_eq_true, decide_eq_true_eq] at h
    rw [h.1, h.2]

/-- A launch that waits in its queue, and one that is over. -/
def queued0 : Launch := { fetchLaunch 1 with status := 3, rec_ := { fetchRec with partition := 31 } }

/-- A post of a record that fails its checks; a head that can begin and fits; a launch that is over. -/
theorem witness_LaunchAdmissionSteps :
    (∃ bs, Posted walked { deps := [], asid := 0, addr := 0 } bs 0x6000 (0, 0, noted walked 0x6000 0x180 4 7)) ∧
    (let m := { walked with launches := [queued0], queue := [1] };
     m.canBegin queued0 && !m.neverBegins queued0 && m.fitsEmpty queued0.rec_ && m.gridOk queued0) = true ∧
    LaunchOver walked { queued0 with status := 4, placed := 1, ended := 1 } := by
  refine ⟨⟨walked.dram.readN 0x6000 512, ?_, record_walked, .inr (.inl ⟨?_, ?_, rfl⟩)⟩, ?_, ?_⟩
  · exact ok_of (by decide +kernel)
  · decide +kernel
  · decide +kernel
  · decide +kernel
  · exact ⟨rfl, rfl, rfl, fun _ h => (nomatch h), fun _ h => (nomatch h)⟩

/-- A launch to be placed on core 3. -/
def pinned0 : Launch := { fetchLaunch 1 with rec_ := { fetchRec with partition := 31, pinned := true, core := 3 } }

/-- A module with it admitted. -/
def admitted0 : Mod := { Mod.reset with launches := [pinned0], handles := 2 }

/-- A launch whose block fits its core; a block whose threads have ended; a launch that waits for its start. -/
theorem witness_PlacementSteps :
    admitted0.placing = some pinned0 ∧ admitted0.coreFor pinned0 = some 3 ∧ pinned0.rec_.preloadLen = 0 ∧
    (let m := s0.now.onCore 0 fun k => { k with warps := [] };
     ((m.core 0).blockIn? 0).any fun b => b.started && !b.held && b.cistern.isEmpty && b.mailbox.isEmpty && b.uid == 1) = true ∧
    (s0.now.core 0).millrace = [] ∧ (s0.now.core 0).sweeps = [] ∧ (s0.now.core 0).mq = [] := by
  refine ⟨?_, ?_, ?_, ?_, ?_, ?_, ?_⟩ <;> decide +kernel

/-- The small state with its threads blocked, and a launch of a higher priority that needs their frame. -/
def s0evict : State := on (fun m => (each { m with launches := (m.launches.map fun l => { l with rec_ := { l.rec_ with saves := 1 } }) ++
  [{ fetchLaunch 5 with rec_ := { fetchRec with pinned := true, priority := 1 } }] } 0 group0 fun _ t => { t with run := .blocked 9 }).onCore 0
    fun k => { k with waits := [wait0 (.weir 0 0)] }) s0

/-- A warp to evict; a page whose generation is over; an event for a ring with room. -/
theorem witness_EvictionAndEventSteps :
    (s0evict.now.toEvict 0).any (fun w => w.uid == 2) = true ∧ s0.now.toEvict 0 = none ∧
    (s0evict.now.core 0).stepping (wait0 (.weir 0 0)) = false ∧ s0evict.now.external 0 (wait0 (.weir 0 0)) = false ∧
    (let m := { Mod.reset with pond := [{ pa := 0, size := 4096, gen := 0 }] }; m.pond.all fun p => decide (p.gen < m.gen)) = true ∧
    (ringOf 0 4 0 0 0 0).tail - (ringOf 0 4 0 0 0 0).head < 2 ^ 4 := by
  refine ⟨?_, ?_, ?_, ?_, ?_, ?_⟩ <;> decide +kernel

/-- An address space in a state of saving. -/
def asid0 (save : SaveState) : Asid :=
  { num := 0, root := 0, wFabric := 16, wSluice := 16, wHome := 16, bindings := [], save := save }

/-- The small state with it. -/
def s0save (save : SaveState) : State := on (fun m => { m with asids := [asid0 save] }) s0

/-- A save that waits for its point and one that is complete; a core whose pipes and engines stand still. -/
theorem witness_SaveAndRestoreSteps :
    (∀ save ∈ [SaveState.pending 0 0 0, .stopped true 0 0, .restoring 0], (s0save save).now.asid? 0 = some (asid0 save)) ∧
    (∀ k ∈ (s0save (.stopped true 0 0)).now.cores, k.flights = [] ∧ k.mq = [] ∧ k.slq = [] ∧ k.passes = []) ∧
    (∀ k ∈ s0weir.now.cores, ∀ b ∈ k.blocks, ∀ w ∈ b.weirs, w.c = 0) ∧ Mod.reset.leatRoom [] = true ∧
    (Mod.reset.unsaveAll []).isSome = true := by
  refine ⟨?_, ?_, ?_, ?_, ?_⟩ <;> decide +kernel

/-- A valid firmware image in the slot written last. -/
theorem witness_PortTimerAndBoardEvents :
    Boots Mod.reset.security 0 { index := 0, digest := 0 } ∧ (∀ slot img, ¬Boots { Mod.reset.security with slots := [none, none] } slot img) := by
  refine ⟨⟨rfl, Nat.le_refl _, .inl rfl⟩, fun slot img h => ?_⟩
  have := h.1
  match slot with
  | 0 => simp at this
  | 1 => simp at this
  | n + 2 => simp at this

/-- A management session that has proved itself, next to hear command 1. -/
def session0 : Session :=
  { num := 1, tenant := false, proved := true, asids := 0, major := 1, minor := 2, caps := 7, challenge := 0, next := 1, held := [],
    replies := [], last := 0 }

/-- Its command 1, with a payload. -/
def cmd0 (pay : List Byte) : Cmd := { major := 1, minor := 2, flags := 0, session := 1, seq := 1, status := 0, resv := 0, pay := pay }

/-- A module with that session. -/
def hosted : Mod := { Mod.reset with sessions := [session0] }

/-- A command in its turn, permitted, of fields alone; one of another length; an open command; a number ahead. -/
theorem witness_HostCommandEffects :
    (∀ pay, InTurn hosted session0 (cmd0 pay)) ∧ Manages session0 ∧ FieldsOnly 1 [(0, 1)] [3] ∧ ¬FieldsOnly 1 [(0, 1)] [] ∧
    ¬FieldsOnly 1 [(0, 1)] [3, 1] ∧ cmdPlain { cmd0 [] with session := 0 } = true := by
  refine ⟨fun _ => ⟨by unfold AllAwake; decide +kernel, List.mem_singleton.mpr rfl, by decide, rfl, rfl, rfl, rfl, rfl,
    (by decide : 0 < 4), rfl, rfl⟩, ⟨rfl, rfl⟩,
    ⟨by decide, by decide⟩, fun h => absurd h.1 (by decide), fun h => absurd (h.2 1 (by decide)) (by decide), by decide +kernel⟩

/-- The bytes of a grid context image: one axis of one module, without rules. -/
def image0 : List Byte := 1 :: 0 :: 1 :: List.replicate 21 0 ++ [1, 0, 0, 0, 1] ++ List.replicate 99 0

/-- A grid context image that loads, and payloads of commands that act for address spaces. -/
theorem witness_ContextCommandEffects :
    (match gridImage 0 image0 with | .ok g => g.n == 1 && g.allowance == 1 | .error _ => false) = true ∧ hosted.gridBusy 0 = false ∧
    ActsForAsid session0 0 ∧ hosted.canal.group = none ∧ hosted.leat.ctxs = [] ∧ (hosted.launches.map (·.handle)).Nodup :=
  ⟨by decide +kernel, by decide +kernel, .inl ⟨rfl, rfl⟩, rfl, rfl, by decide⟩

/-- A tenant that asks for what it may not; a management session that has proved itself again. -/
theorem witness_HostCommandOrder :
    NotPermitted { session0 with tenant := true } 0x22 [0] ∧ NotPermitted { session0 with tenant := true } 0x10 [0] ∧
    NotPermitted { session0 with proved := false } 0x22 [0] ∧ ¬NotPermitted session0 0x22 [0] :=
  ⟨.inl ⟨rfl, by decide⟩, .inr (.inl ⟨rfl, by decide, by decide⟩), .inr (.inr (.inl ⟨rfl, rfl, by decide, by decide⟩)), by
    unfold NotPermitted; decide⟩

/-- A well-formed instruction with its word; a datagram that is read back. -/
theorem witness_EncodingRoundTrip :
    (Instr.vadd hd { fv with minor := 2 }).wf = true ∧ (encodeSlot (.vadd hd { fv with minor := 2 })).isSome = true ∧
    opOf (.inval (cmd0 [0])) = some (0x50, cmd0 [0]) ∧ commandOf 0x50 (cmd0 [0]) = .inval (cmd0 [0]) := by decide +kernel

/-- The reset state and the small state keep the invariant, and a bundle under way is whole. -/
theorem witness_InvariantKept : Kept s0 ∧ s0.now.board.powered = true ∧ s0.now.board.step = 6 ∧
    (∀ p ∈ x0.group, x0.guardOn { hd with guard := 1 } p.1 p.2 = false) :=
  ⟨⟨⟨witness_scratchpad.2.2.1, fun x hx => by
      have : x = x0 := (Option.some.inj (hx.symm.trans rfl))
      subst this
      exact ⟨rfl, by decide +kernel, fun _ h => nomatch h⟩⟩, fun x hx => by
      have : x = x0 := (Option.some.inj (hx.symm.trans rfl))
      subst this
      exact ⟨by decide +kernel, by decide +kernel, [], rfl⟩⟩, by decide +kernel, by decide +kernel, by decide +kernel⟩

/-! ### States and operands for further hypotheses and clauses -/

/-- A module whose cores remember no completed store: whatever its threads have acquired, they know all. -/
theorem known_of_none {m : Mod} (h : ∀ k ∈ m.cores, k.mdone = []) (c : Nat) (ps : List (Nat × Nat)) : Known m c ps :=
  fun _ _ k hk _ hd => nomatch (h k hk ▸ hd)

/-- The threads of the small state know of every store that has ended; a fence's first 2 c are over in lane 3. -/
theorem witness_acquired :
    Known s0.now x0.core x0.group ∧ (lane3 fun t => { t with fence := some (3, 0, 0) }).now.thread? 0 2 3 ≠ none ∧
    ((lane3 fun t => { t with fence := some (3, 0, 0) }).now.core 0).fenced ≠ [] ∧ (s0.now.core 0).fenced = [] ∧
    (s0.now.core 0).passes = [] := by
  refine ⟨known_of_none (by decide +kernel) _ _, ?_, ?_, ?_, ?_⟩ <;> decide +kernel

/-- A device-wide atomic, whose page must be walked. -/
theorem witness_RemoteRequestsSent_walks :
    let f : FmtM := { fm with minor := 6, aux := 0x46 }
    ((remotes hd f x0).any fun r => r.1.wf && r.2.scope == 6 && r.2.n == 4 &&
      ((x0.active f.bk hd).all fun p => x0.ea f p.1 p.2 % r.2.n == 0 &&
        decide (s0.now.xlateLane 0 (asidOfWarp s0.now 0 p.1) (x0.ea f p.1 p.2) r.2.wr = .wait))) = true := by
  decide +kernel

/-- The thread of lane 3 as one of a task whose end has come, of the small block's parent. -/
def s0ending : State := on (fun m => Mod.onThread { m with kids := [{ id := 3, parent := .thread 2 0, core := 0, block := 1, counter := 0, mask := 0, views := [], viewCore := 0, viewBlock := 1, ended := false, poisoned := false, marked := false, counted := false, wild := false, deps := [] }] }
  0 2 3 fun t => { t with task := some 3, run := .ending 0 }) s0task

/-- A task's thread that ends, and its join counter. -/
theorem witness_HandlerEntryAndThreadEnd_task :
    (∃ k, s0ending.now.warp? 0 2 = some k ∧ ((k.thread? 3).any fun t => t.run == .ending 0 && t.task == some 3) = true) ∧
    (s0ending.now.kids.any fun y => y.id == 3 && !y.counted && y.viewCore == y.core) = true ∧
    (∃ b, s0ending.now.block? 0 1 = some b ∧ decide (0 < b.joins.length) = true) :=
  ⟨some_with (by decide +kernel), by decide +kernel, some_with (by decide +kernel)⟩

/-- Two stores of one bundle to the same bytes. -/
theorem witness_RequestsPerformed_lanes :
    let r := reqOf (.cluster 0 1 8) (.store [1, 2])
    Known s0.now 0 [(2, 0)] ∧ r.meets { r with id := 2 } = true ∧ r.isLoad = false ∧ r.isBuffered = true ∧
    (reqOf (.device 64) (.load .n32 1)).isLoad = true := by
  refine ⟨known_of_none (by decide +kernel) _ _, ?_, ?_, ?_, ?_⟩ <;> decide +kernel

/-- The small state with an access left to a pass whose cycle has come. -/
def s0pass (a : Nat) (what : PassOp) : State := on (fun m => (m.onWarp 0 2 fun w => { w with mstage := some (stageOf .product) }).onCore 0
  fun k => { k with passes := [{ id := 9, block := 1, warp := 2, at_ := 0, addr := a, what := what }],
                    flights := [{ id := 8, dest := .v 2 0 1, val := 0, land := some 10, kind := .fixed, lanes := [0] }] }) s0

/-- Passes of each kind; their records in the block. -/
theorem witness_IssueCycleStartsBundle_passes :
    (∀ what ∈ [PassOp.store [1], .atom .exch 6 4 1 0 none, .load 4 6 (.v 2 0 1) 0 32, .payload 7, .jig 2 [0] 1, .stage 2 [0] 3,
        .look 2 0 0 0 0],
      ((s0pass 0 what).now.core 0).passes = { id := 9, block := 1, warp := 2, at_ := 0, addr := 0, what := what } :: [] ∧
      (s0pass 0 what).now.clock = 0) ∧
    (∃ k, (s0pass 0 (.stage 2 [0] 3)).now.warp? 0 2 = some k ∧ (k.mstage.map (·.id) == some 3) = true) ∧
    (∃ b, (s0pass 0 (.jig 2 [0] 1)).now.blockOf 0 2 = some b ∧ (b.at_ 0 == b.row * 768) = true) :=
  ⟨by decide +kernel, some_with (by decide +kernel), some_with (by decide +kernel)⟩

/-- A sweep whose chunk has been read, and one that a save has stopped, with its scalar pending or not. -/
theorem witness_JigEffects_chunks :
    let sw := { copySweep with part := some ([(0, [1, 2, 3, 4])], 1, none) }
    let s := on (fun m => m.onCore 0 fun k => { k with sweeps := [sw] }) s0jig
    let again := fun (fs : List Flight) => on (fun m => m.onCore 0 fun k =>
      { k with sweeps := [{ copySweep with again := true }], flights := fs }) s0jig
    let f : Flight := { id := 8, dest := .s 2 0, val := 0, land := none, kind := .held, lanes := [0] }
    (s.now.core 0).sweeps.find? (fun g => g.warp == 2) = some sw ∧ s.now.allPerformed sw.deps = true ∧
    ((again []).now.core 0).sweeps.find? (fun g => g.warp == 2) = some { copySweep with again := true } ∧
    ((again []).now.core 0).flights = [] ∧ ((again [f]).now.core 0).flights = [f] ∧
    (∃ k, (again []).now.warp? 0 2 = some k ∧ ((again []).now.blockOf 0 2).all (fun b => jopOk 0 k 0 1 0 ((again []).now.gaugeIn b)) = true) := by
  refine ⟨?_, ?_, ?_, ?_, ?_, some_with ?_⟩ <;> decide +kernel

/-- Records settled for a bundle behind none and behind passes. -/
theorem witness_Settled :
    (∀ n ∈ [8, 64], Settled x0.before x0.core (pairs 2 (List.range 16)) fun p => [(s0.now.poolAt 0 p.1 0, n)]) ∧
    ¬Settled (s0req (.cluster 0 1 8) (.store [1])).now 0 [(2, 0)] fun p => [((s0req (.cluster 0 1 8) (.store [1])).now.poolAt 0 p.1 8, 8)] := by
  refine ⟨fun n hn => by unfold Settled; revert n hn; decide +kernel, ?_⟩
  unfold Settled
  decide +kernel

/-- A running request of two chunks, the first of them in flight; and one of a single chunk in flight. -/
def slTwo (words : List W64) (chunks : List Nat) : SReq :=
  { slReq with words := words, chunks := chunks, begun := [{ chunk := 0, gen := 1, src := [], dst := [] }] }

/-- Its words: 512 bytes of the block's scratchpad copied behind them. -/
def slLong : List W64 := [0x0100000000000000, 0x0100000000000400, 512, BitVec.ofNat 64 (2 * 2 ^ 9)]

/-- The small state with a request. -/
def s0sreq (r : SReq) : State := on (fun m => m.onCore 0 fun k => { k with slq := [r] }) s0

/-- A chunk in flight that is not the last, one that is, both with places on both sides; a request to kill. -/
theorem witness_SluiceSteps_chunks :
    ((slTwo slLong [0, 1]).flight? 0).isSome = true ∧ (slTwo slLong [0, 1]).chunks ≠ [0] ∧ payloadOf 512 = 512 ∧
    ((slTwo slLong [0, 1]).flight? 1).isNone = true ∧ ((slTwo slWords [0]).flight? 0).isSome = true ∧
    (∀ j < 256, placeOf ((s0sreq (slTwo slLong [0, 1])).now.slByteAt 0 (slTwo slLong [0, 1]) 0x0100000000000000 (sideAt 512 false j) false) =
      some (.pool 0 j)) ∧
    (∀ j < 256, placeOf ((s0sreq (slTwo slLong [0, 1])).now.slByteAt 0 (slTwo slLong [0, 1]) 0x0100000000000400 (sideAt 512 true j) true) =
      some (.pool 0 (1024 + j))) ∧
    ((s0sreq (slTwo slLong [0, 1])).now.core 0).slq = [] ++ slTwo slLong [0, 1] :: [] ∧
    (s0sreq (slTwo slLong [0, 1])).now.frozen 0 = false := by
  refine ⟨?_, ?_, ?_, ?_, ?_, ?_, ?_, ?_, ?_⟩ <;> decide +kernel

/-- Accesses of the fabric's instructions that nothing holds, in a state without passes; a wait on a count word whose deadline has
passed, of threads that know of every store. -/
theorem witness_CountWordAccess_settled :
    Settled (issueOf s0grid).before 0 (pairs 2 (List.range 16)) (fun p => [(s0grid.now.poolAt 0 p.1 0, 8)]) ∧
    (s0grid.now.core 0).passes = [] ∧ Known s0grid.now 0 (pairs 2 (List.range 16)) ∧ (wait0 (.count 0 (some 1) 8 (some 0))).lanes.Nodup ∧
    (s0grid.now.fabOps.filter fun o => o.core == 0 && o.unsent).length < 16 := by
  refine ⟨by unfold Settled; decide +kernel, ?_, known_of_none ?_ _ _, ?_, ?_⟩ <;> decide +kernel

/-- The grid of two modules, not active, with tree rules. -/
def gridOff : GridCtx := { grid0 with active := false, rules := [{ w0 := BitVec.ofNat 64 (2 ^ 48), w1 := BitVec.ofNat 64 (1 + 2 ^ 23) }] }

/-- A contribution packet. -/
def red8 : Packet := { store8 with op := 6, tree := true }

/-- A request for a context that is not active; leat data to send on and to keep; a store served part by part, a load and an
atomic; an operation of this module that may leave. -/
theorem witness_FabricRequestSteps_served :
    LegalHeader red8 ∧ LegalHeader { store8 with op := 8 } ∧ gridOff.treeLink 1 = 0 ∧ 24 ≤ gridOff.treeLink (1 <<< 13) ∧
    s0grid.now.expand grid0 { store8 with op := 8, lows := 1, highs := 1 } = [.link 0 { store8 with op := 8, lows := 1, highs := 1, hop := 2 }] ∧
    (∃ b, s0grid.now.block? 0 1 = some b ∧
      (∀ p ∈ [store8, { store8 with op := 2, opd1 := BitVec.ofNat 64 (6 * 2 ^ 5), len := 0, pay := [] },
        { store8 with op := 4, opd1 := BitVec.ofNat 64 (6 * 2 ^ 5), len := 0, pay := [] }], NamesBlock s0grid.now p 4 0 16 b)) ∧
    (on (fun m => { m with fabOps := [{ fabOp0 with unsent := true }] }) s0grid).now.injectable { fabOp0 with unsent := true } = true ∧
    (∀ p ∈ [store8], s0grid.now.issuersOf p = []) := by
  refine ⟨by unfold LegalHeader; decide, by unfold LegalHeader; decide, ?_, ?_, ?_, ?_, ?_, ?_⟩
  · decide +kernel
  · decide +kernel
  · decide +kernel
  · obtain ⟨b, hb, h⟩ := some_with (o := s0grid.now.block? 0 1) (p := fun b => b.uid == 1) (by decide +kernel)
    refine ⟨b, hb, fun p hp => ⟨?_, ?_, ?_, by rw [eq_of_beq h]; exact hb, 4096, ?_⟩⟩
    · revert p hp; decide +kernel
    · revert p hp; decide +kernel
    · revert p hp; decide +kernel
    · rw [eq_of_beq h]; revert p hp; decide +kernel
  · decide +kernel
  · decide +kernel

/-- Flits that come whole and not, a link whose channel of notices runs, and a source beyond the queue's mark. -/
theorem witness_LinkEventEffects_notices :
    crc32c [1] ≠ crc32c [2] ∧ link0.stop.getLsbD 7 = false ∧ link0.caps.getLsbD 2 = true ∧
    (∃ r, grid0.rule? false 1 = some r ∧ (r.link == 0) = true) ∧
    (on (fun m => { m with leat := { m.leat with refused := [{ store8 with op := 8 }] }, tick := 4000 * Config.ticksPerNs }) s0grid).now.leat.refused ≠ [] ∧
    trained 0 { hiMajor := 2, hiMinor := 1, loMajor := 1, caps := 15, lanes := [0, 1], roundTripNs := 20, steps := (1, 0, 0) } 2 1 15 [] = { link0 with sent := [] } := by
  refine ⟨?_, ?_, ?_, some_with ?_, ?_, ?_⟩ <;> decide +kernel

/-- A wait of the Canal that a frame satisfies, a frame beyond reach, a release that waits in the queue, one of an old group, and
a barge that may go. -/
theorem witness_CanalPortSteps_waits :
    let g := wait0 (.canal 1 5 0 9 8 none)
    let s := on (fun m => m.onCore 0 fun k => { k with waits := [g] }) s0canal
    let f : OutFrame := { kind := 1, pay := [], at_ := 0, core := 0, held := true, deps := [], asid := 0, launch := 1 }
    (s.now.core 0).waits = [g] ∧ Meets 0 (afterEntry 1 frame0.pay 1 5 0 0) 9 ∧ ¬Meets 0 (afterEntry 1 frame0.pay 1 5 0 0) 10 ∧
    (s.now.cores.map (·.num)).Nodup ∧ (∀ k ∈ s.now.cores, (k.waits.map (·.id)).Nodup) ∧ s.now.allPerformed f.deps = true ∧
    s0canal.now.canal.next + 64 < frame0.seq + 65 + 1 ∧ s0canal.now.canal.bargeAt = 0 ∧ s0canal.now.canal.index = 0 := by
  exact ⟨by decide +kernel, show (_ : Nat) ≤ _ from by decide +kernel, show ¬(_ : Nat) ≤ _ from by decide +kernel, by decide +kernel, by decide +kernel,
    by decide +kernel, by decide +kernel, by decide +kernel, by decide +kernel⟩


/-- The grid's state with a run whose program's first word is v, and a message for it from coordinate 1 in its store. -/
def s0step (v : Nat) (pay : List Byte) : State := on (fun m => Mod.onCore { m with leat := { m.leat with
    ctxs := [{ run0 with prog := 512, store := [{ asid := 0, ctx := 0, lows := 0, highs := 1, key := 5, src := 1, rank := 0, num := 0, total := pay.length, pay := pay, inStep := false }] }] } } 0
  fun k => { k with sram := k.sram.writeN 512 (leBytes 8 v) }) s0grid

/-- The run of that state. -/
def runOf (s : State) : LtCtx := s.now.leat.ctxs.getD 0 run0

/-- Whether a step word of the small run is one that R325, R326 or R328 accepts. -/
theorem witness_LeatEngineSteps_words :
    (∀ v ∈ [1 + 2 ^ 11 + 2 ^ 51, 2 + 2 ^ 11 + 2 ^ 51, 3 + 2 ^ 11 + 2 ^ 23 + 2 ^ 51, 4 + 2 ^ 13 + 2 ^ 51],
      ¬BadData (s0step v []).now (runOf (s0step v [])) (BitVec.ofNat 64 v)) ∧
    BadData (s0step 1 []).now (runOf (s0step 1 [])) 1 ∧ ¬BadLoop run0 (BitVec.ofNat 64 (6 + 2 ^ 51)) ∧ BadLoop run0 6 ∧
    ¬BadLoop { run0 with trips := [2, 0, 0, 0] } 14 := by
  refine ⟨?_, ?_, ?_, ?_, ?_⟩ <;> simp only [BadData, BadLoop] <;> decide +kernel

/-- A message found by the step that receives it, of the step's length and of another; a peer that is there. -/
theorem witness_LeatEngineSteps_messages :
    let s := s0step (2 + 2 ^ 11 + 2 ^ 51) (List.replicate 8 1)
    (∃ g pool, FindsMessage s.now (runOf s) 1 g { runOf s with store := [] } pool ∧ g.pay.length = 8) ∧
    s.now.ltPeer (runOf s) 0 1 = some 1 ∧ s.now.peerGone (runOf s) 1 = false ∧ s.now.peerGone (runOf s) 7 = true ∧
    (elementsAt s.now (runOf s) ((s.now.blockOf 0 2).getD { uid := 0, slot := 0, launch := 0, index := 0, row := 0, accRow := 0, weirs := [], flumes := [], joins := [], cistern := [], cistHead := 0, reserved := 0, cursor := 0, mailbox := [], viewsUsed := [], waves := 0, started := true, held := false })
      (BitVec.ofNat 64 (2 + 2 ^ 11 + 2 ^ 51)) 0).length = 2 ∧
    (∃ b, s.now.block? 0 1 = some b ∧ (stepWord s.now (runOf s) b == BitVec.ofNat 64 (2 + 2 ^ 11 + 2 ^ 51)) = true) ∧
    NoMatrixStores s.now := by
  refine ⟨⟨_, _, .inl ⟨rfl, ?_, rfl⟩, ?_⟩, ?_, ?_, ?_, ?_, some_with ?_, ?_⟩
  all_goals first | decide +kernel | (unfold NoMatrixStores; decide +kernel)

/-- A queued message of leat data: its first piece for a run with an empty store, for a launch's pool, for none; and a further
piece. -/
theorem witness_LeatEngineSteps_pieces :
    let s := fun (p : Packet) (ctxs : List LtCtx) => on (fun m => { m with
      inQ := [{ pkt := p, left := [] }], asids := [{ num := 0, root := 0, wFabric := 16, wSluice := 16, wHome := 16, bindings := [], save := .none }],
      leat := { m.leat with ctxs := ctxs } }) s0grid
    let more := { leat8 with opd1 := BitVec.ofNat 64 (8 + 16 * 2 ^ 32) }
    ((s leat8 [run0]).now.asid? 0).isSome ∧ part leat8.opd1 0 32 = 0 ∧
    [run0].find? (fun y => y.isFor leat8 && !y.hasHad leat8.src (part leat8.opd0 44 20)) = some run0 ∧
    run0.isFor { leat8 with opd0 := 6 } = false ∧ part more.opd1 0 32 = 8 ∧
    (∀ o ∈ (s leat8 [run0]).now.fabOps, (s leat8 [run0]).now.injectable o = false) ∧ (s0grid.now.asid? 0) = none ∧
    (∀ l ∈ s0grid.now.launches, l.rec_.leatpool = 0 ∧ l.asid = 0 ∧ l.status = 4) := by
  refine ⟨?_, ?_, ?_, ?_, ?_, ?_, ?_, ?_⟩ <;> decide +kernel

/-- A word of the run block that every thread finds, in a state without passes. -/
theorem witness_LeatInstructionEffects_block :
    Steady s0grid.now 0 (pairs 2 (List.range 16)) 0 64 ∧ (s0grid.now.core 0).passes = [] ∧
    Settled (issueOf s0grid).before 0 (pairs 2 (List.range 16)) (fun p => [(s0grid.now.poolAt 0 p.1 0, 64)]) ∧
    (wait0 (.leat 0 8 (some 0))).lanes.Nodup := by
  refine ⟨by unfold Steady; decide +kernel, ?_, by unfold Settled; decide +kernel, ?_⟩ <;> decide +kernel

/-- The task state with a second block of its launch on the core, and a request of a thief there. -/
def s0two : State := both (fun m => { m.onCore 0 fun k => { k with blocks := k.blocks ++ k.blocks.map fun b => { b with uid := 2, slot := 1 } } with clock := 1 })
  (on (fun m => m.onBlock 0 1 fun b => { b with mailbox := [{ core := 0, block := 2, at_ := 0 }] }) s0task)

/-- A victim of the small state's cluster, and a thief that waits. -/
theorem witness_VeneerStealAndCutEffects_victim :
    (∃ b v, s0two.now.blockOf 0 2 = some b ∧ VictimAt s0two.now 0 b 0x100 0 v ∧ v.mailbox.length < 8) ∧
    (∃ b, s0two.now.blockOf 0 2 = some b ∧ (b.mailbox == [{ core := 0, block := 2, at_ := 0 }] && b.uid == 1) = true) ∧
    s0two.now.clock = 1 ∧ (s0two.now.block? 0 2).isSome = true := by
  obtain ⟨b, hb, h⟩ := some_with (o := s0two.now.blockOf 0 2) (p := fun b => b.launch == 1 && b.uid == 1) (by decide +kernel)
  obtain ⟨v, hv, g⟩ := some_with (o := (s0two.now.core 0).blockIn? 1) (p := fun v => v.launch == 1 && v.uid == 2 && v.mailbox.length == 1)
    (by decide +kernel)
  simp only [Bool.and_eq_true, beq_iff_eq] at h g
  exact ⟨⟨b, v, hb, ⟨by decide, by decide, by decide, hv, by rw [g.1.1, h.1], by rw [g.1.2, h.2]; decide⟩, by rw [g.2]; decide⟩,
    some_with (by decide +kernel), by decide +kernel, by decide +kernel⟩

/-- A group of a task's thread and others. -/
theorem witness_TaskInstructionEffects_mixed :
    let s := both (fun m => m.onThread 0 2 3 fun t => { t with task := some 3 }) s0task
    (∀ p ∈ (issueOf s).active true hd, ((issueOf s).before.thread? 0 p.1 p.2).isSome = true ∧ (s.now.thread? 0 p.1 p.2).isSome = true) ∧
    ((issueOf s).active true hd).length = 16 := by
  refine ⟨?_, ?_⟩ <;> decide +kernel

/-- A record whose task has a view of a tile, of which the block has two free. -/
theorem witness_TaskEngineSteps_views :
    let s := on (fun m => { m with kids := [{ kid0 with ended := false, counted := false, views := [] }] }) (s0wave [{ task0 with mask := 1 }] [])
    (maskTiles 1 = [0]) ∧ (s.now.core 0).millrace = [{ task0 with mask := 1 }] ∧ (s.now.kids.map (·.id)).Nodup ∧
    (∃ b, s.now.block? 0 1 = some b ∧ ((freeViews (s.now.recOf 0 2) b).length == 2) = true) ∧
    (s0fold.now.kids.filter fun y => y.parent == kid0.parent) = kid0 :: [] := by
  refine ⟨?_, ?_, ?_, some_with ?_, ?_⟩ <;> decide +kernel

/-- A warp that may come back, with room for it; a ring and an event for it. -/
theorem witness_EvictionAndEventSteps_back :
    let s := on (fun m => (m.onWarp 0 2 fun w => { w with evicted := true, condAt := some 0, area := some [] }).onCore 0 fun k =>
      { k with partition := some 31 }) s0
    (∃ w, s.now.warp? 0 2 = some w ∧ (w.evicted && w.condAt == some 0 && decide (w.freeAt ≤ s.now.clock) &&
      s.now.backRoom 0 ((((s.now.core 0).partition.getD 31).extractLsb' 0 8).toNat) (s.now.recOf 0 2) w) = true) ∧
    FreeRuns s.now [] 0 ∧
    ([plainNote 13 0 0 0 0].find? fun e => e.ring == (ringOf 0 4 0 0 0 0).num) = some (plainNote 13 0 0 0 0) ∧
    s.now.allPerformed (plainNote 13 0 0 0 0).deps = true := by
  refine ⟨some_with ?_, ⟨fun _ h => (nomatch h), List.Pairwise.nil, fun _ => rfl⟩, ?_, ?_⟩ <;> decide +kernel

/-- A region that holds a request's bytes, one that does not, a page that the port has walked; readings above and below the
limits. -/
theorem witness_PortTimerAndBoardEvents_requests :
    let m := { walked with
      regions := [{ key := 5, asid := 0, base := 0, size := 64 }]
      tlb := [{ who := .port, asid := 0, va := 0, size := 4096, pa := 0x6000, rd := true, wr := true }] }
    InRegion m { qp := 0, key := 5, fresh := none } 0 8 0 ∧ ¬InRegion m { qp := 0, key := 5, fresh := none } 60 8 0 ∧
    fails (m.xlate .port 0 0 true).1 = none ∧ fails (mapped.xlate .port 0 4096 true).1 = some false ∧
    Mod.reset.board.stepFrom ≤ Mod.reset.tick ∧ Mod.reset.board.cap = 2800 := by
  refine ⟨⟨by decide, _, rfl, by decide, by decide, rfl⟩, ?_, ?_, ?_, ?_, ?_⟩
  · rintro ⟨-, x, hx, -, h, -⟩
    cases Option.some.inj hx
    exact absurd h (by decide)
  all_goals decide +kernel

/-- A session without a datagram for 30 s; an open command that comes again; a region of the bytes of a shard. -/
theorem witness_HostCommandEffects_sessions :
    ¬AllAwake { hosted with tick := 30000000000 * Config.ticksPerNs } ∧
    [{ session0 with opening := some (cmd0 [1]) }].find? (fun y => y.opening == some (cmd0 [1])) =
      some { session0 with opening := some (cmd0 [1]) } ∧ (∀ y ∈ hosted.sessions, y.opening ≠ some (cmd0 [1])) ∧
    (∃ r ∈ [({ key := 0, asid := 0, base := 0, size := 128 } : Region)], r.key = 0 ∧ r.asid = 0 ∧ r.base ≤ 0 ∧ 0 + (64 + 8) ≤ r.base + r.size) := by
  refine ⟨by unfold AllAwake; decide +kernel, ?_, ?_, ?_⟩ <;> decide +kernel

/-- Steps that can happen: one that is due, a save point, an increment and a refill; a core that has not issued. -/
theorem witness_StepRunsDecoded_first :
    canHappen (lane3 fun t => { t with run := .ending 0 }) (.threadEnd 0 2 3) = true ∧
    canHappen (s0save (.pending 0 0 0)) (.savePoint 0) = true ∧ s0.now.savePoints = [] ∧
    canHappen s0weir (.weirDeferredIncrement 0 9) = true ∧ canHappen (s0wave [] [task0]) (.cisternRefill 0) = true ∧
    canHappen s0 (.taskWaveForm 0) = false ∧ (s0.now.core 0).issuedAt ≠ s0.now.clock + 1 := by
  refine ⟨?_, ?_, ?_, ?_, ?_, ?_, ?_⟩ <;> decide +kernel

/-! ### Worked cases of the spec -/

/-- spec/03, worked case of R71: −7 divided by 2 rounds toward zero; .n32 reads the low 32 bits. -/
theorem test_sdiv :
    result (.s 2 5) (after (.sdiv (stall 2) { fv with minor := 2, d := 5, a := 4, b := 6 })
      (withS 4 0xFFFFFFFFFFFFFFF9 (withS 6 2 (at_ 0)))) = some (0xFFFFFFFFFFFFFFFD, some 2) ∧
    (result (.s 2 5) (after (.sdiv (stall 2) { fv with minor := 6, d := 5, a := 4, b := 6 })
      (withS 4 0xFFFFFFFFFFFFFFF9 (withS 6 2 (at_ 0))))).map (·.1) = some 0x7FFFFFFC := by decide +kernel

/-- spec/04, worked case of `vpack`: each half is rounded to the nearest, ties to even. -/
theorem test_vpack : (result (.v 2 0 6) (after (.vpack (stall 4) { fv with minor := 0xAE, d := 6, a := 4, b := 5 })
    (withV 0 4 0x3F800001 (withV 0 5 0x40408000 (at_ 0))))).map (·.1) = some 0x40403F80 := by decide +kernel

/-- The small state with a group of some lanes. -/
def ofLanes (ls : List Nat) (s : State) : State :=
  { s with issue := s.issue.map fun x => { x with group := ls.map fun l => (2, l) } }

/-- spec/04, worked case of `vred.add.f32`: the butterfly's order decides between 1 and 1 + 2⁻²³. -/
theorem test_vred_order :
    let s := ((List.range 16).drop 4).foldl (fun s l => withV l 4 0x80000000 s)
      (withV 0 4 0x3F800000 (withV 1 4 0x33800000 (withV 2 4 0x33800000 (ofLanes ((List.range 16).filter (· != 3)) (at_ 0)))))
    (result (.v 2 0 10) (after (.vred (stall 10) { fv with minor := 0x0A, d := 10, a := 4 }) s)).map (·.1) = some 0x3F800000 ∧
    result (.v 2 3 10) (after (.vred (stall 10) { fv with minor := 0x0A, d := 10, a := 4 }) s) = none := by decide +kernel

/-- spec/04, worked case of `vatom.add`: three lanes of one word take three passes, so the values land at 12 c. -/
theorem test_vatom_passes :
    let s := withV 0 4 1 (withV 1 4 2 (withV 2 4 3 (ofLanes [0, 1, 2] (on (fun m => m.onCore 0 fun k =>
      { k with sram := k.sram.write 0 10 }) (at_ 0)))))
    let t := after (.vatom (stall 1) { fm with minor := 6, d := 4, aux := 1, bk := false }) s
    result (.v 2 0 4) t = some (10, some 12) ∧ ((t.now.core 0).sram.read 0, (t.now.core 0).passes.map (·.at_)) = (11, [1, 2]) := by
  decide +kernel

/-- spec/08, worked case of R180: a group's products and the accumulator are summed exactly and rounded once. -/
theorem test_product_group :
    productSteps .float (fun k => unF (ffmt 9) (if k < 3 then 0x3200 else 0)) (fun _ => unF (ffmt 9) 0x3280) 4 1 0 0x3FF0000000000000 =
      0x3FF0000000000002 := by decide +kernel

/-- spec/08, worked cases of R172 and R184: one rounding, ties to even, saturation of e4m3. -/
theorem test_rounding :
    roundNe (ffmt 9) (unF f64 0x3FF0100000400000) = 0x3F81 ∧ roundNe (ffmt 12) (unF f32 0x43FA0000) = 0x7E ∧
    roundNe (ffmt 13) (unF f32 0x47700000) = 0x7C ∧ roundNe (ffmt 8) (unF f32 0x477FF000) = 0x7C00 ∧
    roundNe (ffmt 12) (unF f32 0xBA800000) = 0x80 ∧ roundNe (ffmt 12) (unF f32 0x3E99999A) = 0x2A := by decide +kernel

/-- spec/08, worked case of R170: the exponent byte and the mantissas of a block. -/
theorem test_pack_block :
    let r := packBlock 4 ([unF f32 0x4079999A, unF f32 0xBF400000, unF f32 0x3E800000, unF f32 0x3FC00000] ++ List.replicate 12 (unF f32 0))
    r.1 = 0x80 ∧ mantString 4 r.2 = 0x30E7 := by decide +kernel

/-- spec/09, worked case of R188: element (18, 37) of a bfloat16 panel with K = 64. -/
theorem test_panel : panelOff 2 64 18 37 = 3210 := by decide

/-- spec/12, worked case of R252: byte 37 of a flit travels on lane 5 in beat 3, byte 63 on lane 12 in beat 5, which two lanes
fill with zeros. -/
theorem test_lanes :
    let b := flitBeats [0, 1, 2, 4, 5, 7, 9, 10, 12, 13, 15] ((List.range 64).map (BitVec.ofNat 8))
    b.length = 6 ∧ (b.getD 3 []).contains (5, 37) = true ∧ (b.getD 5 []).contains (12, 63) = true ∧
    (b.getD 5 []).contains (15, 0) = true := by decide +kernel

/-- spec/12, worked case of R254: a root adds its children in link order, its own value last. -/
theorem test_fred_order : foldVals 0 10 [0x34000000, 0x33800000, 0x3F800000] = 0x3F800002 := by decide +kernel

/-- The machine runs after reset. -/
theorem test_reset_running : State.reset.now.running = true := rfl

end Sys2Proof.Tests
end

/-! The uniform instructions (R67 to R70): the integer arithmetic of the model is that of words of the type's width, and each
instruction is a warp-level step that sends its results. -/

namespace Sys2Proof.Claims

open Machine

/-! ### Words of a type as integers (R53, R68) -/

/-- The integer that a word stands for under a type's signedness. -/
def valueOf (t : Nat) {w : Nat} (x : BitVec w) : Int := if signed t then x.toInt else x.toNat

theorem tyWidth_pos (t : Nat) : 0 < tyWidth t := by
  unfold tyWidth
  split <;> decide

/-- The model's two's complement reading is the library's. -/
theorem toS_eq_toInt_setWidth {n w : Nat} (hw : 0 < w) (x : BitVec n) : toS w x.toNat = (x.setWidth w).toInt := by
  have h2 : 2 ^ (w - 1) * 2 = 2 ^ w := Nat.two_pow_pred_mul_two hw
  unfold toS
  rw [BitVec.toInt_eq_toNat_cond, BitVec.toNat_setWidth]
  split <;> split <;> omega

/-- A number read at a type's width is the value of its low bits. -/
theorem toI_eq_valueOf {n : Nat} (t : Nat) (x : BitVec n) : toI t x.toNat = valueOf t (x.setWidth (tyWidth t)) := by
  simp only [toI, valueOf, toS_eq_toInt_setWidth (tyWidth_pos t), BitVec.toNat_setWidth]

theorem wrap_eq_toNat_ofInt (w : Nat) (z : Int) : wrap w z = (BitVec.ofInt w z).toNat := (BitVec.toNat_ofInt z).symm

/-- A word's value wrapped to n bits is the word extended under the type's signedness. -/
theorem ofInt_valueOf (t n : Nat) {w : Nat} (x : BitVec w) : BitVec.ofInt n (valueOf t x) = widen t n x := by
  unfold valueOf widen
  split
  · rfl
  · rw [BitVec.ofInt_natCast, BitVec.ofNat_toNat]

@[simp] theorem ofInt_valueOf_self (t : Nat) {w : Nat} (x : BitVec w) : BitVec.ofInt w (valueOf t x) = x := by
  rw [ofInt_valueOf]
  unfold widen
  split <;> simp

theorem valueOf_eq_zero_iff (t : Nat) {w : Nat} (x : BitVec w) : valueOf t x = 0 ↔ x = 0 := by
  refine ⟨fun h => ?_, fun h => by simp [h, valueOf]⟩
  rw [← ofInt_valueOf_self t x, h]
  simp

theorem below_eq_decide (t : Nat) {w : Nat} (x y : BitVec w) : below t x y = decide (valueOf t x < valueOf t y) := by
  unfold below valueOf
  split
  · rfl
  · simp [BitVec.ult_eq_decide]

theorem valueOf_injective (t : Nat) {w : Nat} : Function.Injective (valueOf t (w := w)) := fun x y h => by
  rw [← ofInt_valueOf_self t x, h, ofInt_valueOf_self]

/-! ### The operations of R68 on words -/

theorem ofInt_sub (w : Nat) (x y : Int) : BitVec.ofInt w (x - y) = BitVec.ofInt w x - BitVec.ofInt w y := by
  rw [BitVec.eq_sub_iff_add_eq, ← BitVec.ofInt_add, Int.sub_add_cancel]

/-- The upper half of a double-width product: a floor division by 2^w. -/
theorem extractLsb'_ofInt_upper (w : Nat) (z : Int) :
    (BitVec.ofInt (2 * w) z).extractLsb' w w = BitVec.ofInt w (z.fdiv (2 ^ w : Nat)) := by
  have hpos : ((2 ^ w : Nat) : Int) ≠ 0 := by exact_mod_cast Nat.ne_of_gt (Nat.two_pow_pos w)
  have hsq : (2 : Nat) ^ (2 * w) = 2 ^ w * 2 ^ w := by rw [Nat.two_mul, Nat.pow_add]
  refine BitVec.eq_of_toNat_eq ?_
  rw [BitVec.extractLsb'_toNat, BitVec.toNat_ofInt, BitVec.toNat_ofInt, Nat.shiftRight_eq_div_pow, hsq,
    Int.fdiv_eq_ediv_of_nonneg _ (Int.natCast_nonneg _)]
  generalize 2 ^ w = m at hpos
  have hz : z / m = z % (m * m) / m + m * (z / (m * m)) := by
    rw [← Int.add_mul_ediv_left _ _ hpos, ← Int.mul_assoc, Int.emod_add_mul_ediv]
  have hmm : (0 : Int) ≤ z % (m * m) := Int.emod_nonneg _ (Int.mul_ne_zero hpos hpos)
  refine Int.ofNat_inj.1 ?_
  rw [hz, Int.add_mul_emod_self_left, Int.natCast_emod, Int.natCast_ediv, Int.natCast_mul, Int.toNat_of_nonneg hmm,
    Int.toNat_of_nonneg (Int.emod_nonneg _ hpos)]

/-- Division toward zero of two words' values is the type's division. -/
theorem ofInt_tdiv_valueOf (t : Nat) {w : Nat} (x y : BitVec w) :
    BitVec.ofInt w ((valueOf t x).tdiv (valueOf t y)) = if signed t then x.sdiv y else x / y := by
  unfold valueOf
  split
  · exact BitVec.eq_of_toInt_eq (by rw [BitVec.toInt_ofInt, BitVec.toInt_sdiv])
  · rw [← Int.ofNat_tdiv, BitVec.ofInt_natCast, ← BitVec.toNat_udiv, BitVec.ofNat_toNat, BitVec.setWidth_eq]

/-- The remainder of that division is the type's remainder. -/
theorem ofInt_tmod_valueOf (t : Nat) {w : Nat} (x y : BitVec w) :
    BitVec.ofInt w ((valueOf t x).tmod (valueOf t y)) = if signed t then x.srem y else x % y := by
  unfold valueOf
  split
  · exact BitVec.eq_of_toInt_eq (by rw [← BitVec.toInt_srem, BitVec.ofInt_toInt])
  · rw [← Int.ofNat_tmod, BitVec.ofInt_natCast, ← BitVec.toNat_umod, BitVec.ofNat_toNat, BitVec.setWidth_eq]

/-- Floor division of a word's value by a power of two is the type's right shift. -/
theorem ofInt_fdiv_two_pow_valueOf (t : Nat) {w : Nat} (x : BitVec w) (k : Nat) :
    BitVec.ofInt w ((valueOf t x).fdiv (2 ^ k : Nat)) = if signed t then x.sshiftRight k else x >>> k := by
  rw [Int.fdiv_eq_ediv_of_nonneg _ (Int.natCast_nonneg _)]
  unfold valueOf
  split
  · rw [← Int.shiftRight_eq_div_pow]
    rfl
  · rw [← Int.natCast_ediv, BitVec.ofInt_natCast, ← Nat.shiftRight_eq_div_pow, ← BitVec.toNat_ushiftRight,
      BitVec.ofNat_toNat, BitVec.setWidth_eq]

/-- The model's test of the sign bit. -/
theorem toNat_div_two_pow_eq_one_iff {w : Nat} (hw : 0 < w) (x : BitVec w) : x.toNat / 2 ^ (w - 1) = 1 ↔ x.msb = true := by
  have h2 : 2 ^ (w - 1) * 2 = 2 ^ w := Nat.two_pow_pred_mul_two hw
  have hx := x.isLt
  rw [BitVec.msb_eq_decide, decide_eq_true_eq, Nat.div_eq_iff (Nat.two_pow_pos _)]
  omega

/-- Every operation on the low bits of two words is the operation on words of the type's width (R68). -/
theorem intOp_eq_alu {n : Nat} (op : IntOp) (t : Nat) (a b : BitVec n) :
    intOp op t a.toNat b.toNat = (alu op t (a.setWidth (tyWidth t)) (b.setWidth (tyWidth t))).toNat := by
  have hw := tyWidth_pos t
  unfold intOp
  simp only [← BitVec.toNat_setWidth, toI_eq_valueOf, BitVec.setWidth_eq, wrap_eq_toNat_ofInt]
  generalize a.setWidth (tyWidth t) = x
  generalize b.setWidth (tyWidth t) = y
  generalize tyWidth t = w at *
  cases op with
  | add => simp only [alu, BitVec.ofInt_add, ofInt_valueOf_self]
  | sub => simp only [alu, ofInt_sub, ofInt_valueOf_self]
  | mul => simp only [alu, BitVec.ofInt_mul, ofInt_valueOf_self]
  | mulh => simp only [alu, ← ofInt_valueOf, ← BitVec.ofInt_mul, extractLsb'_ofInt_upper]
  | div =>
    simp only [alu, valueOf_eq_zero_iff, ofInt_tdiv_valueOf]
    split <;> simp
  | rem =>
    simp only [alu, valueOf_eq_zero_iff, ← Int.tmod_def, ofInt_tmod_valueOf]
    split <;> rfl
  | and => exact (BitVec.toNat_and x y).symm
  | or => exact (BitVec.toNat_or x y).symm
  | xor => exact (BitVec.toNat_xor x y).symm
  | shl =>
    simp only [alu]
    split
    · rfl
    · simp [Nat.shiftLeft_eq]
  | shr =>
    simp only [alu]
    split
    · rfl
    · simp [Nat.shiftRight_eq_div_pow]
  | sra =>
    simp only [alu, toNat_div_two_pow_eq_one_iff hw, ofInt_fdiv_two_pow_valueOf]
    split
    · split <;> simp
    · rfl
  | min =>
    simp only [alu, below_eq_decide, decide_eq_true_eq, ← Int.not_le, ite_not]
    split <;> rw [ofInt_valueOf_self]
  | max =>
    simp only [alu, below_eq_decide, decide_eq_true_eq]
    rcases Int.lt_trichotomy (valueOf t x) (valueOf t y) with hlt | heq | hgt
    · rw [if_pos (Int.le_of_lt hlt), if_pos hlt, ofInt_valueOf_self]
    · rw [valueOf_injective t heq, ite_self, ite_self, ofInt_valueOf_self]
    · rw [if_neg (Int.not_le.2 hgt), if_neg (Int.lt_asymm hgt), ofInt_valueOf_self]

/-- A word extended to n bits under the type's signedness (R68, R100). -/
theorem extend_eq_widen (t n : Nat) (x : BitVec (tyWidth t)) : extend t n x.toNat = (widen t n x).toNat := by
  unfold extend
  rw [toI_eq_valueOf, BitVec.setWidth_eq, wrap_eq_toNat_ofInt, ofInt_valueOf]

/-- The conditions of R54 compare the words' values. -/
theorem holds_eq_intCond (c t : Nat) {w : Nat} (x y : BitVec w) : holds c t x y = intCond c (valueOf t x) (valueOf t y) := by
  have he : (x = y) = (valueOf t x = valueOf t y) := propext (valueOf_injective t).eq_iff.symm
  unfold holds intCond
  split
  case h_1 | h_2 => simp only [Bool.beq_eq_decide_eq, bne, he, ne_eq, decide_not]
  case h_3 | h_4 | h_5 | h_6 => simp only [below_eq_decide, ← Int.not_lt, gt_iff_lt, ge_iff_le, decide_not]
  case h_7 => simp_all

/-! ### Uniform instructions (R67 to R70) -/

/-- The two-source uniform operations have one meaning, by their operation. -/
theorem exec_uniformRow {row : (Hdr → FmtV → Instr) × IntOp} (hrow : row ∈ uniformRows) (h : Hdr) (f : FmtV) (s : State) :
    exec (row.1 h f) s = uniform2 row.2 h f s := by
  revert row
  simp only [uniformRows, List.forall_mem_cons]
  exact ⟨rfl, rfl, rfl, rfl, rfl, rfl, rfl, rfl, rfl, rfl, rfl, rfl, rfl, rfl, by simp⟩

/-- `sli` sends its immediate, extended as its type says (R69). -/
theorem exec_sli (h : Hdr) (f : FmtI) (s : State) :
    exec (.sli h f) s = perWarp h s fun w _ b =>
      b.putS w f.d.toNat (if tyOfMinor f.minor = 2 then f.imm32.signExtend 64 else f.imm32.setWidth 64) 2 := rfl

theorem exec_sli_of_i32 {f : FmtI} (hf : f.minor = 2) (h : Hdr) (s : State) :
    exec (.sli h f) s = perWarp h s fun w _ b => b.putS w f.d.toNat (f.imm32.signExtend 64) 2 := by
  have hm : tyOfMinor f.minor = 2 := by rw [hf]; rfl
  simp only [exec_sli, if_pos hm]

theorem exec_sli_of_n32 {f : FmtI} (hf : f.minor = 6) (h : Hdr) (s : State) :
    exec (.sli h f) s = perWarp h s fun w _ b => b.putS w f.d.toNat (f.imm32.setWidth 64) 2 := by
  have hm : tyOfMinor f.minor ≠ 2 := by rw [hf]; decide
  simp only [exec_sli, if_neg hm]

/-- `scmp` sends its register and a predicate for each of its lanes (R70). -/
theorem exec_scmp (h : Hdr) (f : FmtV) (s : State) :
    exec (.scmp h f) s = perWarp h s fun w ls b =>
      ls.foldl (fun y l => y.putQ w l f.qd.toNat (cmpInt f.minor (b.x.ua f w).toNat (b.x.ub f w).toNat) 2)
        (b.putS w f.d.toNat (if cmpInt f.minor (b.x.ua f w).toNat (b.x.ub f w).toNat then 1 else 0) 2) := rfl

/-- The value that a two-source uniform operation puts on its way is that of R68. -/
theorem uniform2_value (op : IntOp) (x : Issue) (f : FmtV) (w : Nat) :
    BitVec.ofNat 64 (extend (tyOfMinor f.minor) 64 (intOp op (tyOfMinor f.minor) (x.ua f w).toNat (x.ub f w).toNat)) =
      uniformValue op (typeOf f) (x.s w f.a.toNat) (uniformB x f w) := by
  rw [intOp_eq_alu, extend_eq_widen, BitVec.ofNat_toNat, BitVec.setWidth_eq]
  rfl

/-- The condition that `scmp` tests is that of R70. -/
theorem cmpInt_eq_uniformHolds (minor : BitVec 8) (a b : W64) :
    cmpInt minor a.toNat b.toNat = uniformHolds minor a b := by
  unfold cmpInt uniformHolds
  rw [toI_eq_valueOf, toI_eq_valueOf]
  exact (holds_eq_intCond _ _ _ _).symm

section
variable {s : State} {x : Issue} {t : BSlot} {ts : List BSlot} {h : Hdr} {w : Nat} {ls : List Nat}

/-- A warp-level instruction whose step puts one value of the bundle on its way to a uniform register gives that value. -/
theorem gives_uniform {i : Instr} {n lat : Nat} {val : Nat → Issue → W64} (hs : AtSlot s x t ts) (ha : ActsFor x h w ls)
    (hi : exec i s = perWarp h s fun w _ b => b.putS w n (val w b.x) lat) :
    ∃ u, exec i s = .next u ∧ Gives s x t ts [inS x w n (val w (past x t ts)) lat] u := by
  rw [hi]
  exact gives_perWarp hs ha ((sends_putS (past x t ts) w n _ lat).congr fun b hb => by rw [hb]) (List.pairwise_singleton _ _)

/-- The predicates of distinct lanes and a uniform register are distinct destinations. -/
theorem nodup_dests_scmp (hn : ls.Nodup) (d : Nat) (v : W64) (q : BitVec 3) (r : Bool) (lat : Nat) :
    ((inS x w d v lat :: if q = 0 then [] else ls.map fun l => inQ (w, l) q.toNat r lat).map (·.dest)).Nodup := by
  split
  · exact List.pairwise_singleton _ _
  · simp only [List.map_cons, List.map_map, List.nodup_cons]
    refine ⟨by simp [inS, inQ], List.pairwise_map.2 (hn.imp fun hij => ?_)⟩
    simpa [inQ] using hij

/-- `scmp` gives its register and its predicates the condition's truth (R70). -/
theorem gives_scmp (hs : AtSlot s x t ts) (ha : ActsFor x h w ls) (hn : ls.Nodup) (f : FmtV) {r : Bool}
    (hr : uniformHolds f.minor (x.s w f.a.toNat) (uniformB x f w) = r) :
    ∃ u, exec (.scmp h f) s = .next u ∧
      Gives s x t ts (inS x w f.d.toNat (if r then 1 else 0) 2 ::
        if f.qd = 0 then [] else ls.map fun l => inQ (w, l) f.qd.toNat r 2) u := by
  have hc : cmpInt f.minor (x.ua f w).toNat (x.ub f w).toNat = r := (cmpInt_eq_uniformHolds _ _ _).trans hr
  have hsend := (sends_putS (past x t ts) w f.d.toNat (if r then 1 else 0) 2).comp
    (sends_putQs (past x t ts) w ls f.qd r 2)
  rw [exec_scmp]
  refine gives_perWarp hs ha (hsend.congr fun b hb => ?_) (nodup_dests_scmp hn _ _ _ _ _)
  have hcb : cmpInt f.minor (b.x.ua f w).toNat (b.x.ub f w).toNat = r := by rw [hb]; exact hc
  simp only [hcb]

end

/-- Settles O1: every uniform instruction is a warp-level step that sends its value (R68 to R70), and the model's integer
arithmetic is that of words of the type's width. -/
theorem uniformResults : Obligations.UniformResults := by
  unfold Obligations.UniformResults
  refine ⟨fun row hrow h f s x t ts w ls _ hs ha => ?_, fun h s x t ts w ls hs ha => ⟨fun f hf => ?_, fun f hf => ?_,
    fun f => ?_, fun f => ?_, fun f => ?_⟩, fun h f s x t ts w ls _ hs ha hn => gives_scmp hs ha hn f rfl⟩
  · rw [← uniform2_value]
    exact gives_uniform (val := fun w x => BitVec.ofNat 64 (extend (tyOfMinor f.minor) 64
      (intOp row.2 (tyOfMinor f.minor) (x.ua f w).toNat (x.ub f w).toNat))) hs ha (exec_uniformRow hrow h f s)
  · exact gives_uniform (val := fun _ _ => f.imm32.signExtend 64) hs ha (exec_sli_of_i32 hf h s)
  · exact gives_uniform (val := fun _ _ => f.imm32.setWidth 64) hs ha (exec_sli_of_n32 hf h s)
  · exact gives_uniform (val := fun w x => f.imm32 ++ (x.s w f.d.toNat).extractLsb' 0 32) hs ha rfl
  · exact gives_uniform (val := fun w x => x.ua f w) hs ha rfl
  · exact gives_uniform (val := fun w x => if x.s w f.c.toNat ≠ 0 then x.ua f w else x.ub f w) hs ha rfl

end Sys2Proof.Claims

/-! The vector integer instructions and compares (R100 to R104): their operands and results are words of the type's width, each
thread's results go to registers of its own, and each instruction computes the word of its row. -/

namespace Sys2Proof.Claims

open Machine

/-! ### Operands and results of vector instructions (R100) -/

/-- The model's vector operand is the word that the register, or the pair, holds at the type's width. -/
theorem vw_eq_operand (x : Issue) (w l t n : Nat) : x.vw w l t n = (operand x (w, l) t n).toNat := by
  unfold Issue.vw operand
  split
  · next h64 =>
    rw [BitVec.toNat_setWidth, h64, Nat.mod_eq_of_lt (BitVec.isLt _)]
    rfl
  · rw [BitVec.toNat_setWidth]

/-- The model's operand b, of every kind. -/
theorem vb_eq_operandB (x : Issue) (f : FmtV) (w l t : Nat) : x.vb f w l t = (operandB x (w, l) f t).toNat := by
  unfold Issue.vb operandB
  split
  · exact vw_eq_operand x w l t f.b.toNat
  · split <;> exact (BitVec.toNat_setWidth _ _).symm

/-- A word of a type is sent to its register, or to the pair, as R100 extends it. -/
theorem inT_eq_written (p : Nat × Nat) (n t lat : Nat) (r : BitVec (tyWidth t)) :
    inT p n t r.toNat lat = written p n t lat r := by
  unfold inT written
  split
  · next h64 =>
    have hr : (r.setWidth 64).toNat = r.toNat := by rw [BitVec.toNat_setWidth, Nat.mod_eq_of_lt (h64 ▸ r.isLt)]
    simp only [BitVec.extractLsb', hr, Nat.shiftRight_eq_div_pow, Nat.pow_zero, Nat.div_one]
  · split
    · rw [extend_eq_widen, BitVec.ofNat_toNat, BitVec.setWidth_eq]
    · rw [BitVec.ofNat_toNat]

/-! ### Results that belong to threads -/

/-- The thread of a register that belongs to one. -/
def threadOf : Dest → Option (Nat × Nat)
  | .v w l _ => some (w, l)
  | .q w l _ => some (w, l)
  | _ => none

/-- The results of each thread go to distinct registers of its own. -/
def Own (rs : Nat × Nat → List Result) : Prop :=
  ∀ p, ((rs p).map (·.dest)).Nodup ∧ ∀ r ∈ rs p, threadOf r.dest = some p

theorem Own.nodup {rs : Nat × Nat → List Result} (ho : Own rs) {ps : List (Nat × Nat)} (hn : ps.Nodup) :
    ((ps.flatMap rs).map (·.dest)).Nodup :=
  nodup_dests hn rs (fun p => (ho p).1) fun p q hpq r hr k hk e =>
    hpq (Option.some_inj.1 (((ho p).2 r hr).symm.trans ((congrArg threadOf e).trans ((ho q).2 k hk))))

theorem own_inV (n : Nat) (v : Nat × Nat → W32) (lat : Nat) : Own fun p => [inV p n (v p) lat] :=
  fun p => ⟨by simp, by simp [inV, threadOf]⟩

theorem own_written (n t lat : Nat) (v : Nat × Nat → BitVec (tyWidth t)) : Own fun p => written p n t lat (v p) := by
  intro p
  dsimp only
  unfold written
  split
  · exact ⟨by simp [inV], by simp [inV, threadOf]⟩
  · exact own_inV n (fun p => if t < 8 then widen t 32 (v p) else (v p).setWidth 32) lat p

theorem own_compared (f : FmtV) (r : Nat × Nat → Bool) : Own fun p => compared p f (r p) := by
  intro p
  dsimp only
  unfold compared
  split <;> split <;> exact ⟨by simp [inV, inQ], by simp [inV, inQ, threadOf]⟩

/-! ### What a vector instruction sends -/

theorem sends_putCmp (x : Issue) (f : FmtV) (w l : Nat) (r : Bool) :
    Sends x (fun b => b.putCmp f w l r) (compared (w, l) f r) := by
  have hq : (if f.qd.toNat = 0 then [] else [inQ (w, l) f.qd.toNat r 4]) =
      if f.qd = 0 then [] else [inQ (w, l) f.qd.toNat r 4] := by
    simp only [BitVec.toNat_eq, BitVec.ofNat_eq_ofNat, BitVec.toNat_ofNat, Nat.zero_mod]
  have hp := sends_putQ x w l f.qd.toNat r 4
  rw [hq] at hp
  unfold compared Bx.putCmp
  by_cases ha : f.aux = 1
  · simpa only [ha, if_true] using hp.comp (sends_putV x w l f.d.toNat (if r then 1 else 0) 4)
  · simpa only [ha, if_false, List.append_nil] using hp

theorem sends_written (x : Issue) (w l n t lat : Nat) (r : BitVec (tyWidth t)) :
    Sends x (fun b => b.putT w l n t r.toNat lat) (written (w, l) n t lat r) := by
  rw [← inT_eq_written]
  exact sends_putT x w l n t r.toNat lat

section
variable {s : State} {x : Issue} {t : BSlot} {ts : List BSlot} (hs : AtSlot s x t ts) (hn : x.group.Nodup)
include hs hn

/-- A per-thread step that sends each thread results of its own gives them. -/
theorem gives_own (wl : Bool) (h : Hdr) {g : Nat → Nat → Bx → Bx} {rs : Nat × Nat → List Result} (ho : Own rs)
    (hg : ∀ p, Sends (past x t ts) (g p.1 p.2) (rs p)) :
    ∃ u, perThread wl h s g = .next u ∧ Gives s x t ts ((x.active wl h).flatMap rs) u :=
  gives_perThread hs wl h (fun p _ => hg p) (ho.nodup (active_nodup hn wl h))

/-- A vector integer instruction gives the words that it computes (R103). -/
theorem gives_vecInt (h : Hdr) (f : FmtV) (val : Issue → Nat × Nat → BitVec (tyWidth (typeOf f))) :
    ∃ u, vecInt f h s (fun x w l => (val x (w, l)).toNat) = .next u ∧
      Gives s x t ts ((actsOn x h f).flatMap fun p => written p f.d.toNat (typeOf f) 4 (val (past x t ts) p)) u :=
  gives_own hs hn (isBound f) h (own_written _ _ _ _) fun p =>
    (sends_written (past x t ts) p.1 p.2 _ _ _ _).congr fun b hb => by rw [hb]; rfl

/-- A vector compare gives its predicate and its register (R104, R107). -/
theorem gives_putCmp (h : Hdr) (f : FmtV) (r : Issue → Nat × Nat → Bool) :
    ∃ u, perThread (isBound f) h s (fun w l b => b.putCmp f w l (r b.x (w, l))) = .next u ∧
      Gives s x t ts ((actsOn x h f).flatMap fun p => compared p f (r (past x t ts) p)) u :=
  gives_own hs hn (isBound f) h (own_compared f _) fun p =>
    (sends_putCmp (past x t ts) f p.1 p.2 _).congr fun b hb => by rw [hb]

end

/-! ### The one-source operations of R103 on words -/

theorem popcount_eq_countP (n x : Nat) : popcount n x = (List.range n).countP fun i => x.testBit i := by
  induction n generalizing x with
  | zero => rfl
  | succ n ih =>
    have hsucc : ((fun i => x.testBit i) ∘ Nat.succ) = fun i => (x / 2).testBit i := funext fun i => Nat.testBit_succ x i
    rw [popcount, ih, List.range_succ_eq_map, List.countP_cons, List.countP_map, hsucc, Nat.testBit_zero, Nat.add_comm]
    congr 1
    rcases Nat.mod_two_eq_zero_or_one x with h | h <;> simp [h]

theorem popcount_le (n x : Nat) : popcount n x ≤ n := by
  rw [popcount_eq_countP]
  exact Nat.le_trans List.countP_le_length (Nat.le_of_eq List.length_range)

theorem clz_eq_sub_log2 {n x : Nat} (hx : x < 2 ^ n) : clz n x = if x = 0 then n else n - 1 - Nat.log2 x := by
  induction n with
  | zero =>
    have h0 : x = 0 := by simpa using hx
    simp [h0, clz]
  | succ n ih =>
    rw [clz]
    by_cases hlt : x < 2 ^ n
    · rw [Nat.div_eq_of_lt hlt, if_neg (by decide), ih hlt]
      split
      · exact Nat.add_comm 1 n
      · next h0 =>
        have hlog : Nat.log2 x < n := (Nat.log2_lt h0).2 hlt
        omega
    · have hdiv : x / 2 ^ n = 1 := by
        rw [Nat.div_eq_iff (Nat.two_pow_pos n)]
        omega
      have hpos := Nat.two_pow_pos n
      have h0 : x ≠ 0 := by omega
      have hlog : n ≤ Nat.log2 x := (Nat.le_log2 h0).2 (Nat.not_lt.1 hlt)
      rw [hdiv, if_pos (by decide), if_neg h0]
      omega

theorem clz_le {n : Nat} (x : Nat) : clz n x ≤ n := by
  induction n with
  | zero => exact Nat.le_refl 0
  | succ n ih =>
    rw [clz]
    split <;> omega

theorem bitrev_lt (n x : Nat) : bitrev n x < 2 ^ n := by
  induction n generalizing x with
  | zero => exact Nat.one_pos
  | succ n ih =>
    have hlow := ih (x / 2)
    rw [bitrev, Nat.pow_succ]
    rcases Nat.mod_two_eq_zero_or_one x with h | h <;> rw [h] <;> omega

theorem testBit_bitrev (n x i : Nat) : (bitrev n x).testBit i = (decide (i < n) && x.testBit (n - 1 - i)) := by
  induction n generalizing x i with
  | zero => simp [bitrev]
  | succ n ih =>
    rw [bitrev, Nat.mul_comm, Nat.testBit_two_pow_mul_add _ (bitrev_lt n _), ih]
    rcases Nat.lt_trichotomy i n with hlt | rfl | hgt
    · have hs : n + 1 - 1 - i = (n - 1 - i) + 1 := by omega
      rw [if_pos hlt, hs, Nat.testBit_succ]
      simp [hlt, Nat.lt_succ_of_lt hlt]
    · simp [Nat.testBit_zero]
    · have hb : (x % 2).testBit (i - n) = false := Nat.testBit_lt_two_pow
        (Nat.lt_of_lt_of_le (Nat.mod_lt x Nat.two_pos) (Nat.pow_le_pow_right Nat.two_pos (by omega : 1 ≤ i - n)))
      rw [if_neg (Nat.lt_asymm hgt), hb, decide_eq_false (by omega), Bool.false_and]

theorem toNat_reverse_eq_bitrev {w : Nat} (x : BitVec w) : bitrev w x.toNat = x.reverse.toNat := by
  refine Nat.eq_of_testBit_eq fun i => ?_
  rw [testBit_bitrev, BitVec.testBit_toNat, BitVec.testBit_toNat, BitVec.getLsbD_reverse, BitVec.getMsbD]

theorem ofInt_natAbs_valueOf (t : Nat) {w : Nat} (x : BitVec w) :
    BitVec.ofInt w (valueOf t x).natAbs = if signed t && x.msb then -x else x := by
  cases hneg : signed t && x.msb with
  | true =>
    obtain ⟨hs, hm⟩ := Bool.and_eq_true_iff.1 hneg
    have hv : ((valueOf t x).natAbs : Int) = -x.toInt := by
      have hlt := BitVec.toInt_neg_iff.2 (BitVec.msb_eq_true_iff_two_mul_ge.1 hm)
      simp only [valueOf, hs, if_true]
      omega
    rw [hv, BitVec.ofInt_neg, BitVec.ofInt_toInt, if_pos rfl]
  | false =>
    have hv : valueOf t x = x.toNat := by
      unfold valueOf
      split
      · next hs => exact BitVec.toInt_eq_toNat_of_msb (by simpa [hs] using hneg)
      · rfl
    rw [hv, Int.natAbs_natCast, BitVec.ofInt_natCast, BitVec.ofNat_toNat, BitVec.setWidth_eq, if_neg Bool.false_ne_true]

/-- A one-source operation of the model is that of R103 on the word of the type's width. -/
theorem not_eq_unary (t : Nat) (x : BitVec (tyWidth t)) : 2 ^ tyWidth t - 1 - x.toNat = (unary .not t x).toNat :=
  (BitVec.toNat_not).symm

theorem abs_eq_unary (t : Nat) (x : BitVec (tyWidth t)) :
    wrap (tyWidth t) (toI t x.toNat).natAbs = (unary .abs t x).toNat := by
  rw [wrap_eq_toNat_ofInt, toI_eq_valueOf, BitVec.setWidth_eq, ofInt_natAbs_valueOf]
  rfl

theorem neg_eq_unary (t : Nat) (x : BitVec (tyWidth t)) : wrap (tyWidth t) (-(toI t x.toNat)) = (unary .neg t x).toNat := by
  rw [wrap_eq_toNat_ofInt, toI_eq_valueOf, BitVec.setWidth_eq, BitVec.ofInt_neg, ofInt_valueOf_self]
  rfl

theorem popcount_eq_unary (t : Nat) (x : BitVec (tyWidth t)) : popcount (tyWidth t) x.toNat = (unary .popc t x).toNat := by
  have hlt := Nat.lt_of_le_of_lt (popcount_le (tyWidth t) x.toNat) Nat.lt_two_pow_self
  rw [popcount_eq_countP] at hlt ⊢
  exact (Nat.mod_eq_of_lt hlt).symm

theorem clz_eq_unary (t : Nat) (x : BitVec (tyWidth t)) : clz (tyWidth t) x.toNat = (unary .clz t x).toNat := by
  have hlt := Nat.lt_of_le_of_lt (clz_le (n := tyWidth t) x.toNat) Nat.lt_two_pow_self
  have h0 : (x.toNat = 0) = (x = 0) := by simp [BitVec.toNat_eq]
  rw [clz_eq_sub_log2 x.isLt] at hlt ⊢
  simp only [h0] at hlt ⊢
  exact (Nat.mod_eq_of_lt hlt).symm

theorem bitrev_eq_unary (t : Nat) (x : BitVec (tyWidth t)) : bitrev (tyWidth t) x.toNat = (unary .brev t x).toNat :=
  toNat_reverse_eq_bitrev x

/-! ### The bit fields of `vbfe` and `vbfi` (R102, R103) -/

/-- A legal field has a length and lies in the type's width (R102). -/
theorem field_of_wfPosLen {t aux : Nat} (h : wfPosLen t aux = true) : 0 < aux / 64 ∧ aux % 64 + aux / 64 ≤ tyWidth t := by
  simp only [wfPosLen, Bool.and_eq_true, bne_iff_ne, ne_eq, decide_eq_true_eq] at h
  omega

theorem aux_of_fmtV_ok {f : FmtV} {d a c own : Use} {b : BUse} {qd : Bool} {aux : Nat → Bool}
    (h : f.ok d a c own b qd aux = true) : aux f.aux.toNat = true :=
  (Bool.and_eq_true_iff.1 h).2

theorem wfPosLen_of_vbfe {h : Hdr} {f : FmtV} (hwf : (Instr.vbfe h f).wf = true) :
    wfPosLen (typeOf f) f.aux.toNat = true := by
  have hall : (tagT f.minor intTys && f.ok .vec .vec .no .vec .none false (wfPosLen (typeOf f)) &&
    pairOk (typeOf f) f.d && pairOk (typeOf f) f.a) = true := hwf
  simp only [Bool.and_eq_true] at hall
  obtain ⟨⟨⟨-, hok⟩, -⟩, -⟩ := hall
  exact aux_of_fmtV_ok hok

theorem wfPosLen_of_vbfi {h : Hdr} {f : FmtV} (hwf : (Instr.vbfi h f).wf = true) :
    wfPosLen (typeOf f) f.aux.toNat = true := by
  have hall : (tagT f.minor intTys && f.ok .vec .vec .no .vec .regUni false (wfPosLen (typeOf f)) &&
    pairOk (typeOf f) f.d && pairOk (typeOf f) f.a && (f.bk != 0 || pairOk (typeOf f) f.b)) = true := hwf
  simp only [Bool.and_eq_true] at hall
  obtain ⟨⟨⟨⟨-, hok⟩, -⟩, -⟩, -⟩ := hall
  exact aux_of_fmtV_ok hok

theorem bitsOf_toNat {w : Nat} (x : BitVec w) (pos len : Nat) :
    bitsOf x.toNat pos len = ((x >>> pos).setWidth len).toNat := by
  rw [bitsOf, BitVec.toNat_setWidth, BitVec.toNat_ushiftRight, Nat.shiftRight_eq_div_pow]

/-- The field of `vbfe`, extended under the type's signedness. -/
theorem bfe_eq_widen (t aux : Nat) (x : BitVec (tyWidth t)) (hlen : 0 < aux / 64) :
    bfe t aux x.toNat = (widen t (tyWidth t) ((x >>> (aux % 64)).setWidth (aux / 64))).toNat := by
  simp only [bfe, widen, bitsOf_toNat]
  split
  · rw [toS_eq_toInt_setWidth hlen, BitVec.setWidth_eq, wrap_eq_toNat_ofInt]
    rfl
  · have hle : ((x >>> (aux % 64)).setWidth (aux / 64)).toNat ≤ x.toNat := by
      rw [BitVec.toNat_setWidth, BitVec.toNat_ushiftRight, Nat.shiftRight_eq_div_pow]
      exact Nat.le_trans (Nat.mod_le _ _) (Nat.div_le_self _ _)
    exact ((BitVec.toNat_setWidth _ _).trans (Nat.mod_eq_of_lt (Nat.lt_of_le_of_lt hle x.isLt))).symm

/-- The bits that `vbfi` leaves: those of a in the field, those of b elsewhere. -/
theorem testBit_bfi (aux x y i : Nat) : (bfi aux x y).testBit i =
    if aux % 64 ≤ i ∧ i < aux % 64 + aux / 64 then x.testBit (i - aux % 64) else y.testBit i := by
  unfold bfi bitsOf
  generalize aux % 64 = pos
  generalize aux / 64 = len
  have hparts : y - y / 2 ^ pos % 2 ^ len * 2 ^ pos + x / 2 ^ 0 % 2 ^ len * 2 ^ pos =
      2 ^ pos * (2 ^ len * (y / 2 ^ pos / 2 ^ len) + x % 2 ^ len) + y % 2 ^ pos := by
    have hy : y = 2 ^ pos * (2 ^ len * (y / 2 ^ pos / 2 ^ len)) + y / 2 ^ pos % 2 ^ len * 2 ^ pos + y % 2 ^ pos := by
      rw [Nat.mul_comm (_ % _), ← Nat.mul_add, Nat.div_add_mod, Nat.div_add_mod]
    rw [Nat.pow_zero, Nat.div_one, Nat.mul_add, Nat.mul_comm (x % _)]
    omega
  rw [hparts, Nat.testBit_two_pow_mul_add _ (Nat.mod_lt _ (Nat.two_pow_pos _))]
  by_cases hlow : i < pos
  · rw [if_pos hlow, if_neg (by omega), Nat.testBit_mod_two_pow, decide_eq_true hlow, Bool.true_and]
  · rw [if_neg hlow, Nat.testBit_two_pow_mul_add _ (Nat.mod_lt _ (Nat.two_pow_pos _))]
    by_cases hin : i - pos < len
    · rw [if_pos hin, if_pos (by omega), Nat.testBit_mod_two_pow, decide_eq_true hin, Bool.true_and]
    · rw [if_neg hin, if_neg (by omega), Nat.testBit_div_two_pow, Nat.testBit_div_two_pow]
      congr 1
      omega

theorem getLsbD_fieldMask (w pos len i : Nat) (hw : pos + len ≤ w) :
    (fieldMask w pos len).getLsbD i = decide (pos ≤ i ∧ i < pos + len) := by
  rw [fieldMask, BitVec.getLsbD_shiftLeft, BitVec.getLsbD_ofNat, Nat.testBit_two_pow_sub_one, Bool.eq_iff_iff]
  simp only [Bool.and_eq_true, Bool.not_eq_true', decide_eq_true_eq, decide_eq_false_iff_not]
  omega

/-- The insertion of `vbfi` under the field's mask. -/
theorem bfi_eq_masked (w aux : Nat) (x y : BitVec w) (hw : aux % 64 + aux / 64 ≤ w) :
    bfi aux x.toNat y.toNat =
      ((y &&& ~~~fieldMask w (aux % 64) (aux / 64)) ||| ((x <<< (aux % 64)) &&& fieldMask w (aux % 64) (aux / 64))).toNat := by
  refine Nat.eq_of_testBit_eq fun i => ?_
  rw [testBit_bfi]
  simp only [BitVec.testBit_toNat, BitVec.getLsbD_or, BitVec.getLsbD_and, BitVec.getLsbD_not, BitVec.getLsbD_shiftLeft,
    getLsbD_fieldMask _ _ _ _ hw]
  split
  · next hin =>
    have hi : i < w := by omega
    simp [hin, hi]
  · next hout => 
    by_cases hi : i < w
    · simp [hout, hi]
    · simp [hout, hi, BitVec.getLsbD_of_ge y i (Nat.not_lt.1 hi)]

/-! ### The instructions of R103 and R104 -/

/-- A two-source operation computes R68's operation on its operands' words. -/
theorem vecInt2_eq (op : IntOp) (h : Hdr) (f : FmtV) (s : State) :
    vecInt2 op h f s = vecInt f h s fun x w l =>
      (alu op (typeOf f) (operand x (w, l) (typeOf f) f.a.toNat) (operandB x (w, l) f (typeOf f))).toNat := by
  unfold vecInt2
  simp only [vw_eq_operand, vb_eq_operandB, intOp_eq_alu, BitVec.setWidth_eq]
  rfl

/-- A one-source operation computes what its number function is on words. -/
theorem vecInt1_eq {g : Nat → Nat → Nat} {f : FmtV} {op : BitVec (tyWidth (typeOf f)) → BitVec (tyWidth (typeOf f))}
    (hg : ∀ x, g (typeOf f) x.toNat = (op x).toNat) (h : Hdr) (s : State) :
    vecInt1 g h f s = vecInt f h s fun x w l => (op (operand x (w, l) (typeOf f) f.a.toNat)).toNat := by
  unfold vecInt1
  simp only [vw_eq_operand]
  exact congrArg (vecInt f h s) (funext fun x => funext fun w => funext fun l => hg _)

theorem execVmad_eq (h : Hdr) (f : FmtV) (s : State) :
    execVmad h f s = vecInt f h s fun x w l => (operand x (w, l) (typeOf f) f.a.toNat * operandB x (w, l) f (typeOf f) +
      operand x (w, l) (typeOf f) f.c.toNat).toNat := by
  unfold execVmad
  simp only [vw_eq_operand, vb_eq_operandB, toI_eq_valueOf, wrap_eq_toNat_ofInt, BitVec.ofInt_add, BitVec.ofInt_mul,
    ofInt_valueOf_self, BitVec.setWidth_eq]
  rfl

theorem execVbfe_eq {h : Hdr} {f : FmtV} (hwf : (Instr.vbfe h f).wf = true) (s : State) :
    execVbfe h f s = vecInt f h s fun x w l => (widen (typeOf f) (tyWidth (typeOf f))
      ((operand x (w, l) (typeOf f) f.a.toNat >>> (f.aux.toNat % 64)).setWidth (f.aux.toNat / 64))).toNat := by
  unfold execVbfe
  have hlen := (field_of_wfPosLen (wfPosLen_of_vbfe hwf)).1
  exact vecInt1_eq (g := fun t x => bfe t f.aux.toNat x)
    (op := fun y => widen (typeOf f) _ ((y >>> (f.aux.toNat % 64)).setWidth (f.aux.toNat / 64)))
    (fun y => bfe_eq_widen (typeOf f) f.aux.toNat y hlen) h s

theorem execVbfi_eq {h : Hdr} {f : FmtV} (hwf : (Instr.vbfi h f).wf = true) (s : State) :
    execVbfi h f s = vecInt f h s fun x w l =>
      let m := fieldMask (tyWidth (typeOf f)) (f.aux.toNat % 64) (f.aux.toNat / 64)
      ((operandB x (w, l) f (typeOf f) &&& ~~~m) |||
        ((operand x (w, l) (typeOf f) f.a.toNat <<< (f.aux.toNat % 64)) &&& m)).toNat := by
  have hw := (field_of_wfPosLen (wfPosLen_of_vbfi hwf)).2
  unfold execVbfi
  simp only [vw_eq_operand, vb_eq_operandB]
  exact congrArg (vecInt f h s) (funext fun x => funext fun w => funext fun l => bfi_eq_masked _ _ _ _ hw)

theorem execVsel_eq (h : Hdr) (f : FmtV) (s : State) :
    execVsel h f s = vecInt f h s fun x w l => (if xor (x.q w l (f.aux.toNat % 8)) (f.aux.getLsbD 3)
      then operand x (w, l) (typeOf f) f.a.toNat else operandB x (w, l) f (typeOf f)).toNat := by
  unfold execVsel
  simp only [vw_eq_operand, vb_eq_operandB, apply_ite BitVec.toNat]
  rfl

theorem execVmov_eq (h : Hdr) (f : FmtV) (s : State) :
    execVmov h f s = vecInt f h s fun x w l => (operandB x (w, l) f (typeOf f)).toNat := by
  unfold execVmov
  simp only [vb_eq_operandB]
  rfl

/-- A row of R103: the instruction computes the row's word from the registers of its thread, which the slot leaves alone. -/
def Computes (row : (Hdr → FmtV → Instr) × ((f : FmtV) → Issue → Nat × Nat → BitVec (tyWidth (typeOf f)))) : Prop :=
  (∀ h f s, (row.1 h f).wf = true → exec (row.1 h f) s = vecInt f h s fun x w l => (row.2 f x (w, l)).toNat) ∧
  ∀ f x t ts p, row.2 f (past x t ts) p = row.2 f x p

theorem computes_two {mk : Hdr → FmtV → Instr} (op : IntOp) (he : ∀ h f s, exec (mk h f) s = vecInt2 op h f s) :
    Computes (mk, fun f x p => alu op (typeOf f) (operand x p (typeOf f) f.a.toNat) (operandB x p f (typeOf f))) :=
  ⟨fun h f s _ => (he h f s).trans (vecInt2_eq op h f s), fun _ _ _ _ _ => rfl⟩

theorem computes_one {mk : Hdr → FmtV → Instr} (op : UnOp) (g : Nat → Nat → Nat)
    (he : ∀ h f s, exec (mk h f) s = vecInt1 g h f s)
    (hg : ∀ t (x : BitVec (tyWidth t)), g t x.toNat = (unary op t x).toNat) :
    Computes (mk, fun f x p => unary op (typeOf f) (operand x p (typeOf f) f.a.toNat)) :=
  ⟨fun h f s _ => (he h f s).trans (vecInt1_eq (hg (typeOf f)) h s), fun _ _ _ _ _ => rfl⟩

/-- Every row of R103 holds of the model. -/
theorem computes_vectorIntRow {row} (hrow : row ∈ vectorIntRows) : Computes row := by
  revert row
  simp only [vectorIntRows, List.forall_mem_cons]
  exact ⟨computes_two .add fun _ _ _ => rfl, computes_two .sub fun _ _ _ => rfl, computes_two .mul fun _ _ _ => rfl,
    computes_two .mulh fun _ _ _ => rfl, computes_two .and fun _ _ _ => rfl, computes_two .or fun _ _ _ => rfl,
    computes_two .xor fun _ _ _ => rfl, computes_two .shl fun _ _ _ => rfl, computes_two .shr fun _ _ _ => rfl,
    computes_two .sra fun _ _ _ => rfl, computes_two .min fun _ _ _ => rfl, computes_two .max fun _ _ _ => rfl,
    computes_one .not (fun t x => 2 ^ tyWidth t - 1 - x) (fun _ _ _ => rfl) not_eq_unary,
    computes_one .abs (fun t x => wrap (tyWidth t) (toI t x).natAbs) (fun _ _ _ => rfl) abs_eq_unary,
    computes_one .neg (fun t x => wrap (tyWidth t) (-(toI t x))) (fun _ _ _ => rfl) neg_eq_unary,
    computes_one .popc (fun t x => popcount (tyWidth t) x) (fun _ _ _ => rfl) popcount_eq_unary,
    computes_one .clz (fun t x => clz (tyWidth t) x) (fun _ _ _ => rfl) clz_eq_unary,
    computes_one .brev (fun t x => bitrev (tyWidth t) x) (fun _ _ _ => rfl) bitrev_eq_unary,
    ⟨fun h f s _ => execVmad_eq h f s, fun _ _ _ _ _ => rfl⟩,
    ⟨fun h f s hwf => execVbfe_eq hwf s, fun _ _ _ _ _ => rfl⟩,
    ⟨fun h f s hwf => execVbfi_eq hwf s, fun _ _ _ _ _ => rfl⟩,
    ⟨fun h f s _ => execVsel_eq h f s, fun _ _ _ _ _ => rfl⟩,
    ⟨fun h f s _ => execVmov_eq h f s, fun _ _ _ _ _ => rfl⟩, List.forall_mem_nil _⟩

/-- `vcmp` tests the condition of R54 on its operands' words. -/
theorem execVcmp_eq (h : Hdr) (f : FmtV) (s : State) :
    execVcmp h f s = perThread (isBound f) h s fun w l b => b.putCmp f w l
      (holds (f.minor.toNat / 16) (typeOf f) (operand b.x (w, l) (typeOf f) f.a.toNat) (operandB b.x (w, l) f (typeOf f))) := by
  unfold execVcmp
  simp only [vw_eq_operand, vb_eq_operandB, cmpInt, toI_eq_valueOf, BitVec.setWidth_eq, holds_eq_intCond]
  rfl

/-- `vfcmp` tests the float condition on its operands' values. -/
theorem execVfcmp_eq (h : Hdr) (f : FmtV) (s : State) :
    execVfcmp h f s = perThread (isBound f) h s fun w l b => b.putCmp f w l
      (floatCond (f.minor.toNat / 16) (num32 (operand b.x (w, l) 10 f.a.toNat)) (num32 (operandB b.x (w, l) f 10))) := by
  unfold execVfcmp
  simp only [vw_eq_operand, vb_eq_operandB]
  rfl

/-- Settles O2: every row computes its words from the operands of its thread, and a step that sends each thread results of its
own gives them. -/
theorem vectorIntegerInstructionResults : Obligations.VectorIntegerInstructionResults := by
  unfold Obligations.VectorIntegerInstructionResults
  refine ⟨fun row hrow h f s x t ts hwf hs hn => ?_, fun h f s x t ts hs hn => ?_,
    fun h f s x t ts hs hn => ⟨fun _ => ?_, fun _ => ?_⟩⟩
  · obtain ⟨hexec, hpast⟩ := computes_vectorIntRow hrow
    rw [hexec h f s hwf]
    simpa only [hpast] using gives_vecInt hs hn h f (row.2 f)
  · have hv := gives_own hs hn false h (own_inV f.d.toNat (fun _ => f.imm32) 4)
      (g := fun w l b => b.putV w l f.d.toNat f.imm32 4) fun p => sends_putV (past x t ts) p.1 p.2 f.d.toNat f.imm32 4
    rwa [← List.map_eq_flatMap] at hv
  · rw [show exec (.vcmp h f) s = _ from execVcmp_eq h f s]
    exact gives_putCmp hs hn h f fun x p =>
      holds (f.minor.toNat / 16) (typeOf f) (operand x p (typeOf f) f.a.toNat) (operandB x p f (typeOf f))
  · rw [show exec (.vfcmp h f) s = _ from execVfcmp_eq h f s]
    exact gives_putCmp hs hn h f fun x p =>
      floatCond (f.minor.toNat / 16) (num32 (operand x p 10 f.a.toNat)) (num32 (operandB x p f 10))

end Sys2Proof.Claims

/-! The vector float and double instructions (R105 to R110): a rounded value fits its format, and each instruction computes the
word of its row. -/

namespace Sys2Proof.Claims

open Machine

/-! ### Rounded values as words (R164, R172) -/

/-- A format whose encodings, the infinities and the canonical NaN among them, fit its width. -/
def Fits (f : FFmt) : Prop := f.qnan < 2 ^ f.w ∧ f.maxFin + 1 < 2 ^ (f.w - 1) ∧ 0 < f.w

theorem fits_ffmt (t : Nat) : Fits (ffmt t) := by
  unfold ffmt
  split <;> (unfold Fits; decide)

theorem roundNe_lt {f : FFmt} (hf : Fits f) (x : Machine.Num) : roundNe f x < 2 ^ f.w := by
  obtain ⟨hnan, hfin, hw⟩ := hf
  have htwo : 2 ^ (f.w - 1) * 2 = 2 ^ f.w := Nat.two_pow_pred_mul_two hw
  have hsign : ∀ neg, f.signBit neg ≤ 2 ^ (f.w - 1) := fun neg => by
    unfold FFmt.signBit
    split <;> omega
  cases x with
  | nan => exact hnan
  | inf neg =>
    have := hsign neg
    simp only [roundNe]
    split <;> omega
  | fin neg m e =>
    have := hsign neg
    simp only [roundNe]
    split
    · omega
    · split
      · split <;> omega
      · omega

theorem toNat_round32 (x : Machine.Num) : (round32 x).toNat = roundNe f32 x :=
  Nat.mod_eq_of_lt (roundNe_lt (fits_ffmt 10) x)

/-! ### The values of R106, R107 and R110 on words -/

theorem fMinMax_eq_extremum (larger : Bool) (a b : W32) :
    fMinMax f32 larger a.toNat b.toNat = (extremum larger a b).toNat := by
  unfold fMinMax extremum num32
  dsimp only
  cases (unF f32 a.toNat).isNan <;> cases (unF f32 b.toNat).isNan
  · cases larger <;> simp only [Bool.false_eq_true, if_true, if_false, apply_ite BitVec.toNat]
  all_goals rfl

theorem fSign_eq (flip : Bool) (a : W32) :
    fSign flip a.toNat = if (num32 a).isNan then f32.qnan else if flip then a.toNat ^^^ 2 ^ 31 else a.toNat % 2 ^ 31 := by
  unfold fSign num32
  cases unF f32 a.toNat <;> rfl

theorem ofNat_fSign_false (a : W32) :
    BitVec.ofNat 32 (fSign false a.toNat) = if (num32 a).isNan then 0x7FC00000 else a &&& 0x7FFFFFFF := by
  rw [fSign_eq]
  split
  · rfl
  · refine BitVec.eq_of_toNat_eq ?_
    have hmask : a.toNat &&& 0x7FFFFFFF = a.toNat % 2 ^ 31 := Nat.and_two_pow_sub_one_eq_mod a.toNat 31
    have hlt := a.isLt
    simp [hmask]
    omega

theorem ofNat_fSign_true (a : W32) :
    BitVec.ofNat 32 (fSign true a.toNat) = if (num32 a).isNan then 0x7FC00000 else a ^^^ 0x80000000 := by
  rw [fSign_eq]
  split
  · rfl
  · have hxor : (a ^^^ 0x80000000#32).toNat = a.toNat ^^^ 2 ^ 31 := BitVec.toNat_xor a 0x80000000#32
    rw [if_pos rfl, ← hxor, BitVec.ofNat_toNat, BitVec.setWidth_eq]
    rfl

theorem bitsOf_eq_half (a : W32) (i : Nat) : bitsOf a.toNat (16 * i) 16 = half a i := by
  rw [half, BitVec.extractLsb'_toNat, Nat.shiftRight_eq_div_pow]
  rfl

/-- Two 16-bit numbers side by side. -/
theorem ofNat_add_mul_two_pow_16 {lo : Nat} (hlo : lo < 2 ^ 16) (hi : Nat) :
    BitVec.ofNat 32 (lo + 2 ^ 16 * hi) = BitVec.ofNat 16 hi ++ BitVec.ofNat 16 lo := by
  refine BitVec.eq_of_toNat_eq ?_
  rw [BitVec.toNat_append, BitVec.toNat_ofNat, BitVec.toNat_ofNat, BitVec.toNat_ofNat, Nat.mod_eq_of_lt hlo,
    ← Nat.shiftLeft_add_eq_or_of_lt hlo, Nat.shiftLeft_eq]
  omega

/-- The packed multiply-add of a format of 16 bits (R106). -/
theorem ofNat_hFma {t : Nat} (ht : (ffmt t).w = 16) (a b c : W32) :
    BitVec.ofNat 32 (hFma (ffmt t) a.toNat b.toNat c.toNat) = packedFma (ffmt t) a b c := by
  have hlo := ht ▸ roundNe_lt (fits_ffmt t)
  unfold hFma packedFma fFma
  rw [ofNat_add_mul_two_pow_16 (hlo _)]
  simp only [← bitsOf_eq_half]

/-! ### The instructions of R106, R107 and R110 -/

section
variable {s : State} {x : Issue} {t : BSlot} {ts : List BSlot} (hs : AtSlot s x t ts) (hn : x.group.Nodup)
include hs hn

/-- A vector float instruction gives the words that it computes. -/
theorem gives_vecF (lat : Nat) (h : Hdr) (f : FmtV) {op : Nat → Nat → Nat → Nat}
    {val : BitVec (tyWidth 10) → BitVec (tyWidth 10) → BitVec (tyWidth 10) → W32}
    (hop : ∀ a b c, BitVec.ofNat 32 (op a.toNat b.toNat c.toNat) = val a b c) :
    ∃ u, vecF f lat h s op = .next u ∧
      Gives s x t ts ((actsOn x h f).map fun p => inV p f.d.toNat
        (val (operand x p 10 f.a.toNat) (operandB x p f 10) (operand x p 10 f.c.toNat)) lat) u := by
  have hg := gives_own hs hn (isBound f) h (own_inV f.d.toNat (fun p =>
    val (operand x p 10 f.a.toNat) (operandB x p f 10) (operand x p 10 f.c.toNat)) lat)
    (g := fun w l b => b.putV w l f.d.toNat
      (BitVec.ofNat 32 (op (b.x.vw w l 6 f.a.toNat) (b.x.vb f w l 6) (b.x.vw w l 6 f.c.toNat))) lat) fun p => by
      rw [← hop]
      refine (sends_putV (past x t ts) p.1 p.2 f.d.toNat _ lat).congr fun b hb => ?_
      rw [hb, vw_eq_operand, vw_eq_operand, vb_eq_operandB]
      rfl
  rwa [← List.map_eq_flatMap] at hg

/-- A binary64 instruction gives the rounded values that it computes. -/
theorem gives_vecD (h : Hdr) (f : FmtV) (val : Machine.Num → Machine.Num → Machine.Num → Machine.Num) :
    ∃ u, vecD f h s (fun a b c => roundNe f64 (val (unF f64 a) (unF f64 b) (unF f64 c))) = .next u ∧
      Gives s x t ts ((actsOn x h f).flatMap fun p => written p f.d.toNat 11 10
        (BitVec.ofNat (tyWidth 11) (roundNe f64 (val (unF f64 (operand x p 11 f.a.toNat).toNat)
          (unF f64 (operandB x p f 11).toNat) (unF f64 (operand x p 11 f.c.toNat).toNat))))) u :=
  gives_own hs hn (isBound f) h (own_written f.d.toNat 11 10 _) fun p =>
    (sends_written (past x t ts) p.1 p.2 f.d.toNat 11 10 _).congr fun b hb => by
      have hlt (v : Machine.Num) : roundNe f64 v < 2 ^ tyWidth 11 := roundNe_lt (fits_ffmt 11) v
      rw [hb, vw_eq_operand, vw_eq_operand, vb_eq_operandB, BitVec.toNat_ofNat, Nat.mod_eq_of_lt (hlt _)]
      rfl

end

/-- A row of a binary32, packed or widening instruction: it computes the row's word from its operands' words. -/
def ComputesFloat (row : (Hdr → FmtV → Instr) × Nat × (FmtV → W32 → W32 → W32 → W32)) : Prop :=
  ∀ f, ∃ op : Nat → Nat → Nat → Nat, (∀ h s, exec (row.1 h f) s = vecF f row.2.1 h s op) ∧
    ∀ a b c : W32, BitVec.ofNat 32 (op a.toNat b.toNat c.toNat) = row.2.2 f a b c

theorem computes_extremum {mk : Hdr → FmtV → Instr} (larger : Bool)
    (he : ∀ h f s, exec (mk h f) s = vecF f 4 h s fun x y _ => fMinMax f32 larger x y) :
    ComputesFloat (mk, 4, fun _ a b _ => extremum larger a b) :=
  fun f => ⟨_, fun h s => he h f s, fun a b _ => by rw [fMinMax_eq_extremum, BitVec.ofNat_toNat, BitVec.setWidth_eq]⟩

theorem computes_packedFma {mk : Hdr → FmtV → Instr} {t : Nat} (ht : (ffmt t).w = 16)
    (he : ∀ h f s, exec (mk h f) s = vecF f 6 h s fun x y z => hFma (ffmt t) x y z) :
    ComputesFloat (mk, 6, fun _ a b c => packedFma (ffmt t) a b c) :=
  fun f => ⟨_, fun h s => he h f s, ofNat_hFma ht⟩

/-- Every row of R106, R107 and R110 of one register holds of the model. -/
theorem computes_vectorFloatRow {row} (hrow : row ∈ vectorFloatRows) : ComputesFloat row := by
  revert row
  simp only [vectorFloatRows, List.forall_mem_cons]
  exact ⟨fun _ => ⟨fun x y _ => fAdd f32 x y, fun _ _ => rfl, fun _ _ _ => rfl⟩,
    fun _ => ⟨fun x y _ => fSub f32 x y, fun _ _ => rfl, fun _ _ _ => rfl⟩,
    fun _ => ⟨fun x y _ => fMul f32 x y, fun _ _ => rfl, fun _ _ _ => rfl⟩,
    fun _ => ⟨fun x y z => fFma f32 x y z, fun _ _ => rfl, fun _ _ _ => rfl⟩,
    computes_extremum false fun _ _ _ => rfl, computes_extremum true fun _ _ _ => rfl,
    fun _ => ⟨fun x _ _ => fSign false x, fun _ _ => rfl, fun a _ _ => ofNat_fSign_false a⟩,
    fun _ => ⟨fun x _ _ => fSign true x, fun _ _ => rfl, fun a _ _ => ofNat_fSign_true a⟩,
    computes_packedFma rfl fun _ _ _ => rfl, computes_packedFma rfl fun _ _ _ => rfl,
    fun f => ⟨fun x _ _ => unpacked (hiOfMinor f.minor) f.aux.toNat x, fun _ _ => rfl, fun _ _ _ => rfl⟩,
    List.forall_mem_nil _⟩

/-- A row of a binary64 instruction: it rounds the row's exact value of its operands. -/
def ComputesDouble (row : (Hdr → FmtV → Instr) × (Machine.Num → Machine.Num → Machine.Num → Machine.Num)) : Prop :=
  ∀ h f s, exec (row.1 h f) s = vecD f h s fun a b c => roundNe f64 (row.2 (unF f64 a) (unF f64 b) (unF f64 c))

theorem computes_vectorDoubleRow {row} (hrow : row ∈ vectorDoubleRows) : ComputesDouble row := by
  revert row
  simp only [vectorDoubleRows, List.forall_mem_cons]
  exact ⟨fun _ _ _ => rfl, fun _ _ _ => rfl, fun _ _ _ => rfl, List.forall_mem_nil _⟩

/-- Settles O3: every row computes its word from the operands' words, of one register or of a pair, and each thread's results go
to registers of its own. -/
theorem vectorFloatInstructionResults : Obligations.VectorFloatInstructionResults := by
  unfold Obligations.VectorFloatInstructionResults
  refine ⟨fun row hrow h f s x t ts hs hn => ?_, fun row hrow h f s x t ts hs hn => ?_⟩
  · obtain ⟨op, hexec, hval⟩ := computes_vectorFloatRow hrow f
    rw [hexec h s]
    exact gives_vecF hs hn row.2.1 h f hval
  · rw [computes_vectorDoubleRow hrow h f s]
    exact gives_vecD hs hn h f row.2

end Sys2Proof.Claims

/-! The reductions and scans (R115 to R118): the model folds numbers where the rules fold words, its butterfly gives every lane
the same sum, and the ranks of `minidx` and `maxidx` order the words. -/

namespace Sys2Proof.Claims

open Machine

/-! ### Folds of words (R115) -/

theorem relLane_eq_relative (width l : Nat) : relLane width l = relative width l := by
  rw [relLane, relative, Nat.mod_def, Nat.mul_comm]

/-- The types that a reduction lists are those of 32 bits: signed, unsigned, and, for the first five operations, binary32. -/
theorem redTys_cases {op t : Nat} (h : (redTys op).contains t = true) :
    op ≤ 7 ∧ (t = 2 ∨ t = 6 ∨ (t = 10 ∧ op ≤ 4)) := by
  rcases op with _ | _ | _ | _ | _ | _ | _ | _ | op <;> simp_all [redTys]

theorem tyWidth_of_redTys {op t : Nat} (h : (redTys op).contains t = true) : tyWidth t = 32 := by
  obtain ⟨-, rfl | rfl | ⟨rfl, -⟩⟩ := redTys_cases h <;> rfl

/-- The integer operations of a type of 32 bits are those on the registers' words. -/
theorem intOp_eq_alu32 (op : IntOp) {t : Nat} (ht : tyWidth t = 32) (a b : W32) :
    intOp op t a.toNat b.toNat = (alu op t a b).toNat := by
  rw [intOp_eq_alu, ht, BitVec.setWidth_eq, BitVec.setWidth_eq]

theorem fAdd_eq_round32 (a b : W32) : fAdd f32 a.toNat b.toNat = (round32 ((num32 a).add (num32 b))).toNat :=
  (toNat_round32 _).symm

/-- The model folds numbers as the rules fold words. -/
theorem redOp_eq_combine (op : Nat) {t : Nat} (ht : tyWidth t = 32) (a b : W32) :
    redOp op t a.toNat b.toNat = (combine op t a b).toNat := by
  rcases op with _ | _ | _ | _ | _ | _ | _ | op <;>
    simp only [redOp, combine, apply_ite BitVec.toNat, fAdd_eq_round32, fMinMax_eq_extremum, intOp_eq_alu32 _ ht,
      BitVec.toNat_xor, BitVec.toNat_or, BitVec.toNat_and]
  rfl

theorem foldl_redOp_eq_combine (op : Nat) {t : Nat} (ht : tyWidth t = 32) (a : W32) (vs : List W32) :
    (vs.map (·.toNat)).foldl (redOp op t) a.toNat = (vs.foldl (combine op t) a).toNat := by
  rw [List.foldl_map]
  exact List.foldl_hom BitVec.toNat fun a b => redOp_eq_combine op ht a b

theorem redIdentity_eq_startOf (op t : Nat) : redIdentity op t = (startOf op t true).toNat := by
  rcases op with _ | _ | _ | _ | _ | _ | op <;> simp only [redIdentity, startOf, apply_ite BitVec.toNat] <;> rfl

/-- Only the minimum and the maximum of binary32 start elsewhere when no lane is active. -/
theorem startOf_eq_true {op t : Nat} (h : t ≠ 10 ∨ op = 0) (b : Bool) : startOf op t b = startOf op t true := by
  rcases op with _ | _ | _ | _ | _ | _ | op <;> simp_all [startOf]

theorem alu_min_of_greatest {t w : Nat} {a : BitVec w} (ha : ∀ y : BitVec w, valueOf t y ≤ valueOf t a) (x : BitVec w) :
    alu .min t a x = x := by
  simp only [alu, below_eq_decide, decide_eq_true_eq]
  split
  · rfl
  · next hge => exact valueOf_injective t (Int.le_antisymm (Int.not_lt.1 hge) (ha x))

theorem alu_max_of_least {t w : Nat} {a : BitVec w} (ha : ∀ y : BitVec w, valueOf t a ≤ valueOf t y) (x : BitVec w) :
    alu .max t a x = x := by
  simp only [alu, below_eq_decide, decide_eq_true_eq]
  split
  · rfl
  · next hge => exact valueOf_injective t (Int.le_antisymm (ha x) (Int.not_lt.1 hge))

/-- A value alone: a NaN of binary32 is made canonical. -/
def single (t : Nat) (v : W32) : W32 := if t = 10 ∧ (num32 v).isNan = true then 0x7FC00000 else v

theorem canonical_eq_single (t : Nat) (v : W32) :
    (if t = 10 && (unF f32 v.toNat).isNan then f32.qnan else v.toNat) = (single t v).toNat := by
  simp only [single, apply_ite BitVec.toNat, Bool.and_eq_true, decide_eq_true_eq]
  rfl

/-- A NaN gives way to every number (R107). -/
theorem extremum_nan (larger : Bool) (v : W32) : extremum larger 0x7FC00000 v = single 10 v := by
  have hnan : (num32 0x7FC00000).isNan = true := by decide
  simp only [extremum, single, hnan]
  cases (num32 v).isNan <;> rfl

theorem valueOf_two_le (y : W32) :
    valueOf 2 (0x80000000 : W32) ≤ valueOf 2 y ∧ valueOf 2 y ≤ valueOf 2 (0x7FFFFFFF : W32) :=
  ⟨BitVec.le_toInt y, BitVec.toInt_le⟩

theorem valueOf_six_le (y : W32) : valueOf 6 (0 : W32) ≤ valueOf 6 y ∧ valueOf 6 y ≤ valueOf 6 (0xFFFFFFFF : W32) :=
  ⟨Int.natCast_nonneg y.toNat, Int.ofNat_le.2 (Nat.le_of_lt_succ y.isLt)⟩

/-- A fold over some lanes starts from a value that the first one replaces (R115). -/
theorem combine_startOf {op t : Nat} (h : (redTys op).contains t = true) (h3 : op ≠ 3) (h4 : op ≠ 4)
    (h0 : ¬(op = 0 ∧ t = 10)) (v : W32) : combine op t (startOf op t false) v = single t v := by
  obtain ⟨hop, ht⟩ := redTys_cases h
  have hint : t ≠ 10 → single t v = v := fun hne => if_neg fun hc => hne hc.1
  match op, hop with
  | 0, _ =>
    have hne : t ≠ 10 := fun he => h0 ⟨rfl, he⟩
    simp [combine, startOf, hne, hint]
  | 1, _ =>
    obtain rfl | rfl | ⟨rfl, -⟩ := ht
    · exact (alu_min_of_greatest (fun y => (valueOf_two_le y).2) v).trans (hint (by decide)).symm
    · exact (alu_min_of_greatest (fun y => (valueOf_six_le y).2) v).trans (hint (by decide)).symm
    · exact extremum_nan false v
  | 2, _ =>
    obtain rfl | rfl | ⟨rfl, -⟩ := ht
    · exact (alu_max_of_least (fun y => (valueOf_two_le y).1) v).trans (hint (by decide)).symm
    · exact (alu_max_of_least (fun y => (valueOf_six_le y).1) v).trans (hint (by decide)).symm
    · exact extremum_nan true v
  | 5, _ => exact (BitVec.allOnes_and (x := v)).trans (hint (by omega)).symm
  | 6, _ => exact (BitVec.zero_or (x := v)).trans (hint (by omega)).symm
  | 7, _ => exact (BitVec.zero_xor (x := v)).trans (hint (by omega)).symm

/-- The model's fold over the values of some lanes is that of the rules. -/
theorem foldVals_eq_folded {op t : Nat} (h : (redTys op).contains t = true) (h3 : op ≠ 3) (h4 : op ≠ 4)
    (h0 : ¬(op = 0 ∧ t = 10)) (vs : List W32) : foldVals op t (vs.map (·.toNat)) = (folded op t vs).toNat := by
  cases vs with
  | nil => exact redIdentity_eq_startOf op t
  | cons v vs =>
    rw [List.map_cons, foldVals, canonical_eq_single, foldl_redOp_eq_combine op (tyWidth_of_redTys h),
      ← combine_startOf h h3 h4 h0]
    rfl

/-! ### The butterfly (R116) -/

theorem xor_two_pow_div (i n : Nat) : (i ^^^ 2 ^ n) / 2 ^ n = i / 2 ^ n ^^^ 1 := by
  rw [Nat.xor_div_two_pow, Nat.div_self (Nat.two_pow_pos n)]

theorem min_max_xor_one (q : Nat) : min q (q ^^^ 1) = 2 * (q / 2) ∧ max q (q ^^^ 1) = 2 * (q / 2) + 1 := by
  have hdiv : (q ^^^ 1) / 2 = q / 2 := by rw [Nat.xor_div_two, Nat.xor_zero]
  have hmod : (q ^^^ 1) % 2 = 1 ↔ ¬(q % 2 = 1 ↔ 1 % 2 = 1) := Nat.xor_mod_two_eq_one
  omega

theorem min_max_div (a b c : Nat) : min a b / c = min (a / c) (b / c) ∧ max a b / c = max (a / c) (b / c) := by
  rcases Nat.le_total a b with h | h
  · have hdiv : a / c ≤ b / c := Nat.div_le_div_right h
    rw [Nat.min_eq_left h, Nat.max_eq_right h, Nat.min_eq_left hdiv, Nat.max_eq_right hdiv]
    exact ⟨rfl, rfl⟩
  · have hdiv : b / c ≤ a / c := Nat.div_le_div_right h
    rw [Nat.min_eq_right h, Nat.max_eq_left h, Nat.min_eq_right hdiv, Nat.max_eq_left hdiv]
    exact ⟨rfl, rfl⟩

/-- The lanes that one doubling joins, the lower and the upper, depend only on the group that it makes of them. -/
theorem joined_div (i n : Nat) : min i (i ^^^ 2 ^ n) / 2 ^ n = 2 * (i / 2 ^ (n + 1)) ∧
    max i (i ^^^ 2 ^ n) / 2 ^ n = 2 * (i / 2 ^ (n + 1)) + 1 := by
  obtain ⟨hmin, hmax⟩ := min_max_div i (i ^^^ 2 ^ n) (2 ^ n)
  rw [hmin, hmax, xor_two_pow_div, Nat.pow_succ, ← Nat.div_div_eq_div_mul]
  exact min_max_xor_one _

/-- Lanes that a butterfly of n doublings has joined hold one sum. -/
theorem butterflyAt_congr (x : Nat → W32) (n : Nat) {i j : Nat} (h : i / 2 ^ n = j / 2 ^ n) :
    butterflyAt x n i = butterflyAt x n j := by
  induction n generalizing i j with
  | zero => exact congrArg x (by simpa using h)
  | succ n ih =>
    obtain ⟨himin, himax⟩ := joined_div i n
    obtain ⟨hjmin, hjmax⟩ := joined_div j n
    rw [butterflyAt, butterflyAt, ih (himin.trans (h ▸ hjmin.symm)), ih (himax.trans (h ▸ hjmax.symm))]

/-- The numbers that the lanes of a warp of a width hold after some doublings. -/
def sums (x : Nat → W32) (width k : Nat) : List Nat := (List.range width).map fun i => (butterflyAt x k i).toNat

theorem getD_sums (x : Nat → W32) {width i : Nat} (k : Nat) (hi : i < width) :
    (sums x width k).getD i 0 = (butterflyAt x k i).toNat := by
  simp [sums, hi]

theorem butterflyStep_sums (x : Nat → W32) {n k : Nat} (hk : k < n) :
    butterflyStep (2 ^ k) (sums x (2 ^ n) k) = sums x (2 ^ n) (k + 1) := by
  rw [butterflyStep, sums, List.length_map, List.length_range]
  refine List.map_congr_left fun i hi => ?_
  have hi : i < 2 ^ n := List.mem_range.1 hi
  have hx : i ^^^ 2 ^ k < 2 ^ n := Nat.xor_lt_two_pow hi (Nat.pow_lt_pow_right Nat.one_lt_two hk)
  rw [← sums, getD_sums x k (by omega), getD_sums x k (by omega), fAdd_eq_round32]
  rfl

theorem butterfly_sums (x : Nat → W32) {n k m : Nat} (h : k + m ≤ n) :
    butterfly m (2 ^ k) (sums x (2 ^ n) k) = sums x (2 ^ n) (k + m) := by
  induction m generalizing k with
  | zero => rfl
  | succ m ih =>
    rw [butterfly, butterflyStep_sums x (by omega), Nat.mul_comm, ← Nat.pow_succ, ih (by omega)]
    congr 1
    omega

/-! ### The ranks of `minidx` and `maxidx` (R107, R117) -/

theorem units_fin (neg : Bool) (m : Nat) (e lo : Int) : (Machine.Num.fin neg m e).units lo =
    if neg then -((m : Int) * 2 ^ (e - lo).toNat) else (m : Int) * 2 ^ (e - lo).toNat := rfl

/-- A finite value in units of 2^lo, in units of a smaller power. -/
theorem units_mul_two_pow (neg : Bool) (m : Nat) {e mid lo : Int} (hmid : mid ≤ e) (hlo : lo ≤ mid) :
    (Machine.Num.fin neg m e).units lo = (Machine.Num.fin neg m e).units mid * 2 ^ (mid - lo).toNat := by
  have hsum : (e - lo).toNat = (e - mid).toNat + (mid - lo).toNat := by omega
  rw [units_fin, units_fin, hsum, Int.pow_add, ← Int.mul_assoc]
  cases neg
  · rfl
  · exact (Int.neg_mul _ _).symm

/-- Finite values compare as their multiples of any power of two that both have. -/
theorem lt_fin_iff_units (p q : Bool) (m n : Nat) {e g lo : Int} (he : lo ≤ e) (hg : lo ≤ g) :
    (Machine.Num.fin p m e).lt (.fin q n g) = true ↔
      (Machine.Num.fin p m e).units lo < (Machine.Num.fin q n g).units lo := by
  simp only [Machine.Num.lt, decide_eq_true_eq]
  have hmid : lo ≤ (if e < g then e else g) ∧ (if e < g then e else g) ≤ e ∧ (if e < g then e else g) ≤ g := by
    split <;> omega
  generalize (if e < g then e else g) = mid at hmid
  obtain ⟨hlo, hme, hmg⟩ := hmid
  rw [units_mul_two_pow p m hme hlo, units_mul_two_pow q n hmg hlo, Int.mul_lt_mul_right (Int.pow_pos (by decide))]

/-- Beyond every binary32 number, in units of the smallest one, 2^−149. -/
def horizon : Nat := 2 ^ 24 * 2 ^ 253

/-- The numbers of binary32 are multiples of 2^−149 short of the horizon. -/
def InBinary32 : Machine.Num → Prop
  | .fin neg m e => -149 ≤ e ∧ -(horizon : Int) < (Machine.Num.fin neg m e).units (-149) ∧
      (Machine.Num.fin neg m e).units (-149) < horizon
  | _ => True

theorem inBinary32_fin (neg : Bool) {m : Nat} {e : Int} (hm : m < 2 ^ 24) (hlo : -149 ≤ e) (hhi : e ≤ 104) :
    InBinary32 (.fin neg m e) := by
  have hpow : 2 ^ (e - -149).toNat ≤ 2 ^ 253 := Nat.pow_le_pow_right Nat.two_pos (by omega)
  have hlt : m * 2 ^ (e - -149).toNat < horizon := Nat.mul_lt_mul_of_lt_of_le hm hpow (Nat.two_pow_pos 253)
  have hcast : (m : Int) * 2 ^ (e - -149).toNat = ((m * 2 ^ (e - -149).toNat : Nat) : Int) := by
    rw [Int.natCast_mul, Int.natCast_pow]
    rfl
  refine ⟨hlo, ?_⟩
  rw [units_fin, hcast]
  split <;> omega

/-- The value of every word is in binary32's range (R165). -/
theorem inBinary32_num32 (v : W32) : InBinary32 (num32 v) := by
  have hunF : num32 v =
      if v.toNat / 2 ^ 23 % 2 ^ 8 = 0 then .fin (decide (v.toNat / 2 ^ 31 % 2 = 1)) (v.toNat % 2 ^ 23) (-149)
      else if (v.toNat / 2 ^ 23 % 2 ^ 8 == 255) = true then
        (if v.toNat % 2 ^ 23 = 0 then .inf (decide (v.toNat / 2 ^ 31 % 2 = 1)) else .nan)
      else .fin (decide (v.toNat / 2 ^ 31 % 2 = 1)) (2 ^ 23 + v.toNat % 2 ^ 23)
        (((v.toNat / 2 ^ 23 % 2 ^ 8 : Nat) : Int) - 127 - 23) := rfl
  rw [hunF]
  split
  · exact inBinary32_fin _ (by omega) (by omega) (by omega)
  · split
    · split <;> exact trivial
    · next hzero hones =>
      have hones : v.toNat / 2 ^ 23 % 2 ^ 8 ≠ 255 := fun h => hones (beq_iff_eq.2 h)
      exact inBinary32_fin _ (by omega) (by omega) (by omega)

/-- Where a value that is not a NaN lies, the infinities at the horizon. -/
def place : Machine.Num → Int
  | .inf neg => if neg then -(horizon : Int) else horizon
  | a => a.units (-149)

theorem place_bounds {a : Machine.Num} (ha : InBinary32 a) : -(horizon : Int) ≤ place a ∧ place a ≤ horizon := by
  cases a with
  | nan =>
    have hzero : place .nan = 0 := rfl
    omega
  | inf neg =>
    have hend : place (.inf neg) = if neg then -(horizon : Int) else horizon := rfl
    rw [hend]
    split <;> omega
  | fin neg m e => exact ⟨Int.le_of_lt ha.2.1, Int.le_of_lt ha.2.2⟩

/-- Values that are not NaNs compare as they lie. -/
theorem lt_iff_place {a b : Machine.Num} (ha : InBinary32 a) (hb : InBinary32 b) (hna : a.isNan = false)
    (hnb : b.isNan = false) : a.lt b = true ↔ place a < place b := by
  have hpos : 0 < (horizon : Int) := Int.natCast_pos.2 (Nat.mul_pos (Nat.two_pow_pos 24) (Nat.two_pow_pos 253))
  have hlow : place (.inf true) = -(horizon : Int) := rfl
  have hhigh : place (.inf false) = horizon := rfl
  cases a with
  | nan => cases hna
  | inf p =>
    cases b with
    | nan => cases hnb
    | inf q =>
      cases p <;> cases q
      · exact ⟨fun h => (Bool.false_ne_true h).elim, fun h => (Int.lt_irrefl _ h).elim⟩
      · exact ⟨fun h => (Bool.false_ne_true h).elim, fun h => by omega⟩
      · exact ⟨fun _ => by omega, fun _ => rfl⟩
      · exact ⟨fun h => (Bool.false_ne_true h).elim, fun h => (Int.lt_irrefl _ h).elim⟩
    | fin q n g =>
      have hplace : -(horizon : Int) < place (.fin q n g) ∧ place (.fin q n g) < horizon := hb.2
      cases p
      · exact ⟨fun h => (Bool.false_ne_true h).elim, fun h => by omega⟩
      · exact ⟨fun _ => by omega, fun _ => rfl⟩
  | fin p m e =>
    cases b with
    | nan => cases hnb
    | inf q =>
      have hplace : -(horizon : Int) < place (.fin p m e) ∧ place (.fin p m e) < horizon := ha.2
      cases q
      · exact ⟨fun _ => by omega, fun _ => rfl⟩
      · exact ⟨fun h => (Bool.false_ne_true h).elim, fun h => by omega⟩
    | fin q n g => exact lt_fin_iff_units p q m n ha.1 hb.1

/-- The order of R107: by place, and −0 below +0. -/
def floatKey (a : Machine.Num) : Int := 2 * place a + if a.isNeg then 0 else 1

theorem floatKey_bounds {a : Machine.Num} (ha : InBinary32 a) :
    -(2 * (horizon : Int) + 2) < floatKey a ∧ floatKey a < 2 * (horizon : Int) + 2 := by
  have hplace := place_bounds ha
  unfold floatKey
  split <;> omega

theorem below_iff_floatKey {a b : Machine.Num} (ha : InBinary32 a) (hb : InBinary32 b) (hna : a.isNan = false)
    (hnb : b.isNan = false) : a.below b = true ↔ floatKey a < floatKey b := by
  simp only [Machine.Num.below, floatKey, Bool.or_eq_true, Bool.and_eq_true, Bool.not_eq_true', ← Bool.not_eq_true,
    lt_iff_place ha hb hna hnb, lt_iff_place hb ha hnb hna]
  cases a.isNeg <;> cases b.isNeg <;>
    simp only [if_true, Bool.false_eq_true, if_false, not_true_eq_false, not_false_eq_true, and_true, and_false, or_false] <;>
    omega

/-- The key by which `minidx`, or `maxidx`, ranks a number of binary32. -/
def numberKey (larger : Bool) (a : Machine.Num) : Int := if larger then -floatKey a else floatKey a

theorem numberKey_lt (larger : Bool) {a : Machine.Num} (ha : InBinary32 a) :
    numberKey larger a < 2 * (horizon : Int) + 2 := by
  have hkey := floatKey_bounds ha
  unfold numberKey
  split <;> omega

theorem below_iff_numberKey (larger : Bool) {a b : Machine.Num} (ha : InBinary32 a) (hb : InBinary32 b)
    (hna : a.isNan = false) (hnb : b.isNan = false) :
    (if larger then b.below a else a.below b) = true ↔ numberKey larger a < numberKey larger b := by
  unfold numberKey
  cases larger with
  | false => exact below_iff_floatKey ha hb hna hnb
  | true => exact (below_iff_floatKey hb ha hnb hna).trans Int.neg_lt_neg_iff.symm

/-- The key by which `minidx`, or `maxidx`, ranks a word: the lowest first, a NaN behind every number (R117). -/
def rankKey (larger : Bool) (t : Nat) (v : W32) : Int :=
  if t = 10 then if (num32 v).isNan then 2 * (horizon : Int) + 2 else numberKey larger (num32 v)
  else if larger then -valueOf t v else valueOf t v

/-- The ranks of a type follow the order of the keys. -/
theorem ranksFirst_iff_rankKey (larger : Bool) (t : Nat) (a b : W32) :
    ranksFirst larger t a b = true ↔ rankKey larger t a < rankKey larger t b := by
  unfold ranksFirst rankKey
  split
  · have ha := inBinary32_num32 a
    have hb := inBinary32_num32 b
    cases hna : (num32 a).isNan with
    | true =>
      have hle : (if (num32 b).isNan then 2 * (horizon : Int) + 2 else numberKey larger (num32 b)) ≤
          2 * (horizon : Int) + 2 := by
        split
        · exact Int.le_refl _
        · exact Int.le_of_lt (numberKey_lt larger hb)
      exact ⟨fun h => (Bool.false_ne_true h).elim, fun h => (Int.not_lt.2 hle h).elim⟩
    | false =>
      cases hnb : (num32 b).isNan with
      | true => exact ⟨fun _ => numberKey_lt larger ha, fun _ => rfl⟩
      | false => exact below_iff_numberKey larger ha hb hna hnb
  · cases larger with
    | false => exact (below_eq_decide t a b).symm ▸ decide_eq_true_iff
    | true => exact ((below_eq_decide t b a).symm ▸ decide_eq_true_iff).trans Int.neg_lt_neg_iff.symm

theorem toI_eq_valueOf32 {t : Nat} (ht : tyWidth t = 32) (a : W32) : toI t a.toNat = valueOf t a := by
  rw [toI_eq_valueOf, ht, BitVec.setWidth_eq]

/-- The model ranks numbers as the rules rank words. -/
theorem ranksBefore_eq_ranksFirst (larger : Bool) {t : Nat} (ht : tyWidth t = 32) (a b : W32) :
    ranksBefore larger t a.toNat b.toNat = ranksFirst larger t a b := by
  unfold ranksBefore ranksFirst
  split
  · dsimp only
    unfold num32
    cases (unF f32 a.toNat).isNan <;> cases (unF f32 b.toNat).isNan <;> rfl
  · simp only [below_eq_decide, toI_eq_valueOf32 ht]

/-! ### The lane that ranks first (R117) -/

/-- The lane that ranks first among k and some later ones. -/
def leader (larger : Bool) (t : Nat) (v : Nat → W32) (k : Nat) (ls : List Nat) : Nat :=
  ls.foldl (fun best l => if ranksFirst larger t (v l) (v best) then l else best) k

theorem leader_cons (larger : Bool) (t : Nat) (v : Nat → W32) (k l : Nat) (ls : List Nat) :
    leader larger t v k (l :: ls) = leader larger t v (if ranksFirst larger t (v l) (v k) then l else k) ls := rfl

theorem leader_mem (larger : Bool) (t : Nat) (v : Nat → W32) (k : Nat) (ls : List Nat) :
    leader larger t v k ls ∈ k :: ls := by
  induction ls generalizing k with
  | nil => exact List.mem_singleton_self k
  | cons l ls ih =>
    rw [leader_cons]
    split
    · exact List.mem_cons_of_mem k (ih l)
    · exact (List.mem_cons.1 (ih k)).elim (fun e => List.mem_cons.2 (.inl e)) fun hm =>
        List.mem_cons_of_mem k (List.mem_cons_of_mem l hm)

/-- No lane ranks before the leader, and of those that rank with it the leader's relative lane is the lowest. -/
theorem leader_first (larger : Bool) (t : Nat) (v : Nat → W32) {rel : Nat → Nat} {k : Nat} {ls : List Nat}
    (hls : (k :: ls).Pairwise fun i j => rel i < rel j) : ∀ j ∈ k :: ls,
      ranksFirst larger t (v j) (v (leader larger t v k ls)) = false ∧
      (ranksFirst larger t (v (leader larger t v k ls)) (v j) = false → rel (leader larger t v k ls) ≤ rel j) := by
  simp only [← Bool.not_eq_true, ranksFirst_iff_rankKey]
  induction ls generalizing k with
  | nil =>
    intro j hj
    rw [List.mem_singleton.1 hj]
    exact ⟨Int.lt_irrefl _, fun _ => Nat.le_refl _⟩
  | cons l ls ih =>
    obtain ⟨hk, hl, hrest⟩ : (∀ j ∈ l :: ls, rel k < rel j) ∧ (∀ j ∈ ls, rel l < rel j) ∧
        ls.Pairwise fun i j => rel i < rel j := by
      simpa only [List.pairwise_cons] using hls
    rw [leader_cons]
    split
    · next hfirst =>
      have hlt := (ranksFirst_iff_rankKey larger t _ _).1 hfirst
      have hall := ih (List.pairwise_cons.2 ⟨hl, hrest⟩)
      obtain ⟨hself, -⟩ := hall l List.mem_cons_self
      intro j hj
      rcases List.mem_cons.1 hj with rfl | hj
      · exact ⟨by omega, fun h => by omega⟩
      · exact hall j hj
    · next hfirst =>
      have hge := mt (ranksFirst_iff_rankKey larger t (v l) (v k)).2 hfirst
      have hkl := hk l List.mem_cons_self
      have hall := ih (List.pairwise_cons.2 ⟨fun j hj => hk j (List.mem_cons_of_mem l hj), hrest⟩)
      obtain ⟨hself, hsame⟩ := hall k List.mem_cons_self
      intro j hj
      rcases List.mem_cons.1 hj with rfl | hj
      · exact hall j List.mem_cons_self
      · rcases List.mem_cons.1 hj with rfl | hj
        · exact ⟨by omega, fun h => Nat.le_trans (hsame (by omega)) (Nat.le_of_lt hkl)⟩
        · exact hall j (List.mem_cons_of_mem k hj)

/-- The model chooses the leader's relative lane and value. -/
theorem chooseIdx_eq_leader (larger : Bool) {t : Nat} (ht : tyWidth t = 32) (v : Nat → W32) (rel : Nat → Nat) (k : Nat)
    (ls : List Nat) : chooseIdx larger t ((k :: ls).map fun l => (rel l, (v l).toNat)) =
      (rel (leader larger t v k ls), (single t (v (leader larger t v k ls))).toNat) := by
  have hfold : (ls.map fun l => (rel l, (v l).toNat)).foldl (fun b p => if ranksBefore larger t p.2 b.2 then p else b)
      (rel k, (v k).toNat) = (rel (leader larger t v k ls), (v (leader larger t v k ls)).toNat) := by
    rw [List.foldl_map]
    refine List.foldl_hom (fun l => (rel l, (v l).toNat)) fun best l => ?_
    dsimp only
    rw [ranksBefore_eq_ranksFirst larger ht]
    split <;> rfl
  rw [List.map_cons, chooseIdx, hfold, ← canonical_eq_single]
  exact (apply_ite (Prod.mk _) _ _ _).symm

/-! ### `vred` and `vscan` (R115 to R118) -/

/-- The active values that the model folds are those of the active lanes' registers, with their relative lanes. -/
theorem activeVals_eq (x : Issue) (w : Nat) (ls : List Nat) (n : Nat) :
    activeVals x w ls n = ls.map fun l => (relative (x.before.widthOf x.core w) l, (x.v w l n).toNat) := by
  simp only [activeVals, relLane_eq_relative]

/-- The value that a relative lane brings to the butterfly (R116). -/
def broughtBy (rel : Nat → Nat) (v : Nat → W32) (ls : List Nat) (i : Nat) : W32 :=
  match ls.find? fun k => rel k == i with
  | some k => v k
  | none => 0x80000000

/-- The model's butterfly gives every relative lane the sum of R116. -/
theorem reduce_eq_butterflyAt {width n i : Nat} (hwidth : width = 2 ^ n) (hi : i < width) (rel : Nat → Nat) (v : Nat → W32)
    (ls : List Nat) : reduce 0 10 width (ls.map fun l => (rel l, (v l).toNat)) =
      (butterflyAt (broughtBy rel v ls) n i).toNat := by
  have hlog : Nat.log2 width = n := by rw [hwidth, Nat.log2_two_pow]
  have hpos : 0 < width := Nat.zero_lt_of_lt hi
  have hsum : reduce 0 10 width (ls.map fun l => (rel l, (v l).toNat)) =
      (butterfly n (2 ^ 0) (sums (broughtBy rel v ls) width 0)).getD 0 0 := by
    rw [← hlog]
    refine congrArg (fun xs => (butterfly (Nat.log2 width) 1 xs).getD 0 0) (List.map_congr_left fun i _ => ?_)
    rw [List.find?_map]
    unfold butterflyAt broughtBy
    rw [show ((fun p : Nat × Nat => p.1 == i) ∘ fun l => (rel l, (v l).toNat)) = fun k => rel k == i from rfl]
    cases ls.find? fun k => rel k == i <;> rfl
  rw [hsum, hwidth, butterfly_sums _ (by omega), Nat.zero_add, ← hwidth, getD_sums _ _ hpos]
  refine congrArg _ (butterflyAt_congr _ _ ?_)
  rw [Nat.zero_div, Nat.div_eq_of_lt (hwidth ▸ hi)]

theorem reduce_eq_folded {op t : Nat} (h : (redTys op).contains t = true) (h3 : op ≠ 3) (h4 : op ≠ 4)
    (h0 : ¬(op = 0 ∧ t = 10)) (width : Nat) (rel : Nat → Nat) (v : Nat → W32) (ls : List Nat) :
    reduce op t width (ls.map fun l => (rel l, (v l).toNat)) = (folded op t (ls.map v)).toNat := by
  rw [reduce, if_neg (by simpa using h0), ← foldVals_eq_folded h h3 h4 h0, List.map_map, List.map_map]
  rfl

/-- The fold of some active values, from the identity or, for the minimum and the maximum of binary32,
from its first value (R118). -/
theorem foldActive_eq_folded {op t : Nat} (h : (redTys op).contains t = true) (h3 : op ≠ 3) (h4 : op ≠ 4)
    (vs : List W32) :
    (if t = 10 && op != 0 then foldVals op t (vs.map (·.toNat))
      else (vs.map (·.toNat)).foldl (redOp op t) (redIdentity op t)) =
      (folded op t vs).toNat := by
  by_cases hskip : t = 10 ∧ op ≠ 0
  · rw [if_pos (by simpa using hskip)]
    exact foldVals_eq_folded h h3 h4 (fun h0 => hskip.2 h0.1) vs
  · have hstart : t ≠ 10 ∨ op = 0 := by omega
    rw [if_neg (by simpa using hskip), folded, startOf_eq_true hstart, redIdentity_eq_startOf,
      foldl_redOp_eq_combine op (tyWidth_of_redTys h)]

/-- The scan that the model gives a relative lane is the fold of R118. -/
theorem scanAt_eq_folded {op t : Nat} (h : (redTys op).contains t = true) (h3 : op ≠ 3) (h4 : op ≠ 4) (ex : Bool)
    (rel : Nat → Nat) (v : Nat → W32) (ls : List Nat) (i : Nat) :
    scanAt op t ex (ls.map fun l => (rel l, (v l).toNat)) i =
      (folded op t ((ls.filter fun k => if ex then decide (rel k < i) else decide (rel k ≤ i)).map v)).toNat := by
  rw [← foldActive_eq_folded h h3 h4, scanAt, List.filter_map, List.map_map, List.map_map]
  rfl

theorem redTys_of_vred {h : Hdr} {f : FmtV} (hwf : (Instr.vred h f).wf = true) :
    (redTys (f.minor.toNat / 16)).contains (typeOf f) = true := by
  have hall : ((redTys (f.minor.toNat / 16)).contains (typeOf f) && f.ok .vec .vec .no .vec .none false auxZero &&
    (!(f.minor.toNat / 16 == 3 || f.minor.toNat / 16 == 4) || f.d.toNat % 2 == 0)) = true := hwf
  simp only [Bool.and_eq_true] at hall
  exact hall.1.1

theorem redTys_of_vscan {h : Hdr} {f : FmtV} (hwf : (Instr.vscan h f).wf = true) :
    (redTys (f.minor.toNat / 16)).contains (typeOf f) = true ∧ f.minor.toNat / 16 ≠ 3 ∧ f.minor.toNat / 16 ≠ 4 := by
  have hall : ((redTys (f.minor.toNat / 16)).contains (typeOf f) && f.minor.toNat / 16 != 3 && f.minor.toNat / 16 != 4 &&
    f.ok .vec .vec .no .vec .none false (fun n => decide (n ≤ 1))) = true := hwf
  simp only [Bool.and_eq_true, bne_iff_ne] at hall
  obtain ⟨⟨⟨hty, h3⟩, h4⟩, -⟩ := hall
  exact ⟨hty, h3, h4⟩

section
variable {s : State} {x : Issue} {t : BSlot} {ts : List BSlot} {h : Hdr} {w : Nat} {ls : List Nat}

/-- A warp-level step that sends each of its lanes results of its own gives them. -/
theorem gives_lanes (hs : AtSlot s x t ts) (ha : ActsFor x h w ls) (hn : ls.Nodup) {F : Nat → List Nat → Bx → Bx}
    {g : Nat → Bx → Bx} {rs : Nat × Nat → List Result} (ho : Own rs)
    (hF : ∀ b : Bx, b.x = past x t ts → F w ls b = ls.foldl (fun b l => g l b) b)
    (hg : ∀ l, Sends (past x t ts) (g l) (rs (w, l))) :
    ∃ u, perWarp h s F = .next u ∧ Gives s x t ts (ls.flatMap fun l => rs (w, l)) u := by
  refine gives_perWarp hs ha ((Sends.fold ls fun l _ => hg l).congr hF) ?_
  have hpairs : (ls.map fun l => (w, l)).Nodup := List.pairwise_map.2 (hn.imp fun hij e => hij (Prod.mk.inj e).2)
  have hnd := ho.nodup hpairs
  rwa [List.flatMap_map] at hnd

theorem gives_laneV (hs : AtSlot s x t ts) (ha : ActsFor x h w ls) (hn : ls.Nodup) {F : Nat → List Nat → Bx → Bx}
    {g : Nat → Bx → Bx} {n lat : Nat} {val : Nat → W32}
    (hF : ∀ b : Bx, b.x = past x t ts → F w ls b = ls.foldl (fun b l => g l b) b)
    (hg : ∀ l, Sends (past x t ts) (g l) [inV (w, l) n (val l) lat]) :
    ∃ u, perWarp h s F = .next u ∧ Gives s x t ts (ls.map fun l => inV (w, l) n (val l) lat) u := by
  have hl := gives_lanes hs ha hn (own_inV n (fun p => val p.2) lat) hF hg
  rwa [← List.map_eq_flatMap] at hl

/-- `vred` gives each lane a value that is the model's reduction of the active ones. -/
theorem gives_vred (hs : AtSlot s x t ts) (ha : ActsFor x h w ls) (hn : ls.Nodup) {f : FmtV} (h3 : f.minor.toNat / 16 ≠ 3)
    (h4 : f.minor.toNat / 16 ≠ 4) {val : Nat → W32} (hval : ∀ l, reduce (f.minor.toNat / 16) (typeOf f)
      (x.before.widthOf x.core w) (activeVals x w ls f.a.toNat) = (val l).toNat) :
    ∃ u, exec (.vred h f) s = .next u ∧ Gives s x t ts (ls.map fun l => inV (w, l) f.d.toNat (val l) 10) u := by
  show ∃ u, execVred h f s = .next u ∧ _
  unfold execVred
  refine gives_laneV hs ha hn (g := fun l b => b.putV w l f.d.toNat (BitVec.ofNat 32 (reduce (f.minor.toNat / 16) (typeOf f)
    (x.before.widthOf x.core w) (activeVals x w ls f.a.toNat))) 10) (fun b hb => ?_) fun l => ?_
  · rw [hb]
    exact if_neg (by simp [hiOfMinor, h3, h4])
  · rw [hval l, BitVec.ofNat_toNat, BitVec.setWidth_eq]
    exact sends_putV (past x t ts) w l f.d.toNat (val l) 10

/-- `vred` of `minidx` and `maxidx` gives each lane the chosen value and relative lane. -/
theorem gives_vred_choice (hs : AtSlot s x t ts) (ha : ActsFor x h w ls) (hn : ls.Nodup) {f : FmtV}
    (hop : f.minor.toNat / 16 = 3 ∨ f.minor.toNat / 16 = 4) {i : Nat} {v : W32}
    (hchoice : chooseIdx (f.minor.toNat / 16 == 4) (typeOf f) (activeVals x w ls f.a.toNat) = (i, v.toNat)) :
    ∃ u, exec (.vred h f) s = .next u ∧ Gives s x t ts
      (ls.flatMap fun l => [inV (w, l) f.d.toNat v 10, inV (w, l) (f.d.toNat + 1) (BitVec.ofNat 32 i) 10]) u := by
  show ∃ u, execVred h f s = .next u ∧ _
  unfold execVred
  have ho : Own fun p => [inV p f.d.toNat v 10, inV p (f.d.toNat + 1) (BitVec.ofNat 32 i) 10] := fun p =>
    ⟨by simp [inV], by simp [inV, threadOf]⟩
  refine gives_lanes hs ha hn ho (g := fun l b => (b.putV w l f.d.toNat v 10).putV w l (f.d.toNat + 1) (BitVec.ofNat 32 i) 10)
    (fun b hb => ?_) fun l => (sends_putV _ w l _ _ _).comp (sends_putV _ w l _ _ _)
  have hc : chooseIdx (hiOfMinor f.minor == 4) (tyOfMinor f.minor) (activeVals (past x t ts) w ls f.a.toNat) = (i, v.toNat) :=
    hchoice
  have hcase : hiOfMinor f.minor = 3 ∨ hiOfMinor f.minor = 4 := hop
  dsimp only
  rw [hb, if_pos (by simpa only [Bool.or_eq_true, decide_eq_true_eq] using hcase), hc]
  simp only [BitVec.ofNat_toNat, BitVec.setWidth_eq]

/-- `vscan` gives each lane the model's scan of the active values. -/
theorem gives_vscan (hs : AtSlot s x t ts) (ha : ActsFor x h w ls) (hn : ls.Nodup) {f : FmtV} {val : Nat → W32}
    (hval : ∀ l, scanAt (f.minor.toNat / 16) (typeOf f) (f.aux == 1) (activeVals x w ls f.a.toNat)
      (relLane (x.before.widthOf x.core w) l) = (val l).toNat) :
    ∃ u, exec (.vscan h f) s = .next u ∧ Gives s x t ts (ls.map fun l => inV (w, l) f.d.toNat (val l) 10) u := by
  show ∃ u, execVscan h f s = .next u ∧ _
  unfold execVscan
  refine gives_laneV hs ha hn (g := fun l b => b.putV w l f.d.toNat (BitVec.ofNat 32 (scanAt (f.minor.toNat / 16) (typeOf f)
    (f.aux == 1) (activeVals (past x t ts) w ls f.a.toNat) (relLane (b.x.before.widthOf b.x.core w) l))) 10)
    (fun b hb => ?_) fun l => ?_
  · rw [hb]
    rfl
  · refine (sends_putV (past x t ts) w l f.d.toNat (val l) 10).congr fun b hb => ?_
    have hl : scanAt (f.minor.toNat / 16) (typeOf f) (f.aux == 1) (activeVals (past x t ts) w ls f.a.toNat)
      (relLane ((past x t ts).before.widthOf (past x t ts).core w) l) = (val l).toNat := hval l
    rw [hb, hl, BitVec.ofNat_toNat, BitVec.setWidth_eq]

end

/-- Lanes of increasing relative lane are distinct. -/
theorem nodup_of_relative {rel : Nat → Nat} {ls : List Nat} (h : (ls.map rel).Pairwise (· < ·)) : ls.Nodup :=
  (List.pairwise_map.1 h).imp fun {i j} (hlt : rel i < rel j) (e : i = j) => Nat.ne_of_lt hlt (congrArg rel e)

/-- Settles O6: the model's butterfly and folds are those of R115, R116 and R118 on words, and the lane that it chooses is the
first in a linear order of the words (R117). -/
theorem reductionAndScanResults : Obligations.ReductionAndScanResults := by
  unfold Obligations.ReductionAndScanResults
  refine ⟨fun h f s x t ts w ls hwf hs ha => ?_, fun h f s x t ts w ls hwf hs ha => ?_⟩
  · intro width op ty v hwidth hrel
    have hty : (redTys op).contains ty = true := redTys_of_vred hwf
    have hn := nodup_of_relative hrel
    refine ⟨fun hop hf32 => ?_, fun h3 h4 h0 => gives_vred hs ha hn h3 h4 fun l => ?_, fun hop => ?_⟩
    · have hpow : width = 2 ^ Nat.log2 width := by obtain hw | hw | hw := hwidth <;> rw [hw] <;> decide
      have hpos : 0 < width := hpow ▸ Nat.two_pow_pos _
      refine gives_vred hs ha hn (by omega) (by omega) fun l => ?_
      rw [activeVals_eq, show f.minor.toNat / 16 = 0 from hop, show typeOf f = 10 from hf32]
      exact reduce_eq_butterflyAt hpow (Nat.mod_lt l hpos) (relative width) v ls
    · rw [activeVals_eq]
      exact reduce_eq_folded hty h3 h4 h0 width (relative width) v ls
    · obtain ⟨k, ks, rfl⟩ := List.exists_cons_of_ne_nil ha.1
      obtain ⟨u, hexec, hgives⟩ := gives_vred_choice hs ha hn hop
        ((congrArg _ (activeVals_eq x w (k :: ks) f.a.toNat)).trans
          (chooseIdx_eq_leader (op == 4) (tyWidth_of_redTys hty) v (relative width) k ks))
      exact ⟨u, leader (op == 4) ty v k ks, leader_mem (op == 4) ty v k ks, hexec,
        leader_first (op == 4) ty v (List.pairwise_map.1 hrel), hgives⟩
  · intro rel hrel
    obtain ⟨hty, h3, h4⟩ := redTys_of_vscan hwf
    refine gives_vscan hs ha (nodup_of_relative hrel) fun l => ?_
    rw [activeVals_eq, relLane_eq_relative, scanAt_eq_folded hty h3 h4 _ rel]
    simp only [beq_iff_eq]
    rfl

end Sys2Proof.Claims
